-- ==== Sys2Proof/Word.lean ====
section
/-! DEFINITION. The word types of the machine and their plainest readings (R8, R57, R58). -/

namespace Sys2Proof

/-- A byte of memory (R8). -/
abbrev Byte := BitVec 8
/-- A 64-bit register or address (R57). -/
abbrev Word := BitVec 64
/-- A register number field of an instruction word (R108). -/
abbrev Reg := BitVec 5
/-- A one-bit field. -/
abbrev Bit := BitVec 1
/-- The 8 KiB of one vector register, byte 0 in the low bits (R58). -/
abbrev VReg := BitVec 65536
/-- A mask register: bit i belongs to logical element i (R58). -/
abbrev MaskReg := BitVec 2048

/-- The value of a one-bit field as a truth value. -/
def Bit.on (b : Bit) : Bool := b == 1#1

/-- Field `[lo + n - 1 : lo]` of a bit string (R8). -/
abbrev fld {m : Nat} (w : BitVec m) (lo n : Nat) : BitVec n := w.extractLsb' lo n

end Sys2Proof
end

