-- ==== Sys2Proof/Syntax.lean ====
section
/-! DEFINITION. The instructions, operations and events of the part: one constructor for each row of the
opcode table. The first group are the C-form words (R108 to R112), then the E-form words (R116, R197),
the compact operations (R113, R114), the Grotto micro-words (R118), and the device's own steps, whose
arguments name which unit acts and what reaches the device from outside. -/

namespace Sys2Proof

/-- What a datagram from a peer asks of this device through one of its ports (R368, R370, R408): nothing that acts on
memory, a read of its HBM, a write that may carry poison, or bytes of the block that this device fetches, at an offset of
it. -/
inductive PeerReq where
  | plain
  | read (port pa len : Nat)
  | write (port pa : Nat) (data : List Byte) (bad : Bool)
  | data (off : Nat) (bytes : List Byte)
  deriving DecidableEq, Repr

/-- What a rank of a collective sends (R255, R404): bits [11:0] of its record's word 0, which are its dtype, op and kind,
its count, whether its rank list names the same devices, and its contribution. Of this rank only the contribution counts,
and only the bytes that lie on a peer's memory. -/
structure PeerShare where
  form : BitVec 12
  count : BitVec 40
  same : Bool
  data : List Byte
  deriving DecidableEq, Repr, Inhabited

/-- Who executes a read (R216): an agent of a hart or of a core, or, of one that is no agent of a core or that reads by
instruction fetch or walk, the home alone. -/
inductive Reader where
  | scalar
  | vector
  | copy
  | feed
  | parterre
  | trellis
  | home
  | fetch
  /-- One that its agent still holds: `va` is its number in `early`. -/
  | held
  /-- A record or a descriptor, by the scalar agent. -/
  | record
  /-- The collective engine, for its oldest command. -/
  | collective
  deriving DecidableEq, Repr

/-- A page walk (R210): the address, and the place of the cached leaf that leaves its TLB before it, if one does. -/
structure Walk where
  va : Word
  out : Option Nat
  deriving DecidableEq, Repr, Inhabited

/-- A launch: its identifier, and the enabling of its queue that it counts in (R334, R339). -/
structure LaunchName where
  id : Nat
  epoch : Nat
  deriving DecidableEq, Repr, Inhabited

/-- What a rank hears of a failure (R405): the number of the command, and the code. -/
structure Heard where
  num : Nat
  code : BitVec 16
  deriving DecidableEq, Repr, Inhabited

/-- A datagram that nobody acknowledges (R404): its number, and whether it is one of the block transfer. -/
structure Unheard where
  num : Nat
  xfer : Bool
  deriving DecidableEq, Repr, Inhabited

/-- What a residue checker watches (R397): an element of the instruction of tandem t. -/
structure Watched where
  t : BitVec 2
  element : Nat
  deriving DecidableEq, Repr, Inhabited

/-- Instructions and events. Operand fields keep the letters of the opcode table:
d destination, a and b sources, i immediate, o offset, v variant, z size, s scope, q acquire, r release,
f far, u sub, k execute mask, e exception-mask enable, x exception-mask destination. -/
inductive Instr where
  /-- `ADD` (R121): Writes the 64-bit wrapping sum of two scalar registers. -/
  | add (d a b : Reg)
  /-- `SUB` (R121): Writes the 64-bit wrapping difference of two scalar registers. -/
  | sub (d a b : Reg)
  /-- `AND` (R121): Writes the bitwise and of two scalar registers. -/
  | and (d a b : Reg)
  /-- `OR` (R121): Writes the bitwise or of two scalar registers. -/
  | or (d a b : Reg)
  /-- `XOR` (R121): Writes the bitwise exclusive or of two scalar registers. -/
  | xor (d a b : Reg)
  /-- `SLL` (R121): Shifts a scalar register left by b[5:0]. -/
  | sll (d a b : Reg)
  /-- `SRL` (R121): Shifts a scalar register right logically by b[5:0]. -/
  | srl (d a b : Reg)
  /-- `SRA` (R121): Shifts a scalar register right arithmetically by b[5:0]. -/
  | sra (d a b : Reg)
  /-- `SLT` (R121): Writes 1 when a < b as signed, else 0. -/
  | slt (d a b : Reg)
  /-- `SLTU` (R121): Writes 1 when a < b as unsigned, else 0. -/
  | sltu (d a b : Reg)
  /-- `MIN` (R121): Writes the signed minimum of two scalar registers. -/
  | min (d a b : Reg)
  /-- `MINU` (R121): Writes the unsigned minimum of two scalar registers. -/
  | minu (d a b : Reg)
  /-- `MAX` (R121): Writes the signed maximum of two scalar registers. -/
  | max (d a b : Reg)
  /-- `MAXU` (R121): Writes the unsigned maximum of two scalar registers. -/
  | maxu (d a b : Reg)
  /-- `MUL` (R121): Writes bits [63:0] of the product. -/
  | mul (d a b : Reg)
  /-- `MULH` (R121): Writes the high 64 bits of the signed product. -/
  | mulh (d a b : Reg)
  /-- `MULHU` (R121): Writes the high 64 bits of the unsigned product. -/
  | mulhu (d a b : Reg)
  /-- `DIV` (R122): Signed division rounding toward zero, never trapping, setting idiv on edge cases. -/
  | div (d a b : Reg)
  /-- `DIVU` (R122): Unsigned division, never trapping, setting idiv on division by zero. -/
  | divu (d a b : Reg)
  /-- `REM` (R122): Signed remainder with the edge cases of R122. -/
  | rem (d a b : Reg)
  /-- `REMU` (R122): Unsigned remainder with the edge cases of R122. -/
  | remu (d a b : Reg)
  /-- `ADDI` (R124): Adds a sign-extended 14-bit immediate to a scalar register. -/
  | addi (d a : Reg) (i : BitVec 14)
  /-- `ANDI` (R124): Ands a scalar register with a sign-extended immediate. -/
  | andi (d a : Reg) (i : BitVec 14)
  /-- `ORI` (R124): Ors a scalar register with a sign-extended immediate. -/
  | ori (d a : Reg) (i : BitVec 14)
  /-- `XORI` (R124): Exclusive-ors a scalar register with a sign-extended immediate. -/
  | xori (d a : Reg) (i : BitVec 14)
  /-- `SLLI` (R124): Shifts left by an immediate amount of 0 to 63. -/
  | slli (d a : Reg) (i : BitVec 6)
  /-- `SRLI` (R124): Shifts right logically by an immediate amount. -/
  | srli (d a : Reg) (i : BitVec 6)
  /-- `SRAI` (R124): Shifts right arithmetically by an immediate amount. -/
  | srai (d a : Reg) (i : BitVec 6)
  /-- `SLTI` (R124): Writes 1 when the register is below the signed immediate. -/
  | slti (d a : Reg) (i : BitVec 14)
  /-- `LUI` (R125): Writes the sign-extended 19-bit immediate scaled by 2^13. -/
  | lui (d : Reg) (i : BitVec 19)
  /-- `AUPC` (R125): Writes pc plus the immediate scaled by 2^13. -/
  | aupc (d : Reg) (i : BitVec 19)
  /-- `BOP` (R123): Counts leading or trailing zeros, population, or reverses bits as the variant selects. -/
  | bop (d a : Reg) (v : BitVec 2)
  /-- `BEQ` (R126): Branches when two scalar registers are equal. -/
  | beq (a b : Reg) (o : BitVec 14)
  /-- `BNE` (R126): Branches when two scalar registers differ. -/
  | bne (a b : Reg) (o : BitVec 14)
  /-- `BLT` (R126): Branches when a < b signed. -/
  | blt (a b : Reg) (o : BitVec 14)
  /-- `BGE` (R126): Branches when a >= b signed. -/
  | bge (a b : Reg) (o : BitVec 14)
  /-- `BLTU` (R126): Branches when a < b unsigned. -/
  | bltu (a b : Reg) (o : BitVec 14)
  /-- `BGEU` (R126): Branches when a >= b unsigned. -/
  | bgeu (a b : Reg) (o : BitVec 14)
  /-- `JAL` (R127): Jumps pc-relative and writes the return address. -/
  | jal (d : Reg) (i : BitVec 19)
  /-- `JALR` (R127): Jumps to a register plus immediate and writes the return address. -/
  | jalr (d a : Reg) (i : BitVec 14)
  /-- `LD` (R129): Scalar agent load, sign-extended, of 1 to 8 bytes. -/
  | ld (d a : Reg) (z : BitVec 2) (o : BitVec 12)
  /-- `LDU` (R129): Scalar agent load, zero-extended, of 1 to 4 bytes. -/
  | ldu (d a : Reg) (z : BitVec 2) (o : BitVec 12)
  /-- `ST` (R129): Scalar agent store of the low bytes of a register. -/
  | st (d a : Reg) (z : BitVec 2) (o : BitVec 12)
  /-- `FLD` (R129): Scalar load of 4 or 8 bytes into an f register. -/
  | fld (d a : Reg) (z : BitVec 2) (o : BitVec 12)
  /-- `FST` (R129): Scalar store of 4 or 8 bytes from an f register. -/
  | fst (d a : Reg) (z : BitVec 2) (o : BitVec 12)
  /-- `QPUSH` (R132): Pushes a scalar, fp value or branch outcome to the outgoing scalar queue head, stalling while full. -/
  | qpush (d a : Reg) (v : BitVec 2)
  /-- `QPOP` (R132): Pops the incoming scalar queue head into an s or f register, stalling while empty. -/
  | qpop (d a : Reg) (v : BitVec 2)
  /-- `QBR` (R133): Pops the incoming scalar head and branches on the popped value. -/
  | qbr (d : Reg) (o : BitVec 10) (v : BitVec 2)
  /-- `FADD` (R135): Scalar fp32 or fp64 addition under frm. -/
  | fadd (d a b : Reg) (v : BitVec 2)
  /-- `FSUB` (R135): Scalar fp subtraction under frm. -/
  | fsub (d a b : Reg) (v : BitVec 2)
  /-- `FMUL` (R135): Scalar fp multiplication under frm. -/
  | fmul (d a b : Reg) (v : BitVec 2)
  /-- `FDIV` (R135): Scalar fp division under frm with IEEE special cases. -/
  | fdiv (d a b : Reg) (v : BitVec 2)
  /-- `FSQRT` (R135): Scalar fp square root under frm. -/
  | fsqrt (d a : Reg) (v : BitVec 2)
  /-- `FMA` (R135): Scalar fused a*b + f[d] with one rounding. -/
  | fma (d a b : Reg) (v : BitVec 2)
  /-- `FMS` (R135): Scalar fused a*b - f[d] with one rounding. -/
  | fms (d a b : Reg) (v : BitVec 2)
  /-- `FMIN` (R135): Scalar fp minimum by apply(min). -/
  | fmin (d a b : Reg) (v : BitVec 2)
  /-- `FMAX` (R135): Scalar fp maximum by apply(max). -/
  | fmax (d a b : Reg) (v : BitVec 2)
  /-- `FCMP` (R136): Compares two fp64 values by the selected predicate and writes 1 or 0. -/
  | fcmp (d a b : Reg) (v : BitVec 2)
  /-- `FCVTFI` (R137): Converts an fp value to a 64-bit integer under frm. -/
  | fcvtfi (d a : Reg) (v : BitVec 2)
  /-- `FCVTIF` (R137): Converts a 64-bit integer to fp32 or fp64 under frm. -/
  | fcvtif (d a : Reg) (v : BitVec 2)
  /-- `FCVTFF` (R137): Converts between scalar fp formats. -/
  | fcvtff (d a : Reg) (c t : BitVec 2)
  /-- `FMVFX` (R137): Copies bits between f and s registers. -/
  | fmvfx (d a : Reg) (v : BitVec 2)
  /-- `FSGN` (R138): Writes the magnitude of a with a sign taken from b. -/
  | fsgn (d a b : Reg) (v : BitVec 2)
  /-- `FCLASS` (R138): Writes a one-hot class mask of an fp value. -/
  | fclass (d a : Reg) (v : BitVec 2)
  /-- `SETVL` (R39): On the A-hart computes and pushes a one-dimensional grant; on the X-hart pops the grant queue. -/
  | setvl (d a : Reg) (g e : BitVec 2)
  /-- `SETVL2` (R44): On the A-hart computes and pushes a two-dimensional grant; on the X-hart pops the grant queue. -/
  | setvl2 (d a b : Reg) (e : BitVec 2)
  /-- `SETDIM` (R149): Writes length and stride of a dimension register. -/
  | setdim (d a b : Reg)
  /-- `SETTYPE` (R148): Writes vtype.fmt and vtype.tail. -/
  | settype (f : BitVec 4) (t : Bit)
  /-- `SDECL` (R150): Ends any application and declares a new one from a 128-byte record, writing a status. -/
  | sdecl (d a : Reg) (s : BitVec 2) (q : Bit)
  /-- `SDECL_END` (R150): Ends the current application after started fills complete. -/
  | sdeclEnd (d : Reg)
  /-- `SHW` (R154): Publishes a high-water value by a releasing store. -/
  | shw (a b : Reg) (s : BitVec 2)
  /-- `SWAIT` (R155): Stalls until the A-hart leads its X-hart by at most s[a] strips. -/
  | swait (a : Reg)
  /-- `VGRANT` (R147): Writes the hart's limiter mask glim to a scalar register. -/
  | vgrant (d : Reg)
  /-- `VLD` (R157): Unit-stride vector load pushing entries to a head. -/
  | vld (d a b : Reg) (s : BitVec 2) (q : Bit)
  /-- `VLDS` (R157): Strided vector load. -/
  | vlds (d a b : Reg) (s : BitVec 2) (q : Bit)
  /-- `VLD2` (R157): Two-dimensional or transposed vector load. -/
  | vld2 (d a b : Reg) (s : BitVec 2) (q : Bit) (v : BitVec 2)
  /-- `VLDX` (R157): Indexed vector gather taking indices from a head. -/
  | vldx (d a b : Reg) (s : BitVec 2) (q : Bit) (v : BitVec 2)
  /-- `VLDSEG` (R157): Segment load splitting F fields into F heads. -/
  | vldseg (d a : Reg) (s : BitVec 2) (q : Bit) (v : BitVec 2)
  /-- `VST` (R158): Unit-stride vector store popping a data head, converting per page format. -/
  | vst (d a b : Reg) (s : BitVec 2) (r : Bit)
  /-- `VSTS` (R158): Strided vector store. -/
  | vsts (d a b : Reg) (s : BitVec 2) (r : Bit)
  /-- `VST2` (R158): Two-dimensional or transposed vector store. -/
  | vst2 (d a b : Reg) (s : BitVec 2) (r : Bit) (v : BitVec 2)
  /-- `VSTX` (R158): Indexed vector scatter store. -/
  | vstx (d a b : Reg) (s : BitVec 2) (r : Bit) (v : BitVec 2)
  /-- `VSTSEG` (R158): Segment store interleaving F fields. -/
  | vstseg (d a : Reg) (s : BitVec 2) (r : Bit) (v : BitVec 2)
  /-- `LFE` (R161): Marks local-window lines empty or full. -/
  | lfe (a b : Reg) (s : BitVec 2) (r : Bit) (v : BitVec 2)
  /-- `LWAIT` (R161): Stalls until local-window lines are all full or all empty. -/
  | lwait (a b : Reg) (s : BitVec 2) (q : Bit) (v : BitVec 2)
  /-- `VPOP` (R162): Pops entries of an A-to-X head into a vector register group. -/
  | vpop (d a : Reg) (k : BitVec 3)
  /-- `VPUSH` (R162): Pushes active elements of a register group to an X-to-A head. -/
  | vpush (d a : Reg) (k : BitVec 3)
  /-- `VMV` (R162): Copies a register group, directly or through the dimension sweep. -/
  | vmv (d a : Reg) (k : BitVec 3) (e : Bit) (x : BitVec 3) (v : BitVec 2)
  /-- `VSPLAT` (R162): Broadcasts a scalar or fp register into every element. -/
  | vsplat (d a : Reg) (k : BitVec 3) (v : BitVec 2)
  /-- `VADD` (R170): Element-wise wrapping integer addition. -/
  | vadd (d a b : Reg) (k : BitVec 3) (v : BitVec 2)
  /-- `VSUB` (R170): Element-wise wrapping integer subtraction. -/
  | vsub (d a b : Reg) (k : BitVec 3) (v : BitVec 2)
  /-- `VSADD` (R170): Element-wise saturating addition. -/
  | vsadd (d a b : Reg) (k : BitVec 3) (v : BitVec 2)
  /-- `VSSUB` (R170): Element-wise saturating subtraction. -/
  | vssub (d a b : Reg) (k : BitVec 3) (v : BitVec 2)
  /-- `VMUL` (R170): Element-wise low product. -/
  | vmul (d a b : Reg) (k : BitVec 3) (v : BitVec 2)
  /-- `VMULH` (R170): Element-wise high product. -/
  | vmulh (d a b : Reg) (k : BitVec 3) (v : BitVec 2)
  /-- `VDIV` (R171): Element-wise integer division with marked edge cases. -/
  | vdiv (d a b : Reg) (k : BitVec 3) (e : Bit) (x : BitVec 3) (v : BitVec 2)
  /-- `VREM` (R171): Element-wise integer remainder with marked edge cases. -/
  | vrem (d a b : Reg) (k : BitVec 3) (e : Bit) (x : BitVec 3) (v : BitVec 2)
  /-- `VMIN` (R170): Element-wise integer minimum. -/
  | vmin (d a b : Reg) (k : BitVec 3) (v : BitVec 2)
  /-- `VMAX` (R170): Element-wise integer maximum. -/
  | vmax (d a b : Reg) (k : BitVec 3) (v : BitVec 2)
  /-- `VAND` (R170): Element-wise and. -/
  | vand (d a b : Reg) (k : BitVec 3) (v : BitVec 2)
  /-- `VOR` (R170): Element-wise or. -/
  | vor (d a b : Reg) (k : BitVec 3) (v : BitVec 2)
  /-- `VXOR` (R170): Element-wise exclusive or. -/
  | vxor (d a b : Reg) (k : BitVec 3) (v : BitVec 2)
  /-- `VSLL` (R170): Element-wise left shift. -/
  | vsll (d a b : Reg) (k : BitVec 3) (v : BitVec 2)
  /-- `VSRL` (R170): Element-wise logical right shift. -/
  | vsrl (d a b : Reg) (k : BitVec 3) (v : BitVec 2)
  /-- `VSRA` (R170): Element-wise arithmetic right shift. -/
  | vsra (d a b : Reg) (k : BitVec 3) (v : BitVec 2)
  /-- `VCMP` (R172): Element-wise integer compare writing a mask register. -/
  | vcmp (d a b : Reg) (k : BitVec 3) (p : BitVec 2)
  /-- `VSEL` (R173): Selects per element between va and b under a selector mask. -/
  | vsel (d a b : Reg) (n : BitVec 3) (v : BitVec 2)
  /-- `VPOPC` (R174): Counts mask bits, finds the first set bit, or counts bits per element. -/
  | vpopc (d a : Reg) (k : BitVec 3) (v : BitVec 2)
  /-- `VWMAC` (R175): Widening saturating fixed-point multiply-accumulate. -/
  | vwmac (d a b : Reg) (k : BitVec 3) (v : BitVec 2)
  /-- `VNSR` (R176): Narrowing fixed-point shift with vxrm rounding and saturation. -/
  | vnsr (d a b : Reg) (k : BitVec 3) (v : BitVec 2)
  /-- `VTHRB` (R177): Thresholds elements into a Boolean pack. -/
  | vthrb (d a b : Reg) (k : BitVec 3) (v : BitVec 2)
  /-- `VBTR` (R178): Transposes between elements and bit planes. -/
  | vbtr (d a : Reg) (v : BitVec 2)
  /-- `VMLOG` (R174): Logical operation on two mask registers. -/
  | vmlog (d a b : Reg) (k : BitVec 3) (v : BitVec 2)
  /-- `VFADD` (R179): Element-wise fp addition under frm. -/
  | vfadd (d a b : Reg) (k : BitVec 3) (e : Bit) (x : BitVec 3) (v : BitVec 2)
  /-- `VFSUB` (R179): Element-wise fp subtraction. -/
  | vfsub (d a b : Reg) (k : BitVec 3) (e : Bit) (x : BitVec 3) (v : BitVec 2)
  /-- `VFMUL` (R179): Element-wise fp multiplication. -/
  | vfmul (d a b : Reg) (k : BitVec 3) (e : Bit) (x : BitVec 3) (v : BitVec 2)
  /-- `VFDIV` (R179): Element-wise fp division. -/
  | vfdiv (d a b : Reg) (k : BitVec 3) (e : Bit) (x : BitVec 3) (v : BitVec 2)
  /-- `VFMA` (R179): Element-wise fused multiply-add or multiply-subtract. -/
  | vfma (d a b : Reg) (k : BitVec 3) (e : Bit) (x : BitVec 3) (v : BitVec 2)
  /-- `VFMIN` (R179): Element-wise fp minimum. -/
  | vfmin (d a b : Reg) (k : BitVec 3) (e : Bit) (x : BitVec 3) (v : BitVec 2)
  /-- `VFMAX` (R179): Element-wise fp maximum. -/
  | vfmax (d a b : Reg) (k : BitVec 3) (e : Bit) (x : BitVec 3) (v : BitVec 2)
  /-- `VFCMP` (R180): Element-wise fp compare writing a mask register. -/
  | vfcmp (d a b : Reg) (k : BitVec 3) (e : Bit) (x : BitVec 3) (p : BitVec 2)
  /-- `VFSFU` (R181): Applies a correctly rounded FP32 function per element. -/
  | vfsfu (d a b : Reg) (k : BitVec 3) (e : Bit) (x : BitVec 3)
  /-- `VFCVT` (R183): Converts elements to a same-width target format. -/
  | vfcvt (d a : Reg) (t : BitVec 4) (k : BitVec 3) (e : Bit) (x : BitVec 3) (v : BitVec 2)
  /-- `VFNAR` (R184): Narrows fp elements with one rounding, optionally stochastic. -/
  | vfnar (d a b : Reg) (k : BitVec 3) (e : Bit) (x : BitVec 3) (v : BitVec 2)
  /-- `VFWID` (R184): Widens fp elements exactly. -/
  | vfwid (d a : Reg) (k : BitVec 3) (e : Bit) (x : BitVec 3) (v : BitVec 2)
  /-- `VFQ4` (R185): Converts FP32 to packed E2M1 with one rounding. -/
  | vfq4 (d a b : Reg) (k : BitVec 3) (e : Bit) (x : BitVec 3) (v : BitVec 2)
  /-- `VFSCL` (R186): Applies or computes MX 1.0 block scales. -/
  | vfscl (d a b : Reg) (k : BitVec 3) (e : Bit) (x : BitVec 3) (v : BitVec 2)
  /-- `VFSGN` (R182): Replaces element sign bits. -/
  | vfsgn (d a b : Reg) (k : BitVec 3) (v : BitVec 2)
  /-- `VFCLS` (R182): Writes each element's fp class number. -/
  | vfcls (d a : Reg) (k : BitVec 3)
  /-- `VRED` (R187): Tree reduction of a strip, carry-stack push, or carry-stack finalisation. -/
  | vred (d a : Reg) (k o : BitVec 3) (v : BitVec 2)
  /-- `VSCAN` (R188): Inclusive or exclusive prefix scan over the strip or through a carry stack. -/
  | vscan (d a b : Reg) (k o : BitVec 3) (v : BitVec 2)
  /-- `VSLIDE` (R189): Slides elements up or down by an offset. -/
  | vslide (d a b : Reg) (k : BitVec 3) (v : BitVec 2)
  /-- `VGATH` (R189): Register gather by element index. -/
  | vgath (d a b : Reg) (k : BitVec 3) (e : Bit) (x : BitVec 3) (v : BitVec 2)
  /-- `VCMPR` (R189): Compresses active elements and writes their count. -/
  | vcmpr (d a b : Reg) (n : BitVec 3)
  /-- `VSMX` (R190): Strip-softmax over fixed blocks updating running max and sum. -/
  | vsmx (d a b : Reg) (k : BitVec 3) (v : BitVec 2)
  /-- `VFETCH` (R192): Runs an element block once per active element with a cross-lane carry. -/
  | vfetch (d a b : Reg) (k : BitVec 3) (e : Bit) (x : BitVec 3) (v : BitVec 2)
  /-- `VLID` (R194): Writes logical element indices, optionally offset. -/
  | vlid (d b : Reg) (k : BitVec 3) (v : BitVec 2)
  /-- `MENTER` (R259): Takes or keeps ownership of the matrix state and grants mvl. -/
  | menter (d a : Reg)
  /-- `MEXIT` (R260): Discards the tiles, zeroes v24-v31 and releases matrix ownership. -/
  | mexit
  /-- `MZERO` (R268): Clears one tile or all four. -/
  | mzero (d : Reg) (v : BitVec 2)
  /-- `MOPA` (R265): Accumulates rank-1 outer products into a tile's exact partial. -/
  | mopa (d a b : Reg) (c r : BitVec 2)
  /-- `MSCL_A` (R267): Loads the 128 activation scales from a vector register. -/
  | msclA (a : Reg)
  /-- `MSCL_W` (R267): Loads one tile's weight scale from an f register. -/
  | msclW (d b : Reg)
  /-- `MDRAIN` (R273): Copies tile rows to a vector group, optionally zeroing them. -/
  | mdrain (d a b : Reg) (k : BitVec 3) (e : Bit) (x : BitVec 3) (v : BitVec 2)
  /-- `MFEED` (R269): Hands the matrix feed a command to push operand lines into a head. -/
  | mfeed (d a : Reg) (s : BitVec 2) (q r : Bit)
  /-- `MSTAT` (R262): Writes matrix ownership and progress state to a scalar register. -/
  | mstat (d : Reg)
  /-- `PBANK` (R281): Binds a clause bank descriptor to the A-hart. -/
  | pbank (d a : Reg) (s : BitVec 2) (q r : Bit)
  /-- `PBANK_NONE` (R281): Removes the A-hart's clause bank binding. -/
  | pbankNone (d : Reg)
  /-- `PEVAL` (R286): Hands Parterre a batch to evaluate in training or inference mode. -/
  | peval (d a : Reg) (s : BitVec 2) (q r : Bit) (v : BitVec 2)
  /-- `PVOTE` (R287): Hands Parterre a vote command that pushes clipped sums or argmax to a head. -/
  | pvote (d a : Reg) (s : BitVec 2) (q r : Bit) (v : BitVec 2)
  /-- `PFEED` (R288): Hands Parterre a batch of feedback steps. -/
  | pfeed (d a : Reg) (s : BitVec 2) (q r : Bit)
  /-- `PSTEP` (R291): Applies a step vector popped from a head to automaton states. -/
  | pstep (a b : Reg) (s : BitVec 2) (q r : Bit)
  /-- `PDRAW` (R292): Pushes 16-bit draws for the strip's elements to a head. -/
  | pdraw (d a b : Reg)
  /-- `PKEY` (R293): Writes both halves of dkey in one write. -/
  | pkey (a b : Reg)
  /-- `PKEY_SRC` (R293): Writes dsrc. -/
  | pkeySrc (a : Reg)
  /-- `PKEY_EP` (R293): Writes repoch. -/
  | pkeyEp (a : Reg)
  /-- `PPLANE_LD` (R294): Reads plane lines and pushes them to a head. -/
  | pplaneLd (d a : Reg) (s : BitVec 2) (q r : Bit)
  /-- `PPLANE_ST` (R294): Pops entries and writes them as whole plane lines. -/
  | pplaneSt (a b : Reg) (s : BitVec 2) (q r : Bit)
  /-- `TGBIND` (R300): Binds a Trellis grid descriptor to the A-hart. -/
  | tgbind (d a : Reg) (s : BitVec 2) (q r : Bit)
  /-- `TGBIND_NONE` (R300): Removes the A-hart's Trellis binding. -/
  | tgbindNone (d : Reg)
  /-- `TGLOAD` (R303): Gathers and interpolates hashed-grid features, pushing one plane per level and feature. -/
  | tgload (d : Reg) (s : BitVec 2) (q r : Bit)
  /-- `TGSCAT` (R304): Scatters weighted gradients into x64 cells as atomic adds. -/
  | tgscat (s : BitVec 2) (q r f : Bit)
  /-- `XCONV_V` (R308): Converts x64 cells to fp32 or fp64 and pushes them to a head. -/
  | xconvV (d a : Reg) (s : BitVec 2) (q v : Bit)
  /-- `XCONV_S` (R308): Converts one x64 cell to fp32 or fp64 in an f register. -/
  | xconvS (d a : Reg) (s : BitVec 2) (q v : Bit)
  /-- `AMOADD` (R238): Atomic integer or fp add returning the old value. -/
  | amoadd (d a b : Reg) (s : BitVec 2) (q r f : Bit) (v : BitVec 2)
  /-- `AMOAND` (R238): Atomic and. -/
  | amoand (d a b : Reg) (s : BitVec 2) (q r f v : Bit)
  /-- `AMOOR` (R238): Atomic or. -/
  | amoor (d a b : Reg) (s : BitVec 2) (q r f v : Bit)
  /-- `AMOXOR` (R238): Atomic exclusive or. -/
  | amoxor (d a b : Reg) (s : BitVec 2) (q r f v : Bit)
  /-- `AMOMM` (R238): Atomic signed or unsigned minimum or maximum. -/
  | amomm (d a b : Reg) (s : BitVec 2) (q r f : Bit) (u : BitVec 2) (v : Bit)
  /-- `AMOSWP` (R238): Atomic swap. -/
  | amoswp (d a b : Reg) (s : BitVec 2) (q r f v : Bit)
  /-- `AMOCAS` (R238): Atomic compare and swap. -/
  | amocas (d a b : Reg) (s : BitVec 2) (q r f v : Bit)
  /-- `VSCA` (R242): Vector scatter-add, each element an atomic add returning nothing. -/
  | vsca (d a b : Reg) (s : BitVec 2) (r f v : Bit)
  /-- `FENCE` (R243): Orders accesses between the two agents of the A-hart at a scope. -/
  | fence (s u : BitVec 2)
  /-- `LDACQ` (R244): Scalar acquiring load. -/
  | ldacq (d a : Reg) (s v : BitVec 2)
  /-- `STREL` (R244): Scalar releasing store. -/
  | strel (a b : Reg) (s : BitVec 2) (v : Bit)
  /-- `BAR` (R246): Publishes a barrier phase by release. -/
  | bar (a b : Reg) (s : BitVec 2) (v : Bit)
  /-- `BARW` (R247): Waits until every barrier party reaches the target phase. -/
  | barw (d a b : Reg) (s : BitVec 2) (v : Bit)
  /-- `WFE` (R248): Waits for and consumes event bits. -/
  | wfe (d a : Reg)
  /-- `SEV` (R248): Sets bits in the team's event word. -/
  | sev (a : Reg)
  /-- `HWAIT` (R250): Waits until a high-water word reaches a target. -/
  | hwait (d a b : Reg) (s : BitVec 2)
  /-- `CPY` (R251): Hands the copy engine a copy command. -/
  | cpy (d a : Reg) (s : BitVec 2) (q r : Bit) (v : BitVec 2)
  /-- `COLL` (R254): Hands the collective engine a collective command. -/
  | coll (d a : Reg) (s : BitVec 2) (q r : Bit)
  /-- `GLAUNCH` (R256): Pins pages and hands a Grotto microprogram kernel to a sequencer. -/
  | glaunch (d a : Reg) (s : BitVec 2) (q r : Bit)
  /-- `GLAUNCH_RED` (R330): Pins pages and hands an indexed-reduce command list to the reduce adders. -/
  | glaunchRed (d a : Reg) (s : BitVec 2) (q r : Bit)
  /-- `GSTAT` (R257): Reads an engine status word by acquire, optionally waiting for completion. -/
  | gstat (d a : Reg) (s : BitVec 2) (v : Bit)
  /-- `TRAP` (R140): Enters the system trap handler with class 3. -/
  | trap (i : BitVec 13)
  /-- `ERET` (R141): Returns from the system trap handler or the user-level completion handler. -/
  | eret
  /-- `CSRR` (R139): Reads a control register after earlier instructions complete. -/
  | csrr (d : Reg) (c : BitVec 12)
  /-- `CSRW` (R139): Writes a control register under its access code. -/
  | csrw (a : Reg) (c : BitVec 12)
  /-- `CSRX` (R139): Exchanges a control register with a scalar register. -/
  | csrx (d a : Reg) (c : BitVec 12)
  /-- `YIELD` (R142): Ends the quantum when another eligible team is ready. -/
  | yield
  /-- `HALT` (R143): Stops the hart after earlier instructions complete. -/
  | halt
  /-- `BRK` (R140): Enters the system trap handler with class 4. -/
  | brk (i : BitVec 13)
  /-- `EBR` (R197): Lane-local conditional branch inside an element block. -/
  | ebr (p : Bit) (a b : Reg) (v : BitVec 2) (i : BitVec 32)
  /-- `EJMP` (R197): Lane-local jump inside an element block. -/
  | ejmp (p : Bit) (i : BitVec 32)
  /-- `ESEND` (R198): Offers the lane's value to the next element as its output value. -/
  | esend (p : Bit) (a : Reg)
  /-- `ERECV` (R198): Waits for and writes the lane's incoming value. -/
  | erecv (p : Bit) (d : Reg)
  /-- `EPRED` (R197): Sets or narrows the lane predicate by a comparison. -/
  | epred (p : Bit) (a b : Reg) (m : Bit) (v : BitVec 2) (i : BitVec 32)
  /-- `EIDX` (R197): Writes the lane's logical index plus an offset. -/
  | eidx (p : Bit) (d : Reg) (m : Bit) (i : BitVec 32)
  /-- `ECMT` (R197): Finishes the lane. -/
  | ecmt (p : Bit)
  /-- `ESTOP` (R197): Ends the block; a lane reaching it finishes. -/
  | estop
  /-- `ELEMENT_WORD` (R199): An element-capable scalar or vector opcode executed in one virtual lane. -/
  | elementWord (op : BitVec 8) (d a b c : Reg) (p m : Bit) (v : BitVec 2) (i : BitVec 32)
  /-- `K_NOP` (R113): Compact no-operation. -/
  | kNop
  /-- `K_ADD` (R114): Compact add with the last-written register as first source. -/
  | kAdd (d b : Reg)
  /-- `K_SUB` (R114): Compact subtract. -/
  | kSub (d b : Reg)
  /-- `K_AND` (R114): Compact and. -/
  | kAnd (d b : Reg)
  /-- `K_OR` (R114): Compact or. -/
  | kOr (d b : Reg)
  /-- `K_XOR` (R114): Compact exclusive or. -/
  | kXor (d b : Reg)
  /-- `K_SLL` (R114): Compact left shift. -/
  | kSll (d b : Reg)
  /-- `K_SRL` (R114): Compact logical right shift. -/
  | kSrl (d b : Reg)
  /-- `K_ADDI` (R114): Compact add immediate. -/
  | kAddi (d i : Reg)
  /-- `K_MV` (R114): Compact move. -/
  | kMv (d b : Reg)
  /-- `K_BEQZ` (R114): Compact branch when the last-written register is zero. -/
  | kBeqz (o : BitVec 10)
  /-- `K_BNEZ` (R114): Compact branch when the last-written register is non-zero. -/
  | kBnez (o : BitVec 10)
  /-- `K_VADD` (R114): Compact vector integer add. -/
  | kVadd (d b : Reg)
  /-- `K_VFADD` (R114): Compact vector fp add. -/
  | kVfadd (d b : Reg)
  /-- `K_VFMUL` (R114): Compact vector fp multiply. -/
  | kVfmul (d b : Reg)
  /-- `K_VFMA` (R114): Compact vector fused multiply-add. -/
  | kVfma (d b : Reg)
  /-- `K_VMV` (R114): Compact vector move. -/
  | kVmv (d b : Reg)
  /-- `GRD` (R318): Reads row-buffer segments of a window row into segment registers. -/
  | grd (k o : Bit) (g s : BitVec 3) (p : BitVec 16)
  /-- `GWR` (R318): Writes segment registers into a window row. -/
  | gwr (k o : Bit) (g s : BitVec 3) (p : BitVec 16)
  /-- `GADD` (R319): Lane-wise wrapping or saturating addition of segment registers. -/
  | gadd (w : BitVec 2) (m n : Bit) (d a b : BitVec 3)
  /-- `GSUB` (R319): Lane-wise subtraction of segment registers. -/
  | gsub (w : BitVec 2) (m n : Bit) (d a b : BitVec 3)
  /-- `GMAX` (R319): Lane-wise maximum or minimum of segment registers. -/
  | gmax (w : BitVec 2) (m n : Bit) (d a b : BitVec 3)
  /-- `GACC` (R321): Adds or sets segment elements into accumulator lanes. -/
  | gacc (w : BitVec 2) (m n : Bit) (g : BitVec 3) (b : BitVec 2)
  /-- `GTQ` (R320): Table query answering a segment of byte indices from a compute row. -/
  | gtq (k h : Bit) (d a : BitVec 3) (t : BitVec 9) (s : BitVec 3)
  /-- `GTQ2` (R320): Table query on two 4-bit indices per byte. -/
  | gtq2 (k h : Bit) (d a b : BitVec 3) (t : BitVec 9) (s : BitVec 3)
  /-- `GSHR` (R321): Fixed-point rounding right shift of accumulator lanes. -/
  | gshr (m : BitVec 2) (n : Bit) (h : Reg) (b c : BitVec 2)
  /-- `GNAR` (R321): Narrows accumulator lanes into a segment register. -/
  | gnar (w : BitVec 2) (m n : Bit) (g : BitVec 3) (b : BitVec 2)
  /-- `GROW` (R322): Advances the row cursor and places a row boundary. -/
  | grow
  /-- `GLOOP` (R322): Decrements a loop counter and branches, or reloads and falls through. -/
  | gloop (n : Bit) (t : BitVec 8)
  /-- `GQIN` (R322): Loads the next offset from the offset list into goff. -/
  | gqin
  /-- `GQOUT` (R322): Publishes growc to the progress word by release after the unit queue empties. -/
  | gqout
  /-- `GSYNC` (R322): Waits until the unit queue is empty and writes have performed. -/
  | gsync
  /-- `GEND` (R322): Waits as gsync, then ends the kernel with code 1. -/
  | gend
  /-- `ELEMENT_GROUP_COMMIT` (R200): An element group whose lanes have all finished commits its writes, progress and flags in ascending order. -/
  | elementGroupCommit
  /-- `PEVAL_RUN` (R286): The Parterre agent evaluates a held batch, writing outputs and sums. -/
  | pevalRun
  /-- `PVOTE_RUN` (R287): The Parterre agent reads class sums and pushes vote entries. -/
  | pvoteRun
  /-- `PFEED_RUN` (R288): The Parterre agent runs both phases of feedback and writes stepped planes. -/
  | pfeedRun
  /-- `PSTEP_RUN` (R291): The Parterre agent applies a popped step vector to plane lines. -/
  | pstepRun
  /-- `PPLANE_RUN` (R294): The Parterre agent moves plane lines for a held pplane command. -/
  | pplaneRun
  /-- `GROTTO_KERNEL_START` (R316): A sequencer starts its next held kernel, fresh or from a resume record. -/
  | grottoKernelStart (ch : Nat)
  /-- `KERNEL_SUSPEND` (R324): An ordinary access to a held pair makes the kernel suspend at the next row boundary. -/
  | kernelSuspend (ch : Nat)
  /-- `KERNEL_RESUME` (R324): A suspended kernel resumes once no access has been pending for 64 ns, or within 2 us. -/
  | kernelResume (ch : Nat)
  /-- `REFRESH` (R325): Refresh of a held pair's rows issued at a row boundary suspends the kernel. -/
  | refresh (ch : Nat)
  /-- `ACTIVATION_COUNT_ALERT` (R325): An activation-count alert is serviced by mitigation refresh, suspending the kernel. -/
  | activationCountAlert (ch : Nat) (mine : Bool)
  /-- `KERNEL_REVOKE` (R328): An overlapping invalidation suspends the kernel at its next boundary and ends it REVOKED. -/
  | kernelRevoke (ch : Nat)
  /-- `REDUCE_LIST_START` (R332): The reduce adders start their next held command list from the cursor. -/
  | reduceListStart (ch : Nat)
  /-- `REDUCE_COMMAND_WORD` (R332): The adders read one command word at home and add its rows, writing a bag when last is set. -/
  | reduceCommandWord (ch : Nat)
  /-- `EXECUTE` (R219): An agent executes one of its issued accesses. -/
  | execute (t : BitVec 2) (r : Reader) (va : Word) (z ecc : BitVec 2)
  /-- `DRAIN` (R222): An entry moves from its buffer to the next on its path. -/
  | drain (n : Nat)
  /-- `COMBINE` (R223): Merges two adjacent non-returning atomic-add entries. -/
  | combine (n : Nat)
  /-- `PAGE_WALK` (R209): A walker reads the table entries of a missing translation. -/
  | pageWalk (w : Walk)
  /-- `GRANT_RECOMPUTE` (R39): A stalled setvl or setvl2 recomputes its grant when a limiter changes. -/
  | grantRecompute (t : BitVec 2)
  /-- `BARW_RECHECK` (R247): A waiting barw re-reads its record on a change. -/
  | barwRecheck (t : BitVec 2)
  /-- `LINE_FULL_WAKE` (R233): A read or lwait waiting on an empty line proceeds once the line is full at home. -/
  | lineFullWake (t : BitVec 2)
  /-- `QUEUE_STALL_RELEASE` (R61): A push stalled on a full head or a pop on an empty head proceeds. -/
  | queueStallRelease (t : BitVec 2) (x : Bool)
  /-- `COPY_CHUNK` (R252): The copy engine reads and writes one 128-byte chunk of a command. -/
  | copyChunk (n : Nat)
  /-- `COPY_COMPLETE` (R230): A copy command's writes have performed; its completion signal is written. -/
  | copyComplete (n : Nat)
  /-- `STREAM_LINE_FILL` (R152): The copy engine fills one strip-buffer line of an enabled stream. -/
  | streamLineFill (t j : BitVec 2)
  /-- `MFEED_ENTRY` (R270): The matrix feed reads a command's operand lines and pushes one entry. -/
  | mfeedEntry (n : Nat)
  /-- `OPERANDS_CONSUMED` (R270): After its last line read the feed writes the operands-consumed status. -/
  | operandsConsumed (n : Nat)
  /-- `USER_INTERRUPT_ENTRY` (R253): A waiting cpy.irq completion enters the user-level completion handler. -/
  | userInterruptEntry (t : BitVec 2)
  /-- `PENDING_FAULT_TAKE` (R394): A pending fault is taken as a trap at the next instruction boundary. -/
  | pendingFaultTake (t : BitVec 2)
  /-- `LATE_FAULT` (R393): An engine write failure while the team is not resident is kept in its header. -/
  | lateFault (launch : LaunchName) (team : Nat) (t : BitVec 2) (detail addr : Word)
  /-- `LAUNCH_FAULT_STOP` (R381): Firmware stops a faulted launch, writes the fault record and the completion word. -/
  | launchFaultStop (launch : Nat)
  /-- `COLLECTIVE_RUN` (R255): The collective engine exchanges data with peers and writes its result and status. -/
  | collectiveRun (shares : List PeerShare)
  /-- `COLLECTIVE_ABORT` (R405): An abort received from a rank ends the command with that error code. -/
  | collectiveAbort (heard : Heard) (shares : List PeerShare)
  /-- `PEER_RETRANSMIT_LIMIT` (R404): A datagram unacknowledged after 64 retransmissions ends the command with 0x0504. -/
  | peerRetransmitLimit (lost : Unheard) (shares : List PeerShare)
  /-- `PEER_DATAGRAM_RECEIVE` (R364): An inbound datagram is accepted, or dropped and counted when no peer entry matches. -/
  | peerDatagramReceive (src : BitVec 128) (req : PeerReq)
  /-- `PEER_LINK_DOWN` (R406): A peer port link failure moves its traffic to other allowed ports. -/
  | peerLinkDown (port : Nat)
  /-- `XSTAT` (R368): A write of 1 to xstat starts a host-driven block transfer to or from a peer. -/
  | xstat (v : Word)
  /-- `TRANSFER_COMPLETE` (R368): A block transfer ends and xstat reads 2 or an error code. -/
  | transferComplete (ok : Bool) (code : BitVec 16)
  /-- `QTAB` (R360): A write to qtab sets the queue table address unless a queue is enabled. -/
  | qtab (v : Word)
  /-- `PTAB` (R360): A write to ptab sets the peer table address unless a collective or transfer runs. -/
  | ptab (v : Word)
  /-- `DEVSTAT_EVENT_CLEAR` (R361): Writing 1 to devstat.event clears it. -/
  | devstatEventClear (v : Word)
  /-- `MGMT_REGISTER_WRITE` (R360): A write to a management register with no row of its own. -/
  | mgmtRegisterWrite (off : BitVec 12) (v : Word)
  /-- `HOST_MEM_READ` (R359): A host CXL.mem read of device HBM, checked by the access table with hdom. -/
  | hostMemRead (addr len : Nat)
  /-- `HOST_MEM_WRITE` (R359): A host CXL.mem write of device HBM, observed for tail words and queue table writes. -/
  | hostMemWrite (addr : Nat) (data : List Byte) (bad : Bool)
  /-- `TAIL_WORD_OBSERVE` (R362): A snoop or observed write to a tail word makes the device re-read it by acquire. -/
  | tailWordObserve (queue : Nat) (writes : List (Nat × Byte))
  /-- `QUEUE_ENABLE` (R334): A write setting en reads the queue descriptor and enables the queue. -/
  | queueEnable (queue : Nat)
  /-- `QUEUE_DISABLE` (R334): A write clearing en stops taking records from the queue. -/
  | queueDisable (queue : Nat)
  /-- `RECORD_TAKE` (R335): The device takes the next ring record, makes its 64-byte checks and writes the head word. -/
  | recordTake (queue : Nat)
  /-- `LAUNCH` (R336): A launch record whose dependences are met is checked and its teams created. -/
  | launch (id : Nat)
  /-- `TRANSLATION_INVALIDATION` (R212): An invalidation record starts removing leaves of a root over a range. -/
  | translationInvalidation (id : Nat)
  /-- `INVALIDATION_COMPLETE` (R212): An invalidation completes once TLBs, walks, accesses and pinned kernels are cleared. -/
  | invalidationComplete (id : Nat)
  /-- `CANCEL` (R337): A cancel record stops a launch and writes code 2, or 4 when already complete. -/
  | cancel (id : Nat)
  /-- `EVICT` (R353): An evict record pre-empts a launch and writes its images to an area. -/
  | evict (id : Nat)
  /-- `RESUME` (R354): A resume record creates a launch from an image area and resumes its teams. -/
  | resume (id : Nat)
  /-- `TEAM_PLACE` (R341): A team is placed on a core or a run list, pre-empting a lower-priority resident. -/
  | teamPlace (launch team : Nat)
  /-- `TEAM_START` (R78): A placed team starts with its initial state and cleared scratchpad. -/
  | teamStart (core : Nat)
  /-- `TEAM_END` (R143): All harts halted and engine commands complete; the team ends with a release. -/
  | teamEnd (core : Nat)
  /-- `QUANTUM_EXPIRY` (R343): A quantum of 2^20 cycles expires, arming pre-emption at the next strip boundary. -/
  | quantumExpiry (core : Nat)
  /-- `QUANTUM_GRACE_EXPIRY` (R343): No strip boundary within 2^16 cycles pre-empts at the next pre-emption point. -/
  | quantumGraceExpiry (core : Nat)
  /-- `PREEMPTION` (R345): The team quiesces, its engines stop, agents release, and the image is written. -/
  | preemption (core : Nat)
  /-- `TEAM_RESUME` (R354): A stopped team is restored on a qualifying core and continues after an acquire. -/
  | teamResume (core : Nat)
  /-- `CEILING_CHANGE` (R23): The power manager changes a core's vector or matrix ceiling, effective at the next grant. -/
  | ceilingChange (core vector matrix : Nat)
  /-- `RESIDUE_MISMATCH` (R397): A residue checker flags an element group or rank-1 step, which is logged and re-executed. -/
  | residueMismatch (core unit : Nat) (at_ : Watched)
  /-- `DEVICE_RESET` (R27): Power-up ends with a device reset setting every cycle count to 0. -/
  | deviceReset
  /-- `BOOT_ROM_VERIFY` (R373): The boot ROM loads and verifies the firmware image and sets ready. -/
  | bootRomVerify (image : List Byte)
  /-- `RECOVERY_IMAGE_LOAD` (R409): A new image offered through the mailbox in recovery is verified. -/
  | recoveryImageLoad (image : List Byte)
  /-- `THERMAL_TRIP` (R25): A junction at 115 C removes device power at once with no dump. -/
  | thermalTrip
  /-- `FLIT_REPLAY` (R407): A flit error is corrected by replay and counted. -/
  | flitReplay
  /-- `MODULE_RETRAIN_FAIL` (R407): A UCIe module fails retraining and its mods bit clears. -/
  | moduleRetrainFail (m : BitVec 2)
  /-- `HOST_LINK_DOWN` (R407): Every host module down is a fatal error with cause 6. -/
  | hostLinkDown
  /-- `VIRAL_RECEIVED` (R407): Viral from the host is a fatal error with cause 5. -/
  | viralReceived
  /-- `WATCHDOG_EXPIRY` (R410): The security controller watchdog expires, a fatal error with cause 7. -/
  | watchdogExpiry
  /-- `FATAL_ERROR` (R411): All work stops, viral is signalled, the dump is written and devstat flags set. -/
  | fatalError (cause : BitVec 8) (core : Nat) (detail : Word)
  /-- `ACCESS_TABLE_UPDATE` (R371): Firmware updates an access table entry at host request through the mailbox. -/
  | accessTableUpdate (target slot : Nat) (w0 w1 : Word)
  /-- `ATTESTATION_REQUEST` (R374): The security controller returns signed evidence for a nonce. -/
  | attestationRequest (nonce : List Byte)
  /-- `ECC_COUNTER_READ_CLEAR` (R388): Host reads and clears correctable-error counters through the mailbox. -/
  | eccCounterReadClear (n : Nat)
  /-- `LOST_WRITE_COUNT_READ_CLEAR` (R424): Host reads and clears a queue's lost-write count through the mailbox. -/
  | lostWriteCountReadClear (queue : Nat)
  /-- `FAULT_RECORD_READ` (R424): Host reads a kept fault record by launch id through the mailbox. -/
  | faultRecordRead (launch : Nat)
  /-- `ERROR_LOG_READ` (R397): Host reads the residue error log through the mailbox. -/
  | errorLogRead
  /-- `LANE_DISABLE_MASK_RELOAD` (R397): Host reloads the lane-disable mask through the mailbox. -/
  | laneDisableMaskReload (core : Nat) (mask : BitVec 8)
  /-- `DUMP_READ` (R411): Host reads the dump 4 KiB at a time through the mailbox. -/
  | dumpRead (block : Nat)
  /-- `DUMP_CLEAR` (R411): Host clears the dump region and devstat.dump through the mailbox. -/
  | dumpClear
  /-- `ISSUE_OPPORTUNITY` (R50): A working lane group that becomes free takes the next element group from one issuable instruction, by the round rule. -/
  | issueOpportunity (group : BitVec 3)
  /-- `POWER_DOWN` (R26): The package, including the security controller, loses power and all device state is lost. -/
  | powerDown
  /-- `HDM_RANGE_DECODE` (R359): The host decodes the HDM range and sets its base address H. -/
  | hdmRangeDecode (base : Word)
  /-- `DATAGRAM_RETRANSMIT` (R364): The peer transport retransmits an unacknowledged datagram. -/
  | datagramRetransmit
  /-- `PEER_LINK_UP` (R406): A peer port link that was down comes back up and may carry traffic again. -/
  | peerLinkUp (port : Nat)
  deriving DecidableEq, Repr

end Sys2Proof
end

