-- ==== Sys2Proof/WellFormed.lean ====
section
/-! DEFINITION. Which instructions are well formed: check 6 of R119, a reserved variant, a reserved field, or a
field that names a register the part does not have (R59, R108, R109 and each entry). -/

namespace Sys2Proof

/-- A field that names one of q0 to q3 (R157). -/
def Reg.isLoadHead (r : Reg) : Bool := r.toNat < 4
/-- A field that names q4 or q5 (R158). -/
def Reg.isStoreHead (r : Reg) : Bool := r == 4#5 || r == 5#5
/-- A field that names a mask register (R108). -/
def Reg.isMask (r : Reg) : Bool := r.toNat < 8
/-- A field that names a tile (R108). -/
def Reg.isTile (r : Reg) : Bool := r.toNat < 4
/-- An operand of `mopa`: q0 to q3 or v24 to v31 (R263). -/
def Reg.isMopaSource (r : Reg) : Bool := r.toNat < 4 || 24 ≤ r.toNat
/-- Exception-mask destination 0 is refused with the enable set (R59). Marked DESIGN CHOICE: R109 does not say whether
a destination other than 0 with the enable clear is reserved; it is accepted, and nothing is written. -/
def maskDestOk (e : Bit) (x : BitVec 3) : Bool := !e.on || x != 0#3
/-- A source b that may be replaced by an immediate: the unused one is 0 (R116). -/
def immOk (b : Reg) (m : Bit) (i : BitVec 32) : Bool := if m.on then b == 0#5 else i == 0#32
/-- An acquiring load also claims head d + F (R224). -/
def missHeadOk (d : Reg) (f : Nat) (q : Bit) : Bool := !q.on || d.toNat + f < 4
/-- Accumulators that a segment of width code w spans (R321). -/
def spanOf (w : BitVec 2) : Nat := 4 >>> w.toNat

/-- Fields of an element word (R116, R117, R199). -/
def elementWordOk (op : BitVec 8) (d a b c : Reg) (m : Bit) (v : BitVec 2) (i : BitVec 32) : Bool :=
  let o := op.toNat
  let plainB := immOk b m i
  if o ≤ 0x14 then plainB && c == 0#5 && v == 0#2
  else if o ≤ 0x1C then
    m.on && b == 0#5 && c == 0#5 && v == 0#2 && (!(0x19 ≤ o && o ≤ 0x1B) || i.toNat < 64)
  else if o ≤ 0x1E then m.on && a == 0#5 && b == 0#5 && c == 0#5 && v == 0#2
  else if o == 0x1F then !m.on && i == 0#32 && b == 0#5 && c == 0#5
  else if 0x58 ≤ o && o ≤ 0x67 then plainB && c == 0#5 && v == 0#2
  else if o == 0x68 then plainB && c == 0#5 && d.isMask
  else if o == 0x69 then plainB && v == 0#2
  else if o == 0x74 then plainB && (v == 0#2 || v == 2#2)
  else if 0x70 ≤ o && o ≤ 0x76 then plainB && c == 0#5 && v == 0#2
  else if o == 0x77 then plainB && c == 0#5 && d.isMask
  else if o == 0x78 then !m.on && i == 0#32 && c == 0#5 && v == 0#2 && b.toNat ≤ 4
  else if o == 0x79 then !m.on && i == 0#32 && c == 0#5 && v.toNat ≤ 1 && b.toNat ≤ 13
  else if o == 0x7E then plainB && c == 0#5 && v.toNat ≤ 2
  else if o == 0x7F then !m.on && i == 0#32 && b == 0#5 && c == 0#5 && v == 0#2
  else false

/-- The opcodes that the E-form accepts outside the lane-control words (R117). -/
def elementOpcode (op : BitVec 8) : Bool :=
  let o := op.toNat
  o ≤ 0x1F || (0x58 ≤ o && o ≤ 0x69) || (0x70 ≤ o && o ≤ 0x79) || o == 0x7E || o == 0x7F

/-- Check 6 of R119: the static checks of each entry. Events have no encoding and no such check. -/
def Instr.wf : Instr → Bool
  | .add _ _ _ => true
  | .sub _ _ _ => true
  | .and _ _ _ => true
  | .or _ _ _ => true
  | .xor _ _ _ => true
  | .sll _ _ _ => true
  | .srl _ _ _ => true
  | .sra _ _ _ => true
  | .slt _ _ _ => true
  | .sltu _ _ _ => true
  | .min _ _ _ => true
  | .minu _ _ _ => true
  | .max _ _ _ => true
  | .maxu _ _ _ => true
  | .mul _ _ _ => true
  | .mulh _ _ _ => true
  | .mulhu _ _ _ => true
  | .div _ _ _ => true
  | .divu _ _ _ => true
  | .rem _ _ _ => true
  | .remu _ _ _ => true
  | .addi _ _ _ => true
  | .andi _ _ _ => true
  | .ori _ _ _ => true
  | .xori _ _ _ => true
  | .slli _ _ _ => true
  | .srli _ _ _ => true
  | .srai _ _ _ => true
  | .slti _ _ _ => true
  | .lui _ _ => true
  | .aupc _ _ => true
  | .bop _ _ _ => true
  | .beq _ _ _ => true
  | .bne _ _ _ => true
  | .blt _ _ _ => true
  | .bge _ _ _ => true
  | .bltu _ _ _ => true
  | .bgeu _ _ _ => true
  | .jal _ _ => true
  | .jalr _ _ _ => true
  | .ld _ _ _ _ => true
  | .ldu _ _ z _ => z != 3#2
  | .st _ _ _ _ => true
  | .fld _ _ z _ => 2 ≤ z.toNat
  | .fst _ _ z _ => 2 ≤ z.toNat
  | .qpush _ _ v => v != 3#2
  | .qpop _ _ v => v.toNat ≤ 1
  | .qbr _ _ v => v.toNat ≤ 1
  | .fadd _ _ _ v => v.toNat ≤ 1
  | .fsub _ _ _ v => v.toNat ≤ 1
  | .fmul _ _ _ v => v.toNat ≤ 1
  | .fdiv _ _ _ v => v.toNat ≤ 1
  | .fsqrt _ _ v => v.toNat ≤ 1
  | .fma _ _ _ v => v.toNat ≤ 1
  | .fms _ _ _ v => v.toNat ≤ 1
  | .fmin _ _ _ v => v.toNat ≤ 1
  | .fmax _ _ _ v => v.toNat ≤ 1
  | .fcmp _ _ _ _ => true
  | .fcvtfi _ _ _ => true
  | .fcvtif _ _ _ => true
  | .fcvtff _ _ c t => c != t
  | .fmvfx _ _ v => v.toNat ≤ 1
  | .fsgn _ _ _ _ => true
  | .fclass _ _ v => v.toNat ≤ 1
  | .setvl _ _ _ _ => true
  | .setvl2 _ _ _ _ => true
  | .setdim d _ _ => d.toNat < 3
  | .settype _ _ => true
  | .sdecl _ _ _ _ => true
  | .sdeclEnd _ => true
  | .shw _ _ _ => true
  | .swait _ => true
  | .vgrant _ => true
  | .vld d _ _ _ q => d.isLoadHead && missHeadOk d 1 q
  | .vlds d _ _ _ q => d.isLoadHead && missHeadOk d 1 q
  | .vld2 d _ _ _ q v => d.isLoadHead && missHeadOk d 1 q && v.toNat ≤ 1
  | .vldx d _ b _ q v => d.isLoadHead && b.isStoreHead && missHeadOk d 1 q && v.toNat ≤ 1
  | .vldseg d _ _ q v => v != 0#2 && d.toNat + v.toNat < 4 && missHeadOk d (v.toNat + 1) q
  | .vst d _ _ _ _ => d.isStoreHead
  | .vsts d _ _ _ _ => d.isStoreHead
  | .vst2 d _ _ _ _ v => d.isStoreHead && v.toNat ≤ 1
  | .vstx d _ b _ _ v => d.isStoreHead && b.isStoreHead && b != d && v.toNat ≤ 1
  | .vstseg d _ _ _ v => d.isStoreHead && v != 0#2
  | .lfe _ _ s r v => v.toNat ≤ 1 && (v == 1#2 || (s == 0#2 && !r.on))
  | .lwait _ _ s q v => v.toNat ≤ 1 && (v == 0#2 || (s == 0#2 && !q.on))
  | .vpop _ a _ => a.isLoadHead
  | .vpush d _ _ => d.isStoreHead
  | .vmv _ _ _ e x v => v.toNat ≤ 1 && maskDestOk e x && (v == 1#2 || (!e.on && x == 0#3))
  | .vsplat _ _ _ v => v.toNat ≤ 1
  | .vadd _ _ _ _ v => v != 3#2
  | .vsub _ _ _ _ v => v != 3#2
  | .vsadd _ _ _ _ v => v != 3#2
  | .vssub _ _ _ _ v => v != 3#2
  | .vmul _ _ _ _ v => v != 3#2
  | .vmulh _ _ _ _ v => v != 3#2
  | .vdiv _ _ _ _ e x v => v != 3#2 && maskDestOk e x
  | .vrem _ _ _ _ e x v => v != 3#2 && maskDestOk e x
  | .vmin _ _ _ _ v => v != 3#2
  | .vmax _ _ _ _ v => v != 3#2
  | .vand _ _ _ _ v => v != 3#2
  | .vor _ _ _ _ v => v != 3#2
  | .vxor _ _ _ _ v => v != 3#2
  | .vsll _ _ _ _ v => v != 3#2
  | .vsrl _ _ _ _ v => v != 3#2
  | .vsra _ _ _ _ v => v != 3#2
  | .vcmp d _ _ _ _ => d.isMask
  | .vsel _ _ _ _ v => v != 3#2
  | .vpopc _ a _ v => v != 3#2 && (v == 1#2 || a.isMask)
  | .vwmac _ _ _ _ _ => true
  | .vnsr _ _ _ _ _ => true
  | .vthrb _ _ _ _ v => v.toNat ≤ 1
  | .vbtr _ _ v => v.toNat ≤ 1
  | .vmlog d a b _ _ => d.isMask && a.isMask && b.isMask
  | .vfadd _ _ _ _ e x v => v.toNat ≤ 1 && maskDestOk e x
  | .vfsub _ _ _ _ e x v => v.toNat ≤ 1 && maskDestOk e x
  | .vfmul _ _ _ _ e x v => v.toNat ≤ 1 && maskDestOk e x
  | .vfdiv _ _ _ _ e x v => v.toNat ≤ 1 && maskDestOk e x
  | .vfma _ _ _ _ e x _ => maskDestOk e x
  | .vfmin _ _ _ _ e x v => v.toNat ≤ 1 && maskDestOk e x
  | .vfmax _ _ _ _ e x v => v.toNat ≤ 1 && maskDestOk e x
  | .vfcmp d _ _ _ e x _ => d.isMask && maskDestOk e x
  | .vfsfu _ _ b _ e x => b.toNat ≤ 4 && maskDestOk e x
  | .vfcvt _ _ t _ e x v => t.toNat ≤ 13 && v.toNat ≤ 1 && maskDestOk e x
  | .vfnar _ _ b _ e x v => maskDestOk e x && (v.getLsbD 0 || b == 0#5)
  | .vfwid _ _ _ e x v => v.toNat ≤ 1 && maskDestOk e x
  | .vfq4 _ _ b _ e x v => v.toNat ≤ 1 && maskDestOk e x && (v == 1#2 || b == 0#5)
  | .vfscl _ _ _ _ e x _ => maskDestOk e x
  | .vfsgn _ _ _ _ v => v != 3#2
  | .vfcls _ _ _ => true
  | .vred _ _ _ o v => o.toNat ≤ 5 && v != 3#2
  | .vscan _ _ b _ o v => o.toNat ≤ 5 && (v.getLsbD 0 || b == 0#5)
  | .vslide _ _ _ _ _ => true
  | .vgath _ _ _ _ e x v => v.toNat ≤ 1 && maskDestOk e x
  | .vcmpr _ _ _ _ => true
  | .vsmx _ _ b _ v => b.toNat ≤ 30 && v.toNat ≤ 1
  | .vfetch _ _ _ _ e x v => v.toNat ≤ 1 && maskDestOk e x
  | .vlid _ b _ v => v.toNat ≤ 1 && (v == 1#2 || b == 0#5)
  | .menter _ _ => true
  | .mexit => true
  | .mzero d v => v.toNat ≤ 1 && d.isTile && (v == 0#2 || d == 0#5)
  | .mopa d a b c r => d.isTile && a.isMopaSource && b.isMopaSource && (c == 3#2) == (r == 3#2)
  | .msclA _ => true
  | .msclW d _ => d.isTile
  | .mdrain _ a _ _ e x v => a.isTile && v.toNat ≤ 1 && maskDestOk e x
  | .mfeed _ _ _ _ _ => true
  | .mstat _ => true
  | .pbank _ _ _ _ _ => true
  | .pbankNone _ => true
  | .peval _ _ _ _ _ v => v.toNat ≤ 1
  | .pvote d _ _ _ _ v => d.isLoadHead && v.toNat ≤ 1
  | .pfeed _ _ _ _ _ => true
  | .pstep _ b _ _ _ => b.isStoreHead
  | .pdraw d _ _ => d.isLoadHead
  | .pkey _ _ => true
  | .pkeySrc _ => true
  | .pkeyEp _ => true
  | .pplaneLd d _ _ _ _ => d.isLoadHead
  | .pplaneSt _ b _ _ _ => b.isStoreHead
  | .tgbind _ _ _ _ _ => true
  | .tgbindNone _ => true
  | .tgload d _ _ _ => d.isLoadHead
  | .tgscat _ _ _ _ => true
  | .xconvV d _ _ _ _ => d.isLoadHead
  | .xconvS _ _ _ _ _ => true
  | .amoadd _ _ _ _ _ _ _ _ => true
  | .amoand _ _ _ _ _ _ _ _ => true
  | .amoor _ _ _ _ _ _ _ _ => true
  | .amoxor _ _ _ _ _ _ _ _ => true
  | .amomm _ _ _ _ _ _ _ _ _ => true
  | .amoswp _ _ _ _ _ _ _ _ => true
  | .amocas _ _ _ _ _ _ _ _ => true
  | .vsca d _ b _ _ _ _ => d.isStoreHead && b.isStoreHead && b != d
  | .fence _ _ => true
  | .ldacq _ _ _ v => v != 3#2
  | .strel _ _ _ _ => true
  | .bar _ b _ v => v.on || b == 0#5
  | .barw _ _ _ _ _ => true
  | .wfe _ _ => true
  | .sev _ => true
  | .hwait _ _ _ _ => true
  | .cpy _ _ _ _ _ v => v != 3#2
  | .coll _ _ _ _ _ => true
  | .glaunch _ _ _ _ _ => true
  | .glaunchRed _ _ _ _ _ => true
  | .gstat _ _ _ _ => true
  | .trap _ => true
  | .eret => true
  | .csrr _ _ => true
  | .csrw _ _ => true
  | .csrx _ _ _ => true
  | .yield => true
  | .halt => true
  | .brk _ => true
  | .ebr _ _ _ _ _ => true
  | .ejmp _ _ => true
  | .esend _ _ => true
  | .erecv _ _ => true
  | .epred _ _ b m _ i => immOk b m i
  | .eidx _ _ m i => m.on || i == 0#32
  | .ecmt _ => true
  | .estop => true
  | .elementWord op d a b c _ m v i => elementWordOk op d a b c m v i
  | .kNop => true
  | .kAdd d b => d != 0#5 || b != 0#5
  | .kSub _ _ => true
  | .kAnd _ _ => true
  | .kOr _ _ => true
  | .kXor _ _ => true
  | .kSll _ _ => true
  | .kSrl _ _ => true
  | .kAddi _ _ => true
  | .kMv _ b => b == 0#5
  | .kBeqz _ => true
  | .kBnez _ => true
  | .kVadd _ _ => true
  | .kVfadd _ _ => true
  | .kVfmul _ _ => true
  | .kVfma _ _ => true
  | .kVmv _ b => b == 0#5
  | .grd _ _ _ _ _ => true
  | .gwr _ _ _ _ _ => true
  | .gadd w _ _ _ _ _ => w != 3#2
  | .gsub w _ _ _ _ _ => w != 3#2
  | .gmax w _ _ _ _ _ => w != 3#2
  | .gacc w _ _ _ b => w != 3#2 && b.toNat % spanOf w == 0
  | .gtq _ h _ _ _ s => !h.on || !s.getLsbD 0
  | .gtq2 _ h _ _ _ _ s => !h.on || !s.getLsbD 0
  | .gshr _ _ _ b c => c != 3#2 && b.toNat % (1 <<< c.toNat) == 0
  | .gnar w _ _ _ b => w != 3#2 && b.toNat % spanOf w == 0
  | .grow => true
  | .gloop _ _ => true
  | .gqin => true
  | .gqout => true
  | .gsync => true
  | .gend => true
  | .elementGroupCommit => true
  | .pevalRun => true
  | .pvoteRun => true
  | .pfeedRun => true
  | .pstepRun => true
  | .pplaneRun => true
  | .grottoKernelStart _ => true
  | .kernelSuspend _ => true
  | .kernelResume _ => true
  | .refresh _ => true
  | .activationCountAlert _ _ => true
  | .kernelRevoke _ => true
  | .reduceListStart _ => true
  | .reduceCommandWord _ => true
  | .execute _ _ _ _ _ => true
  | .drain _ => true
  | .combine _ => true
  | .pageWalk _ => true
  | .grantRecompute _ => true
  | .barwRecheck _ => true
  | .lineFullWake _ => true
  | .queueStallRelease _ _ => true
  | .copyChunk _ => true
  | .copyComplete _ => true
  | .streamLineFill _ _ => true
  | .mfeedEntry _ => true
  | .operandsConsumed _ => true
  | .userInterruptEntry _ => true
  | .pendingFaultTake _ => true
  | .lateFault _ _ _ _ _ => true
  | .launchFaultStop _ => true
  | .collectiveRun _ => true
  | .collectiveAbort _ _ => true
  | .peerRetransmitLimit _ _ => true
  | .peerDatagramReceive _ _ => true
  | .peerLinkDown _ => true
  | .xstat _ => true
  | .transferComplete _ _ => true
  | .qtab _ => true
  | .ptab _ => true
  | .devstatEventClear _ => true
  | .mgmtRegisterWrite _ _ => true
  | .hostMemRead _ _ => true
  | .hostMemWrite _ _ _ => true
  | .tailWordObserve _ _ => true
  | .queueEnable _ => true
  | .queueDisable _ => true
  | .recordTake _ => true
  | .launch _ => true
  | .translationInvalidation _ => true
  | .invalidationComplete _ => true
  | .cancel _ => true
  | .evict _ => true
  | .resume _ => true
  | .teamPlace _ _ => true
  | .teamStart _ => true
  | .teamEnd _ => true
  | .quantumExpiry _ => true
  | .quantumGraceExpiry _ => true
  | .preemption _ => true
  | .teamResume _ => true
  | .ceilingChange _ _ _ => true
  | .residueMismatch _ _ _ => true
  | .deviceReset => true
  | .bootRomVerify _ => true
  | .recoveryImageLoad _ => true
  | .thermalTrip => true
  | .flitReplay => true
  | .moduleRetrainFail _ => true
  | .hostLinkDown => true
  | .viralReceived => true
  | .watchdogExpiry => true
  | .fatalError _ _ _ => true
  | .accessTableUpdate _ _ _ _ => true
  | .attestationRequest _ => true
  | .eccCounterReadClear _ => true
  | .lostWriteCountReadClear _ => true
  | .faultRecordRead _ => true
  | .errorLogRead => true
  | .laneDisableMaskReload _ _ => true
  | .dumpRead _ => true
  | .dumpClear => true
  | .issueOpportunity _ => true
  | .powerDown => true
  | .hdmRangeDecode _ => true
  | .datagramRetransmit => true
  | .peerLinkUp _ => true

end Sys2Proof
end

