-- ==== Sys2Proof/Decode.lean ====
section
/-! DEFINITION. Decoding of slots, compact halves, element words and micro-words (R104 to R119), total on any
bits, and the encoder written from the same layouts. -/

namespace Sys2Proof

/-- What a hart reads from a word: an instruction, or the check of R119 that its encoding fails. -/
inductive Decoded where
  /-- A word of the opcode table. -/
  | instr (i : Instr)
  /-- A reserved field of opcode `op` is set (check 6); the hart check 4 on `op` comes first. -/
  | reserved (op : BitVec 8)
  /-- An opcode of the E-form in a slot, or one that the E-form refuses (check 3). -/
  | wrongForm
  /-- Compact bit 0 set (check 2). -/
  | compactBit
  deriving DecidableEq, Repr

/-- The instruction a reading gives, if any. -/
def Decoded.toOption : Decoded → Option Instr
  | .instr i => some i
  | _ => none

/-- The instruction when the reserved fields are as the layout demands. -/
def checked (op : BitVec 8) (ok : Bool) (i : Instr) : Decoded := if ok then .instr i else .reserved op


/-- C-form words of opcodes 0x00 to 0x0F (R110). -/
def decodeC0 (w : BitVec 32) : Decoded :=
  let op := fld w 24 8
  match (fld w 24 4).toNat with
  | 0x0 => checked op (fld w 0 9 == 0#9) (.add (fld w 19 5) (fld w 14 5) (fld w 9 5))
  | 0x1 => checked op (fld w 0 9 == 0#9) (.sub (fld w 19 5) (fld w 14 5) (fld w 9 5))
  | 0x2 => checked op (fld w 0 9 == 0#9) (.and (fld w 19 5) (fld w 14 5) (fld w 9 5))
  | 0x3 => checked op (fld w 0 9 == 0#9) (.or (fld w 19 5) (fld w 14 5) (fld w 9 5))
  | 0x4 => checked op (fld w 0 9 == 0#9) (.xor (fld w 19 5) (fld w 14 5) (fld w 9 5))
  | 0x5 => checked op (fld w 0 9 == 0#9) (.sll (fld w 19 5) (fld w 14 5) (fld w 9 5))
  | 0x6 => checked op (fld w 0 9 == 0#9) (.srl (fld w 19 5) (fld w 14 5) (fld w 9 5))
  | 0x7 => checked op (fld w 0 9 == 0#9) (.sra (fld w 19 5) (fld w 14 5) (fld w 9 5))
  | 0x8 => checked op (fld w 0 9 == 0#9) (.slt (fld w 19 5) (fld w 14 5) (fld w 9 5))
  | 0x9 => checked op (fld w 0 9 == 0#9) (.sltu (fld w 19 5) (fld w 14 5) (fld w 9 5))
  | 0xA => checked op (fld w 0 9 == 0#9) (.min (fld w 19 5) (fld w 14 5) (fld w 9 5))
  | 0xB => checked op (fld w 0 9 == 0#9) (.minu (fld w 19 5) (fld w 14 5) (fld w 9 5))
  | 0xC => checked op (fld w 0 9 == 0#9) (.max (fld w 19 5) (fld w 14 5) (fld w 9 5))
  | 0xD => checked op (fld w 0 9 == 0#9) (.maxu (fld w 19 5) (fld w 14 5) (fld w 9 5))
  | 0xE => checked op (fld w 0 9 == 0#9) (.mul (fld w 19 5) (fld w 14 5) (fld w 9 5))
  | _ => checked op (fld w 0 9 == 0#9) (.mulh (fld w 19 5) (fld w 14 5) (fld w 9 5))

/-- C-form words of opcodes 0x10 to 0x1F (R110). -/
def decodeC1 (w : BitVec 32) : Decoded :=
  let op := fld w 24 8
  match (fld w 24 4).toNat with
  | 0x0 => checked op (fld w 0 9 == 0#9) (.mulhu (fld w 19 5) (fld w 14 5) (fld w 9 5))
  | 0x1 => checked op (fld w 0 9 == 0#9) (.div (fld w 19 5) (fld w 14 5) (fld w 9 5))
  | 0x2 => checked op (fld w 0 9 == 0#9) (.divu (fld w 19 5) (fld w 14 5) (fld w 9 5))
  | 0x3 => checked op (fld w 0 9 == 0#9) (.rem (fld w 19 5) (fld w 14 5) (fld w 9 5))
  | 0x4 => checked op (fld w 0 9 == 0#9) (.remu (fld w 19 5) (fld w 14 5) (fld w 9 5))
  | 0x5 => .instr (.addi (fld w 19 5) (fld w 14 5) (fld w 0 14))
  | 0x6 => .instr (.andi (fld w 19 5) (fld w 14 5) (fld w 0 14))
  | 0x7 => .instr (.ori (fld w 19 5) (fld w 14 5) (fld w 0 14))
  | 0x8 => .instr (.xori (fld w 19 5) (fld w 14 5) (fld w 0 14))
  | 0x9 => checked op (fld w 6 8 == 0#8) (.slli (fld w 19 5) (fld w 14 5) (fld w 0 6))
  | 0xA => checked op (fld w 6 8 == 0#8) (.srli (fld w 19 5) (fld w 14 5) (fld w 0 6))
  | 0xB => checked op (fld w 6 8 == 0#8) (.srai (fld w 19 5) (fld w 14 5) (fld w 0 6))
  | 0xC => .instr (.slti (fld w 19 5) (fld w 14 5) (fld w 0 14))
  | 0xD => .instr (.lui (fld w 19 5) (fld w 0 19))
  | 0xE => .instr (.aupc (fld w 19 5) (fld w 0 19))
  | _ => checked op (fld w 2 12 == 0#12) (.bop (fld w 19 5) (fld w 14 5) (fld w 0 2))

/-- C-form words of opcodes 0x20 to 0x2F (R110). -/
def decodeC2 (w : BitVec 32) : Decoded :=
  let op := fld w 24 8
  match (fld w 24 4).toNat with
  | 0x0 => .instr (.beq (fld w 19 5) (fld w 14 5) (fld w 0 14))
  | 0x1 => .instr (.bne (fld w 19 5) (fld w 14 5) (fld w 0 14))
  | 0x2 => .instr (.blt (fld w 19 5) (fld w 14 5) (fld w 0 14))
  | 0x3 => .instr (.bge (fld w 19 5) (fld w 14 5) (fld w 0 14))
  | 0x4 => .instr (.bltu (fld w 19 5) (fld w 14 5) (fld w 0 14))
  | 0x5 => .instr (.bgeu (fld w 19 5) (fld w 14 5) (fld w 0 14))
  | 0x6 => .instr (.jal (fld w 19 5) (fld w 0 19))
  | 0x7 => .instr (.jalr (fld w 19 5) (fld w 14 5) (fld w 0 14))
  | 0x8 => .instr (.ld (fld w 19 5) (fld w 14 5) (fld w 12 2) (fld w 0 12))
  | 0x9 => .instr (.ldu (fld w 19 5) (fld w 14 5) (fld w 12 2) (fld w 0 12))
  | 0xA => .instr (.st (fld w 19 5) (fld w 14 5) (fld w 12 2) (fld w 0 12))
  | 0xB => .instr (.fld (fld w 19 5) (fld w 14 5) (fld w 12 2) (fld w 0 12))
  | 0xC => .instr (.fst (fld w 19 5) (fld w 14 5) (fld w 12 2) (fld w 0 12))
  | 0xD => checked op (fld w 2 12 == 0#12) (.qpush (fld w 19 5) (fld w 14 5) (fld w 0 2))
  | 0xE => checked op (fld w 2 12 == 0#12) (.qpop (fld w 19 5) (fld w 14 5) (fld w 0 2))
  | _ => checked op (fld w 2 7 == 0#7) (.qbr (fld w 19 5) (fld w 9 10) (fld w 0 2))

/-- C-form words of opcodes 0x30 to 0x3F (R110). -/
def decodeC3 (w : BitVec 32) : Decoded :=
  let op := fld w 24 8
  match (fld w 24 4).toNat with
  | 0x0 => checked op (fld w 2 7 == 0#7) (.fadd (fld w 19 5) (fld w 14 5) (fld w 9 5) (fld w 0 2))
  | 0x1 => checked op (fld w 2 7 == 0#7) (.fsub (fld w 19 5) (fld w 14 5) (fld w 9 5) (fld w 0 2))
  | 0x2 => checked op (fld w 2 7 == 0#7) (.fmul (fld w 19 5) (fld w 14 5) (fld w 9 5) (fld w 0 2))
  | 0x3 => checked op (fld w 2 7 == 0#7) (.fdiv (fld w 19 5) (fld w 14 5) (fld w 9 5) (fld w 0 2))
  | 0x4 => checked op (fld w 2 12 == 0#12) (.fsqrt (fld w 19 5) (fld w 14 5) (fld w 0 2))
  | 0x5 => checked op (fld w 2 7 == 0#7) (.fma (fld w 19 5) (fld w 14 5) (fld w 9 5) (fld w 0 2))
  | 0x6 => checked op (fld w 2 7 == 0#7) (.fms (fld w 19 5) (fld w 14 5) (fld w 9 5) (fld w 0 2))
  | 0x7 => checked op (fld w 2 7 == 0#7) (.fmin (fld w 19 5) (fld w 14 5) (fld w 9 5) (fld w 0 2))
  | 0x8 => checked op (fld w 2 7 == 0#7) (.fmax (fld w 19 5) (fld w 14 5) (fld w 9 5) (fld w 0 2))
  | 0x9 => checked op (fld w 2 7 == 0#7) (.fcmp (fld w 19 5) (fld w 14 5) (fld w 9 5) (fld w 0 2))
  | 0xA => checked op (fld w 2 12 == 0#12) (.fcvtfi (fld w 19 5) (fld w 14 5) (fld w 0 2))
  | 0xB => checked op (fld w 2 12 == 0#12) (.fcvtif (fld w 19 5) (fld w 14 5) (fld w 0 2))
  | 0xC => checked op (fld w 11 3 == 0#3 && fld w 2 7 == 0#7) (.fcvtff (fld w 19 5) (fld w 14 5) (fld w 9 2) (fld w 0 2))
  | 0xD => checked op (fld w 2 12 == 0#12) (.fmvfx (fld w 19 5) (fld w 14 5) (fld w 0 2))
  | 0xE => checked op (fld w 2 7 == 0#7) (.fsgn (fld w 19 5) (fld w 14 5) (fld w 9 5) (fld w 0 2))
  | _ => checked op (fld w 2 12 == 0#12) (.fclass (fld w 19 5) (fld w 14 5) (fld w 0 2))

/-- C-form words of opcodes 0x40 to 0x4F (R110). -/
def decodeC4 (w : BitVec 32) : Decoded :=
  let op := fld w 24 8
  match (fld w 24 4).toNat with
  | 0x0 => checked op (fld w 11 3 == 0#3 && fld w 2 7 == 0#7) (.setvl (fld w 19 5) (fld w 14 5) (fld w 9 2) (fld w 0 2))
  | 0x1 => checked op (fld w 2 7 == 0#7) (.setvl2 (fld w 19 5) (fld w 14 5) (fld w 9 5) (fld w 0 2))
  | 0x2 => checked op (fld w 0 9 == 0#9) (.setdim (fld w 19 5) (fld w 14 5) (fld w 9 5))
  | 0x3 => checked op (fld w 23 1 == 0#1 && fld w 1 18 == 0#18) (.settype (fld w 19 4) (fld w 0 1))
  | 0x4 =>
    if fld w 9 5 == 0#5 && fld w 0 6 == 0#6 then .instr (.sdecl (fld w 19 5) (fld w 14 5) (fld w 7 2) (fld w 6 1)) else
    checked op (fld w 0 19 == 1#19) (.sdeclEnd (fld w 19 5))
  | 0x5 => checked op (fld w 19 5 == 0#5 && fld w 0 7 == 0#7) (.shw (fld w 14 5) (fld w 9 5) (fld w 7 2))
  | 0x6 => checked op (fld w 19 5 == 0#5 && fld w 0 14 == 0#14) (.swait (fld w 14 5))
  | 0x7 => checked op (fld w 0 19 == 0#19) (.vgrant (fld w 19 5))
  | 0x8 => checked op (fld w 0 6 == 0#6) (.vld (fld w 19 5) (fld w 14 5) (fld w 9 5) (fld w 7 2) (fld w 6 1))
  | 0x9 => checked op (fld w 0 6 == 0#6) (.vlds (fld w 19 5) (fld w 14 5) (fld w 9 5) (fld w 7 2) (fld w 6 1))
  | 0xA => checked op (fld w 2 4 == 0#4) (.vld2 (fld w 19 5) (fld w 14 5) (fld w 9 5) (fld w 7 2) (fld w 6 1) (fld w 0 2))
  | 0xB => checked op (fld w 2 4 == 0#4) (.vldx (fld w 19 5) (fld w 14 5) (fld w 9 5) (fld w 7 2) (fld w 6 1) (fld w 0 2))
  | 0xC => checked op (fld w 9 5 == 0#5 && fld w 2 4 == 0#4) (.vldseg (fld w 19 5) (fld w 14 5) (fld w 7 2) (fld w 6 1) (fld w 0 2))
  | 0xD => checked op (fld w 6 1 == 0#1 && fld w 0 5 == 0#5) (.vst (fld w 19 5) (fld w 14 5) (fld w 9 5) (fld w 7 2) (fld w 5 1))
  | 0xE => checked op (fld w 6 1 == 0#1 && fld w 0 5 == 0#5) (.vsts (fld w 19 5) (fld w 14 5) (fld w 9 5) (fld w 7 2) (fld w 5 1))
  | _ => checked op (fld w 6 1 == 0#1 && fld w 2 3 == 0#3) (.vst2 (fld w 19 5) (fld w 14 5) (fld w 9 5) (fld w 7 2) (fld w 5 1) (fld w 0 2))

/-- C-form words of opcodes 0x50 to 0x5F (R110). -/
def decodeC5 (w : BitVec 32) : Decoded :=
  let op := fld w 24 8
  match (fld w 24 4).toNat with
  | 0x0 => checked op (fld w 6 1 == 0#1 && fld w 2 3 == 0#3) (.vstx (fld w 19 5) (fld w 14 5) (fld w 9 5) (fld w 7 2) (fld w 5 1) (fld w 0 2))
  | 0x1 => checked op (fld w 9 5 == 0#5 && fld w 6 1 == 0#1 && fld w 2 3 == 0#3) (.vstseg (fld w 19 5) (fld w 14 5) (fld w 7 2) (fld w 5 1) (fld w 0 2))
  | 0x2 => checked op (fld w 19 5 == 0#5 && fld w 6 1 == 0#1 && fld w 2 3 == 0#3) (.lfe (fld w 14 5) (fld w 9 5) (fld w 7 2) (fld w 5 1) (fld w 0 2))
  | 0x3 => checked op (fld w 19 5 == 0#5 && fld w 2 4 == 0#4) (.lwait (fld w 14 5) (fld w 9 5) (fld w 7 2) (fld w 6 1) (fld w 0 2))
  | 0x4 => checked op (fld w 9 5 == 0#5 && fld w 0 6 == 0#6) (.vpop (fld w 19 5) (fld w 14 5) (fld w 6 3))
  | 0x5 => checked op (fld w 9 5 == 0#5 && fld w 0 6 == 0#6) (.vpush (fld w 19 5) (fld w 14 5) (fld w 6 3))
  | 0x6 => checked op (fld w 9 5 == 0#5) (.vmv (fld w 19 5) (fld w 14 5) (fld w 6 3) (fld w 5 1) (fld w 2 3) (fld w 0 2))
  | 0x7 => checked op (fld w 9 5 == 0#5 && fld w 2 4 == 0#4) (.vsplat (fld w 19 5) (fld w 14 5) (fld w 6 3) (fld w 0 2))
  | 0x8 => checked op (fld w 2 4 == 0#4) (.vadd (fld w 19 5) (fld w 14 5) (fld w 9 5) (fld w 6 3) (fld w 0 2))
  | 0x9 => checked op (fld w 2 4 == 0#4) (.vsub (fld w 19 5) (fld w 14 5) (fld w 9 5) (fld w 6 3) (fld w 0 2))
  | 0xA => checked op (fld w 2 4 == 0#4) (.vsadd (fld w 19 5) (fld w 14 5) (fld w 9 5) (fld w 6 3) (fld w 0 2))
  | 0xB => checked op (fld w 2 4 == 0#4) (.vssub (fld w 19 5) (fld w 14 5) (fld w 9 5) (fld w 6 3) (fld w 0 2))
  | 0xC => checked op (fld w 2 4 == 0#4) (.vmul (fld w 19 5) (fld w 14 5) (fld w 9 5) (fld w 6 3) (fld w 0 2))
  | 0xD => checked op (fld w 2 4 == 0#4) (.vmulh (fld w 19 5) (fld w 14 5) (fld w 9 5) (fld w 6 3) (fld w 0 2))
  | 0xE => .instr (.vdiv (fld w 19 5) (fld w 14 5) (fld w 9 5) (fld w 6 3) (fld w 5 1) (fld w 2 3) (fld w 0 2))
  | _ => .instr (.vrem (fld w 19 5) (fld w 14 5) (fld w 9 5) (fld w 6 3) (fld w 5 1) (fld w 2 3) (fld w 0 2))

/-- C-form words of opcodes 0x60 to 0x6F (R110). -/
def decodeC6 (w : BitVec 32) : Decoded :=
  let op := fld w 24 8
  match (fld w 24 4).toNat with
  | 0x0 => checked op (fld w 2 4 == 0#4) (.vmin (fld w 19 5) (fld w 14 5) (fld w 9 5) (fld w 6 3) (fld w 0 2))
  | 0x1 => checked op (fld w 2 4 == 0#4) (.vmax (fld w 19 5) (fld w 14 5) (fld w 9 5) (fld w 6 3) (fld w 0 2))
  | 0x2 => checked op (fld w 2 4 == 0#4) (.vand (fld w 19 5) (fld w 14 5) (fld w 9 5) (fld w 6 3) (fld w 0 2))
  | 0x3 => checked op (fld w 2 4 == 0#4) (.vor (fld w 19 5) (fld w 14 5) (fld w 9 5) (fld w 6 3) (fld w 0 2))
  | 0x4 => checked op (fld w 2 4 == 0#4) (.vxor (fld w 19 5) (fld w 14 5) (fld w 9 5) (fld w 6 3) (fld w 0 2))
  | 0x5 => checked op (fld w 2 4 == 0#4) (.vsll (fld w 19 5) (fld w 14 5) (fld w 9 5) (fld w 6 3) (fld w 0 2))
  | 0x6 => checked op (fld w 2 4 == 0#4) (.vsrl (fld w 19 5) (fld w 14 5) (fld w 9 5) (fld w 6 3) (fld w 0 2))
  | 0x7 => checked op (fld w 2 4 == 0#4) (.vsra (fld w 19 5) (fld w 14 5) (fld w 9 5) (fld w 6 3) (fld w 0 2))
  | 0x8 => checked op (fld w 2 4 == 0#4) (.vcmp (fld w 19 5) (fld w 14 5) (fld w 9 5) (fld w 6 3) (fld w 0 2))
  | 0x9 => checked op (fld w 2 4 == 0#4) (.vsel (fld w 19 5) (fld w 14 5) (fld w 9 5) (fld w 6 3) (fld w 0 2))
  | 0xA => checked op (fld w 9 5 == 0#5 && fld w 2 4 == 0#4) (.vpopc (fld w 19 5) (fld w 14 5) (fld w 6 3) (fld w 0 2))
  | 0xB => checked op (fld w 2 4 == 0#4) (.vwmac (fld w 19 5) (fld w 14 5) (fld w 9 5) (fld w 6 3) (fld w 0 2))
  | 0xC => checked op (fld w 2 4 == 0#4) (.vnsr (fld w 19 5) (fld w 14 5) (fld w 9 5) (fld w 6 3) (fld w 0 2))
  | 0xD => checked op (fld w 2 4 == 0#4) (.vthrb (fld w 19 5) (fld w 14 5) (fld w 9 5) (fld w 6 3) (fld w 0 2))
  | 0xE => checked op (fld w 2 12 == 0#12) (.vbtr (fld w 19 5) (fld w 14 5) (fld w 0 2))
  | _ => checked op (fld w 2 4 == 0#4) (.vmlog (fld w 19 5) (fld w 14 5) (fld w 9 5) (fld w 6 3) (fld w 0 2))

/-- C-form words of opcodes 0x70 to 0x7F (R110). -/
def decodeC7 (w : BitVec 32) : Decoded :=
  let op := fld w 24 8
  match (fld w 24 4).toNat with
  | 0x0 => .instr (.vfadd (fld w 19 5) (fld w 14 5) (fld w 9 5) (fld w 6 3) (fld w 5 1) (fld w 2 3) (fld w 0 2))
  | 0x1 => .instr (.vfsub (fld w 19 5) (fld w 14 5) (fld w 9 5) (fld w 6 3) (fld w 5 1) (fld w 2 3) (fld w 0 2))
  | 0x2 => .instr (.vfmul (fld w 19 5) (fld w 14 5) (fld w 9 5) (fld w 6 3) (fld w 5 1) (fld w 2 3) (fld w 0 2))
  | 0x3 => .instr (.vfdiv (fld w 19 5) (fld w 14 5) (fld w 9 5) (fld w 6 3) (fld w 5 1) (fld w 2 3) (fld w 0 2))
  | 0x4 => .instr (.vfma (fld w 19 5) (fld w 14 5) (fld w 9 5) (fld w 6 3) (fld w 5 1) (fld w 2 3) (fld w 0 2))
  | 0x5 => .instr (.vfmin (fld w 19 5) (fld w 14 5) (fld w 9 5) (fld w 6 3) (fld w 5 1) (fld w 2 3) (fld w 0 2))
  | 0x6 => .instr (.vfmax (fld w 19 5) (fld w 14 5) (fld w 9 5) (fld w 6 3) (fld w 5 1) (fld w 2 3) (fld w 0 2))
  | 0x7 => .instr (.vfcmp (fld w 19 5) (fld w 14 5) (fld w 9 5) (fld w 6 3) (fld w 5 1) (fld w 2 3) (fld w 0 2))
  | 0x8 => checked op (fld w 0 2 == 0#2) (.vfsfu (fld w 19 5) (fld w 14 5) (fld w 9 5) (fld w 6 3) (fld w 5 1) (fld w 2 3))
  | 0x9 => checked op (fld w 13 1 == 0#1) (.vfcvt (fld w 19 5) (fld w 14 5) (fld w 9 4) (fld w 6 3) (fld w 5 1) (fld w 2 3) (fld w 0 2))
  | 0xA => .instr (.vfnar (fld w 19 5) (fld w 14 5) (fld w 9 5) (fld w 6 3) (fld w 5 1) (fld w 2 3) (fld w 0 2))
  | 0xB => checked op (fld w 9 5 == 0#5) (.vfwid (fld w 19 5) (fld w 14 5) (fld w 6 3) (fld w 5 1) (fld w 2 3) (fld w 0 2))
  | 0xC => .instr (.vfq4 (fld w 19 5) (fld w 14 5) (fld w 9 5) (fld w 6 3) (fld w 5 1) (fld w 2 3) (fld w 0 2))
  | 0xD => .instr (.vfscl (fld w 19 5) (fld w 14 5) (fld w 9 5) (fld w 6 3) (fld w 5 1) (fld w 2 3) (fld w 0 2))
  | 0xE => checked op (fld w 2 4 == 0#4) (.vfsgn (fld w 19 5) (fld w 14 5) (fld w 9 5) (fld w 6 3) (fld w 0 2))
  | _ => checked op (fld w 9 5 == 0#5 && fld w 0 6 == 0#6) (.vfcls (fld w 19 5) (fld w 14 5) (fld w 6 3))

/-- C-form words of opcodes 0x80 to 0x8F (R110). -/
def decodeC8 (w : BitVec 32) : Decoded :=
  let op := fld w 24 8
  match (fld w 24 4).toNat with
  | 0x0 => checked op (fld w 9 5 == 0#5 && fld w 5 1 == 0#1) (.vred (fld w 19 5) (fld w 14 5) (fld w 6 3) (fld w 2 3) (fld w 0 2))
  | 0x1 => checked op (fld w 5 1 == 0#1) (.vscan (fld w 19 5) (fld w 14 5) (fld w 9 5) (fld w 6 3) (fld w 2 3) (fld w 0 2))
  | 0x2 => checked op (fld w 2 4 == 0#4) (.vslide (fld w 19 5) (fld w 14 5) (fld w 9 5) (fld w 6 3) (fld w 0 2))
  | 0x3 => .instr (.vgath (fld w 19 5) (fld w 14 5) (fld w 9 5) (fld w 6 3) (fld w 5 1) (fld w 2 3) (fld w 0 2))
  | 0x4 => checked op (fld w 0 6 == 0#6) (.vcmpr (fld w 19 5) (fld w 14 5) (fld w 9 5) (fld w 6 3))
  | 0x5 => checked op (fld w 2 4 == 0#4) (.vsmx (fld w 19 5) (fld w 14 5) (fld w 9 5) (fld w 6 3) (fld w 0 2))
  | 0x6 => .instr (.vfetch (fld w 19 5) (fld w 14 5) (fld w 9 5) (fld w 6 3) (fld w 5 1) (fld w 2 3) (fld w 0 2))
  | 0x7 => checked op (fld w 14 5 == 0#5 && fld w 2 4 == 0#4) (.vlid (fld w 19 5) (fld w 9 5) (fld w 6 3) (fld w 0 2))
  | _ => .wrongForm

/-- C-form words of opcodes 0x90 to 0x9F (R110). -/
def decodeC9 (w : BitVec 32) : Decoded :=
  let op := fld w 24 8
  match (fld w 24 4).toNat with
  | 0x0 => checked op (fld w 0 14 == 0#14) (.menter (fld w 19 5) (fld w 14 5))
  | 0x1 => checked op (fld w 0 24 == 0#24) (.mexit)
  | 0x2 => checked op (fld w 2 17 == 0#17) (.mzero (fld w 19 5) (fld w 0 2))
  | 0x3 => checked op (fld w 5 4 == 0#4 && fld w 0 1 == 0#1) (.mopa (fld w 19 5) (fld w 14 5) (fld w 9 5) (fld w 3 2) (fld w 1 2))
  | 0x4 =>
    if fld w 19 5 == 0#5 && fld w 0 14 == 0#14 then .instr (.msclA (fld w 14 5)) else
    checked op (fld w 14 5 == 0#5 && fld w 0 9 == 1#9) (.msclW (fld w 19 5) (fld w 9 5))
  | 0x5 => .instr (.mdrain (fld w 19 5) (fld w 14 5) (fld w 9 5) (fld w 6 3) (fld w 5 1) (fld w 2 3) (fld w 0 2))
  | 0x6 => checked op (fld w 9 5 == 0#5 && fld w 0 5 == 0#5) (.mfeed (fld w 19 5) (fld w 14 5) (fld w 7 2) (fld w 6 1) (fld w 5 1))
  | 0x7 => checked op (fld w 0 19 == 0#19) (.mstat (fld w 19 5))
  | 0x8 =>
    if fld w 9 5 == 0#5 && fld w 0 5 == 0#5 then .instr (.pbank (fld w 19 5) (fld w 14 5) (fld w 7 2) (fld w 6 1) (fld w 5 1)) else
    checked op (fld w 0 19 == 1#19) (.pbankNone (fld w 19 5))
  | 0x9 => checked op (fld w 9 5 == 0#5 && fld w 2 3 == 0#3) (.peval (fld w 19 5) (fld w 14 5) (fld w 7 2) (fld w 6 1) (fld w 5 1) (fld w 0 2))
  | 0xA => checked op (fld w 9 5 == 0#5 && fld w 2 3 == 0#3) (.pvote (fld w 19 5) (fld w 14 5) (fld w 7 2) (fld w 6 1) (fld w 5 1) (fld w 0 2))
  | 0xB => checked op (fld w 9 5 == 0#5 && fld w 0 5 == 0#5) (.pfeed (fld w 19 5) (fld w 14 5) (fld w 7 2) (fld w 6 1) (fld w 5 1))
  | 0xC => checked op (fld w 19 5 == 0#5 && fld w 0 5 == 0#5) (.pstep (fld w 14 5) (fld w 9 5) (fld w 7 2) (fld w 6 1) (fld w 5 1))
  | 0xD => checked op (fld w 0 9 == 0#9) (.pdraw (fld w 19 5) (fld w 14 5) (fld w 9 5))
  | 0xE =>
    if fld w 19 5 == 0#5 && fld w 0 9 == 0#9 then .instr (.pkey (fld w 14 5) (fld w 9 5)) else
    if fld w 19 5 == 0#5 && fld w 0 14 == 1#14 then .instr (.pkeySrc (fld w 14 5)) else
    checked op (fld w 19 5 == 0#5 && fld w 0 14 == 2#14) (.pkeyEp (fld w 14 5))
  | _ =>
    if fld w 9 5 == 0#5 && fld w 0 5 == 0#5 then .instr (.pplaneLd (fld w 19 5) (fld w 14 5) (fld w 7 2) (fld w 6 1) (fld w 5 1)) else
    checked op (fld w 19 5 == 0#5 && fld w 0 5 == 1#5) (.pplaneSt (fld w 14 5) (fld w 9 5) (fld w 7 2) (fld w 6 1) (fld w 5 1))

/-- C-form words of opcodes 0xA0 to 0xAF (R110). -/
def decodeCA (w : BitVec 32) : Decoded :=
  let op := fld w 24 8
  match (fld w 24 4).toNat with
  | 0x0 =>
    if fld w 9 5 == 0#5 && fld w 0 5 == 0#5 then .instr (.tgbind (fld w 19 5) (fld w 14 5) (fld w 7 2) (fld w 6 1) (fld w 5 1)) else
    checked op (fld w 0 19 == 1#19) (.tgbindNone (fld w 19 5))
  | 0x1 => checked op (fld w 9 10 == 0#10 && fld w 0 5 == 0#5) (.tgload (fld w 19 5) (fld w 7 2) (fld w 6 1) (fld w 5 1))
  | 0x2 => checked op (fld w 9 15 == 0#15 && fld w 0 4 == 0#4) (.tgscat (fld w 7 2) (fld w 6 1) (fld w 5 1) (fld w 4 1))
  | 0x3 =>
    if fld w 9 5 == 0#5 && fld w 1 5 == 0#5 then .instr (.xconvV (fld w 19 5) (fld w 14 5) (fld w 7 2) (fld w 6 1) (fld w 0 1)) else
    checked op (fld w 9 5 == 0#5 && fld w 1 5 == 1#5) (.xconvS (fld w 19 5) (fld w 14 5) (fld w 7 2) (fld w 6 1) (fld w 0 1))
  | 0x4 => checked op (fld w 2 2 == 0#2) (.amoadd (fld w 19 5) (fld w 14 5) (fld w 9 5) (fld w 7 2) (fld w 6 1) (fld w 5 1) (fld w 4 1) (fld w 0 2))
  | 0x5 => checked op (fld w 1 3 == 0#3) (.amoand (fld w 19 5) (fld w 14 5) (fld w 9 5) (fld w 7 2) (fld w 6 1) (fld w 5 1) (fld w 4 1) (fld w 0 1))
  | 0x6 => checked op (fld w 1 3 == 0#3) (.amoor (fld w 19 5) (fld w 14 5) (fld w 9 5) (fld w 7 2) (fld w 6 1) (fld w 5 1) (fld w 4 1) (fld w 0 1))
  | 0x7 => checked op (fld w 1 3 == 0#3) (.amoxor (fld w 19 5) (fld w 14 5) (fld w 9 5) (fld w 7 2) (fld w 6 1) (fld w 5 1) (fld w 4 1) (fld w 0 1))
  | 0x8 => checked op (fld w 1 1 == 0#1) (.amomm (fld w 19 5) (fld w 14 5) (fld w 9 5) (fld w 7 2) (fld w 6 1) (fld w 5 1) (fld w 4 1) (fld w 2 2) (fld w 0 1))
  | 0x9 => checked op (fld w 1 3 == 0#3) (.amoswp (fld w 19 5) (fld w 14 5) (fld w 9 5) (fld w 7 2) (fld w 6 1) (fld w 5 1) (fld w 4 1) (fld w 0 1))
  | 0xA => checked op (fld w 1 3 == 0#3) (.amocas (fld w 19 5) (fld w 14 5) (fld w 9 5) (fld w 7 2) (fld w 6 1) (fld w 5 1) (fld w 4 1) (fld w 0 1))
  | 0xB => checked op (fld w 6 1 == 0#1 && fld w 1 3 == 0#3) (.vsca (fld w 19 5) (fld w 14 5) (fld w 9 5) (fld w 7 2) (fld w 5 1) (fld w 4 1) (fld w 0 1))
  | 0xC => checked op (fld w 9 15 == 0#15 && fld w 4 3 == 0#3 && fld w 0 2 == 0#2) (.fence (fld w 7 2) (fld w 2 2))
  | 0xD => checked op (fld w 9 5 == 0#5 && fld w 2 5 == 0#5) (.ldacq (fld w 19 5) (fld w 14 5) (fld w 7 2) (fld w 0 2))
  | 0xE => checked op (fld w 19 5 == 0#5 && fld w 1 6 == 0#6) (.strel (fld w 14 5) (fld w 9 5) (fld w 7 2) (fld w 0 1))
  | _ => checked op (fld w 19 5 == 0#5 && fld w 1 6 == 0#6) (.bar (fld w 14 5) (fld w 9 5) (fld w 7 2) (fld w 0 1))

/-- C-form words of opcodes 0xB0 to 0xBF (R110). -/
def decodeCB (w : BitVec 32) : Decoded :=
  let op := fld w 24 8
  match (fld w 24 4).toNat with
  | 0x0 => checked op (fld w 1 6 == 0#6) (.barw (fld w 19 5) (fld w 14 5) (fld w 9 5) (fld w 7 2) (fld w 0 1))
  | 0x1 => checked op (fld w 0 14 == 0#14) (.wfe (fld w 19 5) (fld w 14 5))
  | 0x2 => checked op (fld w 19 5 == 0#5 && fld w 0 14 == 0#14) (.sev (fld w 14 5))
  | 0x3 => checked op (fld w 0 7 == 0#7) (.hwait (fld w 19 5) (fld w 14 5) (fld w 9 5) (fld w 7 2))
  | 0x4 => checked op (fld w 9 5 == 0#5 && fld w 2 3 == 0#3) (.cpy (fld w 19 5) (fld w 14 5) (fld w 7 2) (fld w 6 1) (fld w 5 1) (fld w 0 2))
  | 0x5 => checked op (fld w 9 5 == 0#5 && fld w 0 5 == 0#5) (.coll (fld w 19 5) (fld w 14 5) (fld w 7 2) (fld w 6 1) (fld w 5 1))
  | 0x6 =>
    if fld w 9 5 == 0#5 && fld w 0 5 == 0#5 then .instr (.glaunch (fld w 19 5) (fld w 14 5) (fld w 7 2) (fld w 6 1) (fld w 5 1)) else
    checked op (fld w 9 5 == 0#5 && fld w 0 5 == 1#5) (.glaunchRed (fld w 19 5) (fld w 14 5) (fld w 7 2) (fld w 6 1) (fld w 5 1))
  | 0x7 => checked op (fld w 9 5 == 0#5 && fld w 1 6 == 0#6) (.gstat (fld w 19 5) (fld w 14 5) (fld w 7 2) (fld w 0 1))
  | 0x8 => checked op (fld w 13 11 == 0#11) (.trap (fld w 0 13))
  | 0x9 => checked op (fld w 0 24 == 0#24) (.eret)
  | 0xA => checked op (fld w 12 7 == 0#7) (.csrr (fld w 19 5) (fld w 0 12))
  | 0xB => checked op (fld w 19 5 == 0#5 && fld w 12 2 == 0#2) (.csrw (fld w 14 5) (fld w 0 12))
  | 0xC => checked op (fld w 12 2 == 0#2) (.csrx (fld w 19 5) (fld w 14 5) (fld w 0 12))
  | 0xD => checked op (fld w 0 24 == 0#24) (.yield)
  | 0xE => checked op (fld w 0 24 == 0#24) (.halt)
  | _ => checked op (fld w 13 11 == 0#11) (.brk (fld w 0 13))

/-- A C-form word (R108 to R112), by the high nibble of its opcode as the opcode map draws it (R110). -/
def decodeC (w : BitVec 32) : Decoded :=
  match (fld w 28 4).toNat with
  | 0x0 => decodeC0 w
  | 0x1 => decodeC1 w
  | 0x2 => decodeC2 w
  | 0x3 => decodeC3 w
  | 0x4 => decodeC4 w
  | 0x5 => decodeC5 w
  | 0x6 => decodeC6 w
  | 0x7 => decodeC7 w
  | 0x8 => decodeC8 w
  | 0x9 => decodeC9 w
  | 0xA => decodeCA w
  | 0xB => decodeCB w
  | _ => .wrongForm

/-- A compact half, 15 bits (R113, R114). -/
def decodeK (c : BitVec 15) : Decoded :=
  let d := fld c 6 5
  let b := fld c 1 5
  let o := fld c 1 10
  if fld c 0 1 != 0#1 then .compactBit
  else if c == 0#15 then .instr .kNop
  else
    match (fld c 11 4).toNat with
    | 0 => .instr (.kAdd d b)
    | 1 => .instr (.kSub d b)
    | 2 => .instr (.kAnd d b)
    | 3 => .instr (.kOr d b)
    | 4 => .instr (.kXor d b)
    | 5 => .instr (.kSll d b)
    | 6 => .instr (.kSrl d b)
    | 7 => .instr (.kAddi d b)
    | 8 => .instr (.kMv d b)
    | 9 => .instr (.kBeqz o)
    | 10 => .instr (.kBnez o)
    | 11 => .instr (.kVadd d b)
    | 12 => .instr (.kVfadd d b)
    | 13 => .instr (.kVfmul d b)
    | 14 => .instr (.kVfma d b)
    | _ => .instr (.kVmv d b)

/-- Bits [31:30] = 0b11 mark a K-form slot (R104). -/
def isKSlot (w : BitVec 32) : Bool := fld w 30 2 == 3#2

/-- The first or second compact of a K-form slot (R113). -/
def compactHalf (w : BitVec 32) (second : Bool) : BitVec 15 := if second then fld w 0 15 else fld w 15 15

/-- What the hart executes at the start (`second = false`) or at the second half of a slot (R105). -/
def decodeSlot (w : BitVec 32) (second : Bool) : Decoded :=
  if isKSlot w then decodeK (compactHalf w second) else decodeC w

/-- An element word (R116, R117). -/
def decodeE (w : BitVec 64) : Decoded :=
  let op := fld w 56 8
  let d := fld w 51 5
  let a := fld w 46 5
  let b := fld w 41 5
  let c := fld w 36 5
  let p := fld w 35 1
  let m := fld w 34 1
  let v := fld w 32 2
  let i := fld w 0 32
  match op.toNat with
  | 0x88 => checked op (d == 0#5 && c == 0#5 && m == 0#1) (.ebr p a b v i)
  | 0x89 => checked op (d == 0#5 && a == 0#5 && b == 0#5 && c == 0#5 && m == 0#1 && v == 0#2) (.ejmp p i)
  | 0x8A => checked op (d == 0#5 && b == 0#5 && c == 0#5 && m == 0#1 && v == 0#2 && i == 0#32) (.esend p a)
  | 0x8B => checked op (a == 0#5 && b == 0#5 && c == 0#5 && m == 0#1 && v == 0#2 && i == 0#32) (.erecv p d)
  | 0x8C => checked op (d == 0#5 && c == 0#5) (.epred p a b m v i)
  | 0x8D => checked op (a == 0#5 && b == 0#5 && c == 0#5 && v == 0#2) (.eidx p d m i)
  | 0x8E => checked op (d == 0#5 && a == 0#5 && b == 0#5 && c == 0#5 && m == 0#1 && v == 0#2 && i == 0#32) (.ecmt p)
  | 0x8F => checked op (d == 0#5 && a == 0#5 && b == 0#5 && c == 0#5 && p == 0#1 && m == 0#1 && v == 0#2 && i == 0#32) .estop
  | _ => if elementOpcode op then .instr (.elementWord op d a b c p m v i) else .wrongForm

/-- A Grotto micro-word (R118, R318 to R322). -/
def decodeG (w : BitVec 32) : Decoded :=
  let op := fld w 24 8
  match (fld w 28 4).toNat with
  | 0 => checked op (fld w 27 1 == 1#1 && fld w 0 3 == 0#3) (.grd (fld w 26 1) (fld w 25 1) (fld w 22 3) (fld w 19 3) (fld w 3 16))
  | 1 => checked op (fld w 27 1 == 1#1 && fld w 0 3 == 0#3) (.gwr (fld w 26 1) (fld w 25 1) (fld w 22 3) (fld w 19 3) (fld w 3 16))
  | 2 => checked op (fld w 27 1 == 1#1 && fld w 0 14 == 0#14) (.gadd (fld w 25 2) (fld w 24 1) (fld w 23 1) (fld w 20 3) (fld w 17 3) (fld w 14 3))
  | 3 => checked op (fld w 27 1 == 1#1 && fld w 0 14 == 0#14) (.gsub (fld w 25 2) (fld w 24 1) (fld w 23 1) (fld w 20 3) (fld w 17 3) (fld w 14 3))
  | 4 => checked op (fld w 27 1 == 1#1 && fld w 0 14 == 0#14) (.gmax (fld w 25 2) (fld w 24 1) (fld w 23 1) (fld w 20 3) (fld w 17 3) (fld w 14 3))
  | 5 => checked op (fld w 27 1 == 1#1 && fld w 0 18 == 0#18) (.gacc (fld w 25 2) (fld w 24 1) (fld w 23 1) (fld w 20 3) (fld w 18 2))
  | 6 => checked op (fld w 27 1 == 1#1 && fld w 23 2 == 0#2 && fld w 14 3 == 0#3 && fld w 0 2 == 0#2) (.gtq (fld w 26 1) (fld w 25 1) (fld w 20 3) (fld w 17 3) (fld w 5 9) (fld w 2 3))
  | 7 => checked op (fld w 27 1 == 1#1 && fld w 23 2 == 0#2 && fld w 0 2 == 0#2) (.gtq2 (fld w 26 1) (fld w 25 1) (fld w 20 3) (fld w 17 3) (fld w 14 3) (fld w 5 9) (fld w 2 3))
  | 8 => checked op (fld w 27 1 == 1#1 && fld w 0 15 == 0#15) (.gshr (fld w 25 2) (fld w 24 1) (fld w 19 5) (fld w 17 2) (fld w 15 2))
  | 9 => checked op (fld w 27 1 == 1#1 && fld w 0 18 == 0#18) (.gnar (fld w 25 2) (fld w 24 1) (fld w 23 1) (fld w 20 3) (fld w 18 2))
  | 10 => checked op (fld w 27 1 == 0#1 && fld w 0 27 == 0#27) (.grow)
  | 11 => checked op (fld w 27 1 == 0#1 && fld w 0 18 == 0#18) (.gloop (fld w 26 1) (fld w 18 8))
  | 12 => checked op (fld w 27 1 == 0#1 && fld w 0 27 == 0#27) (.gqin)
  | 13 => checked op (fld w 27 1 == 0#1 && fld w 0 27 == 0#27) (.gqout)
  | 14 => checked op (fld w 27 1 == 0#1 && fld w 0 27 == 0#27) (.gsync)
  | _ => checked op (fld w 27 1 == 0#1 && fld w 0 27 == 0#27) (.gend)

/-- A C-form word in the register layout (R108): opcode, d, a, b and the 9-bit mod field. -/
def packR (op : BitVec 8) (d a b : Reg) (m : BitVec 9) : BitVec 32 := op ++ d ++ a ++ b ++ m

/-- A C-form word in the immediate or branch layout (R108). -/
def packI (op : BitVec 8) (d a : Reg) (i : BitVec 14) : BitVec 32 := op ++ d ++ a ++ i

/-- A C-form word in the long layout (R108). -/
def packJ (op : BitVec 8) (d : Reg) (i : BitVec 19) : BitVec 32 := op ++ d ++ i

/-- A compact half (R113). -/
def packK (k : BitVec 4) (d b : Reg) : BitVec 15 := k ++ d ++ b ++ 0#1

/-- An element word (R116). -/
def packE (op : BitVec 8) (d a b c : Reg) (p m : Bit) (v : BitVec 2) (i : BitVec 32) : BitVec 64 :=
  op ++ d ++ a ++ b ++ c ++ p ++ m ++ v ++ i

/-- The word of a C-form instruction; 0 for what is no C-form instruction. -/
def encodeC : Instr → BitVec 32
  | .add d a b => packR 0x00#8 d a b 0#9
  | .sub d a b => packR 0x01#8 d a b 0#9
  | .and d a b => packR 0x02#8 d a b 0#9
  | .or d a b => packR 0x03#8 d a b 0#9
  | .xor d a b => packR 0x04#8 d a b 0#9
  | .sll d a b => packR 0x05#8 d a b 0#9
  | .srl d a b => packR 0x06#8 d a b 0#9
  | .sra d a b => packR 0x07#8 d a b 0#9
  | .slt d a b => packR 0x08#8 d a b 0#9
  | .sltu d a b => packR 0x09#8 d a b 0#9
  | .min d a b => packR 0x0A#8 d a b 0#9
  | .minu d a b => packR 0x0B#8 d a b 0#9
  | .max d a b => packR 0x0C#8 d a b 0#9
  | .maxu d a b => packR 0x0D#8 d a b 0#9
  | .mul d a b => packR 0x0E#8 d a b 0#9
  | .mulh d a b => packR 0x0F#8 d a b 0#9
  | .mulhu d a b => packR 0x10#8 d a b 0#9
  | .div d a b => packR 0x11#8 d a b 0#9
  | .divu d a b => packR 0x12#8 d a b 0#9
  | .rem d a b => packR 0x13#8 d a b 0#9
  | .remu d a b => packR 0x14#8 d a b 0#9
  | .addi d a i => packI 0x15#8 d a i
  | .andi d a i => packI 0x16#8 d a i
  | .ori d a i => packI 0x17#8 d a i
  | .xori d a i => packI 0x18#8 d a i
  | .slli d a i => packR 0x19#8 d a 0#5 (0#3 ++ i)
  | .srli d a i => packR 0x1A#8 d a 0#5 (0#3 ++ i)
  | .srai d a i => packR 0x1B#8 d a 0#5 (0#3 ++ i)
  | .slti d a i => packI 0x1C#8 d a i
  | .lui d i => packJ 0x1D#8 d i
  | .aupc d i => packJ 0x1E#8 d i
  | .bop d a v => packR 0x1F#8 d a 0#5 (0#7 ++ v)
  | .beq a b o => packI 0x20#8 a b o
  | .bne a b o => packI 0x21#8 a b o
  | .blt a b o => packI 0x22#8 a b o
  | .bge a b o => packI 0x23#8 a b o
  | .bltu a b o => packI 0x24#8 a b o
  | .bgeu a b o => packI 0x25#8 a b o
  | .jal d i => packJ 0x26#8 d i
  | .jalr d a i => packI 0x27#8 d a i
  | .ld d a z o => packI 0x28#8 d a (z ++ o)
  | .ldu d a z o => packI 0x29#8 d a (z ++ o)
  | .st d a z o => packI 0x2A#8 d a (z ++ o)
  | .fld d a z o => packI 0x2B#8 d a (z ++ o)
  | .fst d a z o => packI 0x2C#8 d a (z ++ o)
  | .qpush d a v => packR 0x2D#8 d a 0#5 (0#7 ++ v)
  | .qpop d a v => packR 0x2E#8 d a 0#5 (0#7 ++ v)
  | .qbr d o v => packJ 0x2F#8 d (o ++ 0#7 ++ v)
  | .fadd d a b v => packR 0x30#8 d a b (0#7 ++ v)
  | .fsub d a b v => packR 0x31#8 d a b (0#7 ++ v)
  | .fmul d a b v => packR 0x32#8 d a b (0#7 ++ v)
  | .fdiv d a b v => packR 0x33#8 d a b (0#7 ++ v)
  | .fsqrt d a v => packR 0x34#8 d a 0#5 (0#7 ++ v)
  | .fma d a b v => packR 0x35#8 d a b (0#7 ++ v)
  | .fms d a b v => packR 0x36#8 d a b (0#7 ++ v)
  | .fmin d a b v => packR 0x37#8 d a b (0#7 ++ v)
  | .fmax d a b v => packR 0x38#8 d a b (0#7 ++ v)
  | .fcmp d a b v => packR 0x39#8 d a b (0#7 ++ v)
  | .fcvtfi d a v => packR 0x3A#8 d a 0#5 (0#7 ++ v)
  | .fcvtif d a v => packR 0x3B#8 d a 0#5 (0#7 ++ v)
  | .fcvtff d a c t => packR 0x3C#8 d a (0#3 ++ c) (0#7 ++ t)
  | .fmvfx d a v => packR 0x3D#8 d a 0#5 (0#7 ++ v)
  | .fsgn d a b v => packR 0x3E#8 d a b (0#7 ++ v)
  | .fclass d a v => packR 0x3F#8 d a 0#5 (0#7 ++ v)
  | .setvl d a g e => packR 0x40#8 d a (0#3 ++ g) (0#7 ++ e)
  | .setvl2 d a b e => packR 0x41#8 d a b (0#7 ++ e)
  | .setdim d a b => packR 0x42#8 d a b 0#9
  | .settype f t => packR 0x43#8 (0#1 ++ f) 0#5 0#5 (0#8 ++ t)
  | .sdecl d a s q => packR 0x44#8 d a 0#5 (s ++ q ++ 0#6)
  | .sdeclEnd d => packR 0x44#8 d 0#5 0#5 1#9
  | .shw a b s => packR 0x45#8 0#5 a b (s ++ 0#7)
  | .swait a => packR 0x46#8 0#5 a 0#5 0#9
  | .vgrant d => packR 0x47#8 d 0#5 0#5 0#9
  | .vld d a b s q => packR 0x48#8 d a b (s ++ q ++ 0#6)
  | .vlds d a b s q => packR 0x49#8 d a b (s ++ q ++ 0#6)
  | .vld2 d a b s q v => packR 0x4A#8 d a b (s ++ q ++ 0#4 ++ v)
  | .vldx d a b s q v => packR 0x4B#8 d a b (s ++ q ++ 0#4 ++ v)
  | .vldseg d a s q v => packR 0x4C#8 d a 0#5 (s ++ q ++ 0#4 ++ v)
  | .vst d a b s r => packR 0x4D#8 d a b (s ++ 0#1 ++ r ++ 0#5)
  | .vsts d a b s r => packR 0x4E#8 d a b (s ++ 0#1 ++ r ++ 0#5)
  | .vst2 d a b s r v => packR 0x4F#8 d a b (s ++ 0#1 ++ r ++ 0#3 ++ v)
  | .vstx d a b s r v => packR 0x50#8 d a b (s ++ 0#1 ++ r ++ 0#3 ++ v)
  | .vstseg d a s r v => packR 0x51#8 d a 0#5 (s ++ 0#1 ++ r ++ 0#3 ++ v)
  | .lfe a b s r v => packR 0x52#8 0#5 a b (s ++ 0#1 ++ r ++ 0#3 ++ v)
  | .lwait a b s q v => packR 0x53#8 0#5 a b (s ++ q ++ 0#4 ++ v)
  | .vpop d a k => packR 0x54#8 d a 0#5 (k ++ 0#6)
  | .vpush d a k => packR 0x55#8 d a 0#5 (k ++ 0#6)
  | .vmv d a k e x v => packR 0x56#8 d a 0#5 (k ++ e ++ x ++ v)
  | .vsplat d a k v => packR 0x57#8 d a 0#5 (k ++ 0#4 ++ v)
  | .vadd d a b k v => packR 0x58#8 d a b (k ++ 0#4 ++ v)
  | .vsub d a b k v => packR 0x59#8 d a b (k ++ 0#4 ++ v)
  | .vsadd d a b k v => packR 0x5A#8 d a b (k ++ 0#4 ++ v)
  | .vssub d a b k v => packR 0x5B#8 d a b (k ++ 0#4 ++ v)
  | .vmul d a b k v => packR 0x5C#8 d a b (k ++ 0#4 ++ v)
  | .vmulh d a b k v => packR 0x5D#8 d a b (k ++ 0#4 ++ v)
  | .vdiv d a b k e x v => packR 0x5E#8 d a b (k ++ e ++ x ++ v)
  | .vrem d a b k e x v => packR 0x5F#8 d a b (k ++ e ++ x ++ v)
  | .vmin d a b k v => packR 0x60#8 d a b (k ++ 0#4 ++ v)
  | .vmax d a b k v => packR 0x61#8 d a b (k ++ 0#4 ++ v)
  | .vand d a b k v => packR 0x62#8 d a b (k ++ 0#4 ++ v)
  | .vor d a b k v => packR 0x63#8 d a b (k ++ 0#4 ++ v)
  | .vxor d a b k v => packR 0x64#8 d a b (k ++ 0#4 ++ v)
  | .vsll d a b k v => packR 0x65#8 d a b (k ++ 0#4 ++ v)
  | .vsrl d a b k v => packR 0x66#8 d a b (k ++ 0#4 ++ v)
  | .vsra d a b k v => packR 0x67#8 d a b (k ++ 0#4 ++ v)
  | .vcmp d a b k p => packR 0x68#8 d a b (k ++ 0#4 ++ p)
  | .vsel d a b n v => packR 0x69#8 d a b (n ++ 0#4 ++ v)
  | .vpopc d a k v => packR 0x6A#8 d a 0#5 (k ++ 0#4 ++ v)
  | .vwmac d a b k v => packR 0x6B#8 d a b (k ++ 0#4 ++ v)
  | .vnsr d a b k v => packR 0x6C#8 d a b (k ++ 0#4 ++ v)
  | .vthrb d a b k v => packR 0x6D#8 d a b (k ++ 0#4 ++ v)
  | .vbtr d a v => packR 0x6E#8 d a 0#5 (0#7 ++ v)
  | .vmlog d a b k v => packR 0x6F#8 d a b (k ++ 0#4 ++ v)
  | .vfadd d a b k e x v => packR 0x70#8 d a b (k ++ e ++ x ++ v)
  | .vfsub d a b k e x v => packR 0x71#8 d a b (k ++ e ++ x ++ v)
  | .vfmul d a b k e x v => packR 0x72#8 d a b (k ++ e ++ x ++ v)
  | .vfdiv d a b k e x v => packR 0x73#8 d a b (k ++ e ++ x ++ v)
  | .vfma d a b k e x v => packR 0x74#8 d a b (k ++ e ++ x ++ v)
  | .vfmin d a b k e x v => packR 0x75#8 d a b (k ++ e ++ x ++ v)
  | .vfmax d a b k e x v => packR 0x76#8 d a b (k ++ e ++ x ++ v)
  | .vfcmp d a b k e x p => packR 0x77#8 d a b (k ++ e ++ x ++ p)
  | .vfsfu d a b k e x => packR 0x78#8 d a b (k ++ e ++ x ++ 0#2)
  | .vfcvt d a t k e x v => packR 0x79#8 d a (0#1 ++ t) (k ++ e ++ x ++ v)
  | .vfnar d a b k e x v => packR 0x7A#8 d a b (k ++ e ++ x ++ v)
  | .vfwid d a k e x v => packR 0x7B#8 d a 0#5 (k ++ e ++ x ++ v)
  | .vfq4 d a b k e x v => packR 0x7C#8 d a b (k ++ e ++ x ++ v)
  | .vfscl d a b k e x v => packR 0x7D#8 d a b (k ++ e ++ x ++ v)
  | .vfsgn d a b k v => packR 0x7E#8 d a b (k ++ 0#4 ++ v)
  | .vfcls d a k => packR 0x7F#8 d a 0#5 (k ++ 0#6)
  | .vred d a k o v => packR 0x80#8 d a 0#5 (k ++ 0#1 ++ o ++ v)
  | .vscan d a b k o v => packR 0x81#8 d a b (k ++ 0#1 ++ o ++ v)
  | .vslide d a b k v => packR 0x82#8 d a b (k ++ 0#4 ++ v)
  | .vgath d a b k e x v => packR 0x83#8 d a b (k ++ e ++ x ++ v)
  | .vcmpr d a b n => packR 0x84#8 d a b (n ++ 0#6)
  | .vsmx d a b k v => packR 0x85#8 d a b (k ++ 0#4 ++ v)
  | .vfetch d a b k e x v => packR 0x86#8 d a b (k ++ e ++ x ++ v)
  | .vlid d b k v => packR 0x87#8 d 0#5 b (k ++ 0#4 ++ v)
  | .menter d a => packR 0x90#8 d a 0#5 0#9
  | .mexit => packR 0x91#8 0#5 0#5 0#5 0#9
  | .mzero d v => packR 0x92#8 d 0#5 0#5 (0#7 ++ v)
  | .mopa d a b c r => packR 0x93#8 d a b (0#4 ++ c ++ r ++ 0#1)
  | .msclA a => packR 0x94#8 0#5 a 0#5 0#9
  | .msclW d b => packR 0x94#8 d 0#5 b 1#9
  | .mdrain d a b k e x v => packR 0x95#8 d a b (k ++ e ++ x ++ v)
  | .mfeed d a s q r => packR 0x96#8 d a 0#5 (s ++ q ++ r ++ 0#5)
  | .mstat d => packR 0x97#8 d 0#5 0#5 0#9
  | .pbank d a s q r => packR 0x98#8 d a 0#5 (s ++ q ++ r ++ 0#5)
  | .pbankNone d => packR 0x98#8 d 0#5 0#5 1#9
  | .peval d a s q r v => packR 0x99#8 d a 0#5 (s ++ q ++ r ++ 0#3 ++ v)
  | .pvote d a s q r v => packR 0x9A#8 d a 0#5 (s ++ q ++ r ++ 0#3 ++ v)
  | .pfeed d a s q r => packR 0x9B#8 d a 0#5 (s ++ q ++ r ++ 0#5)
  | .pstep a b s q r => packR 0x9C#8 0#5 a b (s ++ q ++ r ++ 0#5)
  | .pdraw d a b => packR 0x9D#8 d a b 0#9
  | .pkey a b => packR 0x9E#8 0#5 a b 0#9
  | .pkeySrc a => packR 0x9E#8 0#5 a 0#5 1#9
  | .pkeyEp a => packR 0x9E#8 0#5 a 0#5 2#9
  | .pplaneLd d a s q r => packR 0x9F#8 d a 0#5 (s ++ q ++ r ++ 0#5)
  | .pplaneSt a b s q r => packR 0x9F#8 0#5 a b (s ++ q ++ r ++ 1#5)
  | .tgbind d a s q r => packR 0xA0#8 d a 0#5 (s ++ q ++ r ++ 0#5)
  | .tgbindNone d => packR 0xA0#8 d 0#5 0#5 1#9
  | .tgload d s q r => packR 0xA1#8 d 0#5 0#5 (s ++ q ++ r ++ 0#5)
  | .tgscat s q r f => packR 0xA2#8 0#5 0#5 0#5 (s ++ q ++ r ++ f ++ 0#4)
  | .xconvV d a s q v => packR 0xA3#8 d a 0#5 (s ++ q ++ 0#5 ++ v)
  | .xconvS d a s q v => packR 0xA3#8 d a 0#5 (s ++ q ++ 1#5 ++ v)
  | .amoadd d a b s q r f v => packR 0xA4#8 d a b (s ++ q ++ r ++ f ++ 0#2 ++ v)
  | .amoand d a b s q r f v => packR 0xA5#8 d a b (s ++ q ++ r ++ f ++ 0#3 ++ v)
  | .amoor d a b s q r f v => packR 0xA6#8 d a b (s ++ q ++ r ++ f ++ 0#3 ++ v)
  | .amoxor d a b s q r f v => packR 0xA7#8 d a b (s ++ q ++ r ++ f ++ 0#3 ++ v)
  | .amomm d a b s q r f u v => packR 0xA8#8 d a b (s ++ q ++ r ++ f ++ u ++ 0#1 ++ v)
  | .amoswp d a b s q r f v => packR 0xA9#8 d a b (s ++ q ++ r ++ f ++ 0#3 ++ v)
  | .amocas d a b s q r f v => packR 0xAA#8 d a b (s ++ q ++ r ++ f ++ 0#3 ++ v)
  | .vsca d a b s r f v => packR 0xAB#8 d a b (s ++ 0#1 ++ r ++ f ++ 0#3 ++ v)
  | .fence s u => packR 0xAC#8 0#5 0#5 0#5 (s ++ 0#3 ++ u ++ 0#2)
  | .ldacq d a s v => packR 0xAD#8 d a 0#5 (s ++ 0#5 ++ v)
  | .strel a b s v => packR 0xAE#8 0#5 a b (s ++ 0#6 ++ v)
  | .bar a b s v => packR 0xAF#8 0#5 a b (s ++ 0#6 ++ v)
  | .barw d a b s v => packR 0xB0#8 d a b (s ++ 0#6 ++ v)
  | .wfe d a => packR 0xB1#8 d a 0#5 0#9
  | .sev a => packR 0xB2#8 0#5 a 0#5 0#9
  | .hwait d a b s => packR 0xB3#8 d a b (s ++ 0#7)
  | .cpy d a s q r v => packR 0xB4#8 d a 0#5 (s ++ q ++ r ++ 0#3 ++ v)
  | .coll d a s q r => packR 0xB5#8 d a 0#5 (s ++ q ++ r ++ 0#5)
  | .glaunch d a s q r => packR 0xB6#8 d a 0#5 (s ++ q ++ r ++ 0#5)
  | .glaunchRed d a s q r => packR 0xB6#8 d a 0#5 (s ++ q ++ r ++ 1#5)
  | .gstat d a s v => packR 0xB7#8 d a 0#5 (s ++ 0#6 ++ v)
  | .trap i => packI 0xB8#8 0#5 0#5 (0#1 ++ i)
  | .eret => packR 0xB9#8 0#5 0#5 0#5 0#9
  | .csrr d c => packI 0xBA#8 d 0#5 (0#2 ++ c)
  | .csrw a c => packI 0xBB#8 0#5 a (0#2 ++ c)
  | .csrx d a c => packI 0xBC#8 d a (0#2 ++ c)
  | .yield => packR 0xBD#8 0#5 0#5 0#5 0#9
  | .halt => packR 0xBE#8 0#5 0#5 0#5 0#9
  | .brk i => packI 0xBF#8 0#5 0#5 (0#1 ++ i)
  | _ => 0#32

/-- The 15 bits of a compact instruction; 0 for what is none. -/
def encodeK : Instr → BitVec 15
  | .kNop => 0#15
  | .kAdd d b => packK 0#4 d b
  | .kSub d b => packK 1#4 d b
  | .kAnd d b => packK 2#4 d b
  | .kOr d b => packK 3#4 d b
  | .kXor d b => packK 4#4 d b
  | .kSll d b => packK 5#4 d b
  | .kSrl d b => packK 6#4 d b
  | .kAddi d b => packK 7#4 d b
  | .kMv d b => packK 8#4 d b
  | .kBeqz o => 9#4 ++ o ++ 0#1
  | .kBnez o => 10#4 ++ o ++ 0#1
  | .kVadd d b => packK 11#4 d b
  | .kVfadd d b => packK 12#4 d b
  | .kVfmul d b => packK 13#4 d b
  | .kVfma d b => packK 14#4 d b
  | .kVmv d b => packK 15#4 d b
  | _ => 0#15

/-- The word of an element-block instruction; 0 for what is none. -/
def encodeE : Instr → BitVec 64
  | .ebr p a b v i => packE 0x88#8 0#5 a b 0#5 p 0#1 v i
  | .ejmp p i => packE 0x89#8 0#5 0#5 0#5 0#5 p 0#1 0#2 i
  | .esend p a => packE 0x8A#8 0#5 a 0#5 0#5 p 0#1 0#2 0#32
  | .erecv p d => packE 0x8B#8 d 0#5 0#5 0#5 p 0#1 0#2 0#32
  | .epred p a b m v i => packE 0x8C#8 0#5 a b 0#5 p m v i
  | .eidx p d m i => packE 0x8D#8 d 0#5 0#5 0#5 p m 0#2 i
  | .ecmt p => packE 0x8E#8 0#5 0#5 0#5 0#5 p 0#1 0#2 0#32
  | .estop => packE 0x8F#8 0#5 0#5 0#5 0#5 0#1 0#1 0#2 0#32
  | .elementWord op d a b c p m v i => packE op d a b c p m v i
  | _ => 0#64

/-- The word of a Grotto micro-operation; 0 for what is none. -/
def encodeG : Instr → BitVec 32
  | .grd k o g s p => 1#5 ++ k ++ o ++ g ++ s ++ p ++ 0#3
  | .gwr k o g s p => 3#5 ++ k ++ o ++ g ++ s ++ p ++ 0#3
  | .gadd w m n d a b => 5#5 ++ w ++ m ++ n ++ d ++ a ++ b ++ 0#14
  | .gsub w m n d a b => 7#5 ++ w ++ m ++ n ++ d ++ a ++ b ++ 0#14
  | .gmax w m n d a b => 9#5 ++ w ++ m ++ n ++ d ++ a ++ b ++ 0#14
  | .gacc w m n g b => 11#5 ++ w ++ m ++ n ++ g ++ b ++ 0#18
  | .gtq k h d a t s => 13#5 ++ k ++ h ++ 0#2 ++ d ++ a ++ 0#3 ++ t ++ s ++ 0#2
  | .gtq2 k h d a b t s => 15#5 ++ k ++ h ++ 0#2 ++ d ++ a ++ b ++ t ++ s ++ 0#2
  | .gshr m n h b c => 17#5 ++ m ++ n ++ h ++ b ++ c ++ 0#15
  | .gnar w m n g b => 19#5 ++ w ++ m ++ n ++ g ++ b ++ 0#18
  | .grow => 20#5 ++ 0#27
  | .gloop n t => 22#5 ++ n ++ t ++ 0#18
  | .gqin => 24#5 ++ 0#27
  | .gqout => 26#5 ++ 0#27
  | .gsync => 28#5 ++ 0#27
  | .gend => 30#5 ++ 0#27
  | _ => 0#32

/-- The form of word an instruction is written in. -/
inductive Form where
  | slot
  | compact
  | element
  | micro
  /-- A step of the device that no word names. -/
  | event
  deriving DecidableEq, Repr

/-- The form of each instruction (R108, R113, R116, R118). -/
def Instr.form : Instr → Form
  | .add _ _ _ => .slot
  | .sub _ _ _ => .slot
  | .and _ _ _ => .slot
  | .or _ _ _ => .slot
  | .xor _ _ _ => .slot
  | .sll _ _ _ => .slot
  | .srl _ _ _ => .slot
  | .sra _ _ _ => .slot
  | .slt _ _ _ => .slot
  | .sltu _ _ _ => .slot
  | .min _ _ _ => .slot
  | .minu _ _ _ => .slot
  | .max _ _ _ => .slot
  | .maxu _ _ _ => .slot
  | .mul _ _ _ => .slot
  | .mulh _ _ _ => .slot
  | .mulhu _ _ _ => .slot
  | .div _ _ _ => .slot
  | .divu _ _ _ => .slot
  | .rem _ _ _ => .slot
  | .remu _ _ _ => .slot
  | .addi _ _ _ => .slot
  | .andi _ _ _ => .slot
  | .ori _ _ _ => .slot
  | .xori _ _ _ => .slot
  | .slli _ _ _ => .slot
  | .srli _ _ _ => .slot
  | .srai _ _ _ => .slot
  | .slti _ _ _ => .slot
  | .lui _ _ => .slot
  | .aupc _ _ => .slot
  | .bop _ _ _ => .slot
  | .beq _ _ _ => .slot
  | .bne _ _ _ => .slot
  | .blt _ _ _ => .slot
  | .bge _ _ _ => .slot
  | .bltu _ _ _ => .slot
  | .bgeu _ _ _ => .slot
  | .jal _ _ => .slot
  | .jalr _ _ _ => .slot
  | .ld _ _ _ _ => .slot
  | .ldu _ _ _ _ => .slot
  | .st _ _ _ _ => .slot
  | .fld _ _ _ _ => .slot
  | .fst _ _ _ _ => .slot
  | .qpush _ _ _ => .slot
  | .qpop _ _ _ => .slot
  | .qbr _ _ _ => .slot
  | .fadd _ _ _ _ => .slot
  | .fsub _ _ _ _ => .slot
  | .fmul _ _ _ _ => .slot
  | .fdiv _ _ _ _ => .slot
  | .fsqrt _ _ _ => .slot
  | .fma _ _ _ _ => .slot
  | .fms _ _ _ _ => .slot
  | .fmin _ _ _ _ => .slot
  | .fmax _ _ _ _ => .slot
  | .fcmp _ _ _ _ => .slot
  | .fcvtfi _ _ _ => .slot
  | .fcvtif _ _ _ => .slot
  | .fcvtff _ _ _ _ => .slot
  | .fmvfx _ _ _ => .slot
  | .fsgn _ _ _ _ => .slot
  | .fclass _ _ _ => .slot
  | .setvl _ _ _ _ => .slot
  | .setvl2 _ _ _ _ => .slot
  | .setdim _ _ _ => .slot
  | .settype _ _ => .slot
  | .sdecl _ _ _ _ => .slot
  | .sdeclEnd _ => .slot
  | .shw _ _ _ => .slot
  | .swait _ => .slot
  | .vgrant _ => .slot
  | .vld _ _ _ _ _ => .slot
  | .vlds _ _ _ _ _ => .slot
  | .vld2 _ _ _ _ _ _ => .slot
  | .vldx _ _ _ _ _ _ => .slot
  | .vldseg _ _ _ _ _ => .slot
  | .vst _ _ _ _ _ => .slot
  | .vsts _ _ _ _ _ => .slot
  | .vst2 _ _ _ _ _ _ => .slot
  | .vstx _ _ _ _ _ _ => .slot
  | .vstseg _ _ _ _ _ => .slot
  | .lfe _ _ _ _ _ => .slot
  | .lwait _ _ _ _ _ => .slot
  | .vpop _ _ _ => .slot
  | .vpush _ _ _ => .slot
  | .vmv _ _ _ _ _ _ => .slot
  | .vsplat _ _ _ _ => .slot
  | .vadd _ _ _ _ _ => .slot
  | .vsub _ _ _ _ _ => .slot
  | .vsadd _ _ _ _ _ => .slot
  | .vssub _ _ _ _ _ => .slot
  | .vmul _ _ _ _ _ => .slot
  | .vmulh _ _ _ _ _ => .slot
  | .vdiv _ _ _ _ _ _ _ => .slot
  | .vrem _ _ _ _ _ _ _ => .slot
  | .vmin _ _ _ _ _ => .slot
  | .vmax _ _ _ _ _ => .slot
  | .vand _ _ _ _ _ => .slot
  | .vor _ _ _ _ _ => .slot
  | .vxor _ _ _ _ _ => .slot
  | .vsll _ _ _ _ _ => .slot
  | .vsrl _ _ _ _ _ => .slot
  | .vsra _ _ _ _ _ => .slot
  | .vcmp _ _ _ _ _ => .slot
  | .vsel _ _ _ _ _ => .slot
  | .vpopc _ _ _ _ => .slot
  | .vwmac _ _ _ _ _ => .slot
  | .vnsr _ _ _ _ _ => .slot
  | .vthrb _ _ _ _ _ => .slot
  | .vbtr _ _ _ => .slot
  | .vmlog _ _ _ _ _ => .slot
  | .vfadd _ _ _ _ _ _ _ => .slot
  | .vfsub _ _ _ _ _ _ _ => .slot
  | .vfmul _ _ _ _ _ _ _ => .slot
  | .vfdiv _ _ _ _ _ _ _ => .slot
  | .vfma _ _ _ _ _ _ _ => .slot
  | .vfmin _ _ _ _ _ _ _ => .slot
  | .vfmax _ _ _ _ _ _ _ => .slot
  | .vfcmp _ _ _ _ _ _ _ => .slot
  | .vfsfu _ _ _ _ _ _ => .slot
  | .vfcvt _ _ _ _ _ _ _ => .slot
  | .vfnar _ _ _ _ _ _ _ => .slot
  | .vfwid _ _ _ _ _ _ => .slot
  | .vfq4 _ _ _ _ _ _ _ => .slot
  | .vfscl _ _ _ _ _ _ _ => .slot
  | .vfsgn _ _ _ _ _ => .slot
  | .vfcls _ _ _ => .slot
  | .vred _ _ _ _ _ => .slot
  | .vscan _ _ _ _ _ _ => .slot
  | .vslide _ _ _ _ _ => .slot
  | .vgath _ _ _ _ _ _ _ => .slot
  | .vcmpr _ _ _ _ => .slot
  | .vsmx _ _ _ _ _ => .slot
  | .vfetch _ _ _ _ _ _ _ => .slot
  | .vlid _ _ _ _ => .slot
  | .menter _ _ => .slot
  | .mexit => .slot
  | .mzero _ _ => .slot
  | .mopa _ _ _ _ _ => .slot
  | .msclA _ => .slot
  | .msclW _ _ => .slot
  | .mdrain _ _ _ _ _ _ _ => .slot
  | .mfeed _ _ _ _ _ => .slot
  | .mstat _ => .slot
  | .pbank _ _ _ _ _ => .slot
  | .pbankNone _ => .slot
  | .peval _ _ _ _ _ _ => .slot
  | .pvote _ _ _ _ _ _ => .slot
  | .pfeed _ _ _ _ _ => .slot
  | .pstep _ _ _ _ _ => .slot
  | .pdraw _ _ _ => .slot
  | .pkey _ _ => .slot
  | .pkeySrc _ => .slot
  | .pkeyEp _ => .slot
  | .pplaneLd _ _ _ _ _ => .slot
  | .pplaneSt _ _ _ _ _ => .slot
  | .tgbind _ _ _ _ _ => .slot
  | .tgbindNone _ => .slot
  | .tgload _ _ _ _ => .slot
  | .tgscat _ _ _ _ => .slot
  | .xconvV _ _ _ _ _ => .slot
  | .xconvS _ _ _ _ _ => .slot
  | .amoadd _ _ _ _ _ _ _ _ => .slot
  | .amoand _ _ _ _ _ _ _ _ => .slot
  | .amoor _ _ _ _ _ _ _ _ => .slot
  | .amoxor _ _ _ _ _ _ _ _ => .slot
  | .amomm _ _ _ _ _ _ _ _ _ => .slot
  | .amoswp _ _ _ _ _ _ _ _ => .slot
  | .amocas _ _ _ _ _ _ _ _ => .slot
  | .vsca _ _ _ _ _ _ _ => .slot
  | .fence _ _ => .slot
  | .ldacq _ _ _ _ => .slot
  | .strel _ _ _ _ => .slot
  | .bar _ _ _ _ => .slot
  | .barw _ _ _ _ _ => .slot
  | .wfe _ _ => .slot
  | .sev _ => .slot
  | .hwait _ _ _ _ => .slot
  | .cpy _ _ _ _ _ _ => .slot
  | .coll _ _ _ _ _ => .slot
  | .glaunch _ _ _ _ _ => .slot
  | .glaunchRed _ _ _ _ _ => .slot
  | .gstat _ _ _ _ => .slot
  | .trap _ => .slot
  | .eret => .slot
  | .csrr _ _ => .slot
  | .csrw _ _ => .slot
  | .csrx _ _ _ => .slot
  | .yield => .slot
  | .halt => .slot
  | .brk _ => .slot
  | .ebr _ _ _ _ _ => .element
  | .ejmp _ _ => .element
  | .esend _ _ => .element
  | .erecv _ _ => .element
  | .epred _ _ _ _ _ _ => .element
  | .eidx _ _ _ _ => .element
  | .ecmt _ => .element
  | .estop => .element
  | .elementWord _ _ _ _ _ _ _ _ _ => .element
  | .kNop => .compact
  | .kAdd _ _ => .compact
  | .kSub _ _ => .compact
  | .kAnd _ _ => .compact
  | .kOr _ _ => .compact
  | .kXor _ _ => .compact
  | .kSll _ _ => .compact
  | .kSrl _ _ => .compact
  | .kAddi _ _ => .compact
  | .kMv _ _ => .compact
  | .kBeqz _ => .compact
  | .kBnez _ => .compact
  | .kVadd _ _ => .compact
  | .kVfadd _ _ => .compact
  | .kVfmul _ _ => .compact
  | .kVfma _ _ => .compact
  | .kVmv _ _ => .compact
  | .grd _ _ _ _ _ => .micro
  | .gwr _ _ _ _ _ => .micro
  | .gadd _ _ _ _ _ _ => .micro
  | .gsub _ _ _ _ _ _ => .micro
  | .gmax _ _ _ _ _ _ => .micro
  | .gacc _ _ _ _ _ => .micro
  | .gtq _ _ _ _ _ _ => .micro
  | .gtq2 _ _ _ _ _ _ _ => .micro
  | .gshr _ _ _ _ _ => .micro
  | .gnar _ _ _ _ _ => .micro
  | .grow => .micro
  | .gloop _ _ => .micro
  | .gqin => .micro
  | .gqout => .micro
  | .gsync => .micro
  | .gend => .micro
  | .elementGroupCommit => .event
  | .pevalRun => .event
  | .pvoteRun => .event
  | .pfeedRun => .event
  | .pstepRun => .event
  | .pplaneRun => .event
  | .grottoKernelStart _ => .event
  | .kernelSuspend _ => .event
  | .kernelResume _ => .event
  | .refresh _ => .event
  | .activationCountAlert _ _ => .event
  | .kernelRevoke _ => .event
  | .reduceListStart _ => .event
  | .reduceCommandWord _ => .event
  | .execute _ _ _ _ _ => .event
  | .drain _ => .event
  | .combine _ => .event
  | .pageWalk _ => .event
  | .grantRecompute _ => .event
  | .barwRecheck _ => .event
  | .lineFullWake _ => .event
  | .queueStallRelease _ _ => .event
  | .copyChunk _ => .event
  | .copyComplete _ => .event
  | .streamLineFill _ _ => .event
  | .mfeedEntry _ => .event
  | .operandsConsumed _ => .event
  | .userInterruptEntry _ => .event
  | .pendingFaultTake _ => .event
  | .lateFault _ _ _ _ _ => .event
  | .launchFaultStop _ => .event
  | .collectiveRun _ => .event
  | .collectiveAbort _ _ => .event
  | .peerRetransmitLimit _ _ => .event
  | .peerDatagramReceive _ _ => .event
  | .peerLinkDown _ => .event
  | .xstat _ => .event
  | .transferComplete _ _ => .event
  | .qtab _ => .event
  | .ptab _ => .event
  | .devstatEventClear _ => .event
  | .mgmtRegisterWrite _ _ => .event
  | .hostMemRead _ _ => .event
  | .hostMemWrite _ _ _ => .event
  | .tailWordObserve _ _ => .event
  | .queueEnable _ => .event
  | .queueDisable _ => .event
  | .recordTake _ => .event
  | .launch _ => .event
  | .translationInvalidation _ => .event
  | .invalidationComplete _ => .event
  | .cancel _ => .event
  | .evict _ => .event
  | .resume _ => .event
  | .teamPlace _ _ => .event
  | .teamStart _ => .event
  | .teamEnd _ => .event
  | .quantumExpiry _ => .event
  | .quantumGraceExpiry _ => .event
  | .preemption _ => .event
  | .teamResume _ => .event
  | .ceilingChange _ _ _ => .event
  | .residueMismatch _ _ _ => .event
  | .deviceReset => .event
  | .bootRomVerify _ => .event
  | .recoveryImageLoad _ => .event
  | .thermalTrip => .event
  | .flitReplay => .event
  | .moduleRetrainFail _ => .event
  | .hostLinkDown => .event
  | .viralReceived => .event
  | .watchdogExpiry => .event
  | .fatalError _ _ _ => .event
  | .accessTableUpdate _ _ _ _ => .event
  | .attestationRequest _ => .event
  | .eccCounterReadClear _ => .event
  | .lostWriteCountReadClear _ => .event
  | .faultRecordRead _ => .event
  | .errorLogRead => .event
  | .laneDisableMaskReload _ _ => .event
  | .dumpRead _ => .event
  | .dumpClear => .event
  | .issueOpportunity _ => .event
  | .powerDown => .event
  | .hdmRangeDecode _ => .event
  | .datagramRetransmit => .event
  | .peerLinkUp _ => .event

/-- The word of a well-formed instruction in its own form, the bits above its width zero. A compact instruction
stands in the first half of a K-form slot whose second half is `k.nop` (R113). -/
def encode (i : Instr) : BitVec 64 :=
  match i.form with
  | .slot => (encodeC i).setWidth 64
  | .compact => ((3#2 ++ encodeK i ++ 0#15 : BitVec 32)).setWidth 64
  | .element => encodeE i
  | .micro => (encodeG i).setWidth 64
  | .event => 0#64

/-- The reading of a word in a given form. -/
def decode (f : Form) (w : BitVec 64) : Decoded :=
  match f with
  | .slot => decodeSlot (fld w 0 32) false
  | .compact => decodeSlot (fld w 0 32) false
  | .element => decodeE w
  | .micro => decodeG (fld w 0 32)
  | .event => .wrongForm

/-- A word of the opcode table as a core hart reads it: every row with bits is one 32-bit word, bit 0 the least
significant (R104). Micro-words never reach a hart (R118), so a bit string is read as a slot. -/
def decodeTableWord (nbits w : Nat) : Option Instr :=
  if nbits ≤ 32 then (decodeSlot (BitVec.ofNat 32 w) false).toOption
  else (decodeE (BitVec.ofNat 64 w)).toOption

end Sys2Proof
end

