-- ==== Sys2Proof/Config.lean ====
section
/-! DEFINITION. What the manual leaves to the part or to its surroundings, as constants without a body: nothing in
Lean can see their values. Each takes a number the step reads from `State.ticks`, or the data it depends on. -/

namespace Sys2Proof.Config

/-- Core cycles that pass in core g beyond one at the n-th step: cycle counts are not architectural, and the counts of two
cores differ by an undefined amount (R6, R27). -/
opaque coreCycles : Nat → Nat → Nat
/-- Which of the states that an aligned unit of code has been in a fetch of the n-th step sees, by the unit's home address
(R107). -/
opaque unitSeen : Nat → Nat → Nat
/-- Whether a data entry that has not come yet will supply an element of the store of the n-th step (R156, R378). -/
opaque comesLater : Nat → Nat → Bool
/-- Whether a further fatal cause of the n-th step fell in the cycle of the first (R413). -/
opaque sameCycle : Nat → Bool
/-- Whether a device physical address lies in firmware's reserved region (R410 does not say how far it reaches). -/
opaque firmwareRegion : Nat → Bool
/-- The micro-word that a sequencer finds beyond the pages of a kernel's image, at the n-th step: a record that is resumed
may name one (R327), and the spec says nothing of it. -/
opaque strayWord : Nat → BitVec 32
/-- Entry of the firmware's system trap handler (R78). -/
opaque trapEntry : Word
/-- Verification of an ML-DSA-65 signature by FIPS 204 (R373): public key, message, signature. -/
opaque mlDsaVerify : List Byte → List Byte → List Byte → Bool
/-- SHAKE256 of FIPS 202 (R373, R374): the input and the number of bytes asked for. -/
opaque shake256 : List Byte → Nat → List Byte
/-- The digest of the public key that the boot ROM holds (R373). -/
opaque romDigest : List Byte
/-- The signature by the device identity key over the evidence (R374); the key never leaves the controller. -/
opaque identitySign : List Byte → List Byte
/-- The certified public key of the device identity, which the mailbox returns with the evidence (R374). -/
opaque identityKey : List Byte
/-- After a collective error, whether an element holds its final value (R405: not defined which). -/
opaque collFinal : Nat → Nat → Bool
/-- Whether a granule of the result received poisoned data from a peer (R405), and the detail word and address that a
rank writes for a failure it has only heard of (R404 states neither). -/
opaque collPoison : Nat → Nat → Bool
opaque collDetail : Nat → Word
opaque collAddr : Nat → Word
/-- The number of the device's own datagram that is resent at a step: which one no peer acknowledges in time is open
(R364). -/
opaque lostDatagram : Nat → Nat
/-- After a failed block transfer, whether a 64-byte granule holds the sent bytes (R406). -/
opaque xferSent : Nat → Nat → Bool
/-- The bytes of the image parts that are private to the device (R425), for a record that holds something. -/
opaque privateByte : Nat → Nat → Byte
/-- Byte k of an entry of the residue error log as the dump lays it out (R412 gives its 16 bytes no layout): core,
unit, element and whether it is marked retired. -/
opaque logByte : Nat → Nat → Nat → Bool → Nat → Byte
/-- Byte k of a refusal log as the dump lays it out (R412 gives its 32 bytes no layout): count, domain and address. -/
opaque refusalByte : BitVec 32 → BitVec 16 → Word → Nat → Byte
/-- The result of finishing a carry stack whose count is 2^48 or more (R96 states none): the stack. -/
opaque carryBeyond : BitVec 65536 → Word
/-- A carry stack after a push that finds no free slot (R96 states none): the stack and the value. -/
opaque carryFull : BitVec 65536 → Word → BitVec 65536
/-- High half of the tag by which the model names the private parts of an image (R425 gives them no layout). -/
opaque imageTag : Nat → BitVec 32
/-- Silicon stepping of the part (R360). -/
opaque stepping : BitVec 16

end Sys2Proof.Config
end

