-- ==== Sys2Proof/Machine/Float.lean ====
section
/-! DEFINITION. Numbers (R79 to R97): the floating-point formats, rounding, exact arithmetic before one rounding, the
correctly rounded functions, fixed-point rounding and the x64 contribution. -/

namespace Sys2Proof.Machine

/-- The floating-point formats (R79). -/
inductive Fmt where
  | fp64
  | fp32
  | fp16
  | bf16
  | e5m2
  | e4m3
  | e2m1
  deriving DecidableEq, Repr

/-- Width in bits (R79). -/
def Fmt.width : Fmt → Nat
  | .fp64 => 64
  | .fp32 => 32
  | .fp16 => 16
  | .bf16 => 16
  | .e5m2 => 8
  | .e4m3 => 8
  | .e2m1 => 4

/-- Exponent bits (R79). -/
def Fmt.ebits : Fmt → Nat
  | .fp64 => 11
  | .fp32 => 8
  | .fp16 => 5
  | .bf16 => 8
  | .e5m2 => 5
  | .e4m3 => 4
  | .e2m1 => 2

/-- Fraction bits (R79). -/
def Fmt.fbits : Fmt → Nat
  | .fp64 => 52
  | .fp32 => 23
  | .fp16 => 10
  | .bf16 => 7
  | .e5m2 => 2
  | .e4m3 => 3
  | .e2m1 => 1

/-- Bias (R79). -/
def Fmt.bias : Fmt → Nat
  | .fp64 => 1023
  | .fp32 => 127
  | .fp16 => 15
  | .bf16 => 127
  | .e5m2 => 15
  | .e4m3 => 7
  | .e2m1 => 1

/-- The format reserves the top exponent for infinities and NaNs (R79). -/
def Fmt.ieee : Fmt → Bool
  | .e4m3 => false
  | .e2m1 => false
  | _ => true

/-- Magnitude code of the largest finite value (R79). -/
def Fmt.maxCode : Fmt → Nat
  | .e4m3 => 0x7E
  | .e2m1 => 0x7
  | f => (2 ^ f.ebits - 1) * 2 ^ f.fbits - 1

/-- Default NaN (R79), and +0 in e2m1, which has none (R83). -/
def Fmt.defaultNaN : Fmt → Word
  | .fp64 => 0x7FF8000000000000
  | .fp32 => 0x7FC00000
  | .fp16 => 0x7E00
  | .bf16 => 0x7FC0
  | .e5m2 => 0x7E
  | .e4m3 => 0x7F
  | .e2m1 => 0

/-- Rounding modes (R86, R87): `sr` carries its draw. -/
inductive Rnd where
  | rne
  | rtz
  | rdn
  | rup
  | rmm
  | sr (delta : BitVec 16)
  deriving DecidableEq, Repr

/-- The mode that `frm` names (R67); 5 to 7 are never stored. -/
def Rnd.ofFrm (c : BitVec 3) : Rnd :=
  match c.toNat with
  | 0 => .rne
  | 1 => .rtz
  | 2 => .rdn
  | 3 => .rup
  | _ => .rmm

/-- A number: a NaN, an infinity, or (-1)^neg x m x 2^e. `sticky` says that the exact magnitude lies strictly between m
and m + 1 units. -/
inductive Num where
  | nan (signalling : Bool)
  | inf (neg : Bool)
  | fin (neg : Bool) (m : Nat) (e : Int) (sticky : Bool)
  deriving DecidableEq, Repr

/-- Flags in the order of `fflags` (R68). -/
abbrev Flags := BitVec 5
def Flags.none : Flags := 0
def Flags.nv : Flags := 0b10000#5
def Flags.dz : Flags := 0b01000#5
def Flags.of : Flags := 0b00100#5
def Flags.uf : Flags := 0b00010#5
def Flags.nx : Flags := 0b00001#5

/-- The value a code denotes (R79, R80). -/
def Fmt.unpack (f : Fmt) (w : Word) : Num :=
  let b := w.toNat
  let neg := b.testBit (f.width - 1)
  let ex := b / 2 ^ f.fbits % 2 ^ f.ebits
  let fr := b % 2 ^ f.fbits
  if f.ieee && ex == 2 ^ f.ebits - 1 then
    if fr == 0 then .inf neg else .nan (fr < 2 ^ (f.fbits - 1))
  else if f == .e4m3 && ex == 15 && fr == 7 then .nan false
  else if ex == 0 then .fin neg fr (1 - f.bias - f.fbits) false
  else .fin neg (2 ^ f.fbits + fr) (ex - f.bias - f.fbits) false

/-- The code with sign `neg` and magnitude code `c`. -/
def Fmt.code (f : Fmt) (neg : Bool) (c : Nat) : Word :=
  BitVec.ofNat 64 (if neg then 2 ^ (f.width - 1) + c else c)

def Fmt.infinity (f : Fmt) (neg : Bool) : Word := f.code neg ((2 ^ f.ebits - 1) * 2 ^ f.fbits)
def Fmt.zero (f : Fmt) (neg : Bool) : Word := f.code neg 0
def Fmt.maxFinite (f : Fmt) (neg : Bool) : Word := f.code neg f.maxCode
def Fmt.neg? (f : Fmt) (w : Word) : Bool := w.toNat.testBit (f.width - 1)
def Fmt.isNaN (f : Fmt) (w : Word) : Bool :=
  match f.unpack w with
  | .nan _ => true
  | _ => false

/-- Whether a magnitude of `t` whole units and `low / 2^d` of the next (more when `sticky`) rounds away from zero. -/
def Rnd.up (r : Rnd) (neg : Bool) (t low d : Nat) (sticky : Bool) : Bool :=
  match r with
  | .rne => 2 * low > 2 ^ d || (2 * low == 2 ^ d && (sticky || t % 2 == 1) && d != 0)
  | .rmm => 2 * low ≥ 2 ^ d && d != 0
  | .rtz => false
  | .rdn => neg && (low != 0 || sticky)
  | .rup => !neg && (low != 0 || sticky)
  | .sr delta => delta.toNat < 65536 * low / 2 ^ d

/-- What a value beyond the largest finite one becomes (R83, R86, R87). -/
def Fmt.overflow (f : Fmt) (r : Rnd) (neg : Bool) : Word :=
  if !f.ieee then f.maxFinite neg
  else
    match r with
    | .rtz => f.maxFinite neg
    | .rdn => if neg then f.infinity neg else f.maxFinite neg
    | .rup => if neg then f.maxFinite neg else f.infinity neg
    | _ => f.infinity neg

/-- Whole units, remainder and its width when m x 2^e is cut at 2^q. -/
def cutAt (m : Nat) (e q : Int) : Nat × Nat × Nat :=
  if q ≤ e then (m * 2 ^ (e - q).toNat, 0, 0)
  else
    let d := (q - e).toNat
    (m / 2 ^ d, m % 2 ^ d, d)

/-- round_to of a finite value, with the flags IEEE 754 gives (R82, R86, R87). -/
def Fmt.roundFin (f : Fmt) (r : Rnd) (neg : Bool) (m : Nat) (e : Int) (sticky : Bool) : Word × Flags :=
  if m == 0 && !sticky then (f.zero neg, 0)
  else
    let top : Int := e + Nat.log2 m
    let emin : Int := 1 - f.bias
    let q : Int := max top emin - f.fbits
    let c := cutAt m e q
    let up := r.up neg c.1 c.2.1 c.2.2 sticky
    let inexact := c.2.1 != 0 || sticky
    let low : Nat := (q + f.fbits + f.bias - 1).toNat * 2 ^ f.fbits + c.1
    let code := if up then low + 1 else low
    let past := match r with
      | .sr _ => (!f.ieee && (low > f.maxCode || (low == f.maxCode && inexact)))
      | _ => false
    if code > f.maxCode || past then (f.overflow r neg, Flags.of ||| Flags.nx)
    else
      let u := cutAt m e (top - f.fbits)
      let uUp := r.up neg u.1 u.2.1 u.2.2 sticky
      let tiny := top < emin && !(top + 1 == emin && uUp && u.1 + 1 == 2 ^ (f.fbits + 1))
      (f.code neg code, if inexact then (if tiny then Flags.uf ||| Flags.nx else Flags.nx) else 0)

/-- Conversion of a number to a format (R82, R83, R86, R87). -/
def Fmt.round (f : Fmt) (r : Rnd) (v : Num) : Word × Flags :=
  match v with
  | .nan sig => (f.defaultNaN, if sig || !f.ieee then Flags.nv else 0)
  | .inf neg => if f.ieee then (f.infinity neg, 0) else (f.maxFinite neg, Flags.of)
  | .fin neg m e st => f.roundFin r neg m e st

/-- Conversion between formats (R83, R86). -/
def fpConvert (src dst : Fmt) (r : Rnd) (w : Word) : Word × Flags := dst.round r (src.unpack w)

/-! ## Arithmetic: exact, then one rounding -/

def Num.neg? : Num → Bool
  | .nan _ => false
  | .inf n => n
  | .fin n _ _ _ => n

def Num.isZero : Num → Bool
  | .fin _ 0 _ false => true
  | _ => false

def Num.isNaN : Num → Bool
  | .nan _ => true
  | _ => false

def Num.isSNaN : Num → Bool
  | .nan s => s
  | _ => false

def Num.isInf : Num → Bool
  | .inf _ => true
  | _ => false

def Num.negate : Num → Num
  | .nan s => .nan s
  | .inf n => .inf (!n)
  | .fin n m e s => .fin (!n) m e s

/-- Exact product; `none` when it is invalid (0 x infinity). -/
def Num.mul? : Num → Num → Option Num
  | .nan _, _ => some (.nan false)
  | _, .nan _ => some (.nan false)
  | .inf a, .inf b => some (.inf (a != b))
  | .inf a, .fin b m _ _ => if m == 0 then none else some (.inf (a != b))
  | .fin a m _ _, .inf b => if m == 0 then none else some (.inf (a != b))
  | .fin a m e s, .fin b n g t => some (.fin (a != b) (m * n) (e + g) (s || t))

/-- Exact sum; `none` when it is invalid (infinities of both signs). An exact zero takes the sign IEEE 754 gives it:
that of both zeros, else - under RDN and + otherwise. -/
def Num.add? (r : Rnd) : Num → Num → Option Num
  | .nan _, _ => some (.nan false)
  | _, .nan _ => some (.nan false)
  | .inf a, .inf b => if a == b then some (.inf a) else none
  | .inf a, .fin _ _ _ _ => some (.inf a)
  | .fin _ _ _ _, .inf b => some (.inf b)
  | .fin a m e s, .fin b n g t =>
    let lo := min e g
    let x : Int := m * 2 ^ (e - lo).toNat
    let y : Int := n * 2 ^ (g - lo).toNat
    let v := (if a then -x else x) + (if b then -y else y)
    if v == 0 then
      some (.fin (if m == 0 && n == 0 && a == b then a else r == .rdn) 0 0 false)
    else some (.fin (v < 0) v.natAbs lo (s || t))

/-- The default NaN with nv. -/
def Fmt.invalid (f : Fmt) : Word × Flags := (f.defaultNaN, Flags.nv)

/-- Rounds an arithmetic result; a NaN operand gives the default NaN, with nv if one signals (R82). -/
def Fmt.finish (f : Fmt) (r : Rnd) (sig : Bool) (v : Option Num) : Word × Flags :=
  match v with
  | none => f.invalid
  | some (.nan _) => (f.defaultNaN, if sig then Flags.nv else 0)
  | some v => f.round r v

def fpAdd (f : Fmt) (r : Rnd) (a b : Word) : Word × Flags :=
  let x := f.unpack a
  let y := f.unpack b
  f.finish r (x.isSNaN || y.isSNaN) (x.add? r y)

def fpSub (f : Fmt) (r : Rnd) (a b : Word) : Word × Flags :=
  let x := f.unpack a
  let y := f.unpack b
  f.finish r (x.isSNaN || y.isSNaN) (x.add? r y.negate)

def fpMul (f : Fmt) (r : Rnd) (a b : Word) : Word × Flags :=
  let x := f.unpack a
  let y := f.unpack b
  f.finish r (x.isSNaN || y.isSNaN) (x.mul? y)

/-- a x b + c, one rounding; 0 x infinity is invalid whatever c is. -/
def fpFma (f : Fmt) (r : Rnd) (a b c : Word) (subtract : Bool) : Word × Flags :=
  let x := f.unpack a
  let y := f.unpack b
  let z := if subtract then (f.unpack c).negate else f.unpack c
  match x.mul? y with
  | none => f.invalid
  | some p => f.finish r (x.isSNaN || y.isSNaN || z.isSNaN) (p.add? r z)

/-- Quotient of m x 2^e by n x 2^g, to 130 bits or more, with what is left as `sticky`. -/
def quotient (neg : Bool) (m : Nat) (e : Int) (n : Nat) (g : Int) : Num :=
  let k := 130 + Nat.log2 n - Nat.log2 m
  .fin neg (m * 2 ^ k / n) (e - k - g) (m * 2 ^ k % n != 0)

/-- a / b with dz and nv (R135). -/
def fpDiv (f : Fmt) (r : Rnd) (a b : Word) : Word × Flags :=
  let x := f.unpack a
  let y := f.unpack b
  match x, y with
  | .nan s, y => (f.defaultNaN, if s || y.isSNaN then Flags.nv else 0)
  | _, .nan s => (f.defaultNaN, if s then Flags.nv else 0)
  | .inf _, .inf _ => f.invalid
  | .inf p, .fin q _ _ _ => (f.infinity (p != q), 0)
  | .fin p _ _ _, .inf q => (f.zero (p != q), 0)
  | .fin p m e _, .fin q n g _ =>
    if n == 0 then
      if m == 0 then f.invalid
      else (if f.ieee then f.infinity (p != q) else f.maxFinite (p != q), Flags.dz)
    else if m == 0 then (f.zero (p != q), 0)
    else f.round r (quotient (p != q) m e n g)

/-- Integer square root by bits from 2^(k-1) down. -/
def isqrtFrom : Nat → Nat → Nat → Nat
  | 0, _, root => root
  | k + 1, n, root =>
    if (root + 2 ^ k) * (root + 2 ^ k) ≤ n then isqrtFrom k n (root + 2 ^ k) else isqrtFrom k n root

def isqrt (n : Nat) : Nat := isqrtFrom (Nat.log2 n / 2 + 1) n 0

/-- Square root of m x 2^e, to 130 bits or more. -/
def squareRoot (m : Nat) (e : Int) : Num :=
  let k : Int := 2 * 130 + (if (e % 2 == 0) then 0 else 1)
  let n := m * 2 ^ k.toNat
  let root := isqrt n
  .fin false root ((e - k) / 2) (root * root != n)

/-- √a (R135): √-0 = -0, a < 0 raises nv. -/
def fpSqrt (f : Fmt) (r : Rnd) (a : Word) : Word × Flags :=
  match f.unpack a with
  | .nan s => (f.defaultNaN, if s then Flags.nv else 0)
  | .inf neg => if neg then f.invalid else (f.infinity false, 0)
  | .fin neg m e _ =>
    if m == 0 then (f.zero neg, 0) else if neg then f.invalid else f.round r (squareRoot m e)

/-! ## Comparison, minimum and maximum -/

/-- Order of two finite values: negative, zero or positive as a is below, at or above b. -/
def finOrder (na : Bool) (m : Nat) (e : Int) (nb : Bool) (n : Nat) (g : Int) : Int :=
  let lo := min e g
  let x : Int := m * 2 ^ (e - lo).toNat
  let y : Int := n * 2 ^ (g - lo).toNat
  (if na then -x else x) - (if nb then -y else y)

/-- a < b for numbers that are not NaN; -0 = +0. -/
def Num.lt : Num → Num → Bool
  | .nan _, _ => false
  | _, .nan _ => false
  | .inf a, .inf b => a && !b
  | .inf a, .fin _ _ _ _ => a
  | .fin _ _ _ _, .inf b => !b
  | .fin a m e _, .fin b n g _ => finOrder a m e b n g < 0

/-- a = b for numbers that are not NaN; -0 = +0. -/
def Num.eq : Num → Num → Bool
  | .inf a, .inf b => a == b
  | .fin a m e _, .fin b n g _ => finOrder a m e b n g == 0
  | _, _ => false

/-- Reduction operations (R94). -/
inductive RedOp where
  | sum
  | max
  | min
  deriving DecidableEq, Repr

/-- The larger or the smaller of two values, with max(-0, +0) = +0 and min(-0, +0) = -0; a NaN gives the default NaN
(R94). -/
def fpPick (f : Fmt) (larger : Bool) (a b : Word) : Word :=
  let x := f.unpack a
  let y := f.unpack b
  if x.isNaN || y.isNaN then f.defaultNaN
  else if x.eq y then
    if larger then (if x.neg? then b else a) else (if x.neg? then a else b)
  else if x.lt y == larger then b
  else a

/-- `fmin`, `fmax` and their vector forms: nv only for a signalling NaN (R135). -/
def fpMinMax (f : Fmt) (larger : Bool) (a b : Word) : Word × Flags :=
  (fpPick f larger a b, if (f.unpack a).isSNaN || (f.unpack b).isSNaN then Flags.nv else 0)

/-- identity(op) (R94); e4m3 and e2m1, without infinity, take their largest magnitude. -/
def fpIdentity (f : Fmt) : RedOp → Word
  | .sum => f.zero true
  | .max => if f.ieee then f.infinity true else f.maxFinite true
  | .min => if f.ieee then f.infinity false else f.maxFinite false

/-- apply(op, a, b) with the flags of its rounding (R94). -/
def fpApply (f : Fmt) (op : RedOp) (a b : Word) : Word × Flags :=
  match op with
  | .sum => fpAdd f .rne a b
  | .max => fpMinMax f true a b
  | .min => fpMinMax f false a b

/-- Comparison predicates: 0 equal, 1 less, 2 less or equal, 3 unordered; `.lt` and `.le` raise nv for any NaN, the
others for a signalling one (R136). -/
def fpCompare (f : Fmt) (pred : BitVec 2) (a b : Word) : Bool × Flags :=
  let x := f.unpack a
  let y := f.unpack b
  let un := x.isNaN || y.isNaN
  let sig := x.isSNaN || y.isSNaN
  match pred.toNat with
  | 0 => (x.eq y, if sig then Flags.nv else 0)
  | 1 => (x.lt y, if un then Flags.nv else 0)
  | 2 => (x.lt y || x.eq y, if un then Flags.nv else 0)
  | _ => (un, if sig then Flags.nv else 0)

/-! ## Integers -/

/-- round_to_integer of a finite value, and whether it is inexact (R86, R103). -/
def roundInt (r : Rnd) (neg : Bool) (m : Nat) (e : Int) (sticky : Bool) : Int × Bool :=
  let c := cutAt m e 0
  let t := if r.up neg c.1 c.2.1 c.2.2 sticky then c.1 + 1 else c.1
  (if neg then -(t : Int) else t, c.2.1 != 0 || sticky)

/-- Bounds of an integer format. -/
def intMin (signed : Bool) (w : Nat) : Int := if signed then -(2 : Int) ^ (w - 1) else 0
def intMax (signed : Bool) (w : Nat) : Int := if signed then (2 : Int) ^ (w - 1) - 1 else (2 : Int) ^ w - 1

/-- A floating-point value as an integer of `w` bits, with the limits and flags of R137. -/
def fpToInt (f : Fmt) (r : Rnd) (signed : Bool) (w : Nat) (a : Word) : Int × Flags :=
  match f.unpack a with
  | .nan _ => (0, Flags.nv)
  | .inf neg => (if neg then intMin signed w else intMax signed w, Flags.nv)
  | .fin neg m e st =>
    let v := roundInt r neg m e st
    if v.1 > intMax signed w then (intMax signed w, Flags.nv)
    else if v.1 < intMin signed w then (intMin signed w, Flags.nv)
    else (v.1, if v.2 then Flags.nx else 0)

/-- An integer rounded to a format (R137). -/
def intToFp (f : Fmt) (r : Rnd) (v : Int) : Word × Flags := f.roundFin r (v < 0) v.natAbs 0 false

/-- x64_contrib of an exact value (R88): the addend and whether `xrange` is set. -/
def x64Num (v : Num) (q : Nat) : Word × Bool :=
  match v with
  | .fin neg m e st =>
    let big := cutAt m (e + q) 62
    (BitVec.ofInt 64 (roundInt .rne neg m (e + q) st).1, big.1 != 0)
  | _ => (0, true)

/-- x64_contrib of a value of a format. -/
def x64Contrib (f : Fmt) (w : Word) (q : Nat) : Word × Bool := x64Num (f.unpack w) q

/-- `xconv` of a cell (R89, R308): the value, its flags, and whether `xrange` is set. -/
def x64Convert (f : Fmt) (cell : Word) (q : Nat) : (Word × Flags) × Bool :=
  (f.roundFin .rne (cell.toInt < 0) cell.toInt.natAbs (-(q : Int)) false, cell.toInt.natAbs ≥ 2 ^ 62)

/-! ## Correctly rounded functions (R93) -/

/-- Fraction bits of the fixed-point series. -/
def seriesBits : Nat := 240
/-- ln 2 x 2^240, rounded down. -/
def ln2Fixed : Nat := 1224685061431752149387114016819916847747660333428801675508466606222838698

/-- Terms y^i / i! from i on, added until the fuel ends; `t` is the term in hand. -/
def expSeries : Nat → Nat → Nat → Nat → Nat
  | 0, _, _, _ => 0
  | k + 1, y, i, t => t + expSeries k y (i + 1) (t * y / 2 ^ seriesBits / i)

/-- Terms w^(2i+1) / (2i+1) of the inverse hyperbolic tangent; `p` is the power in hand and `w2` the square. -/
def atanhSeries : Nat → Nat → Nat → Nat → Nat
  | 0, _, _, _ => 0
  | k + 1, w2, i, p => p / (2 * i + 1) + atanhSeries k w2 (i + 1) (p * w2 / 2 ^ seriesBits)

/-- 2^x for x = n + f, f of 240 fraction bits: exact for f = 0, else 240 bits and `sticky`. -/
def exp2Num (neg : Bool) (m : Nat) (e : Int) : Num :=
  let x : Int := if neg then -(m : Int) else m
  let v : Int := x * 2 ^ (e + seriesBits).toNat
  let n := v / (2 : Int) ^ seriesBits
  let f := (v % (2 : Int) ^ seriesBits).toNat
  if f == 0 then .fin false 1 n false
  else .fin false (expSeries 70 (f * ln2Fixed / 2 ^ seriesBits) 1 (2 ^ seriesBits)) (n - seriesBits) true

/-- log2 of m x 2^e: exact for a power of two, else 240 fraction bits and `sticky`. -/
def log2Num (m : Nat) (e : Int) : Num :=
  let k := Nat.log2 m
  let top : Int := e + k
  if m == 2 ^ k then .fin (top < 0) top.natAbs 0 false
  else
    let w := (m - 2 ^ k) * 2 ^ seriesBits / (m + 2 ^ k)
    let l := 2 * atanhSeries 90 (w * w / 2 ^ seriesBits) 0 w * 2 ^ seriesBits / ln2Fixed
    let v : Int := top * 2 ^ seriesBits + l
    .fin (v < 0) v.natAbs (-(seriesBits : Int)) true

/-- The functions of R93. -/
inductive Sfu where
  | exp2
  | log2
  | sqrt
  | rcp
  | rsqrt
  deriving DecidableEq, Repr

/-- A function of R93 on an fp32 value, with its flags. -/
def sfu (op : Sfu) (a : Word) : Word × Flags :=
  let f := Fmt.fp32
  match f.unpack a with
  | .nan s => (f.defaultNaN, if s then Flags.nv else 0)
  | .inf neg =>
    match op with
    | .exp2 => (if neg then f.zero false else f.infinity false, 0)
    | .rcp => (f.zero neg, 0)
    | .rsqrt => if neg then f.invalid else (f.zero false, 0)
    | _ => if neg then f.invalid else (f.infinity false, 0)
  | .fin neg m e _ =>
    match op with
    | .exp2 =>
      if m == 0 then (f.code false 0x3F800000, 0)
      else if 9 ≤ e + Nat.log2 m then
        if neg then (f.zero false, Flags.uf ||| Flags.nx) else (f.infinity false, Flags.of ||| Flags.nx)
      else f.round .rne (exp2Num neg m e)
    | .log2 =>
      if m == 0 then (f.infinity true, Flags.dz)
      else if neg then f.invalid
      else f.round .rne (log2Num m e)
    | .sqrt => fpSqrt f .rne a
    | .rcp =>
      if m == 0 then (f.infinity neg, Flags.dz) else f.round .rne (quotient neg 1 0 m e)
    | .rsqrt =>
      if m == 0 then (f.infinity neg, Flags.dz)
      else if neg then f.invalid
      else
        let k : Int := 2 * 200 + (if e % 2 == 0 then 0 else 1)
        let root := isqrt (2 ^ k.toNat / m)
        f.round .rne (.fin false root ((-e - k) / 2) (root * root * m != 2 ^ k.toNat))

/-! ## Fixed point (R85) -/

/-- Sticky flag of fixed-point saturation is the caller's; this clamps to an integer format's range. -/
def sat (signed : Bool) (w : Nat) (v : Int) : Int := max (intMin signed w) (min v (intMax signed w))

/-- fixed_round under `vxrm`: 0 rnu, 1 rne, 2 rdn, 3 rod. -/
def fixedRound (v : Int) (d : Nat) (mode : BitVec 2) : Int :=
  if d == 0 then v
  else
    let t := v / 2 ^ d
    let low := v % 2 ^ d
    match mode.toNat with
    | 0 => t + v / 2 ^ (d - 1) % 2
    | 1 => if low * 2 > 2 ^ d || (low * 2 == 2 ^ d && t % 2 == 1) then t + 1 else t
    | 2 => t
    | _ => if low != 0 then t - t % 2 + 1 else t

/-! ## Matrix partials (R90, R92) -/

/-- product_to_partial: the value in units of 2^-18, and the flags NaN, infinity and its sign. -/
def productToPartial (a b : Num) : Int × Bool × Bool × Bool :=
  match a.mul? b with
  | none => (0, true, false, false)
  | some (.nan _) => (0, true, false, false)
  | some (.inf n) => (0, false, true, n)
  | some (.fin n m e _) =>
    if (cutAt m e 22).1 != 0 then (0, false, true, n)
    else ((roundInt .rne n m (e + 18) false).1, false, false, false)

/-- promote: the new accumulator and its flags; a NaN from operands that are none raises nv (R266). Marked DESIGN CHOICE: a
scale that is a signalling NaN raises none, for R266 names no other case, against R82's rule for arithmetic in general. -/
def promote (acc : Word) (value : Int) (nan inf isign : Bool) (sa sw : Word) : Word × Flags :=
  let f := Fmt.fp32
  let ca := f.unpack acc
  let a := f.unpack sa
  let w := f.unpack sw
  if nan || ca.isNaN || a.isNaN || w.isNaN then (f.defaultNaN, 0)
  else
    let p : Num := if inf then .inf isign else .fin (value < 0) value.natAbs (-18) false
    match p.mul? a with
    | none => f.invalid
    | some pa =>
      match pa.mul? w with
      | none => f.invalid
      | some y =>
        match ca.add? .rne y with
        | none => f.invalid
        | some v => f.round .rne v

end Sys2Proof.Machine
end

