-- ==== Sys2Proof/Machine/State.lean ====
section
/-! DEFINITION. The state of the part as plain data: the harts and tandems (R57 to R72), the matrix unit (R73, R258),
the engines' held work, memory with the buffers on its paths (R215 to R222), translation, access tables, the Grotto
sequencers (R74, R313), the scheduler (R334 to R343), the host side (R357 to R374) and the error state. -/

namespace Sys2Proof.Machine

/-! ## Harts -/

/-- Privilege of a hart (R139 `priv`). -/
inductive Priv where
  | user
  | system
  deriving DecidableEq, Repr

/-- What a stalled hart waits for. A stalled instruction has had no effect and executes again (R236). -/
inductive Wait where
  /-- A `setvl` held by a limiter or by the grant queue (R39, R45). -/
  | setvl (d a : Reg) (g e : BitVec 2)
  /-- A `setvl2` (R44, R45). -/
  | setvl2 (d a b : Reg) (e : BitVec 2)
  /-- A `barw` (R247). -/
  | barw (d a b : Reg) (s : BitVec 2) (v : Bit)
  /-- A full or an empty queue head (R61). -/
  | queue
  /-- An empty line, or a full one under `lwait.e` (R131, R161). -/
  | line
  /-- `swait` (R155), `hwait` (R250) or `gstat.w` (R257). -/
  | word
  /-- `wfe`, for these bits of the event word (R248, R249). -/
  | event (bits : BitVec 16)
  /-- An engine that holds its full number of commands, or a command the hart waits on (R252, R270, R283, R316). -/
  | engine
  /-- The matrix state or the Trellis unit, held by another tandem (R259, R305). -/
  | owner
  deriving DecidableEq, Repr

/-- The registers that both kinds of hart have (R57, R58, R67, R68, R70, R139, R376). -/
structure Hart where
  /-- s0 to s31; s0 is never written (R57, R59). -/
  s : Vector Word 32
  /-- f0 to f31 (R57). -/
  f : Vector Word 32
  /-- Program counter (R105). -/
  pc : Word
  /-- `glim`, the limiter mask of the last grant (R42, R64). -/
  glim : BitVec 7
  /-- `strip`, the strip index (R47). -/
  strip : Word
  /-- `frm` (R67). -/
  frm : BitVec 3
  /-- `fflags`: nv dz of uf nx (R68). -/
  fflags : BitVec 5
  /-- `iflags.idiv` (R68). -/
  iflags : Bool
  /-- `ldst`: class in [6:5], number in [4:0] (R70). -/
  ldst : BitVec 7
  /-- `priv` (R139). -/
  priv : Priv
  /-- `tvec` (R139). -/
  tvec : Word
  /-- `tpc` (R139). -/
  tpc : Word
  /-- `tcause` (R375). -/
  tcause : Word
  /-- `tval` (R375). -/
  tval : Word
  /-- `tval2` (R376). -/
  tval2 : Word
  /-- `tscratch` (R139). -/
  tscratch : Word
  /-- The hart has executed `halt` (R143). -/
  halted : Bool
  /-- What the hart is stalled on, if anything (R236). -/
  wait : Option Wait
  /-- The model's own: the step at which the hart last took a trap, for the first fault of R382. -/
  since : Nat
  /-- A word that the hart has fetched and that still serves, with the pc at which it does: that of an instruction that a move
  has left unfinished, or the compact slot whose first half has fallen through to its second (R107, R115). -/
  slot : Option (Word × BitVec 32)
  deriving DecidableEq, Repr

/-- A bank descriptor bound by `pbank`: words 0 to 2 (R277, R281). -/
structure Bank where
  w0 : Word
  w1 : Word
  w2 : Word
  deriving DecidableEq, Repr

/-- A grid descriptor bound by `tgbind` (R297, R300). -/
structure Grid where
  pbase : Word
  gbase : Word
  cfg : Word
  levels : List Word
  deriving DecidableEq, Repr

/-- A failed stream fill that no instruction has met yet (R395): `tcause`, the detail word and the address. -/
structure StreamFault where
  cause : Word
  detail : Word
  addr : Word
  deriving DecidableEq, Repr

/-- One stream of an application (R151, R152). -/
structure Stream where
  /-- Stream enabled (R151 `en`). -/
  en : Bool
  /-- Virtual address of element 0. -/
  src : Word
  /-- Element size code, 0 to 4. -/
  esz : Nat
  /-- Byte stride. -/
  stride : BitVec 32
  /-- Strip-buffer size in lines. -/
  lines : Nat
  /-- Strip-buffer offset in the window. -/
  boff : Nat
  /-- Lines the engine has started (R152). -/
  started : Nat
  /-- A started line is not yet filled (R152). -/
  filling : Bool
  /-- Lowest element not yet read by a completed vector load (R152). -/
  read : Nat
  /-- Elements above it that have been read, and the bytes read of elements read in part, as a mask (R152). -/
  seen : List Nat
  parts : List (Nat × Nat)
  /-- The model's own: the step in which the line being filled was started, before which none of its reads executes. -/
  since : Nat
  /-- A fill that failed (R395). -/
  fault : Option StreamFault
  deriving DecidableEq, Repr

/-- A declared application (R150, R151). -/
structure App where
  /-- Application length N. -/
  n : Nat
  /-- High-water word, 0 when not chained. -/
  hw : Word
  /-- Scope of the limiter-5 acquire (R40). -/
  scope : BitVec 2
  /-- An acquire by the copy engine is still to be made before the first stream read: the instruction number and the step of
  the declaration, before which the reads that it waits for were handed over or started (R150, R226). -/
  acq : Option (Nat × Nat)
  /-- Position p (R38). -/
  p : Nat
  streams : Vector Stream 4
  deriving DecidableEq, Repr

/-- What a consumer of draws sampled when it issued (R72, R99): key, source and epoch. -/
structure DrawSample where
  key : BitVec 128
  src : Word
  epoch : BitVec 40
  deriving DecidableEq, Repr, Inhabited

/-- Progress of an interrupted vector memory instruction (R156, R159). -/
structure VMem where
  /-- Memory restart index, in element groups over the data entries. -/
  restart : Nat
  /-- Elements consumed of the oldest index entry (R156). -/
  used : Nat
  /-- Number of the instruction, kept across a stop; 0 where none has issued (R229). -/
  serial : Nat
  /-- The model's own: the latest step at which an element below the restart index was read (R229). -/
  lastRead : Nat
  /-- What a store sampled when it issued (R72, R102). -/
  draw : DrawSample
  /-- Elements of a `vsca` of a deterministic team that have passed their checks while others wait for theirs: number,
  address and value; none of them has performed (R379). -/
  sca : List (Nat × Word × Word)
  deriving DecidableEq, Repr, Inhabited

/-- A completion that waits for the user-level handler (R253). -/
structure Completion where
  stat : Word
  status : Word
  deriving DecidableEq, Repr

/-- A pending fault of an A-hart (R394): the `tcause`, `tval` and `tval2` it will record. -/
structure PFault where
  cause : Word
  tval : Word
  addr : Word
  /-- The number of the `vsca` or `tgscat` whose other elements it waits for (R390). -/
  serial : Option Nat
  deriving DecidableEq, Repr

/-- An A-hart (R28, R57, R145, R253, R281, R300). -/
structure AHart where
  h : Hart
  /-- Shadows of s24 to s31 (R57). -/
  shadow : Vector Word 8
  /-- `ustat[0]`: the user-level handler runs (R139). -/
  ustat : Bool
  /-- `uvec` (R139). -/
  uvec : Word
  /-- `upc` (R139). -/
  upc : Word
  /-- `xrange` (R68). -/
  xrange : Bool
  /-- `ldst` set aside by the user-level handler (R253). -/
  ldstAside : BitVec 7
  /-- Strip state: the last grant n (R145). -/
  n : BitVec 17
  /-- Strip state: sew code (R145). -/
  sew : BitVec 2
  /-- Strip state: group code (R145). -/
  group : BitVec 2
  /-- Strip state: rows (R145). -/
  vrows : BitVec 17
  /-- Strip state: columns (R145). -/
  vcols : BitVec 17
  /-- Strip state: memory restart index and what it keeps (R145, R159). -/
  vm : VMem
  /-- The pc of a `setvl` or `setvl2` that has stalled and has not granted yet (R42). -/
  stalled : Option Word
  /-- The model's own: a move has left the hart between two groups of an instruction that neither has ended nor stalls, which
  is no instruction boundary (R253, R394). -/
  paused : Bool
  /-- Parterre binding (R281). -/
  bank : Option Bank
  /-- Trellis binding (R300). -/
  grid : Option Grid
  /-- The declared application and its stream progress (R150, R351). -/
  app : Option App
  /-- Waiting completions, oldest first (R253). -/
  done : List Completion
  /-- Pending faults, oldest first (R394). -/
  pend : List PFault
  deriving DecidableEq, Repr

/-- A dimension register d0 to d2 (R65). -/
structure Dim where
  stride : BitVec 32
  len : BitVec 17
  deriving DecidableEq, Repr

/-- An element block in progress (R195, R198, R200). -/
structure Block where
  /-- The words of the block, from B to the `estop` word (R191). -/
  words : List (BitVec 64)
  /-- Address B (R191). -/
  base : Word
  /-- Carry-out register and whether it is an f register (R192). -/
  d : Reg
  isF : Bool
  /-- Execute mask number (R192). -/
  mask : BitVec 3
  /-- Exception-mask enable and destination (R192). -/
  en : Bool
  kx : BitVec 3
  /-- Element whose lane runs. -/
  lane : Nat
  /-- E-word counter of the lane, in words from B (R195). -/
  epc : Nat
  /-- Lane predicate (R195). -/
  pred : Bool
  /-- Incoming value of the lane (R198). -/
  inc : Word
  /-- Output value offered by the lane's first `esend` (R198). -/
  out : Option Word
  /-- Some word of the lane set exc (R192). -/
  exc : Bool
  /-- Exception-mask bits of the group's lanes so far (R192, R200). -/
  excs : MaskReg
  /-- The running lane has finished (R195). -/
  fin : Bool
  /-- A lane group has taken the element group of the lane (R50). -/
  issued : Bool
  /-- Carry into the first element of the uncommitted group (R201). -/
  carry0 : Word
  /-- Vector and mask registers as committed, restored when a group is discarded (R201). -/
  v0 : Vector VReg 32
  k0 : Vector MaskReg 8
  /-- Flags gathered by the uncommitted group (R200). -/
  flags : BitVec 5
  sat : Bool
  deriving DecidableEq, Repr

/-- An X-hart (R28, R58, R62 to R69). -/
structure XHart where
  h : Hart
  /-- v0 to v31 (R58). -/
  v : Vector VReg 32
  /-- Progress indices (R48). -/
  prog : Vector (BitVec 17) 32
  /-- k0 to k7 (R58). -/
  k : Vector MaskReg 8
  /-- `vtype.sew` (R62). -/
  sew : BitVec 2
  /-- `vtype.group` (R62). -/
  group : BitVec 2
  /-- `vtype.fmt` (R62, R63). -/
  fmt : BitVec 4
  /-- `vtype.tail` (R62). -/
  tail : Bool
  /-- `vl` (R64). -/
  vl : BitVec 17
  /-- `vrows` (R64). -/
  vrows : BitVec 17
  /-- `vcols` (R64). -/
  vcols : BitVec 17
  /-- The strip is a two-dimensional one, whose tail rows stay undisturbed (R44). -/
  two : Bool
  /-- `vstart` (R66). -/
  vstart : BitVec 17
  /-- `fidx0` to `fidx2` (R66). -/
  fidx : Vector (BitVec 17) 3
  /-- `vxrm` (R67). -/
  vxrm : BitVec 2
  /-- `vxsat` (R68). -/
  vxsat : Bool
  /-- `xsel` (R69). -/
  xsel : BitVec 5
  /-- d0 to d2 (R65). -/
  dims : Vector Dim 3
  /-- Block carry (R201). -/
  carry : Word
  /-- A stop inside a block saved the carry, and the resumed `vfetch` has not started yet (R198, R201). -/
  resumed : Bool
  /-- The element block in progress (R192). -/
  block : Option Block
  /-- The core cycle in which the hart decoded the instruction at its pc (R50). -/
  decoded : Word
  /-- Issue opportunities that an instruction, or an entry of it, has still to take for element groups that stand in the
  registers already (R50). -/
  owed : Nat
  /-- The model's own: some element groups of the sweep at the pc have been taken, and it has not ended (R51, R66). -/
  midway : Bool
  deriving DecidableEq, Repr

/-- A vector queue entry (R61). -/
structure QEntry where
  data : VReg
  count : BitVec 17
  sew : BitVec 2
  /-- The entry has claimed its slot and still fills; a pop waits until it is complete (R156). -/
  fill : Bool
  deriving DecidableEq, Repr

/-- A grant queue entry (R45). -/
structure Grant where
  /-- Made by `setvl2`. -/
  two : Bool
  n : BitVec 17
  rows : BitVec 17
  cols : BitVec 17
  sew : BitVec 2
  group : BitVec 2
  mask : BitVec 7
  deriving DecidableEq, Repr

/-- A tandem: its two harts and what passes between them (R28, R45, R61). -/
structure Tandem where
  a : AHart
  x : XHart
  /-- q0 to q5, oldest entry first (R61). -/
  q : Vector (List QEntry) 6
  /-- q6, A to X (R61). -/
  q6 : List Word
  /-- q7, X to A (R61). -/
  q7 : List Word
  /-- The grant queue (R45). -/
  gq : List Grant
  deriving DecidableEq, Repr

/-! ## Matrix state -/

/-- One accumulator element: FP32 value, 48-bit exact partial and its flags (R73). -/
structure MCell where
  acc : BitVec 32
  part : BitVec 48
  nan : Bool
  inf : Bool
  isign : Bool
  deriving DecidableEq, Repr

/-- A tile of 128 x 128 elements, by rows (R73). -/
abbrev Tile := Vector (Vector MCell 128) 128

/-- Matrix state (R73, R258). -/
structure Matrix where
  /-- The owning tandem (R258). -/
  owner : Option (Fin 4)
  tiles : Vector Tile 4
  /-- `mvl` (R73). -/
  mvl : BitVec 8
  /-- `mkblk` (R73). -/
  mkblk : BitVec 7
  /-- Activation scales (R258). -/
  sa : Vector (BitVec 32) 128
  /-- Weight scales (R258). -/
  sw : Vector (BitVec 32) 4
  /-- touch (R258). -/
  touch : BitVec 4
  deriving DecidableEq, Repr

/-! ## Commands that the core's engines hold -/

/-- Ordering fields of a command (R109, R230). -/
structure Ord where
  scope : BitVec 2
  acq : Bool
  rel : Bool
  deriving DecidableEq, Repr, Inhabited

/-- A failed engine access: status code, detail word and address (R392). -/
structure CmdFault where
  code : BitVec 16
  detail : Word
  addr : Word
  deriving DecidableEq, Repr, Inhabited

/-- A held copy command (R251, R252). -/
structure CopyCmd where
  /-- 0 `.fe`, 1 `.st`, 2 `.irq`. -/
  kind : BitVec 2
  /-- Issuing tandem. -/
  t : Fin 4
  words : List Word
  ord : Ord
  /-- Next chunk (R252). -/
  next : Nat
  /-- Number that its entries carry. -/
  serial : Nat
  /-- The model's own: the step of the handover, before which none of its accesses executes (R230). -/
  since : Nat
  fault : Option CmdFault
  deriving DecidableEq, Repr, Inhabited

/-- A held matrix-feed command (R269, R270). -/
structure FeedCmd where
  t : Fin 4
  words : List Word
  ord : Ord
  /-- First step of the next entry (R270). -/
  step : Nat
  /-- The model's own: the step of the handover or of the latest line read since, before which no further one executes
  (R230, R270). -/
  since : Nat
  fault : Option CmdFault
  deriving DecidableEq, Repr, Inhabited

/-- What a held Parterre command does (R280). -/
inductive ParKind where
  | eval (training : Bool)
  | vote (arg : Bool)
  | feed
  | step
  | planeLd
  | planeSt
  deriving DecidableEq, Repr

/-- A command whose instruction waits for it and takes its faults precisely (R283, R378). -/
def ParKind.waits : ParKind → Bool
  | .vote _ => true
  | .step => true
  | .planeLd => true
  | .planeSt => true
  | _ => false

/-- A held Parterre command (R281 to R284): the record, the binding and the draw state copied at handover, and the
cursor of a command that has begun. -/
structure ParCmd where
  kind : ParKind
  t : Fin 4
  words : List Word
  bank : Bank
  /-- Queue head of `pvote`, `pstep` and `pplane`. -/
  head : Reg
  /-- Address operand of `pstep` and `pplane`. -/
  addr : Word
  ord : Ord
  dkey : BitVec 128
  dsrc : Word
  /-- Number that its entries carry. -/
  serial : Nat
  /-- Pairs (e, c) of `peval` done, or examples of phase 1, or segments of phase 2 of `pfeed` (R284). -/
  pos : Nat
  /-- Output bits of finished pairs in the byte they share with an unfinished one (R286). -/
  bits : Nat
  /-- `pfeed` has its targets: the roles (class, positive) of each example (R288). -/
  roles : Option (List (List (Nat × Bool)))
  /-- Phase-1 results, by example and role: threshold and output bits (R284, R288). -/
  outs : List (List (Nat × Nat))
  /-- `pfeed` is in phase 2. -/
  second : Bool
  /-- Examples that select the clause in progress, once its draws have been consulted (R288, R289). -/
  sel : Option (List Bool)
  /-- A target record was refused (R283). -/
  refused : Bool
  /-- The model's own: the step of the handover, before which none of its accesses executes (R230). -/
  since : Nat
  fault : Option CmdFault
  deriving DecidableEq, Repr

/-- An active draw port: kind (0 selection, 1 literal, 2 pdraw, 3 store path), stream tag, tandem, and the number of
the command or store that keeps it active (R295); the key, the source and the epoch that it sampled at issue (R72,
R99). -/
structure DrawPort where
  kind : Nat
  tag : BitVec 32
  t : Fin 4
  serial : Nat
  draw : DrawSample
  deriving DecidableEq, Repr

/-- The Trellis unit's cursor (R305, R307): tandem in progress, the binding copied at handover (R300), next plane,
coordinate planes popped. -/
structure TrellisCursor where
  t : Fin 4
  grid : Grid
  plane : Nat
  coords : List VReg
  /-- Number that its entries carry. -/
  serial : Nat
  /-- The model's own: the step of the handover, before which none of its accesses executes (R230). -/
  since : Nat
  deriving DecidableEq, Repr

/-- A late fault kept in the team header (R350, R393). -/
structure LateFault where
  t : Fin 4
  detail : Word
  addr : Word
  deriving DecidableEq, Repr

/-! ## Memory -/

/-- Home memory: pairs of an address and a byte, addresses strictly rising, no byte equal to `Memory.blank`.
Addresses below 0xC0_0000_0000 are device HBM (R205); host memory and the scratchpads follow at the bases of
`hostBase` and `scratchBase`. -/
abbrev Memory := List Host.Cell

/-- What an unlisted byte reads as. -/
def Memory.blank : Byte := 0#8

/-- Key of host physical address 0 (R205, kind host). -/
def hostBase : Nat := 2 ^ 56
/-- Key of byte 0 of core 0's scratchpad; core g's scratchpad follows at g x 2^23 (R205, kind scratch). -/
def scratchBase : Nat := 2 ^ 57

/-- The canonical form from address `lo` on. -/
def Memory.wfFrom : Nat → Memory → Bool
  | _, [] => true
  | lo, (a, b) :: m => decide (lo ≤ a) && b != Memory.blank && Memory.wfFrom (a + 1) m

/-- The canonical form of memory. -/
def Memory.wf (m : Memory) : Bool := Memory.wfFrom 0 m

/-- The agents, each of which has a store buffer: those of a core, the host, the collective engine, and the Grotto
sequencer and the reduce adders of an HBM channel (R216). -/
inductive Agent where
  | scalar (t : Fin 4)
  | vector (t : Fin 4)
  | copy
  | feed
  | parterre
  | trellis
  | host
  | collective
  | sequencer (ch : Nat)
  | adders (ch : Nat)
  deriving DecidableEq, Repr

/-- The buffers between an agent and a home (R217). -/
inductive Loc where
  | sb (core : Nat) (a : Agent)
  | pb (core : Nat)
  | fb (die : Nat)
  | lb
  deriving DecidableEq, Repr

/-- An atomic operation on one location (R223, R238, R239, R242). -/
inductive AtomicOp where
  | add
  | and
  | or
  | xor
  | min
  | max
  | minu
  | maxu
  | swap
  | cas (cmp : Word)
  /-- Floating-point add in fp32 (4 bytes) or fp64 (8 bytes), RNE. -/
  | fadd
  deriving DecidableEq, Repr

/-- The register of an A-hart that takes the value of a read or of an atomic: a shadow, an f register or an s register, a
narrower value extended with its sign or with zeros (R57, R129, R238). -/
structure RegDest where
  float : Bool
  signed : Bool
  shadow : Bool
  r : Reg
  deriving DecidableEq, Repr

/-- Where the value of a read goes: a register, or an element of an entry of a head (R129, R156). -/
inductive Dest where
  | reg (d : RegDest)
  | elem (head pos width index : Nat)
  deriving DecidableEq, Repr

/-- One contribution to an atomic entry: the issuer, the instruction's number, the element and its virtual address,
whether the fault it takes is that of a `vsca`, and whether that fault waits for the rest of its `tgscat` (R390); and the
register that the old value goes to where it returns one (R223). -/
structure Contrib where
  core : Nat
  t : Fin 4
  serial : Nat
  elem : Nat
  va : Word
  vsca : Bool
  late : Bool
  ret : Option RegDest := none
  deriving DecidableEq, Repr

/-- What an entry carries (R220, R221, R223). -/
inductive Payload where
  /-- Bytes of one write within one line. -/
  | bytes (cells : List Host.Cell)
  /-- Nibbles of a write to e2m1 storage: address, high nibble or low, value (R220). -/
  | nibbles (cells : List (Nat × Bool × BitVec 4))
  /-- An atomic on `size` bytes at `addr`; `who` lists the contributions it holds (R223, R390, R391). -/
  | atomic (op : AtomicOp) (addr size : Nat) (operand : Word) (who : List Contrib)
  deriving DecidableEq, Repr

/-- A buffered entry (R220, R222). Entries of one buffer stand in `State.buf` oldest first. -/
structure Entry where
  loc : Loc
  /-- The core whose agent made it. -/
  core : Nat
  agent : Agent
  payload : Payload
  /-- Number of the instruction that made it, for element order (R229). -/
  serial : Nat
  /-- The lowest element it holds, and the element below which every other one of its instruction comes first: its own on
  a host-shared page, the first of its group in a deterministic team (R229). -/
  low : Nat
  rank : Option Nat
  /-- The bytes carry poison with them (R407). -/
  bad : Bool
  deriving DecidableEq, Repr

/-- A read that an agent has executed before its instruction (R219), by home address, and the step in which it
executed; or one whose instruction has ended while the agent still holds it: it may execute once more, after later accesses
of the agent, and gives its value to `dest`. -/
structure Early where
  core : Nat
  agent : Agent
  tick : Nat
  cells : List Host.Cell
  dest : Option Dest := none
  deriving DecidableEq, Repr

/-- A cached leaf (R210): the translation root, the die, the page's base and size, and the leaf's words. -/
structure TlbEntry where
  die : Nat
  root : Word
  base : Nat
  size : Nat
  w0 : Word
  w1 : Word
  deriving DecidableEq, Repr

/-- A walk in progress (R209, R210): the core whose request started it, the translation root, the virtual address, the levels
left, the table it stands at, and word 0 of the entry there once it has been read. -/
structure WalkRun where
  core : Nat
  root : Word
  va : Nat
  left : Nat
  base : Nat
  w0 : Option Word
  deriving DecidableEq, Repr

/-- How a walk has ended without a leaf, for the request that started it, which is made in the next step: the step, the core,
the root, the page of 4 KiB, and the class and code of the refusal (R209, R211). -/
structure Miss where
  tick : Nat
  core : Nat
  root : Word
  page : Nat
  cls : Nat
  code : Nat
  deriving DecidableEq, Repr

/-- One valid or written entry of an access table (R369). Targets are numbered in the order of R369: HBM channels
0 to 383, scratchpad ports 384 to 1,919, Grotto sequencers 1,920 to 2,303, host port 2,304, peer ports 2,305 on. -/
structure AclEntry where
  target : Nat
  slot : Nat
  w0 : Word
  w1 : Word
  deriving DecidableEq, Repr

/-- A refusal log of a target: count, and domain and address of the first (R408). -/
structure RefusalLog where
  target : Nat
  count : BitVec 32
  domain : BitVec 16
  addr : Word
  deriving DecidableEq, Repr

/-! ## Grotto and the collective engine -/

/-- A segment of 256 bytes (R309). -/
abbrev Seg := BitVec 2048

/-- The state of one Grotto unit of a kernel: g0 to g7 and b0 to b3 (R74). -/
structure GUnit where
  g : Vector Seg 8
  b : Vector Seg 4
  deriving DecidableEq, Repr

/-- The part of a kernel's state that a suspension keeps (R313, R324). -/
structure GRegs where
  /-- `gmpc` (R74). -/
  gmpc : BitVec 8
  /-- `growc` (R74). -/
  growc : BitVec 32
  /-- `goff` (R313). -/
  goff : BitVec 32
  /-- `ocur` (R313). -/
  ocur : BitVec 32
  /-- `lc0` and `lc1` (R313). -/
  lc0 : BitVec 16
  lc1 : BitVec 16
  units : List GUnit
  deriving DecidableEq, Repr

/-- How a held kernel stands (R316, R324). One that ends has its record in the store buffer, and its status word is still
to come (R326). -/
inductive GStatus where
  | queued
  | running
  | suspended
  | ending (code : BitVec 16)
  deriving DecidableEq, Repr

/-- A pinned part of a page: virtual base, bytes and home address of its first byte, and base and bytes of the page
(R213, R256). -/
structure Pin where
  va : Nat
  len : Nat
  home : Nat
  page : Nat
  size : Nat
  deriving DecidableEq, Repr

/-- A held Grotto kernel (R313 to R316, R324 to R328). -/
structure Kernel where
  /-- The descriptor, words 0 to 7 (R314). -/
  desc : List Word
  /-- The micro-words of the image (R315). -/
  words : List (BitVec 32)
  /-- Pinned pages, through which every address of the descriptor goes. -/
  pins : List Pin
  /-- Home address of block (j, m) of the data and table windows, j major (R312). -/
  data : List Nat
  table : List Nat
  /-- Root, domain and issuer (R370, R393). -/
  root : Word
  domain : BitVec 16
  core : Nat
  t : Fin 4
  launch : Nat
  epoch : Nat
  team : Nat
  /-- How the kernel stands (R316, R324, R326). -/
  status : GStatus
  regs : GRegs
  /-- The registers at the last row boundary (R324). -/
  kept : GRegs
  /-- Writes of the row step, performed at its closing boundary (R402). -/
  writes : List (List Host.Cell)
  /-- A step is open: a B-slice word has run since the last boundary (R317). -/
  inStep : Bool
  /-- An ordinary access or a refresh asks for suspension at the next boundary (R324, R325). -/
  suspendReq : Bool
  /-- An invalidation revokes the kernel at the next boundary (R328). -/
  revokeReq : Bool
  /-- Alerts that count for the kernel and await their mitigation refresh (R325). -/
  alerts : Nat
  /-- Suspensions and disturbance counts (R313). -/
  suspensions : BitVec 32
  disturbance : BitVec 32
  deriving DecidableEq, Repr

/-- A held indexed-reduce list (R330 to R333). -/
structure RedList where
  desc : List Word
  pins : List Pin
  root : Word
  domain : BitVec 16
  core : Nat
  t : Fin 4
  launch : Nat
  epoch : Nat
  team : Nat
  /-- Started from its cursor (R332). -/
  started : Bool
  bag : Nat
  c : Nat
  start : Nat
  acc : List (BitVec 32)
  /-- An invalidation revokes the list between command words (R333). -/
  revokeReq : Bool
  /-- The end code once the cursor is in the store buffer, the status word still to come (R333). -/
  fin : Option (BitVec 16)
  deriving DecidableEq, Repr

/-- The sequencer and reduce adders of one channel (R316, R332). -/
structure Seq where
  ch : Nat
  kernels : List Kernel
  lists : List RedList
  deriving DecidableEq, Repr

/-- How a collective command ended: its code, and the words that go before the status word, with their addresses
(R404). -/
structure CollEnd where
  code : BitVec 16
  detail : List (Nat × Word)
  deriving DecidableEq, Repr

/-- A held collective command (R254). -/
structure CollCmd where
  /-- Number of the command, by which an abort names it (R405). -/
  num : Nat
  /-- The exchange is over: the result is in the store buffer, and the status word is still to come (R255). -/
  fin : Option CollEnd
  words : List Word
  ord : Ord
  root : Word
  domain : BitVec 16
  core : Nat
  t : Fin 4
  launch : Nat
  epoch : Nat
  team : Nat
  deriving DecidableEq, Repr

/-! ## Teams, cores and launches -/

/-- Where a team stands (R350, R381). -/
inductive TeamStatus where
  /-- No team. -/
  | none
  | notStarted
  | resident
  | stopped
  | ended
  deriving DecidableEq, Repr

/-- A team: what its image holds (R349 to R352). -/
structure Team where
  status : TeamStatus
  /-- Launch identifier, the enabling of its queue that it counts in, and linear index (R334, R339, R341). -/
  launch : Nat
  epoch : Nat
  index : Nat
  /-- Tandem count (R30). -/
  tandems : Nat
  /-- Lane count W, 0 before the first start (R342). -/
  w : Nat
  /-- det, port, og and dtg of the launch (R336, R350). -/
  det : Bool
  port : Bool
  og : BitVec 2
  dtg : Bool
  spad : Nat
  /-- Kernel image, parameter block and translation root (R336). -/
  image : Word
  params : Word
  root : Word
  /-- Security domain and priority of the queue (R334). -/
  domain : BitVec 16
  prio : Nat
  /-- `lcoord0` to `lcoord7` and `lext0` to `lext7` (R33). -/
  lcoord : Vector (BitVec 32) 8
  lext : Vector (BitVec 32) 8
  /-- `dkeylo`, `dkeyhi`, `dsrc`, `repoch` (R71). -/
  dkeylo : Word
  dkeyhi : Word
  dsrc : Word
  repoch : BitVec 40
  /-- Event word (R248). -/
  event : BitVec 16
  tds : Vector Tandem 4
  mx : Matrix
  /-- Held copy commands, at most 16 (R252). -/
  copies : List CopyCmd
  /-- Held matrix-feed commands, at most 4 (R270). -/
  feeds : List FeedCmd
  /-- Held Parterre commands, at most 8 (R283). -/
  pars : List ParCmd
  /-- Active draw ports (R295). -/
  ports : List DrawPort
  /-- Trellis unit in progress (R305). -/
  trellis : Option TrellisCursor
  /-- Late faults, at most 16, and the number that have arisen (R350). -/
  late : List LateFault
  lateCount : Word
  /-- Scratchpad bytes, empty lines and poisoned granules saved while another team uses the core, by offset (R345,
  R354, R389). -/
  spadBytes : List Host.Cell
  spadEmpty : List Nat
  spadPoison : List Nat
  /-- Die that R341 gives the team, and the local cores its queue allows (R334). -/
  die : Nat
  cfirst : Nat
  clast : Nat
  deriving DecidableEq, Repr

/-- A residue mismatch that its element group, or rank-1 step, has met once and not yet passed (R397). -/
structure Suspect where
  t : Fin 4
  unit : Nat
  element : Nat
  deriving DecidableEq, Repr

/-- The issue state of one lane group (R50): the round, and the tandem that won the last tie. -/
structure LaneGroup where
  round : BitVec 4
  lastTie : BitVec 2
  deriving DecidableEq, Repr

/-- A core (R18, R22, R27, R341, R343, R397). -/
structure Core where
  num : Nat
  /-- `cycle` (R27). -/
  cycle : Word
  /-- Lane-disable mask: bit g retires lane group g (R397). -/
  laneOff : BitVec 8
  /-- Vector ceiling in element groups and matrix ceiling (R22). -/
  vceil : Nat
  mceil : Nat
  /-- The matrix unit is retired (R399). -/
  mxOff : Bool
  /-- Element groups and rank-1 steps whose first residue mismatch was logged (R397). -/
  suspects : List Suspect
  /-- Lines whose full/empty bit is empty, rising (R77). -/
  emptyLines : List Nat
  /-- The resident team, or one of status `none`. -/
  team : Team
  /-- The run list (R341). -/
  runList : List Team
  /-- Count at which the quantum began, and whether it has expired (R343). -/
  qStart : Word
  expired : Bool
  /-- Issue rounds of the eight lane groups (R50). -/
  groups : Vector LaneGroup 8
  /-- Aligned units of 8 bytes of code as they have stood at home since the team was launched or resumed, each state of one
  that a fetch has seen or that an `EXECUTE` names (R107). -/
  code : List (Nat × Word)
  deriving DecidableEq, Repr

/-- A work queue (R334, R335, R339, R424). -/
structure WQueue where
  num : Nat
  /-- Enabled; `seen` is the en bit as last read, `dirty` that the descriptor has been written since (R334, R362). -/
  en : Bool
  seen : Bool
  dirty : Bool
  /-- The en bit has been 0 since, so that the queue is disabled first (R334). -/
  off : Bool
  /-- The tail word has been written since the device last read it (R362). -/
  tailDirty : Bool
  /-- Times the queue has been enabled: submissions count from the last (R339). -/
  epoch : Nat
  /-- Descriptor words 0 to 3 as read when the queue was enabled. -/
  d0 : Word
  d1 : Word
  d2 : Word
  d3 : Word
  /-- Records taken, and the last valid tail value observed (R335). -/
  taken : Nat
  tail : Nat
  /-- Submissions that have retired beyond the first r, which have all retired (R339). -/
  retired : List Nat
  r : Nat
  /-- Lost-write count (R424). -/
  lost : BitVec 32
  deriving DecidableEq, Repr

/-- How a taken record stands (R338, R339, R381). -/
inductive RecStatus where
  | waiting
  | active
  | faulted
  | retired
  deriving DecidableEq, Repr

/-- A record taken from a queue, and the launch it makes (R336 to R339). -/
structure LaunchRec where
  id : Nat
  queue : Nat
  /-- Submission number, and the enabling of its queue that it counts in (R334, R339). -/
  m : Nat
  epoch : Nat
  /-- Word 3 of the queue's descriptor as it stood (R334). -/
  d3 : Word
  kind : Nat
  /-- The record, words 0 to 7; of a resumed launch, the kind 0 record it stands for (R354). -/
  words : List Word
  status : RecStatus
  code : BitVec 16
  /-- Teams of the launch that no core holds: not yet placed, stopped or ended (R341, R353, R381). -/
  teams : List Team
  /-- Teams the launch has (R33). -/
  count : Nat
  /-- The parameter block's words 0 to 6 as read when the launch was made, and the entries of each tandem as offsets from
  the image (R31, R422). -/
  args : List Word
  entries : List (Word × Word)
  /-- An invalidation has started: the number of the newest instruction when a TLB last held a leaf of its range (R212). -/
  started : Option Nat
  /-- Where an evict record has put the images of the launch (R353). -/
  area : Option Nat
  deriving DecidableEq, Repr

/-- An entry of the residue error log (R397). -/
structure LogEntry where
  core : Nat
  unit : Nat
  element : Nat
  retired : Bool
  deriving DecidableEq, Repr

/-- A fault record kept by the security controller (R424). -/
structure KeptRecord where
  launch : Nat
  words : List Word
  deriving DecidableEq, Repr

/-- A fatal error (R410 to R412). -/
structure Fatal where
  first : BitVec 8
  further : BitVec 16
  core : Nat
  detail : Word
  deriving DecidableEq, Repr

/-- The parts of a team image that are private to the device (R425), named from the image by a tag: those of the four
tandem slots, of the Parterre block and of the Trellis block, and which tandem each late fault is for. -/
structure PrivateParts where
  tag : Word
  /-- The bytes of the team header up to the late faults, by which the device knows the image where no part has a tag. -/
  header : List Byte
  /-- The tandem of each late fault (R350). -/
  late : List (Fin 4)
  /-- Of each tandem: its pending faults, stream state, strip state, halted harts, grants, stalled grant, two-dimensional
  grant and resumed block (R351, R425). -/
  pend : Vector (List PFault) 4
  apps : Vector (Option App) 4
  vms : Vector VMem 4
  halts : Vector (Bool × Bool) 4
  gqs : Vector (List Grant) 4
  stalls : Vector (Option Word) 4
  twos : Vector Bool 4
  resumes : Vector Bool 4
  /-- Count and sew of each entry of q0 to q5 and whether it still fills, and the entries of q6 and q7. -/
  heads : Vector (Vector (List (BitVec 17 × BitVec 2 × Bool)) 6) 4
  scalars : Vector (Nat × Nat) 4
  /-- The Parterre block (R284, R425). -/
  pars : List ParCmd
  ports : List DrawPort
  /-- The commands behind the copy and feed records of the header (R350). -/
  copies : List CopyCmd
  feeds : List FeedCmd
  /-- The Trellis block (R307, R425). -/
  trellis : Option TrellisCursor
  grids : Vector (Option Grid) 4
  deriving DecidableEq, Repr, Inhabited

/-! ## Choices and the whole state -/

/-- One choice of what moves next: a hart of a core by an instruction, an X-hart by one element group of an instruction
(R50, R51), an A-hart by the first n element groups, entries or planes that its instruction has left (R51, R345), the
sequencer of a channel, or an event seen from a core. -/
inductive Move where
  | hart (core : Nat) (t : Fin 4) (x : Bool)
  | group (core : Nat) (t : Fin 4)
  | part (core : Nat) (t : Fin 4) (n : Nat)
  | holding (core : Nat) (t : Fin 4)
  | sequencer (ch : Nat)
  | event (core : Nat) (i : Instr)
  deriving DecidableEq, Repr

/-- The state of the part. -/
structure State where
  /-- The model's own: choices still to be made, the next one first. When it is empty the hart in focus moves. -/
  sched : List Move
  /-- The model's own: steps so far, the argument of the free values. -/
  ticks : Nat
  /-- The model's own: the step at which the last device reset ended (R27). -/
  born : Nat
  /-- The model's own: the word fetched last, for `tval2` of an illegal instruction (R375). -/
  ir : Word
  /-- The core in focus, and the hart of its team that moves. -/
  core : Core
  tnd : Fin 4
  xh : Bool
  /-- The model's own: the element groups, entries or planes that the instruction of this move may still take, none for
  no limit (R51, R345). -/
  limit : Option Nat
  /-- The model's own: the agents hold the reads and the returning atomics of the instruction of this move, which later
  accesses may pass (R219). -/
  holds : Bool
  /-- Every other core not in its reset state, by rising number. -/
  others : List Core
  /-- The channel whose sequencer moves. -/
  gch : Nat
  /-- Home memory (R217). -/
  mem : Memory
  /-- Poisoned granules, by home address, rising (R387). -/
  poison : List Nat
  /-- Granules that the read of this step finds uncorrectable (R388). -/
  fresh : List Nat
  /-- The X-hart, by core and tandem, that an issue opportunity of this step has gone to: it moves next (R50). -/
  turn : Option (Nat × Fin 4)
  /-- Buffered entries, oldest first (R217, R220). -/
  buf : List Entry
  /-- Reads executed early, and reads that are held (R219). -/
  early : List Early
  /-- Number of the next instruction that makes entries (R229). -/
  serial : Nat
  /-- Cached leaves (R210). -/
  tlb : List TlbEntry
  /-- Walks in progress (R209, R210). -/
  walks : List WalkRun
  /-- The model's own: a walk has ended without a leaf in this step (R209). -/
  miss : Option Miss
  /-- Access tables (R369) and refusal logs (R408). -/
  acl : List AclEntry
  refusals : List RefusalLog
  /-- Entries removed from the tables by updates that have not completed yet (R371). -/
  aclOld : List AclEntry
  /-- Sequencers and adders that hold work (R316). -/
  seqs : List Seq
  /-- Collective commands held (R254). -/
  colls : List CollCmd
  /-- Peer ports that are up, datagrams dropped, and how often each unacknowledged datagram has been resent, by its
  number (R364, R366, R404, R406). -/
  ports : BitVec 18
  dropped : Nat
  resends : List (Nat × Nat)
  /-- Transfer registers (R368). -/
  xsrc : Word
  xdst : Word
  xlen : Word
  xpeer : Word
  xstat : Word
  /-- Granules of a running fetch that have landed (R364, R406). -/
  xgot : List Nat
  /-- Work queues that have been enabled (R334) and the records taken (R336). -/
  queues : List WQueue
  launches : List LaunchRec
  /-- Management registers (R360, R361). -/
  qtab : Word
  ptab : Word
  hdom : BitVec 16
  mods : BitVec 4
  event : Bool
  dump : Bool
  /-- MSI-X messages of vector 0 sent to the host (R358, R361). -/
  msis : Nat
  /-- The device is in recovery (R409); verified firmware runs (R373). -/
  recovery : Bool
  ready : Bool
  /-- Base of the HDM range in host physical addresses (R359). -/
  hdm : Word
  /-- Security version fused and running, the running image, and the recovery reason (R373, R409). -/
  fused : BitVec 32
  version : BitVec 32
  firmware : List Byte
  reason : Nat
  /-- Correctable-error counters, residue log, kept fault records (R388, R397, R424). -/
  ecc : List (Nat × BitVec 32)
  log : List LogEntry
  kept : List KeptRecord
  /-- Flits replayed by the link (R407). -/
  replays : Nat
  /-- The package has power (R25, R26); a fatal error in force (R411). -/
  powered : Bool
  fatal : Option Fatal
  /-- Private image parts in saved images (R425). -/
  privates : List PrivateParts
  /-- What the last host, mailbox or peer request returned, and whether it carried poison or, for a peer, the code of a
  refusal (R359, R373, R408). -/
  reply : List Byte
  replyPoison : Bool
  deriving DecidableEq, Repr

/-- Reasons a step ends the run. -/
inductive Fault where
  /-- Raised by `step` for a hart or sequencer that is chosen while the package has no power (R25, R26). Safe: the
  hardware executes nothing either. -/
  | unpowered
  deriving DecidableEq, Repr

/-- Reasons a step has no meaning. -/
inductive Refusal where
  /-- Raised by `exec` for an instruction without a meaning yet. Safe: nothing is claimed of it. -/
  | notModelled (mnemonic : String)
  deriving DecidableEq, Repr

/-- The outcome of one step. -/
abbrev Out := Host.Outcome State Fault Refusal

/-! ## Reset -/

/-- A hart at team start (R78), the parameter block not yet loaded. -/
def Hart.fresh : Hart where
  s := Vector.replicate 32 0
  f := Vector.replicate 32 0
  pc := 0
  glim := 0
  strip := 0
  frm := 0
  fflags := 0
  iflags := false
  ldst := 0b1100000#7
  priv := .user
  tvec := 0
  tpc := 0
  tcause := 0
  tval := 0
  tval2 := 0
  tscratch := 0
  halted := false
  wait := none
  since := 0
  slot := none

/-- Nothing sampled. -/
def DrawSample.none : DrawSample where
  key := 0
  src := 0
  epoch := 0

/-- No vector memory instruction in progress. -/
def VMem.idle : VMem where
  restart := 0
  used := 0
  serial := 0
  lastRead := 0
  draw := DrawSample.none
  sca := []

/-- An A-hart at team start (R78, R145). -/
def AHart.fresh : AHart where
  h := Hart.fresh
  shadow := Vector.replicate 8 0
  ustat := false
  uvec := 0
  upc := 0
  xrange := false
  ldstAside := 0
  n := 0
  sew := 2
  group := 0
  vrows := 0
  vcols := 0
  vm := VMem.idle
  stalled := none
  paused := false
  bank := none
  grid := none
  app := none
  done := []
  pend := []

/-- An X-hart at team start (R78). -/
def XHart.fresh : XHart where
  h := Hart.fresh
  v := Vector.replicate 32 0
  prog := Vector.replicate 32 0
  k := Vector.replicate 8 0
  sew := 2
  group := 0
  fmt := 9
  tail := false
  vl := 0
  vrows := 0
  vcols := 0
  two := false
  vstart := 0
  fidx := Vector.replicate 3 0
  vxrm := 0
  vxsat := false
  xsel := 0b11100#5
  dims := Vector.replicate 3 { stride := 0, len := 0 }
  carry := 0
  resumed := false
  block := none
  decoded := 0
  owed := 0
  midway := false

/-- A tandem at team start: queues empty (R61). -/
def Tandem.fresh : Tandem where
  a := AHart.fresh
  x := XHart.fresh
  q := Vector.replicate 6 []
  q6 := []
  q7 := []
  gq := []

/-- A cleared accumulator element (R259). -/
def MCell.zero : MCell where
  acc := 0
  part := 0
  nan := false
  inf := false
  isign := false

/-- A cleared tile (R259, R268). -/
def Tile.zero : Tile := Vector.replicate 128 (Vector.replicate 128 MCell.zero)

/-- Matrix state that no tandem owns (R78). -/
def Matrix.free : Matrix where
  owner := none
  tiles := Vector.replicate 4 Tile.zero
  mvl := 0
  mkblk := 0
  sa := Vector.replicate 128 0x3F800000#32
  sw := Vector.replicate 4 0x3F800000#32
  touch := 0

/-- No team. -/
def Team.blank : Team where
  status := .none
  launch := 0
  epoch := 0
  index := 0
  tandems := 0
  w := 0
  det := false
  port := false
  og := 0
  dtg := false
  spad := 0
  image := 0
  params := 0
  root := 0
  domain := 0
  prio := 0
  lcoord := Vector.replicate 8 0
  lext := Vector.replicate 8 0
  dkeylo := 0
  dkeyhi := 0
  dsrc := 0
  repoch := 0
  event := 0
  tds := Vector.replicate 4 Tandem.fresh
  mx := Matrix.free
  copies := []
  feeds := []
  pars := []
  ports := []
  trellis := none
  late := []
  lateCount := 0
  spadBytes := []
  spadEmpty := []
  spadPoison := []
  die := 0
  cfirst := 0
  clast := 0

/-- Core g after device reset: count 0 (R27), every lane group working (R397), every line full (R77), no team. -/
def Core.reset (g : Nat) : Core where
  num := g
  cycle := 0
  laneOff := 0
  vceil := 256
  mceil := 128
  mxOff := false
  suspects := []
  emptyLines := []
  team := Team.blank
  runList := []
  qStart := 0
  expired := false
  groups := Vector.replicate 8 { round := 0, lastTie := 3 }
  code := []

/-- The part right after device reset: no firmware verified, no queue enabled, no team placed. -/
def State.reset : State where
  sched := []
  ticks := 0
  born := 0
  ir := 0
  core := Core.reset 0
  tnd := 0
  xh := false
  limit := none
  holds := false
  others := []
  gch := 0
  mem := []
  poison := []
  fresh := []
  turn := none
  buf := []
  early := []
  serial := 0
  tlb := []
  walks := []
  miss := none
  acl := []
  refusals := []
  aclOld := []
  seqs := []
  colls := []
  ports := 0x3FFFF#18
  dropped := 0
  resends := []
  xsrc := 0
  xdst := 0
  xlen := 0
  xpeer := 0
  xstat := 0
  xgot := []
  queues := []
  launches := []
  qtab := 0
  ptab := 0
  hdom := 0
  mods := 0xF#4
  event := false
  dump := false
  msis := 0
  recovery := false
  ready := false
  hdm := 0
  fused := 0
  version := 0
  firmware := []
  reason := 0
  ecc := []
  log := []
  kept := []
  replays := 0
  powered := true
  fatal := none
  privates := []
  reply := []
  replyPoison := false

end Sys2Proof.Machine
end

