-- ==== Sys2Proof/Machine/Watch.lean ====
section
/-! DEFINITION. Work queues by number, and what the device observes when a write of the host performs (R334, R339, R362). -/

namespace Sys2Proof.Machine

/-- Fields of a queue descriptor (R334). -/
def WQueue.host (q : WQueue) : Bool := q.d1.getLsbD 2
def WQueue.ring (q : WQueue) : Nat := (q.d0.extractLsb' 6 50).toNat * 64
def WQueue.size (q : WQueue) : Nat := 2 ^ (q.d0.extractLsb' 0 6).toNat
def WQueue.tailAt (q : WQueue) : Nat := (q.d1.extractLsb' 3 53).toNat * 8
def WQueue.headAt (q : WQueue) : Nat := (q.d2.extractLsb' 3 53).toNat * 8

/-- Home address of a physical address of the queue's memory. -/
def WQueue.key (q : WQueue) (pa : Nat) : Nat := if q.host then hostBase + pa else pa

/-- A queue that has never been enabled. -/
def WQueue.fresh (n : Nat) : WQueue where
  num := n
  en := false
  seen := false
  dirty := false
  off := false
  tailDirty := false
  epoch := 0
  d0 := 0
  d1 := 0
  d2 := 0
  d3 := 0
  taken := 0
  tail := 0
  retired := []
  r := 0
  lost := 0

def State.queueOf (s : State) (n : Nat) : WQueue := (s.queues.find? (fun q => q.num == n)).getD (WQueue.fresh n)

def insertQueue (q : WQueue) : List WQueue → List WQueue
  | [] => [q]
  | x :: l => if q.num < x.num then q :: x :: l else if q.num = x.num then q :: l else x :: insertQueue q l

def State.setQueue (s : State) (q : WQueue) : State := { s with queues := insertQueue q s.queues }

/-- Ranges [a, a + n) and [b, b + m) meet. -/
def meets (a n b m : Nat) : Bool := decide (a < b + m) && decide (b < a + n)

/-- A write of the host performs at `addrs`, after which bit en of descriptor j reads as `en j`: descriptors and tail words
that it touches are read afresh, and a descriptor whose en is 0 then has been seen so (R334, R362). -/
def observeWrite (s : State) (addrs : List Nat) (en : Nat → Bool) : State :=
  let touched := fun (b n : Nat) => addrs.any (fun a => b ≤ a && a < b + n)
  let s := (List.range 1024).foldl (fun s j =>
    if touched (s.qtab.toNat + 64 * j) 64 then
      s.setQueue { s.queueOf j with dirty := true, off := (s.queueOf j).off || ((s.queueOf j).seen && !en j) }
    else s) s
  { s with queues := s.queues.map (fun q =>
      if q.en && !q.host && touched q.tailAt 8 then { q with tailDirty := true } else q) }

end Sys2Proof.Machine
end

