-- ==== Sys2Proof/Machine/Memory.lean ====
section
/-! DEFINITION. Memory: home memory and its poison, the full/empty bits, the buffers of the abstract machine and its
moves drain, combine, release and perform (R215 to R235, R387 to R391). -/

namespace Sys2Proof.Machine

/-! ## Lists kept rising -/

/-- Adds a number to a rising list without repeats. -/
def insertNat (a : Nat) : List Nat → List Nat
  | [] => [a]
  | x :: l => if a < x then a :: x :: l else if a = x then x :: l else x :: insertNat a l

/-- Removes a number from a list. -/
def eraseNat (a : Nat) (l : List Nat) : List Nat := l.filter (· != a)

/-- The numbers n, n + 1, …, n + k - 1. -/
def span (n k : Nat) : List Nat := (List.range k).map (n + ·)

/-- A vector by its index. -/
def vtab {α : Type} (n : Nat) (f : Nat → α) : Vector α n := ⟨⟨(List.range n).map f⟩, by simp⟩

/-! ## Home memory -/

/-- The byte at an address. -/
def Memory.read : Memory → Nat → Byte
  | [], _ => Memory.blank
  | (x, v) :: m, a => if a = x then v else Memory.read m a

/-- Memory with one byte written, in canonical form. -/
def Memory.write : Memory → Nat → Byte → Memory
  | [], a, b => if b = Memory.blank then [] else [(a, b)]
  | (x, v) :: m, a, b =>
    if a < x then (if b = Memory.blank then (x, v) :: m else (a, b) :: (x, v) :: m)
    else if a = x then (if b = Memory.blank then m else (a, b) :: m)
    else (x, v) :: Memory.write m a b

/-- Memory with several bytes written, in order. -/
def Memory.writeAll (m : Memory) (cells : List Host.Cell) : Memory :=
  cells.foldl (fun m c => m.write c.1 c.2) m

/-- Memory with `n` bytes from `a` on reading as unlisted ones. -/
def Memory.clear (m : Memory) (a n : Nat) : Memory := m.filter (fun c => c.1 < a || a + n ≤ c.1)

/-- Bytes of a value, little-endian (R104). -/
def bytesOf : Nat → Word → List Byte
  | 0, _ => []
  | n + 1, w => w.extractLsb' 0 8 :: bytesOf n (w >>> 8)

/-- The value of bytes, little-endian. -/
def natOf : List Byte → Nat
  | [] => 0
  | b :: l => b.toNat + 256 * natOf l

def wordOf (l : List Byte) : Word := BitVec.ofNat 64 (natOf l)

/-- Bytes placed from an address on. -/
def cellsAt (a : Nat) : List Byte → List Host.Cell
  | [] => []
  | b :: l => (a, b) :: cellsAt (a + 1) l

/-- `n` bytes at home. -/
def Memory.bytes (m : Memory) (a n : Nat) : List Byte := (span a n).map m.read

/-- A 64-bit word at home. -/
def Memory.word (m : Memory) (a : Nat) : Word := wordOf (m.bytes a 8)

/-! ## Places -/

/-- The granule of an address: 16 bytes in a scratchpad, else 64 (R387). -/
def granuleSize (a : Nat) : Nat := if scratchBase ≤ a then 16 else 64
def granule (a : Nat) : Nat := a - a % granuleSize a
def poisonedAt (s : State) (a : Nat) : Bool := s.poison.contains (granule a)

/-- Scratchpad owner of a home address, if it is one (R205). -/
def scratchCore? (a : Nat) : Option Nat := if scratchBase ≤ a then some ((a - scratchBase) / 2 ^ 23) else none

def isHost (a : Nat) : Bool := hostBase ≤ a && a < scratchBase

/-- Bytes of a region of device HBM (R205). -/
def regionSize : Nat := 0x1800000000
/-- Channel 0 to 383 of a device HBM address: 48 for each region (R310). -/
def channelOf (pa : Nat) : Nat := pa / regionSize * 48 + pa % regionSize / 0x10000 % 48
/-- Pair index of a device HBM address (R309, R310). -/
def pairOf (pa : Nat) : Nat := pa / 4096 % 16
/-- Row of a device HBM address (R310). -/
def rowOf (pa : Nat) : Nat := pa % regionSize / 0x10000 / 48

/-- Die of a core (R17). -/
def dieOf (core : Nat) : Nat := core / 192

/-! ## Cores by number -/

/-- The count of core g, n steps after the step at which device reset ended: 0 then, and at least 1 more with each step
(R27). -/
def coreCount (g born : Nat) : Nat → Word
  | 0 => 0
  | n + 1 => coreCount g born n + BitVec.ofNat 64 (1 + Config.coreCycles g (born + n))

/-- A core that has left no trace since device reset. -/
def Core.unseen (g born ticks : Nat) : Core := { Core.reset g with cycle := coreCount g born (ticks - born) }

/-- Core g, whether or not it is in focus. -/
def State.coreOf (s : State) (g : Nat) : Core :=
  if s.core.num = g then s.core
  else
    match s.others.find? (fun c => c.num == g) with
    | some c => c
    | none => Core.unseen g s.born s.ticks

/-- Puts a core into a list by rising number. -/
def insertCore (c : Core) : List Core → List Core
  | [] => [c]
  | x :: l => if c.num < x.num then c :: x :: l else if c.num = x.num then c :: l else x :: insertCore c l

def State.setCore (s : State) (c : Core) : State :=
  if s.core.num = c.num then { s with core := c } else { s with others := insertCore c s.others }

/-- The same state with core g in focus. -/
def State.focus (s : State) (g : Nat) : State :=
  if s.core.num = g then s
  else
    { s with
      core := s.coreOf g
      others := insertCore s.core (s.others.filter (fun c => c.num != g)) }

/-! ## Full/empty bits (R77, R233) -/

/-- The line of a scratchpad address is full. -/
def lineFull (s : State) (a : Nat) : Bool :=
  match scratchCore? a with
  | none => true
  | some g => !((s.coreOf g).emptyLines.contains ((a - scratchBase) % 2 ^ 23 / 128))

/-- Marks line `l` of core g. -/
def markLine (s : State) (g l : Nat) (full : Bool) : State :=
  let c := s.coreOf g
  s.setCore { c with emptyLines := if full then eraseNat l c.emptyLines else insertNat l c.emptyLines }

/-! ## Writes at home -/

/-- Granules of which `addrs` covers every byte (R387). -/
def coveredGranules (addrs : List Nat) : List Nat :=
  (addrs.map granule).eraseDups.filter (fun g => (span g (granuleSize g)).all addrs.contains)

/-- One write at home: bytes, and the poison bit cleared where the write covers a granule (R387). -/
def State.writeHome (s : State) (cells : List Host.Cell) : State :=
  let whole := coveredGranules (cells.map (·.1))
  { s with mem := s.mem.writeAll cells, poison := s.poison.filter (fun g => !whole.contains g) }

/-- Sets the poison bit of the granules of `addrs`. -/
def State.poisonAt (s : State) (addrs : List Nat) : State :=
  { s with poison := addrs.foldl (fun p a => insertNat (granule a) p) s.poison }

/-! ## Buffers -/

/-- The core number under which the agents that belong to no core have their store buffers: the host, the collective
engine, the sequencers and the reduce adders. -/
def offCore : Nat := 1536

/-- The buffers between an agent and a home, nearest first (R217). -/
def route (core : Nat) (ag : Agent) (a : Nat) : List Loc :=
  match ag with
  | .host => [.sb core ag]
  | .sequencer _ => [.sb core ag]
  | .adders _ => [.sb core ag]
  | .collective => if isHost a then [.sb core ag, .lb] else [.sb core ag]
  | _ =>
    if scratchCore? a = some core then [.sb core ag, .pb core]
    else if isHost a then [.sb core ag, .pb core, .fb (dieOf core), .lb]
    else [.sb core ag, .pb core, .fb (dieOf core)]

/-- Level of a buffer, one above the scope it serves: agent 0, core 1, die 2, device 3 (R217, R218). -/
def Loc.level : Loc → Nat
  | .sb _ _ => 0
  | .pb _ => 1
  | .fb _ => 2
  | .lb => 3

/-- The S point on a route: a buffer, or the home (R218). -/
def sPoint (r : List Loc) (scope : BitVec 2) : Option Loc := r.find? (fun l => scope.toNat + 1 ≤ l.level)

/-- The bytes an entry touches. -/
def Payload.addrs : Payload → List Nat
  | .bytes cells => cells.map (·.1)
  | .nibbles cells => cells.map (·.1)
  | .atomic _ a n _ _ => span a n

def Payload.overlaps (p q : Payload) : Bool := p.addrs.any q.addrs.contains

/-- A byte that an entry can supply (R221). Marked DESIGN CHOICE: R223 says that an atomic never reads from a buffer, and not
what a read does that meets one; such an entry supplies no byte, and the read takes it from beyond, also where an atomic of
its own agent that returns nothing covers it. -/
def Payload.byteAt (p : Payload) (a : Nat) : Option Byte :=
  match p with
  | .bytes cells => (cells.find? (fun c => c.1 == a)).map (·.2)
  | _ => none

/-- An entry holds something of instruction `n` of a core, merged or not (R223, R390). -/
def Entry.holds (e : Entry) (core n : Nat) : Bool :=
  (e.core == core && e.serial == n) ||
    (match e.payload with
      | .atomic _ _ _ _ who => who.any (fun c => c.core == core && c.serial == n)
      | _ => false)

/-- First address of an entry. -/
def Entry.addr (e : Entry) : Nat := e.payload.addrs.headD 0

def Entry.route (e : Entry) : List Loc := Machine.route e.core e.agent e.addr

/-- The buffer after the one an entry is in, or its home. -/
def Entry.next (e : Entry) : Option Loc :=
  match (e.route.dropWhile (fun l => l != e.loc)).drop 1 with
  | [] => none
  | l :: _ => some l

/-- `f` holds a lower element of the instruction of `e`, merged or not, that comes before `e` (R223, R229). -/
def Entry.lower (f e : Entry) : Bool :=
  match e.rank with
  | none => false
  | some r =>
    match f.payload with
    | .atomic _ _ _ _ who => who.any (fun c => c.serial == e.serial && c.core == e.core && decide (c.elem < r))
    | _ => f.serial == e.serial && f.core == e.core && decide (f.low < r)

def Payload.isAtomic : Payload → Bool
  | .atomic _ _ _ _ _ => true
  | _ => false

/-- The buffers that an entry has reached so far. -/
def Entry.passed (e : Entry) : List Loc := e.route.takeWhile (fun l => l != e.loc) ++ [e.loc]

/-- `e` may not leave its buffer before the lower part `f` of its instruction has left that buffer and those before it;
an atomic performs only after every lower one has (R229). -/
def Entry.waitsFor (e f : Entry) : Bool :=
  f.lower e && (e.passed.contains f.loc || (e.next.isNone && e.payload.isAtomic && f.payload.isAtomic))

/-- An older entry `f` of the same buffer that `e` may not pass (R222). The host's writes perform in their order (R232). -/
def Entry.blocks (f e : Entry) : Bool :=
  f.loc == e.loc && (f.payload.overlaps e.payload || e.agent == .host)

/-- A kernel that is inside a row step holds these bytes (R324): `gwr` writes and the words of the step are no ordinary
accesses. -/
def heldByGrotto (s : State) (addrs : List Nat) : Bool :=
  s.seqs.any (fun q => q.kernels.any (fun k =>
    k.status == .running && k.inStep &&
      addrs.any (fun a => a < hostBase && channelOf a == q.ch && k.data.any (fun d => pairOf d == pairOf a))))

/-- Fields of a matrix-feed record: first byte, steps, pitch and bytes per step (R269). -/
def feedFrom (words : List Word) : Nat := ((words.getD 0 0).extractLsb' 0 56).toNat
def feedSteps (words : List Word) : Nat := ((words.getD 1 0).extractLsb' 32 16).toNat
def feedPitch (words : List Word) : Nat := ((words.getD 1 0).extractLsb' 0 32).toNat
def feedBytes (words : List Word) : Nat := if (words.getD 2 0).getLsbD 3 then 64 else 128

/-- Base of the local window (R77). -/
def windowBase : Nat := 0x00FFFF0000000000

/-- A scratchpad offset lies on an operand line of a held feed of the core's resident team, whose guard is on (R269,
R271). -/
def guardedOffset (c : Core) (off : Nat) : Bool :=
  c.team.status == .resident && c.team.og != 0 && c.team.feeds.any (fun f =>
    (List.range (feedSteps f.words)).any (fun t =>
      let a := feedFrom f.words - windowBase + t * feedPitch f.words
      decide (a / 128 ≤ off / 128) && decide (off / 128 ≤ (a + feedBytes f.words - 1) / 128)))

/-- Home addresses that the operand guard of their core keeps (R271). -/
def guarded (s : State) (addrs : List Nat) : Bool :=
  addrs.any (fun a =>
    match scratchCore? a with
    | none => false
    | some g => guardedOffset (s.coreOf g) ((a - scratchBase) % 2 ^ 23))

/-- Home addresses of another channel's held pairs among those given. -/
def heldElsewhere (s : State) (ch : Nat) (addrs : List Nat) : Bool :=
  heldByGrotto { s with seqs := s.seqs.filter (fun q => q.ch != ch) } addrs

/-- A row step of a kernel holds these bytes against an agent: a sequencer's own kernels do not (R324). -/
def rowHeld (s : State) (ag : Agent) (addrs : List Nat) : Bool :=
  match ag with
  | .sequencer ch => heldElsewhere s ch addrs
  | _ => heldByGrotto s addrs

/-- An entry may not perform at its home yet: a row step holds it, or it comes from another core and meets the operand
guard (R271, R324). -/
def homeHeld (s : State) (e : Entry) : Bool :=
  rowHeld s e.agent e.payload.addrs || (scratchCore? e.addr != some e.core && guarded s e.payload.addrs)

/-- Asks the kernels that hold these bytes to suspend at their next row boundary (R324). -/
def askSuspend (s : State) (addrs : List Nat) : State :=
  { s with
    seqs := s.seqs.map (fun q => { q with
      kernels := q.kernels.map (fun k =>
        if k.status == .running && k.inStep &&
            addrs.any (fun a => a < hostBase && channelOf a == q.ch && k.data.any (fun d => pairOf d == pairOf a)) then
          { k with suspendReq := true }
        else k) }) }

/-! ## Atomics at home -/

/-- The new value of an atomic on `n` bytes (R238). -/
def AtomicOp.apply (op : AtomicOp) (n : Nat) (old b : Word) : Word :=
  let w := 8 * n
  let u := fun (x : Word) => x.toNat % 2 ^ w
  let si := fun (x : Word) => (BitVec.ofNat w x.toNat).toInt
  let r : Word :=
    match op with
    | .add => old + b
    | .and => old &&& b
    | .or => old ||| b
    | .xor => old ^^^ b
    | .min => if si old ≤ si b then old else b
    | .max => if si old ≤ si b then b else old
    | .minu => if u old ≤ u b then old else b
    | .maxu => if u old ≤ u b then b else old
    | .swap => b
    | .cas cmp => if u old = u cmp then b else old
    | .fadd => (fpAdd (if n = 8 then .fp64 else .fp32) .rne old b).1
  BitVec.ofNat 64 (u r)

/-- Trap cause word (R375). -/
def causeWord (cls code acc : Nat) : Word := BitVec.ofNat 64 (acc * 2 ^ 32 + code * 2 ^ 16 + cls)

/-- Detail word of a failed access (R392). -/
def detailWord (cls code engine index : Nat) : Word :=
  BitVec.ofNat 64 (cls * 2 ^ 56 + code * 2 ^ 52 + engine * 2 ^ 48 + index % 2 ^ 48)

/-- Code of class 11 for poison at an address: found by this read, or there before (R388). -/
def poisonCode (s : State) (a : Nat) : Nat :=
  if isHost a then 4 else if s.fresh.contains (granule a) then (if scratchBase ≤ a then 2 else 1) else 3

/-- Code of class 11 for a read of `addrs` that meets poison: that of a granule this read found, else of one poisoned
before (R388). -/
def readCode (s : State) (addrs : List Nat) : Nat :=
  match addrs.find? (fun a => poisonedAt s a && s.fresh.contains (granule a)) with
  | some a => poisonCode s a
  | none => poisonCode s ((addrs.find? (poisonedAt s)).getD (addrs.headD 0))

/-- Adds a failing contribution to the pending faults of a hart: a `vsca` gathers its elements (R390). -/
def gatherFault (c : Contrib) (code : Nat) (l : List PFault) : List PFault :=
  let cause := causeWord 11 code 7
  if c.vsca then
    if l.any (fun p => p.serial == some c.serial) then
      l.map (fun p =>
        if p.serial == some c.serial then
          let n := p.tval.toNat / 2 ^ 48 + 1
          let i := p.tval.toNat % 2 ^ 17
          if c.elem < i then { p with tval := BitVec.ofNat 64 (n * 2 ^ 48 + c.elem), addr := c.va }
          else { p with tval := BitVec.ofNat 64 (n * 2 ^ 48 + i) }
        else p)
    else l ++ [{ cause := cause, tval := BitVec.ofNat 64 (2 ^ 48 + c.elem), addr := c.va, serial := some c.serial }]
  else l ++ [{ cause := cause, tval := detailWord 11 code 3 c.elem, addr := c.va, serial := if c.late then some c.serial else none }]

/-- The A-hart of tandem t on core g changes. -/
def onAHart (s : State) (g : Nat) (t : Fin 4) (f : AHart → AHart) : State :=
  let c := s.coreOf g
  let td := c.team.tds[t]
  s.setCore { c with team := { c.team with tds := c.team.tds.set t { td with a := f td.a } } }

/-- A pending fault for the A-hart of tandem t on core g. -/
def addFault (s : State) (g : Nat) (t : Fin 4) (f : List PFault → List PFault) : State :=
  onAHart s g t (fun a => { a with pend := f a.pend })

/-! ## Values that come to a register -/

/-- A narrower value with the bits above it set to ones (R57, R135). -/
def boxed (width : Nat) (v : Word) : Word := v ||| (BitVec.allOnes 64 <<< width)

/-- Bytes extended with the sign of their top bit, or with zeros. -/
def extended (signed : Bool) (n : Nat) (w : Word) : Word :=
  if signed then BitVec.ofInt 64 (BitVec.ofNat (8 * n) w.toNat).toInt else w

/-- The value of n bytes as a register takes it (R129, R238). -/
def RegDest.form (d : RegDest) (n : Nat) (w : Word) : Word := if d.float then boxed (8 * n) w else extended d.signed n w

/-- The register takes a value for an instruction that has ended (R219, R223). -/
def AHart.land (a : AHart) (d : RegDest) (w : Word) : AHart :=
  if d.float then { a with h := { a.h with f := a.h.f.set d.r.toFin w } }
  else if d.r = 0#5 then a
  else if d.shadow then { a with shadow := a.shadow.set ((d.r - 24#5).toNat % 8) w (Nat.mod_lt _ (by decide)) }
  else { a with h := { a.h with s := a.h.s.set d.r.toFin w } }

/-- The old value of an atomic on n bytes comes to those that wait for it (R223). -/
def returnOld (s : State) (n : Nat) (old : Word) (who : List Contrib) : State :=
  who.foldl (fun s c =>
    match c.ret with
    | none => s
    | some d => onAHart s c.core c.t (fun a => a.land d (d.form n old))) s

/-- Walks that `gone` names are abandoned, and leave no trace (R210). -/
def dropWalks (s : State) (gone : WalkRun → Bool) : State := { s with walks := s.walks.filter (fun r => !gone r) }

/-- An atomic performs at home: the state after, and the old value, or none where its read half meets poison and it
writes nothing (R223, R390). Marked DESIGN CHOICE: R221 makes reads wait on an empty full/empty bit and R223 does not say
whether the read half of an atomic at home is such a read; it does not wait. -/
def performAtomic (s : State) (op : AtomicOp) (a n : Nat) (b : Word) : State × Option Word :=
  if poisonedAt s a then (s, none)
  else
    let old := wordOf (s.mem.bytes a n)
    (s.writeHome (cellsAt a (bytesOf n (op.apply n old b))), some old)

/-- A nibble write at home: its byte is read, one nibble replaced and the byte written (R221); the poison bit stays
(R387). -/
def performNibbles (s : State) (cells : List (Nat × Bool × BitVec 4)) : State :=
  { s with
    mem := cells.foldl (fun m c =>
      let old := m.read c.1
      m.write c.1 (if c.2.1 then c.2.2 ++ old.extractLsb' 0 4 else old.extractLsb' 4 4 ++ c.2.2)) s.mem }

/-- An entry performs at home (R222, R223, R391). -/
def perform (s : State) (p : Payload) : State :=
  match p with
  | .bytes cells => s.writeHome cells
  | .nibbles cells => performNibbles s cells
  | .atomic op a n b who =>
    match performAtomic s op a n b with
    | (s', some old) => returnOld s' n old who
    | (s', none) => who.foldl (fun s c => addFault s c.core c.t (gatherFault c (poisonCode s a))) s'

/-- An entry performs: poison that it carries stays with its granules, and the device observes a write of the host (R362,
R387, R407). A poisoned descriptor says nothing of its en bit (R389). -/
def performEntry (s : State) (e : Entry) : State :=
  let s := perform s e.payload
  let s := if e.bad then s.poisonAt e.payload.addrs else s
  if e.agent == .host then
    observeWrite s e.payload.addrs (fun j =>
      poisonedAt s (s.qtab.toNat + 64 * j) || (s.mem.word (s.qtab.toNat + 64 * j + 8)).getLsbD 0)
  else s

/-! ## Moves -/

/-- The n-th buffered entry and the rest. -/
def pick (n : Nat) (l : List Entry) : Option (Entry × List Entry) :=
  match l[n]? with
  | none => none
  | some e => some (e, l.eraseIdx n)

/-- An entry may leave its buffer: `older` are the entries before it, `rest` all others (R222, R229). -/
def mayLeave (older rest : List Entry) (e : Entry) : Bool :=
  !older.any (fun f => f.blocks e) && !rest.any e.waitsFor

/-- The drain of entry n; nothing happens where another entry stands in its way or a row step holds its home (R222, R229,
R324). -/
def drainMove (s : State) (n : Nat) : State :=
  match pick n s.buf with
  | none => s
  | some (e, rest) =>
    if !mayLeave (s.buf.take n) rest e then s
    else
      match e.next with
      | some l => { s with buf := rest ++ [{ e with loc := l }] }
      | none =>
        if homeHeld s e then askSuspend s e.payload.addrs
        else performEntry { s with buf := rest } e

/-- None of the contributions returns a value (R223). -/
def noneReturns (who : List Contrib) : Bool := who.all (fun c => c.ret.isNone)

/-- Two atomic adds merged, neither of which returns a value: equal operation, place and size; the sum wraps, or rounds once
under RNE (R223). -/
def mergeAdds (p q : Payload) : Option Payload :=
  match p, q with
  | .atomic .add a n x w, .atomic .add b m y v =>
    if a = b ∧ n = m ∧ noneReturns (w ++ v) then some (.atomic .add a n (BitVec.ofNat 64 ((x + y).toNat % 2 ^ (8 * n))) (w ++ v)) else none
  | .atomic .fadd a n x w, .atomic .fadd b m y v =>
    if a = b ∧ n = m ∧ noneReturns (w ++ v) then
      some (.atomic .fadd a n (fpAdd (if n = 8 then .fp64 else .fp32) .rne x y).1 (w ++ v))
    else none
  | _, _ => none

/-- Entry `f` is the next for the location of `e`: in the buffer of `e`, or, for one about to perform, at the home unit
(R223). -/
def sameUnit (e f : Entry) : Bool := f.loc == e.loc || (e.next.isNone && f.next.isNone)

/-- The instructions of which an entry holds something, merged or not: core and number (R223, R390). -/
def Entry.instrs (e : Entry) : List (Nat × Nat) :=
  match e.payload with
  | .atomic _ _ _ _ who => who.map (fun c => (c.core, c.serial))
  | _ => [(e.core, e.serial)]

/-- Entry `g` holds another part of an instruction that both `e` and `f` hold parts of (R229). -/
def Entry.parts (g e f : Entry) : Bool := g.instrs.any (fun n => e.instrs.contains n && f.instrs.contains n)

/-- Entries `e` and the younger `f` may be combined, with `between` the entries that stand between them and `others` all
the rest: in a port buffer or at the home's unit, no other entry for that location and none of another element of their
`vsca` between, and `f` not taken before a lower part of its instruction (R223, R229). -/
def mayCombine (e f : Entry) (between others : List Entry) : Bool :=
  (e.loc.level == 1 || e.next.isNone) &&
    !between.any (fun g => sameUnit e g && (g.payload.overlaps e.payload || g.parts e f)) &&
    others.all (fun g => !g.lower f || g.lower e) && (e.loc == f.loc || !others.any (fun g => g.blocks f))

/-- The combine of entry n with the next younger entry of its location at the same unit (R223). -/
def combineMove (s : State) (n : Nat) : State :=
  match pick n s.buf with
  | none => s
  | some (e, rest) =>
    let younger := rest.drop n
    match younger.findIdx? (fun f => sameUnit e f && f.payload.overlaps e.payload) with
    | none => s
    | some k =>
      match younger[k]? with
      | none => s
      | some f =>
        match (if mayCombine e f (younger.take k) (rest.take n ++ younger.eraseIdx k) then mergeAdds e.payload f.payload
            else none) with
        | none => s
        | some p => { s with buf := rest.take n ++ { e with payload := p } :: younger.eraseIdx k }

/-! ## Reads -/

/-- The youngest entry's byte in one buffer. -/
def bufferByte (buf : List Entry) (l : Loc) (a : Nat) : Option Byte :=
  buf.reverse.findSome? (fun e => if e.loc == l then e.payload.byteAt a else none)

/-- The byte a read of an agent takes: from the first buffer of its path that holds one, else from home (R221). -/
def visibleByte (s : State) (core : Nat) (ag : Agent) (a : Nat) : Option Byte :=
  (route core ag a).findSome? (fun l => bufferByte s.buf l a)

/-- The entry that supplies a byte to a read of an agent carries poison with it (R407). -/
def badByte (s : State) (core : Nat) (ag : Agent) (a : Nat) : Bool :=
  ((route core ag a).findSome? (fun l => s.buf.reverse.find? (fun e => e.loc == l && (e.payload.byteAt a).isSome))).any
    (·.bad)

/-- A byte that an agent of no core reads: from its store buffer, else from home, or none where it is poisoned (R217, R221,
R407). -/
def offSees (s : State) (ag : Agent) (a : Nat) : Option Byte :=
  match visibleByte s offCore ag a with
  | some b => if badByte s offCore ag a then none else some b
  | none => if poisonedAt s a then none else some (s.mem.read a)

/-- Entry `p` must perform before entry `e` may, its place in age given by `older` (R222, R229). -/
def Entry.first (p e : Entry) (older : Bool) : Bool :=
  (p.payload.overlaps e.payload && e.route.contains p.loc && e.loc.level < p.loc.level) || (older && p.blocks e) ||
    (p.lower e && (e.route.contains p.loc || (p.payload.isAtomic && e.payload.isAtomic)))

/-- Closure under the entries that must leave first: `marks` runs beside the buffer. -/
def mustLeave (buf : List Entry) : Nat → List Bool → List Bool
  | 0, marks => marks
  | k + 1, marks =>
    let l := (buf.zip marks).zipIdx
    let grown := l.map (fun p => p.1.2 || l.any (fun e => e.1.2 && p.1.1.first e.1.1 (p.2 < e.2)))
    mustLeave buf k grown

/-- Performs the marked entries of one level, oldest first. -/
def performLevel (s : State) (lv : Nat) (l : List Entry) : State :=
  l.foldl (fun s e => if e.loc.level == lv then performEntry s e else s) s

/-- The entries that `sel` names, with all that must go before them, and the others (R221, R222). -/
def leaving (s : State) (sel : Entry → Bool) : List Entry × List Entry :=
  let l := s.buf.zip (mustLeave s.buf s.buf.length (s.buf.map sel))
  (l.filterMap (fun p => if p.2 then some p.1 else none), l.filterMap (fun p => if p.2 then none else some p.1))

/-- Performs at home every entry that `sel` names, with all that must go before it (R221, R222). -/
def performNow (s : State) (sel : Entry → Bool) : State :=
  let l := leaving s sel
  (([3, 2, 1, 0] : List Nat).foldl (fun s lv => performLevel s lv l.1) { s with buf := l.2 })

/-- Addresses at homes that are held among those that `performNow` would perform (R271, R324). -/
def nowHeld (s : State) (sel : Entry → Bool) : List Nat :=
  if s.buf.any sel then ((leaving s sel).1.filter (homeHeld s)).flatMap (fun e => e.payload.addrs) else []

/-- Entries on a path that touch one of `addrs`. -/
def onPath (core : Nat) (ag : Agent) (addrs : List Nat) (e : Entry) : Bool :=
  e.payload.addrs.any addrs.contains && (route core ag (addrs.headD 0)).contains e.loc

/-- What a read of an agent gives. -/
inductive Got where
  /-- The bytes. -/
  | bytes (l : List Byte)
  /-- It waits: an empty line, or a row step that holds the bytes (R221, R324). -/
  | wait
  /-- It meets poison at the given byte of the access (R389). -/
  | poison (i : Nat)
  deriving DecidableEq, Repr

/-- A nibble entry on the path of a read of `addrs` (R221). -/
def nibbleOn (core : Nat) (ag : Agent) (addrs : List Nat) (e : Entry) : Bool :=
  (match e.payload with | .nibbles _ => true | _ => false) && onPath core ag addrs e

/-- Performs the nibble entries that a read of `addrs` has to wait for (R221). -/
def settleNibbles (s : State) (core : Nat) (ag : Agent) (addrs : List Nat) : State :=
  if s.buf.any (nibbleOn core ag addrs) then performNow s (nibbleOn core ag addrs) else s

/-- The read of `addrs` by an agent whose nibble entries have settled. -/
def gotBytes (s : State) (core : Nat) (ag : Agent) (addrs : List Nat) : Got :=
  if addrs.any (fun a => !lineFull s a) || heldByGrotto s addrs then .wait
  else
    match addrs.findIdx? (fun a => (visibleByte s core ag a == none && poisonedAt s a) || badByte s core ag a) with
    | some i => .poison i
    | none => .bytes (addrs.map (fun a => (visibleByte s core ag a).getD (s.mem.read a)))

/-- A read of `addrs` by an agent in one move; it waits for a nibble entry whose home is held (R221, R324). -/
def freshRead (s : State) (core : Nat) (ag : Agent) (addrs : List Nat) : State × Got :=
  match nowHeld s (nibbleOn core ag addrs) with
  | [] =>
    let s := settleNibbles s core ag addrs
    match gotBytes s core ag addrs with
    | .wait => (askSuspend s addrs, .wait)
    | g => (s, g)
  | l => (askSuspend s l, .wait)

/-- An early read not older than step `since` that holds every byte asked for, and when it executed (R219, R229). -/
def earlyBytes (s : State) (core : Nat) (ag : Agent) (since : Nat) (addrs : List Nat) : Option (Nat × List Byte) :=
  s.early.findSome? (fun e =>
    if e.core == core && e.agent == ag && since ≤ e.tick && e.dest.isNone then
      (addrs.mapM (fun a => (e.cells.find? (fun c => c.1 == a)).map (·.2))).map (fun l => (e.tick, l))
    else none)

/-- A read that its instruction has executed is held, if this move holds its accesses: what it reads may still change until
its value is used (R219). -/
def holdRead (s : State) (ag : Agent) (addrs : List Nat) (d : Dest) : State :=
  if s.holds then
    { s with early := s.early ++ [{ core := s.core.num, agent := ag, tick := s.ticks, cells := addrs.map (fun a => (a, 0#8)), dest := some d }] }
  else s

/-- Drops the early reads of an agent that touch `addrs`: accesses that overlap execute in program order (R219). -/
def dropEarly (s : State) (core : Nat) (ag : Agent) (addrs : List Nat) : State :=
  { s with early := s.early.filter (fun e =>
      !(e.core == core && e.agent == ag && e.cells.any (fun c => addrs.contains c.1))) }

/-- The read of `addrs` by an agent in one move, an earlier execution of it used up unless it came before step `since`;
and the step in which it executed (R219, R221, R229). -/
def readSince (s : State) (core : Nat) (ag : Agent) (since : Nat) (addrs : List Nat) : State × Got × Nat :=
  match earlyBytes s core ag since addrs with
  | some (n, l) => (dropEarly s core ag addrs, .bytes l, n)
  | none =>
    let r := freshRead (dropEarly s core ag addrs) core ag addrs
    (r.1, r.2, s.ticks)

/-- The read of `addrs` by an agent in one move (R219, R221). -/
def readMove (s : State) (core : Nat) (ag : Agent) (addrs : List Nat) : State × Got :=
  let r := readSince s core ag 0 addrs
  (r.1, r.2.1)

/-! ## Writes and releases -/

/-- A new entry in the agent's store buffer (R220). -/
def enter (s : State) (core : Nat) (ag : Agent) (p : Payload) : State :=
  let s := dropEarly s core ag p.addrs
  { s with
    buf := s.buf ++ [{ loc := .sb core ag, core := core, agent := ag, payload := p, serial := s.serial,
                       low := 0, rank := none, bad := false }] }

/-- Entries in the store buffer of an agent of no core, one for each line (R216, R220). -/
def enterOff (s : State) (ag : Agent) (bad : Bool) (cells : List Host.Cell) : State :=
  ((cells.map (fun c => c.1 / 128)).eraseDups).foldl (fun s l =>
    { s with
      buf := s.buf ++ [{ loc := .sb offCore ag, core := offCore, agent := ag
                         payload := .bytes (cells.filter (fun c => c.1 / 128 == l))
                         serial := s.serial, low := 0, rank := none, bad := bad }] }) s

/-- The next instruction's entries carry a new number. -/
def nextSerial (s : State) : State := { s with serial := s.serial + 1 }

/-- The buffers that a release of `agents` at a scope empties, from the homes outwards (R218, R225). -/
def releaseLocs (core : Nat) (agents : List Agent) (scope : BitVec 2) : List Loc :=
  (if 3 ≤ scope.toNat then [Loc.lb] else []) ++ (if 2 ≤ scope.toNat then [Loc.fb (dieOf core)] else []) ++
    (if 1 ≤ scope.toNat then [Loc.pb core] else []) ++ agents.map (Loc.sb core)

/-- Performs the lower atomics of the instruction of `e`, which an atomic may not pass (R229). -/
def performLower (s : State) (e : Entry) : State :=
  let sel := fun (f : Entry) => e.payload.isAtomic && f.payload.isAtomic && f.lower e
  if s.buf.any sel then performNow s sel else s

/-- An entry taken from its buffer goes to its S point, or performs. -/
def toSPoint (scope : BitVec 2) (s : State) (e : Entry) : State :=
  match sPoint e.route scope with
  | some l => { s with buf := s.buf ++ [{ e with loc := l }] }
  | none => performEntry (performLower s e) e

/-- Empties one buffer to the S points of its entries, oldest first. -/
def emptyLoc (s : State) (l : Loc) (scope : BitVec 2) : State :=
  (s.buf.filter (fun e => e.loc == l)).foldl (fun s e =>
    if s.buf.contains e then toSPoint scope { s with buf := s.buf.erase e } e else s) s

/-- What a release would perform at homes that are held (R271, R324). -/
def releaseHeld (s : State) (core : Nat) (agents : List Agent) (scope : BitVec 2) : List Nat :=
  let go := s.buf.filter (fun e => (releaseLocs core agents scope).contains e.loc && sPoint e.route scope == none)
  (s.buf.filter (fun f => homeHeld s f && (go.contains f || go.any (fun e => e.payload.isAtomic && f.payload.isAtomic &&
    f.lower e)))).flatMap (fun e => e.payload.addrs)

/-- Where a releasing write of `addrs` by a core's agent would perform at a home that is held (R271, R324). -/
def enterHeld (s : State) (core : Nat) (ag : Agent) (scope : BitVec 2) (addrs : List Nat) : List Nat :=
  if sPoint (route core ag (addrs.headD 0)) scope == none &&
      (heldByGrotto s addrs || (scratchCore? (addrs.headD 0) != some core && guarded s addrs)) then addrs
  else []

/-- Step 2 of a release (R225). -/
def releaseMove (s : State) (core : Nat) (agents : List Agent) (scope : BitVec 2) : State :=
  (releaseLocs core agents scope).foldl (fun s l => emptyLoc s l scope) s

/-- The releasing write enters at its own S point, or performs (step 3 of R225). -/
def enterAt (s : State) (core : Nat) (ag : Agent) (scope : BitVec 2) (p : Payload) : State :=
  let s := dropEarly s core ag p.addrs
  match sPoint (route core ag (p.addrs.headD 0)) scope with
  | some l =>
    { s with buf := s.buf ++ [{ loc := l, core := core, agent := ag, payload := p, serial := s.serial,
                                low := 0, rank := none, bad := false }] }
  | none => perform s p

/-- An acquire or a fence: reads that an agent executed early do not stand (R219, R226, R228). -/
def forgetEarly (s : State) (core : Nat) (agents : List Agent) : State :=
  { s with early := s.early.filter (fun e => !(e.core == core && agents.contains e.agent)) }

end Sys2Proof.Machine
end

