-- ==== Sys2Proof/Machine/Fatal.lean ====
section
/-! DEFINITION. Fatal errors and the dump (R361, R410 to R413). -/

namespace Sys2Proof.Machine

/-- Every core that has left a trace. -/
def State.cores (s : State) : List Core := s.core :: s.others

/-- Lane groups that work (R35, R397). -/
def workingLanes (c : Core) : Nat := ((List.range 8).filter (fun g => !c.laneOff.getLsbD g)).length

/-- `devstat` (R361). -/
def devstat (s : State) : Word :=
  let lanes := (s.cores.filter (fun c => c.laneOff != 0)).length
  BitVec.ofNat 64 (lanes * 2 ^ 16 + s.mods.toNat * 2 ^ 4 + s.event.toNat * 8 + s.dump.toNat * 4 + s.recovery.toNat * 2 +
    s.ready.toNat)

/-- Device physical address of the dump (R412). -/
def dumpBase : Nat := 0xBF9F000000
def dumpSize : Nat := 0x1000000

/-- An address of firmware's reserved region: that of the dump lies in it, and how far it reaches beyond is open
(R410, R412). -/
def inReserved (pa : Nat) : Bool :=
  (dumpBase ≤ pa && pa < dumpBase + dumpSize) || (pa < 0xC000000000 && Config.firmwareRegion pa)

/-- The word of the header that names the causes (R412). A number of 1536 + d is that of die d, and of no core. -/
def dumpHeader (f : Fatal) : Word :=
  let die := if f.core < 1536 then dieOf f.core else (f.core - 1536) % 8
  let loc := if f.core < 1536 then f.core % 192 else 0xFF
  BitVec.ofNat 64 (f.first.toNat + f.further.toNat * 2 ^ 8 + die * 2 ^ 24 + loc * 2 ^ 27)

/-- The eight words of a hart (R412). -/
def dumpHart (launch : Nat) (h : Hart) : List Byte :=
  ([h.tcause, h.tval, h.tval2, h.tpc, h.pc, (if h.priv = .system then 1 else 0), BitVec.ofNat 64 launch, 0] :
    List Word).flatMap (bytesOf 8)

/-- The bytes of one core: per tandem its A-hart and its X-hart. -/
def dumpCore (c : Core) : List Byte :=
  ([0, 1, 2, 3] : List (Fin 4)).flatMap (fun t =>
    let td := c.team.tds[t]
    dumpHart c.team.launch td.a.h ++ dumpHart c.team.launch td.x.h)

/-- The cells of a dump; every other byte of the region is zero (R412). -/
def dumpCells (s : State) (f : Fatal) (st : Word) : List Host.Cell :=
  cellsAt dumpBase (bytesOf 8 0x4C51444D00000001) ++ cellsAt (dumpBase + 8) (bytesOf 8 (dumpHeader f)) ++
  cellsAt (dumpBase + 0x10) (bytesOf 8 f.detail) ++ cellsAt (dumpBase + 0x18) (bytesOf 8 st) ++
  s.cores.flatMap (fun c => cellsAt (dumpBase + 0x1000 + 512 * c.num) (dumpCore c)) ++
  s.ecc.flatMap (fun e => cellsAt (dumpBase + 0xC1000 + 4 * e.1) (bytesOf 4 (e.2.setWidth 64))) ++
  ((s.log.take 4096).zipIdx).flatMap (fun p => cellsAt (dumpBase + 0xC3000 + 16 * p.2)
    ((List.range 16).map (Config.logByte p.1.core p.1.unit p.1.element p.1.retired))) ++
  s.refusals.flatMap (fun r => cellsAt (dumpBase + 0xD3000 + 32 * r.target)
    ((List.range 32).map (Config.refusalByte r.count r.domain r.addr)))

/-- `devstat.event` is set, and each setting sends MSI-X vector 0 to the host (R358, R361). -/
def signalEvent (s : State) : State := { s with event := true, msis := s.msis + 1 }

/-- A cause that arises after the first: it is counted, and where it is the lower of two in one cycle it is the first
cause (R410, R411, R413). Whether the two fell in one cycle is open. -/
def furtherCause (f : Fatal) (cause : BitVec 8) (core : Nat) (detail : Word) (tick : Nat) : Fatal :=
  let n := if f.further = 0xFFFF#16 then f.further else f.further + 1
  if cause < f.first && Config.sameCycle tick then { first := cause, further := n, core := core, detail := detail }
  else { f with further := n }

/-- A fatal error: the device stops and firmware writes the dump; one that follows is counted (R411). `core` is 1536 + d
for one of die d and of no core. -/
def raiseFatal (s : State) (cause : BitVec 8) (core : Nat) (detail : Word) : State :=
  match s.fatal with
  | some f =>
    let f := furtherCause f cause core detail s.ticks
    { s with
      fatal := some f
      mem := s.mem.writeAll (cellsAt (dumpBase + 8) (bytesOf 8 (dumpHeader f) ++ bytesOf 8 f.detail)) }
  | none =>
    let f : Fatal := { first := cause, further := 0, core := core, detail := detail }
    let st := devstat s
    { signalEvent s with
      fatal := some f
      dump := true
      mem := (s.mem.clear dumpBase dumpSize).writeAll (dumpCells s f st)
      poison := s.poison.filter (fun a => a < dumpBase || dumpBase + dumpSize ≤ a) }

end Sys2Proof.Machine
end

