-- ==== Sys2Proof/Machine/Mmu.lean ====
section
/-! DEFINITION. Address translation, page attributes and access tables (R130, R202 to R211, R369, R370). -/

namespace Sys2Proof.Machine

/-- How an access uses a page (R207). -/
inductive Mode where
  | read
  | write
  | atomic
  | exec
  deriving DecidableEq, Repr

/-- A page attribute that an instruction asks for, checked last (R211 order 5). -/
inductive Need where
  | none
  | x64
  | notX64
  | parameter
  | gradient
  | grotto
  deriving DecidableEq, Repr

/-- What an access asks of its page: its use, the kinds that admit its agent besides hbm, the attribute it needs and
its access kind in `tcause` (R207, R211, R375). -/
structure Ask where
  mode : Mode
  host : Bool
  scratch : Bool
  peer : Bool
  need : Need
  acc : Nat
  deriving DecidableEq, Repr

/-- Who asks: core, translation root, security domain, window size and privilege (R207, R336, R370). -/
structure Who where
  core : Nat
  root : Word
  domain : BitVec 16
  spad : Nat
  user : Bool
  deriving DecidableEq, Repr

/-- A leaf as a walk found it (R203, R204). -/
structure Leaf where
  base : Nat
  size : Nat
  w0 : Word
  w1 : Word
  deriving DecidableEq, Repr

/-- Where an access goes: its home address, whether through the local window, and the leaf's words. -/
structure Place where
  key : Nat
  window : Bool
  w0 : Word
  w1 : Word
  deriving DecidableEq, Repr

/-- A refused access: class and code of R375. -/
structure Refused where
  cls : Nat
  code : Nat
  deriving DecidableEq, Repr

/-! ## Leaf fields (R204) -/

def leafKind (w0 : Word) : Nat := (w0.extractLsb' 10 2).toNat
def leafSize (w0 : Word) : Nat := (w0.extractLsb' 2 4).toNat
def leafPa (w0 : Word) : Nat := (w0.extractLsb' 12 40).toNat * 4096
def leafHome (w1 : Word) : Nat := (w1.extractLsb' 0 3).toNat
def leafSync (w1 : Word) : Bool := w1.getLsbD 3
def leafFmt (w1 : Word) : Nat := (w1.extractLsb' 4 3).toNat
def leafSrnd (w1 : Word) : Nat := (w1.extractLsb' 7 2).toNat
def leafQ (w1 : Word) : Nat := (w1.extractLsb' 9 6).toNat
def leafTrellis (w1 : Word) : Nat := (w1.extractLsb' 15 2).toNat
def leafGrotto (w1 : Word) : Bool := w1.getLsbD 17
def leafHshared (w1 : Word) : Bool := w1.getLsbD 18

/-- Bytes of device HBM (R205). -/
def hbmSize : Nat := 0xC000000000

/-- A leaf at a level is malformed (R203, R205, R206). Marked DESIGN CHOICE: R206 does not name a leaf whose `q` is not 0
while its `fmt` is not x64, which R204 forbids; it is malformed. -/
def malformedLeaf (level : Nat) (w0 w1 : Word) : Bool :=
  let kind := leafKind w0
  let n := leafSize w0
  let pa := leafPa w0
  let home := leafHome w1
  let f := leafFmt w1
  w0.extractLsb' 52 12 != 0 || w1.extractLsb' 19 45 != 0 || leafTrellis w1 == 3 || leafSrnd w1 == 3 || f == 7 ||
  (f != 6 && leafQ w1 != 0) ||
  !((level == 3 && n ≤ 10) || (level == 2 && 11 ≤ n)) ||
  pa % (4096 * 2 ^ n) != 0 ||
  (match kind with
    | 0 => !(pa < hbmSize && home == pa / regionSize)
    | 1 => home != 0
    | 2 => !(pa < 1536 * 2 ^ 23 && home == pa / 2 ^ 23 / 192)
    | _ => !(pa % 2 ^ 40 < hbmSize && home == 0)) ||
  (f != 0 && f != 6 && 2 ≤ kind) || (f == 6 && kind != 0) ||
  (leafSrnd w1 != 0 && (f == 0 || f == 6)) ||
  (leafTrellis w1 != 0 && kind != 0) || (leafTrellis w1 == 2 && f != 6) ||
  (leafGrotto w1 && kind != 0) || (leafHshared w1 && 2 ≤ kind)

/-- A table entry is malformed (R204, R206). -/
def malformedTable (w0 w1 : Word) : Bool :=
  w0.extractLsb' 52 12 != 0 || w0.extractLsb' 2 10 != 0 || w0.extractLsb' 12 3 != 0 || w1 != 0 ||
  !(leafPa w0 < hbmSize)

/-- Where a walk finds the entry of an address in the table at `base`, with `k` levels below it (R202). -/
def entryPa (va k base : Nat) : Nat := base + 16 * (va / 2 ^ (12 + 11 * k) % 2048)

/-- What an entry of the table with `k` levels below it says of an address, both of its words read: the leaf, or the next
table, or that it is malformed (R206, R211). Marked DESIGN CHOICE: an entry of level 3 that is present and no leaf, which
R206 does not name, is malformed. -/
def entrySays (va k : Nat) (w0 w1 : Word) : Except Refused (Leaf ⊕ Nat) :=
  if w0.getLsbD 1 then
    if malformedLeaf (3 - k) w0 w1 then .error ⟨6, 2⟩
    else
      let size := 4096 * 2 ^ leafSize w0
      .ok (.inl { base := va - va % size, size := size, w0 := w0, w1 := w1 })
  else if malformedTable w0 w1 || k == 0 then .error ⟨6, 2⟩
  else .ok (.inr (leafPa w0))

/-- A walk from the table at `base`, with `k` levels left, whose reads no other move comes between: word 0, then word 1, at
home (R202, R209, R211). A poisoned table word is served as any read that meets poison (R389). Marked DESIGN CHOICE: R202
says that the root and every table lie in device HBM and gives no consequence for a root elsewhere; the walk reads there,
where nothing is stored, and finds no present entry (cause 1). -/
def walkFrom (s : State) (va : Nat) : Nat → Nat → Except Refused Leaf
  | 0, _ => .error ⟨6, 2⟩
  | k + 1, base =>
    let a := entryPa va k base
    if poisonedAt s a then .error ⟨11, poisonCode s a⟩
    else
      let w0 := s.mem.word a
      if !w0.getLsbD 0 then .error ⟨6, 1⟩
      else
        match entrySays va k w0 (s.mem.word (a + 8)) with
        | .error e => .error e
        | .ok (.inl l) => .ok l
        | .ok (.inr next) => walkFrom s va k next

/-- How the walk of this request has just ended, if it has ended without a leaf (R209, R211). -/
def missOf (s : State) (w : Who) (va : Nat) : Option Refused :=
  s.miss.bind (fun m =>
    if m.tick + 1 = s.ticks ∧ m.core = w.core ∧ m.root = w.root ∧ m.page = va / 4096 then some ⟨m.cls, m.code⟩ else none)

/-- The leaf of a virtual address: a cached one, else that of a walk (R210); an access whose own walk has met an entry that
gives none is refused, though an older leaf may still stand in a TLB (R212). -/
def leafOf (s : State) (w : Who) (va : Nat) : Except Refused Leaf :=
  match missOf s w va with
  | some e => .error e
  | none =>
  match s.tlb.find? (fun e => e.die == dieOf w.core && e.root == w.root && e.base ≤ va && va < e.base + e.size) with
  | some e => .ok { base := e.base, size := e.size, w0 := e.w0, w1 := e.w1 }
  | none => walkFrom s va 4 w.root.toNat

/-- Home address of a byte of a page (R205). Pages of kind peer lie from 2^60 on. -/
def homeKey (kind pa : Nat) : Nat :=
  match kind with
  | 0 => pa
  | 1 => hostBase + pa
  | 2 => scratchBase + pa
  | _ => 2 ^ 60 + pa

/-- The access table a home address is checked at, and the address it is checked under: none for the core's own
scratchpad (R369). -/
def aclTarget (core key : Nat) : Option (Nat × Nat) :=
  match scratchCore? key with
  | some g => if g = core then none else some (384 + g, key - scratchBase)
  | none => if isHost key then some (2304, key - hostBase) else some (channelOf key, key)

/-- A request passes a target's table (R370). -/
def aclPasses (s : State) (target : Nat) (domain : BitVec 16) (m : Mode) (pa len : Nat) : Bool :=
  domain == 0xFFFF#16 ||
  s.acl.any (fun e =>
    e.target == target && e.w0.getLsbD 0 && e.w1.extractLsb' 48 16 == domain &&
    (match m with
      | .write => e.w0.getLsbD 2
      | .atomic => e.w0.getLsbD 3
      | _ => e.w0.getLsbD 1) &&
    leafPa e.w0 ≤ pa && pa + len ≤ leafPa e.w0 + (e.w1.extractLsb' 0 40).toNat * 4096)

/-- Bytes of the window; the range above it is reserved (R77). -/
def windowSize : Nat := 0x800000

/-- Permission, kind and attribute of a leaf, in the order of R211. -/
def leafRefusal (w : Who) (q : Ask) (w0 w1 : Word) : Option Refused :=
  let r := w0.getLsbD 6
  let wr := w0.getLsbD 7
  let perm := match q.mode with
    | .read => r
    | .write => wr
    | .atomic => r && wr
    | .exec => w0.getLsbD 8
  let kind := match leafKind w0 with
    | 0 => true
    | 1 => q.host
    | 2 => q.scratch
    | _ => q.peer
  let need := match q.need with
    | .none => true
    | .x64 => leafFmt w1 == 6
    | .notX64 => leafFmt w1 != 6
    | .parameter => leafTrellis w1 == 1
    | .gradient => leafTrellis w1 == 2
    | .grotto => leafGrotto w1
  if !perm || (w.user && !w0.getLsbD 9) then some ⟨6, 3⟩
  else if !kind then some ⟨6, 4⟩
  else if !need then some ⟨6, 5⟩
  else none

/-- The checks of R130, items 2 to 4, and where the access goes. Marked DESIGN CHOICE: of a window access beyond the
launch's part of it (cause 1, R336) that is a fetch (cause 3) or needs a page attribute (cause 5), the spec does not say
which comes first; 3 and 5 do. -/
def translate (s : State) (w : Who) (q : Ask) (va : Word) (len : Nat) : Except Refused Place :=
  let a := va.toNat
  if 2 ^ 56 ≤ a then .error ⟨6, 6⟩
  else if windowBase ≤ a then
    if windowBase + windowSize ≤ a then .error ⟨6, 6⟩
    else if q.mode == .exec then .error ⟨6, 3⟩
    else if q.need != .none && q.need != .notX64 then .error ⟨6, 5⟩
    else if w.spad * 0x10000 < a - windowBase + len then .error ⟨6, 1⟩
    else .ok { key := scratchBase + w.core * 2 ^ 23 + (a - windowBase), window := true, w0 := 0, w1 := 0 }
  else
    match leafOf s w a with
    | .error e => .error e
    | .ok l =>
      match leafRefusal w q l.w0 l.w1 with
      | some e => .error e
      | none =>
        let key := homeKey (leafKind l.w0) (leafPa l.w0 + (a - l.base))
        match (if leafKind l.w0 = 3 then none else aclTarget w.core key) with
        | none => .ok { key := key, window := false, w0 := l.w0, w1 := l.w1 }
        | some t =>
          if aclPasses s t.1 w.domain q.mode t.2 len then
            .ok { key := key, window := false, w0 := l.w0, w1 := l.w1 }
          else .error ⟨7, 0⟩

/-- Word 1 of the leaf of an address, where there is one: the attributes that fix an element's size before its checks
are made (R158, R239). -/
def pageAttr (s : State) (w : Who) (va : Word) : Word :=
  if windowBase ≤ va.toNat then 0
  else
    match leafOf s w va.toNat with
    | .ok l => l.w1
    | .error _ => 0

/-- A refusal joins the log of its target: a count, and the domain and the address of the first (R408). -/
def logRefusal (s : State) (target : Nat) (domain : BitVec 16) (addr : Nat) : State :=
  { s with refusals :=
      if s.refusals.any (fun r => r.target == target) then
        s.refusals.map (fun r => if r.target == target then { r with count := r.count + 1 } else r)
      else s.refusals ++ [{ target := target, count := 1, domain := domain, addr := BitVec.ofNat 64 addr }] }

/-- The refusal of an access at an address, where its class is 7, joins the log of the target (R408). -/
def noteRefusal (s : State) (w : Who) (cls : Nat) (va : Word) : State :=
  if cls != 7 then s
  else
    match leafOf s w va.toNat with
    | .error _ => s
    | .ok l =>
      match (if leafKind l.w0 = 3 then none else aclTarget w.core (homeKey (leafKind l.w0) (leafPa l.w0 + (va.toNat - l.base)))) with
      | none => s
      | some t => logRefusal s t.1 w.domain t.2

/-- Whether a location is eligible at a scope for a core (R208). -/
def eligible (core : Nat) (p : Place) (scope : BitVec 2) : Bool :=
  let kind := leafKind p.w0
  let own := p.window || (kind == 2 && leafSync p.w1 && scratchCore? p.key == some core)
  match scope.toNat with
  | 0 => own
  | 1 => own || ((kind == 0 || kind == 2) && leafSync p.w1 && leafHome p.w1 == dieOf core)
  | 2 => own || kind == 0 || kind == 2
  | _ => true

/-- The scope an access is made at: the narrowest from `scope` on at which its location is eligible (R224). -/
def effScope (core : Nat) (p : Place) (scope : BitVec 2) : BitVec 2 :=
  if eligible core p scope then scope
  else if scope.toNat < 1 && eligible core p 1 then 1
  else if scope.toNat < 2 && eligible core p 2 then 2
  else 3

/-! ## What each agent asks -/

/-- A read or a write by a scalar or vector agent: hbm and host pages (R207). -/
def Ask.load : Ask := { mode := .read, host := true, scratch := false, peer := false, need := .none, acc := 0 }
def Ask.store : Ask := { mode := .write, host := true, scratch := false, peer := false, need := .none, acc := 1 }
/-- An atomic: hbm, host and scratch pages (R207, R240). -/
def Ask.atomic : Ask := { mode := .atomic, host := true, scratch := true, peer := false, need := .none, acc := 2 }
/-- A record or descriptor read by the scalar agent (R237). -/
def Ask.record : Ask := { mode := .read, host := true, scratch := false, peer := false, need := .none, acc := 5 }
/-- A descriptor or a record of Parterre, and a draw table that Parterre's draws name: hbm pages and the window (R279). -/
def Ask.parRecord : Ask := { Ask.record with host := false }
def Ask.parDraw : Ask := { mode := .read, host := false, scratch := false, peer := false, need := .none, acc := 6 }
/-- A draw-table read (R101). -/
def Ask.draw : Ask := { mode := .read, host := true, scratch := false, peer := false, need := .none, acc := 6 }
/-- An instruction fetch, and the block read of `vfetch` (R207). -/
def Ask.fetch : Ask := { mode := .exec, host := true, scratch := false, peer := false, need := .none, acc := 3 }
def Ask.block : Ask := { mode := .exec, host := true, scratch := false, peer := false, need := .none, acc := 4 }
/-- The copy engine: hbm, host and scratch pages (R251). -/
def Ask.copyRead : Ask := { mode := .read, host := true, scratch := true, peer := false, need := .none, acc := 7 }
def Ask.copyWrite : Ask := { mode := .write, host := true, scratch := true, peer := false, need := .none, acc := 7 }
/-- Matrix feed, Parterre and the Trellis unit: hbm pages and the window (R207). -/
def Ask.engineRead : Ask := { mode := .read, host := false, scratch := false, peer := false, need := .none, acc := 7 }
def Ask.engineWrite : Ask := { mode := .write, host := false, scratch := false, peer := false, need := .none, acc := 7 }

end Sys2Proof.Machine
end

