-- ==== Sys2Proof/Machine/Ops.lean ====
section
/-! DEFINITION. The named operations over the hart in focus: its registers, program counter, stalls, traps and return
(R57 to R70, R140, R141, R236, R375 to R380), the checks before an instruction (R119), memory accesses of its agents
(R130, R225 to R228) and instruction fetch (R104, R105). -/

namespace Sys2Proof.Machine

/-! ## The hart in focus -/

def State.team (s : State) : Team := s.core.team
def State.setTeam (s : State) (t : Team) : State := { s with core := { s.core with team := t } }
def State.td (s : State) : Tandem := s.core.team.tds[s.tnd]
def State.setTd (s : State) (t : Tandem) : State :=
  { s with core := { s.core with team := { s.core.team with tds := s.core.team.tds.set s.tnd t } } }
def State.a (s : State) : AHart := s.td.a
def State.setA (s : State) (a : AHart) : State := s.setTd { s.td with a := a }
def State.x (s : State) : XHart := s.td.x
def State.setX (s : State) (x : XHart) : State := s.setTd { s.td with x := x }
def State.h (s : State) : Hart := if s.xh then s.td.x.h else s.td.a.h
def State.setH (s : State) (h : Hart) : State :=
  if s.xh then s.setX { s.x with h := h } else s.setA { s.a with h := h }

/-- The same core with another of its harts in focus. -/
def State.onHart (s : State) (t : Fin 4) (x : Bool) : State := { s with tnd := t, xh := x }

def State.pc (s : State) : Word := s.h.pc

/-- A move of an engine for the team of the core in focus: the team's commands and streams stand still from its pre-emption
until it has resumed and its scratchpad is restored (R252, R270, R284, R307, R354). -/
def whileResident (s : State) (f : State → Out) : Out := if s.core.team.status == .resident then f s else .next s

/-- Next instruction, n bytes on; a stall has ended. -/
def State.bump (s : State) (n : Nat) : State :=
  s.setH { s.h with pc := s.h.pc + BitVec.ofNat 64 n, wait := none }

/-- A transfer of control; bit 0 of the pc is always 0 (R105). -/
def State.jump (s : State) (target : Word) : State :=
  s.setH { s.h with pc := target &&& ~~~1#64, wait := none }

/-- The next instruction of a C-form word (R128). -/
def State.done (s : State) : Out := .next (s.bump 4)

/-- A stall: nothing of the instruction has happened, and it executes again (R236). -/
def State.stall (s : State) (w : Wait) : Out := .next (s.setH { s.h with wait := some w })

/-! ## Registers (R57, R59, R70) -/

/-- The shadows stand for s24 to s31 while the user-level handler runs (R57). -/
def State.shadowed (s : State) (r : Reg) : Bool := !s.xh && s.a.ustat && 24#5 ≤ r

/-- Reads s[r]; s0 is zero (R59). -/
def State.getS (s : State) (r : Reg) : Word :=
  if r = 0#5 then 0
  else if s.shadowed r then s.a.shadow[(r - 24#5).toNat % 8]'(Nat.mod_lt _ (by decide))
  else s.h.s[r.toFin]

/-- Sets `ldst`: class 0 s, 1 f, 2 v (R70). -/
def State.setLdst (s : State) (cls : BitVec 2) (r : Reg) : State := s.setH { s.h with ldst := cls ++ r }

/-- Writes s[d] and sets `ldst`; a write to s0 is discarded (R59, R70). -/
def State.setS (s : State) (d : Reg) (v : Word) : State :=
  let s := s.setLdst 0 d
  if d = 0#5 then s
  else if s.shadowed d then
    s.setA { s.a with shadow := s.a.shadow.set ((d - 24#5).toNat % 8) v (Nat.mod_lt _ (by decide)) }
  else s.setH { s.h with s := s.h.s.set d.toFin v }

def State.getF (s : State) (r : Reg) : Word := s.h.f[r.toFin]

/-- Writes all 64 bits of f[d] and sets `ldst`. -/
def State.setF (s : State) (d : Reg) (v : Word) : State :=
  let s := s.setLdst 1 d
  s.setH { s.h with f := s.h.f.set d.toFin v }

/-- Who the hart in focus is to a page and to an access table. -/
def State.who (s : State) : Who :=
  { core := s.core.num, root := s.core.team.root, domain := s.core.team.domain, spad := s.core.team.spad,
    user := s.h.priv == .user }

/-! ## Taking a trap and returning (R140, R141, R375 to R380) -/

/-- The A-hart leaves an instruction that its Parterre agent or its draw port was serving: nothing more of it happens
unless it executes again (R236, R378). Marked DESIGN CHOICE: R72 and R99 do not say whether an instruction that executes
again after a trap issues, and samples the draw state, anew; a `pdraw` does, its port being gone, while a vector store keeps
what it sampled first, as it keeps its restart index. -/
def State.withdraw (s : State) : State :=
  if s.xh then s
  else
    s.setTeam { s.core.team with
      pars := s.core.team.pars.filter (fun c => !(c.t == s.tnd && c.kind.waits))
      ports := s.core.team.ports.filter (fun p => !(p.t == s.tnd && p.kind == 2)) }

/-- Taking a trap: the hart records it, enters privilege system and goes on at `tvec`. The saved address is `at_`. A
trap at privilege system is a fatal error instead (R380). -/
def State.takeTrap (s : State) (cause tval tval2 at_ : Word) : State :=
  match s.h.priv with
  | .system => raiseFatal s 1 s.core.num at_
  | .user =>
    let s := s.withdraw
    s.setH { s.h with
      tcause := cause, tval := tval, tval2 := tval2, tpc := at_, pc := s.h.tvec, priv := .system, wait := none,
      since := s.ticks }

/-- A trap at the instruction itself. -/
def State.trap (s : State) (cls code acc : Nat) (tval tval2 : Word) : Out :=
  .next (s.takeTrap (causeWord cls code acc) tval tval2 s.h.pc)

/-- Class 1 with a cause of R119; `tval2` is the word. -/
def State.illegal (s : State) (code : Nat) : Out := s.trap 1 code 0 0 s.ir

/-- A refused access at an address (classes 5 to 11); a refusal by an access table is logged there (R408). -/
def State.badAccess (s : State) (cls code acc : Nat) (va : Word) : Out := (noteRefusal s s.who cls va).trap cls code acc va va

/-- A write of the hart meets the operand guard: `tval2` is the address of the guarded line (R271, R375). -/
def State.guardTrap (s : State) (acc : Nat) (tval va : Word) : Out := s.trap 10 0 acc tval (va &&& ~~~127#64)

/-- Return from a trap (R105, R141, privilege system). -/
def State.returnTrap (s : State) : State :=
  s.setH { s.h with pc := s.h.tpc &&& ~~~1#64, priv := .user, wait := none }

/-- Return from the user-level handler: the shadows no longer stand for s24 to s31 and `ldst` is that set aside (R141,
R253). -/
def State.returnUser (s : State) : State :=
  s.setA { s.a with ustat := false, h := { s.a.h with pc := s.a.upc &&& ~~~1#64, ldst := s.a.ldstAside, wait := none } }

/-- The first pending fault whose instruction has nothing left to perform (R390, R394). A hart in the trap handler
takes none: later faults are taken on resumption; nor does one between two groups of an instruction. -/
def readyFault (s : State) : Option PFault :=
  if s.a.h.priv = .system || s.a.paused then none
  else
  match s.a.pend with
  | [] => none
  | p :: _ =>
    match p.serial with
    | none => some p
    | some n =>
      if s.buf.any (fun e => e.holds s.core.num n) || s.a.vm.serial == n || s.core.team.trellis.any (fun c => c.serial == n)
      then none else some p

/-- A pending fault is taken at the boundary before the instruction at pc (R394). -/
def State.takePending (s : State) (p : PFault) : State :=
  ((noteRefusal s s.who (p.cause.extractLsb' 0 8).toNat p.addr).setA { s.a with pend := s.a.pend.drop 1 }).takeTrap p.cause p.tval p.addr s.a.h.pc

/-- Entry to the user-level completion handler, the A-hart in focus (R253). -/
def State.enterUser (s : State) : State :=
  match s.a.done with
  | [] => s
  | c :: rest =>
    let s := s.withdraw
    s.setA { s.a with
      upc := s.a.h.pc, ldstAside := s.a.h.ldst, ustat := true, done := rest
      shadow := (s.a.shadow.set 0 c.stat).set 1 c.status
      h := { s.a.h with pc := s.a.uvec &&& ~~~1#64, wait := none } }

/-- The conditions of R253 for that entry. -/
def userReady (s : State) : Bool :=
  !s.a.done.isEmpty && !s.a.ustat && s.a.h.priv == .user && s.a.uvec != 0 && !s.a.paused

/-! ## Checks before an instruction (R112, R119, R379) -/

/-- Checks 4 and 6 of R119: the hart may issue the instruction, and its reserved fields are 0. -/
def issue (onA onX : Bool) (i : Instr) (s : State) (body : State → Out) : Out :=
  if !(if s.xh then onX else onA) then s.illegal 4
  else if !i.wf then s.illegal 6
  else body s

/-! ## Accesses of the hart's agents -/

def State.scalarAgent (s : State) : Agent := .scalar s.tnd
def State.vectorAgent (s : State) : Agent := .vector s.tnd

/-- A read by an agent of `n` bytes at `va`, checked as R130 orders; `k` goes on with the place and the bytes. A read
of an empty line stalls (R131) and one that meets poison traps (R389). -/
def readThen (s : State) (ag : Agent) (q : Ask) (va : Word) (n : Nat) (k : State → Place → List Byte → Out) : Out :=
  if va.toNat % n != 0 then s.badAccess 5 0 q.acc va
  else
    match translate s s.who q va n with
    | .error e => s.badAccess e.cls e.code q.acc va
    | .ok p =>
      match readMove s s.core.num ag (span p.key n) with
      | (s, .bytes l) => k s p l
      | (s, .wait) => s.stall .line
      | (s, .poison _) => s.badAccess 11 (readCode s (span p.key n)) q.acc va

/-- The place of a checked access that changes memory: R130, then the operand guard of the team (R271, R379). -/
def placeThen (s : State) (q : Ask) (va : Word) (n : Nat) (k : State → Place → Out) : Out :=
  if va.toNat % n != 0 then s.badAccess 5 0 q.acc va
  else
    match translate s s.who q va n with
    | .error e => s.badAccess e.cls e.code q.acc va
    | .ok p =>
      if scratchCore? p.key == some s.core.num && guarded s (span p.key n) then
        if s.core.team.og == 1#2 then s.stall .line else s.guardTrap q.acc va va
      else k s p

/-- A release by agents of the hart's core before what `k` does; a held home makes it wait (R225, R271, R324). -/
def releaseThen (s : State) (agents : List Agent) (scope : BitVec 2) (k : State → Out) : Out :=
  match releaseHeld s s.core.num agents scope with
  | [] => k (releaseMove s s.core.num agents scope)
  | l => (askSuspend s l).stall .word

/-- A store by the scalar agent: one entry (R220). -/
def storeEntry (s : State) (key : Nat) (bytes : List Byte) : State :=
  enter (nextSerial s) s.core.num s.scalarAgent (.bytes (cellsAt key bytes))

/-- A releasing store at a scope, or at the narrowest one its location allows (R224, R225, R244). -/
def releaseStore (s : State) (scope : BitVec 2) (va : Word) (n : Nat) (w : Word) (k : State → Out) : Out :=
  placeThen s Ask.store va n fun s p =>
    match enterHeld s s.core.num s.scalarAgent (effScope s.core.num p scope) (span p.key n) with
    | [] =>
      releaseThen s [s.scalarAgent] (effScope s.core.num p scope) fun s =>
        k (enterAt (nextSerial s) s.core.num s.scalarAgent (effScope s.core.num p scope)
          (.bytes (cellsAt p.key (bytesOf n w))))
    | l => (askSuspend s l).stall .word

/-- An acquiring read of `n` bytes: later accesses of the scalar agent come after it (R226). -/
def acquireRead (s : State) (q : Ask) (va : Word) (n : Nat) (k : State → List Byte → Out) : Out :=
  readThen s s.scalarAgent q va n fun s _ l => k (forgetEarly s s.core.num [s.scalarAgent]) l

/-! ## Fetch (R104 to R107, R128) -/

/-- The aligned unit of 8 bytes of code at a home address: as it stands at home, or as the core has seen it since the team
was launched or resumed, where a store has overwritten it since (R107). Which of these one fetch sees is open, unit by
unit. -/
def codeUnit (s : State) (u : Nat) : Word :=
  let now := s.mem.word u
  match (s.core.code.filter (fun c => c.1 == u && c.2 != now)).map (·.2) with
  | [] => now
  | old :: l => (now :: old :: l).getD (Config.unitSeen s.ticks u % (l.length + 2)) now

/-- The slot at an address, fetched through the instruction path (R29, R107), with the home address of its unit. -/
def fetchAt (s : State) (a : Word) : Except Refused (Nat × BitVec 32) :=
  match translate s s.who Ask.fetch a 4 with
  | .error e => .error e
  | .ok p =>
    if poisonedAt s p.key then .error ⟨11, poisonCode s p.key⟩
    else .ok (p.key / 8 * 8, (codeUnit s (p.key / 8 * 8)).extractLsb' (8 * (p.key % 8)) 32)

def fetchSlot (s : State) (a : Word) : Except Refused (BitVec 32) :=
  match fetchAt s a with
  | .error e => .error e
  | .ok w => .ok w.2

/-- The core has seen the unit as it stands at home (R107). -/
def keepUnit (s : State) (u : Nat) : State :=
  if s.core.code.contains (u, s.mem.word u) then s
  else { s with core := { s.core with code := (u, s.mem.word u) :: s.core.code } }

/-- Whether the A-hart or the X-hart may issue an opcode (R112). -/
def opcodeOn (op : BitVec 8) (x : Bool) : Bool :=
  let n := op.toNat
  let both := n ≤ 0x27 || (0x2D ≤ n && n ≤ 0x2F) || (0x30 ≤ n && n ≤ 0x3F) || n == 0x40 || n == 0x41 || n == 0x47 ||
    n == 0xB1 || n == 0xB2 || (0xB8 ≤ n && n ≤ 0xBF)
  let onX := n == 0x42 || n == 0x43 || (0x54 ≤ n && n ≤ 0x87) || (0x90 ≤ n && n ≤ 0x95) || n == 0x97
  if x then both || onX else both || !onX

/-- The instruction of a fetched word, first half or second, or the trap that the hart takes instead (R105, R119). -/
def decodeFetched (s : State) (w : BitVec 32) (second : Bool) : Instr ⊕ Refused :=
  if second && !isKSlot w then .inr ⟨1, 1⟩
  else
    match decodeSlot w second with
    | .instr i => .inl i
    | .compactBit => .inr ⟨1, 2⟩
    | .wrongForm => .inr ⟨1, 3⟩
    | .reserved op => .inr ⟨1, if opcodeOn op s.xh then 6 else 4⟩

/-- The word that the hart in focus has fetched already for the instruction at its pc: one that it has left unfinished, or the
second half of a slot, which costs no fetch of its own (R107, R115). -/
def heldSlot (s : State) : Option (BitVec 32) :=
  match s.h.slot with
  | some p => if p.1 = s.pc then some p.2 else none
  | none => none

/-- A word has been fetched from a unit for the hart in focus. -/
def tookWord (s : State) (u : Nat) (w : BitVec 32) : State :=
  let s := { keepUnit s u with ir := w.setWidth 64 }
  s.setH { s.h with slot := some (s.h.pc, w) }

/-- What the hart in focus finds at its pc: an instruction to execute, or the trap it takes instead (R105, R119). -/
def fetchInstr (s : State) : State × (Instr ⊕ Refused) :=
  let second := s.pc.getLsbD 1
  let at_ := if second then s.pc - 2 else s.pc
  match heldSlot s with
  | some w => ({ s with ir := w.setWidth 64 }, decodeFetched s w second)
  | none =>
    match fetchAt s at_ with
    | .error e => (s, .inr e)
    | .ok (u, w) => (tookWord s u w, decodeFetched s w second)

/-- The trap of a failed fetch: class 1 carries the word, the others the address (R375). -/
def fetchTrap (s : State) (e : Refused) : Out :=
  if e.cls = 1 then s.illegal e.code else s.badAccess e.cls e.code 3 s.pc

/-! ## Scalar queues (R61, R132) -/

/-- Pushes to the outgoing scalar head: q6 from the A-hart, q7 from the X-hart; none when it is full. -/
def pushScalar (s : State) (w : Word) : Option State :=
  if s.xh then
    if s.td.q7.length < 16 then some (s.setTd { s.td with q7 := s.td.q7 ++ [w] }) else none
  else if s.td.q6.length < 16 then some (s.setTd { s.td with q6 := s.td.q6 ++ [w] }) else none

/-- Pops the incoming scalar head: q7 on the A-hart, q6 on the X-hart; none when it is empty. -/
def popScalar (s : State) : Option (Word × State) :=
  if s.xh then
    match s.td.q6 with
    | [] => none
    | w :: l => some (w, s.setTd { s.td with q6 := l })
  else
    match s.td.q7 with
    | [] => none
    | w :: l => some (w, s.setTd { s.td with q7 := l })

/-- The heads a hart may name: outgoing and incoming (R132, R133). -/
def outHead (x : Bool) : Reg := if x then 7#5 else 6#5
def inHead (x : Bool) : Reg := if x then 6#5 else 7#5

end Sys2Proof.Machine
end

