-- ==== Sys2Proof/Machine/Flags.lean ====
section
/-! DEFINITION. The sticky flags (R68): floating-point exceptions, integer division, saturation and x64 range. -/

namespace Sys2Proof.Machine

/-- Raises floating-point exceptions in the `fflags` of the hart in focus. -/
def State.raise (s : State) (f : Flags) : State := s.setH { s.h with fflags := s.h.fflags ||| f }

/-- Sets `iflags.idiv` (R122). -/
def State.raiseIdiv (s : State) (b : Bool) : State := s.setH { s.h with iflags := s.h.iflags || b }

/-- Sets `vxsat` of the X-hart. -/
def State.raiseSat (s : State) (b : Bool) : State := s.setX { s.x with vxsat := s.x.vxsat || b }

/-- Sets `xrange` of the A-hart (R88, R89). -/
def State.raiseRange (s : State) (b : Bool) : State := s.setA { s.a with xrange := s.a.xrange || b }

/-- A write to a W1C field clears the bits written as 1 (R68, R76). -/
def clearOnes {n : Nat} (old w : BitVec n) : BitVec n := old &&& ~~~w

/-- The division cases that set `idiv`: a zero divisor, and for signed forms the most negative value by -1 (R122). -/
def divEdge (signed : Bool) {n : Nat} (a b : BitVec n) : Bool :=
  b == 0 || (signed && a == BitVec.intMin n && b == BitVec.allOnes n)

/-- Quotient with the edge values of R122 and R171. -/
def quot (signed : Bool) {n : Nat} (a b : BitVec n) : BitVec n :=
  if b == 0 then BitVec.allOnes n
  else if signed then (if divEdge true a b then a else a.sdiv b) else a / b

/-- Remainder with the edge values of R122 and R171. -/
def remnd (signed : Bool) {n : Nat} (a b : BitVec n) : BitVec n :=
  if b == 0 then a
  else if signed then (if divEdge true a b then 0 else a.srem b) else a % b

end Sys2Proof.Machine
end

