-- ==== Sys2Proof/Machine/Scalar.lean ====
section
/-! DEFINITION. Scalar integer, immediate and control instructions (R121 to R128). -/

namespace Sys2Proof.Machine

/-! ## Integer operations on values (R121) -/

def slt (a b : Word) : Word := if a.slt b then 1 else 0
def sltu (a b : Word) : Word := if a < b then 1 else 0
def smin (a b : Word) : Word := if a.slt b then a else b
def umin (a b : Word) : Word := if a < b then a else b
def smax (a b : Word) : Word := if a.slt b then b else a
def umax (a b : Word) : Word := if a < b then b else a
def shiftOf (b : Word) : Nat := (b.extractLsb' 0 6).toNat
def mulHigh (a b : Word) : Word := (a.signExtend 128 * b.signExtend 128).extractLsb' 64 64
def mulHighU (a b : Word) : Word := (a.setWidth 128 * b.setWidth 128).extractLsb' 64 64

/-- Leading zero bits of a value of `n` bits. -/
def leadingZeros (n : Nat) (x : Nat) : Nat := if x = 0 then n else n - 1 - Nat.log2 x
/-- Trailing zero bits of a value of `n` bits. -/
def trailingZeros (n : Nat) (x : Nat) : Nat := ((List.range n).find? x.testBit).getD n
/-- Bits that are 1 among the low `n`. -/
def popCount (n : Nat) (x : Nat) : Nat := ((List.range n).filter x.testBit).length

/-- `bop` by its variant (R123). -/
def bitOp (v : BitVec 2) (x : Word) : Word :=
  match v.toNat with
  | 0 => BitVec.ofNat 64 (leadingZeros 64 x.toNat)
  | 1 => BitVec.ofNat 64 (trailingZeros 64 x.toNat)
  | 2 => BitVec.ofNat 64 (popCount 64 x.toNat)
  | _ => x.reverse

/-- s[d] := f (s[a], s[b]). -/
def binaryS (f : Word → Word → Word) (d a b : Reg) (s : State) : State := s.setS d (f (s.getS a) (s.getS b))

/-- Division, with `idiv` (R122). -/
def divideS (f : Word → Word → Word) (signed : Bool) (d a b : Reg) (s : State) : State :=
  (s.setS d (f (s.getS a) (s.getS b))).raiseIdiv (divEdge signed (s.getS a) (s.getS b))

/-- pc + 2 x offset (R126 to R128, R133). -/
def branchTarget {n : Nat} (s : State) (o : BitVec n) : Word := s.pc + (o.signExtend 64 <<< 1)

/-- A conditional branch from an instruction of `len` bytes. -/
def branchIf (c : Bool) (target : Word) (len : Nat) (s : State) : State := if c then s.jump target else s.bump len

/-! ## Opcodes 0x00 to 0x14 (R121, R122) -/

/-- `add` (R121). -/
def execAdd (d a b : Reg) (s : State) : Out :=
  issue true true (.add d a b) s fun s => (binaryS (fun x y => x + y) d a b s).done

/-- `sub` (R121). -/
def execSub (d a b : Reg) (s : State) : Out :=
  issue true true (.sub d a b) s fun s => (binaryS (fun x y => x - y) d a b s).done

/-- `and` (R121). -/
def execAnd (d a b : Reg) (s : State) : Out :=
  issue true true (.and d a b) s fun s => (binaryS (fun x y => x &&& y) d a b s).done

/-- `or` (R121). -/
def execOr (d a b : Reg) (s : State) : Out :=
  issue true true (.or d a b) s fun s => (binaryS (fun x y => x ||| y) d a b s).done

/-- `xor` (R121). -/
def execXor (d a b : Reg) (s : State) : Out :=
  issue true true (.xor d a b) s fun s => (binaryS (fun x y => x ^^^ y) d a b s).done

/-- `sll` (R121). -/
def execSll (d a b : Reg) (s : State) : Out :=
  issue true true (.sll d a b) s fun s => (binaryS (fun x y => x <<< shiftOf y) d a b s).done

/-- `srl` (R121). -/
def execSrl (d a b : Reg) (s : State) : Out :=
  issue true true (.srl d a b) s fun s => (binaryS (fun x y => x >>> shiftOf y) d a b s).done

/-- `sra` (R121). -/
def execSra (d a b : Reg) (s : State) : Out :=
  issue true true (.sra d a b) s fun s => (binaryS (fun x y => x.sshiftRight (shiftOf y)) d a b s).done

/-- `slt` (R121). -/
def execSlt (d a b : Reg) (s : State) : Out :=
  issue true true (.slt d a b) s fun s => (binaryS (slt) d a b s).done

/-- `sltu` (R121). -/
def execSltu (d a b : Reg) (s : State) : Out :=
  issue true true (.sltu d a b) s fun s => (binaryS (sltu) d a b s).done

/-- `min` (R121). -/
def execMin (d a b : Reg) (s : State) : Out :=
  issue true true (.min d a b) s fun s => (binaryS (smin) d a b s).done

/-- `minu` (R121). -/
def execMinu (d a b : Reg) (s : State) : Out :=
  issue true true (.minu d a b) s fun s => (binaryS (umin) d a b s).done

/-- `max` (R121). -/
def execMax (d a b : Reg) (s : State) : Out :=
  issue true true (.max d a b) s fun s => (binaryS (smax) d a b s).done

/-- `maxu` (R121). -/
def execMaxu (d a b : Reg) (s : State) : Out :=
  issue true true (.maxu d a b) s fun s => (binaryS (umax) d a b s).done

/-- `mul` (R121). -/
def execMul (d a b : Reg) (s : State) : Out :=
  issue true true (.mul d a b) s fun s => (binaryS (fun x y => x * y) d a b s).done

/-- `mulh` (R121). -/
def execMulh (d a b : Reg) (s : State) : Out :=
  issue true true (.mulh d a b) s fun s => (binaryS (mulHigh) d a b s).done

/-- `mulhu` (R121). -/
def execMulhu (d a b : Reg) (s : State) : Out :=
  issue true true (.mulhu d a b) s fun s => (binaryS (mulHighU) d a b s).done

/-- `div` (R121, R122). -/
def execDiv (d a b : Reg) (s : State) : Out :=
  issue true true (.div d a b) s fun s => (divideS (quot true) true d a b s).done

/-- `divu` (R121, R122). -/
def execDivu (d a b : Reg) (s : State) : Out :=
  issue true true (.divu d a b) s fun s => (divideS (quot false) false d a b s).done

/-- `rem` (R121, R122). -/
def execRem (d a b : Reg) (s : State) : Out :=
  issue true true (.rem d a b) s fun s => (divideS (remnd true) true d a b s).done

/-- `remu` (R121, R122). -/
def execRemu (d a b : Reg) (s : State) : Out :=
  issue true true (.remu d a b) s fun s => (divideS (remnd false) false d a b s).done

/-! ## Immediates and constants (R123 to R125) -/

/-- `addi` (R124). -/
def execAddi (d a : Reg) (i : BitVec 14) (s : State) : Out :=
  issue true true (.addi d a i) s fun s => (s.setS d (s.getS a + i.signExtend 64)).done

/-- `andi` (R124). -/
def execAndi (d a : Reg) (i : BitVec 14) (s : State) : Out :=
  issue true true (.andi d a i) s fun s => (s.setS d (s.getS a &&& i.signExtend 64)).done

/-- `ori` (R124). -/
def execOri (d a : Reg) (i : BitVec 14) (s : State) : Out :=
  issue true true (.ori d a i) s fun s => (s.setS d (s.getS a ||| i.signExtend 64)).done

/-- `xori` (R124). -/
def execXori (d a : Reg) (i : BitVec 14) (s : State) : Out :=
  issue true true (.xori d a i) s fun s => (s.setS d (s.getS a ^^^ i.signExtend 64)).done

/-- `slti` (R124). -/
def execSlti (d a : Reg) (i : BitVec 14) (s : State) : Out :=
  issue true true (.slti d a i) s fun s => (s.setS d (slt (s.getS a) (i.signExtend 64))).done

/-- `slli` (R124). -/
def execSlli (d a : Reg) (i : BitVec 6) (s : State) : Out :=
  issue true true (.slli d a i) s fun s => (s.setS d (s.getS a <<< i.toNat)).done

/-- `srli` (R124). -/
def execSrli (d a : Reg) (i : BitVec 6) (s : State) : Out :=
  issue true true (.srli d a i) s fun s => (s.setS d (s.getS a >>> i.toNat)).done

/-- `srai` (R124). -/
def execSrai (d a : Reg) (i : BitVec 6) (s : State) : Out :=
  issue true true (.srai d a i) s fun s => (s.setS d ((s.getS a).sshiftRight i.toNat)).done

/-- `lui` (R125). -/
def execLui (d : Reg) (i : BitVec 19) (s : State) : Out :=
  issue true true (.lui d i) s fun s => (s.setS d (i.signExtend 64 <<< 13)).done

/-- `aupc` (R125). -/
def execAupc (d : Reg) (i : BitVec 19) (s : State) : Out :=
  issue true true (.aupc d i) s fun s => (s.setS d (s.pc + (i.signExtend 64 <<< 13))).done

/-- `bop` (R123). -/
def execBop (d a : Reg) (v : BitVec 2) (s : State) : Out :=
  issue true true (.bop d a v) s fun s => (s.setS d (bitOp v (s.getS a))).done

/-! ## Control transfer (R126 to R128) -/

/-- `beq` (R126). -/
def execBeq (a b : Reg) (o : BitVec 14) (s : State) : Out :=
  issue true true (.beq a b o) s fun s => .next (branchIf (s.getS a == s.getS b) (branchTarget s o) 4 s)

/-- `bne` (R126). -/
def execBne (a b : Reg) (o : BitVec 14) (s : State) : Out :=
  issue true true (.bne a b o) s fun s => .next (branchIf (s.getS a != s.getS b) (branchTarget s o) 4 s)

/-- `blt` (R126). -/
def execBlt (a b : Reg) (o : BitVec 14) (s : State) : Out :=
  issue true true (.blt a b o) s fun s => .next (branchIf ((s.getS a).slt (s.getS b)) (branchTarget s o) 4 s)

/-- `bge` (R126). -/
def execBge (a b : Reg) (o : BitVec 14) (s : State) : Out :=
  issue true true (.bge a b o) s fun s => .next (branchIf (!(s.getS a).slt (s.getS b)) (branchTarget s o) 4 s)

/-- `bltu` (R126). -/
def execBltu (a b : Reg) (o : BitVec 14) (s : State) : Out :=
  issue true true (.bltu a b o) s fun s => .next (branchIf (decide (s.getS a < s.getS b)) (branchTarget s o) 4 s)

/-- `bgeu` (R126). -/
def execBgeu (a b : Reg) (o : BitVec 14) (s : State) : Out :=
  issue true true (.bgeu a b o) s fun s => .next (branchIf (!decide (s.getS a < s.getS b)) (branchTarget s o) 4 s)

/-- `jal` (R127). -/
def execJal (d : Reg) (i : BitVec 19) (s : State) : Out :=
  issue true true (.jal d i) s fun s => .next ((s.setS d (s.pc + 4)).jump (branchTarget s i))

/-- `jalr` (R127): s[a] is read before s[d] is written. -/
def execJalr (d a : Reg) (i : BitVec 14) (s : State) : Out :=
  issue true true (.jalr d a i) s fun s => .next ((s.setS d (s.pc + 4)).jump (s.getS a + i.signExtend 64))

end Sys2Proof.Machine
end

