-- ==== Sys2Proof/Machine/Operands.lean ====
section
/-! DEFINITION. Operand forms: elements of vector registers, register groups, masks, strips and draws (R35, R36, R58 to
R66, R84, R98 to R103, R149). -/

namespace Sys2Proof.Machine

/-! ## Elements -/

/-- Bits of a sew code (R62). -/
def sewBits (z : BitVec 2) : Nat := 8 * 2 ^ z.toNat

/-- Registers of a group code (R62). -/
def groupCount (g : BitVec 2) : Nat := 2 ^ g.toNat

/-- Elements of one element group (R35). -/
def groupElems (z : BitVec 2) : Nat := 2048 / sewBits z

/-- Element i of a register at width w, as a number. -/
def getElemN (r : VReg) (w i : Nat) : Nat := r.toNat / 2 ^ (i * w) % 2 ^ w

/-- A register with element i replaced. -/
def setElemN (r : VReg) (w i v : Nat) : VReg :=
  BitVec.ofNat 65536 (r.toNat - getElemN r w i * 2 ^ (i * w) + v % 2 ^ w * 2 ^ (i * w))

/-- Element i at a width of at most 64 bits. -/
def getElem (r : VReg) (w i : Nat) : Word := BitVec.ofNat 64 (getElemN r w i)
def setElem (r : VReg) (w i : Nat) (v : Word) : VReg := setElemN r w i v.toNat

/-- Elements of width w in one register on a team of W lane groups (R36, R165). -/
def State.perWidth (s : State) (w : Nat) : Nat := if w = 0 then 0 else s.core.team.w * 8192 / w
def State.perReg (s : State) (z : BitVec 2) : Nat := s.perWidth (sewBits z)

/-- MAXVL (R36). -/
def State.maxvl (s : State) (z g : BitVec 2) : Nat := s.perReg z * groupCount g

/-- Signed value of a w-bit element. -/
def signedElem (w : Nat) (v : Word) : Int := (BitVec.ofNat w v.toNat).toInt

/-- The low w bits of an integer as an element. -/
def toElem (w : Nat) (v : Int) : Word := BitVec.ofNat 64 (BitVec.ofInt w v).toNat

/-! ## The X-hart's registers -/

/-- Register number n of 32. -/
def XHart.reg (x : XHart) (n : Nat) : VReg := x.v[n % 32]'(Nat.mod_lt _ (by decide))

/-- Replaces register number n of 32. -/
def XHart.setReg (x : XHart) (n : Nat) (r : VReg) : XHart :=
  { x with v := x.v.set (n % 32) r (Nat.mod_lt _ (by decide)) }

/-- Element i of the group that starts at register d, C elements of width w to a register (R165). -/
def XHart.elemN (x : XHart) (c w d i : Nat) : Nat := if c = 0 then 0 else getElemN (x.reg (d + i / c)) w (i % c)
def XHart.elem (x : XHart) (c w d i : Nat) : Word := BitVec.ofNat 64 (x.elemN c w d i)

/-- Writes element i of the group at d. -/
def XHart.putN (x : XHart) (c w d i v : Nat) : XHart :=
  if c = 0 then x else x.setReg (d + i / c) (setElemN (x.reg (d + i / c)) w (i % c) v)
def XHart.put (x : XHart) (c w d i : Nat) (v : Word) : XHart := x.putN c w d i v.toNat

/-- Bit i of mask register n. -/
def XHart.maskBit (x : XHart) (n : BitVec 3) (i : Nat) : Bool := x.k[n.toFin].getLsbD i

/-- Element i is active under execute mask n: k0 means all (R59). -/
def XHart.active (x : XHart) (n : BitVec 3) (i : Nat) : Bool := n == 0#3 || x.maskBit n i

/-- Writes bit i of mask register n. -/
def XHart.setMaskBit (x : XHart) (n : BitVec 3) (i : Nat) (b : Bool) : XHart :=
  let m := x.k[n.toFin]
  let one := BitVec.ofNat 2048 (2 ^ i)
  { x with k := x.k.set n.toFin (if b then m ||| one else m &&& ~~~one) }

/-- The sweep of the dimension registers at destination element j (R149). -/
def XHart.sweepIndex (x : XHart) (j : Nat) : Nat × Nat × Nat :=
  let l := fun (d : Dim) => max d.len.toNat 1
  (j % l x.dims[0], j / l x.dims[0] % l x.dims[1], j / (l x.dims[0] * l x.dims[1]) % l x.dims[2])

def XHart.sweep (x : XHart) (j : Nat) : Int :=
  let i := x.sweepIndex j
  i.1 * x.dims[0].stride.toInt + i.2.1 * x.dims[1].stride.toInt + i.2.2 * x.dims[2].stride.toInt

/-! ## Ashlar and draws (R98, R99, R101) -/

/-- Key words k0 to k4 (R98). -/
def ashlarKey (key : BitVec 128) (i : Nat) : BitVec 32 :=
  match i with
  | 0 => key.extractLsb' 0 32
  | 1 => key.extractLsb' 32 32
  | 2 => key.extractLsb' 64 32
  | 3 => key.extractLsb' 96 32
  | _ => key.extractLsb' 0 32 ^^^ key.extractLsb' 32 32 ^^^ key.extractLsb' 64 32 ^^^ key.extractLsb' 96 32 ^^^ 0x5A17C3E9#32

/-- Round constants (R98). -/
def ashlarRotA (r : Nat) : Nat := ([7, 19, 11, 27] : List Nat).getD (r % 4) 0
def ashlarRotB (r : Nat) : Nat := ([13, 5, 23, 17] : List Nat).getD (r % 4) 0
def ashlarInject (j : Nat) : BitVec 32 :=
  ([0, 0x9E3779B9, 0x3C6EF372, 0xDAA66D2B, 0x78DDE6E4] : List (BitVec 32)).getD j 0

/-- One round on (x0, x1, x2, x3). -/
def ashlarRound (key : BitVec 128) (x : BitVec 32 × BitVec 32 × BitVec 32 × BitVec 32) (r : Nat) :
    BitVec 32 × BitVec 32 × BitVec 32 × BitVec 32 :=
  let x0 := x.1 + x.2.1
  let x3 := (x.2.2.2 ^^^ x0).rotateLeft (ashlarRotA r)
  let x2 := x.2.2.1 + x3
  let x1 := (x.2.1 ^^^ x2).rotateLeft (ashlarRotB r)
  if r % 3 = 2 then
    let j := r / 3 + 1
    let k := fun i => ashlarKey key ((i + j) % 5)
    (x0 + k 0, x1 + k 1, x2 + k 2, x3 + k 3 + ashlarInject j)
  else (x0, x1, x2, x3)

/-- The draw function (R98). -/
def ashlar (key : BitVec 128) (stream : BitVec 32) (ctr : BitVec 96) : BitVec 128 :=
  let x := (List.range 12).foldl (ashlarRound key)
    (ctr.extractLsb' 0 32 + ashlarKey key 0, ctr.extractLsb' 32 32 + ashlarKey key 1,
      ctr.extractLsb' 64 32 + ashlarKey key 2, stream + ashlarKey key 3)
  x.2.2.2 ++ x.2.2.1 ++ x.2.1 ++ x.1

/-- A draw from Ashlar: slot 0 to 7 of the block (R99). -/
def ashlarDraw (key : BitVec 128) (stream : BitVec 32) (ctr : BitVec 96) (slot : Nat) : BitVec 16 :=
  (ashlar key stream ctr).extractLsb' (16 * slot) 16

/-- The team's key (R71). -/
def Team.key (t : Team) : BitVec 128 := t.dkeyhi ++ t.dkeylo

/-- Address of entry n of the draw table, wrapping at 2^56 (R101). -/
def drawAddr (dsrc : Word) (n : Nat) : Word := BitVec.ofNat 64 (((dsrc.extractLsb' 0 56).toNat + 2 * n) % 2 ^ 56)

/-- What a consumer samples when it issues (R72). -/
def Team.sample (t : Team) : DrawSample := { key := t.key, src := t.dsrc, epoch := t.repoch }

/-- A draw of the hart in focus as one of its agents, from what its consumer sampled: from Ashlar, or the halfword at
index n of the table. A refused table read is the trap that `bad` makes of class, code and address; a table off 2 is
misaligned (R71, R101). -/
def drawThen (s : State) (d : DrawSample) (q : Ask) (ag : Agent) (stream : BitVec 32) (ctr : BitVec 96) (slot n : Nat)
    (bad : State → Nat → Nat → Word → Out) (k : State → BitVec 16 → Out) : Out :=
  if !d.src.getLsbD 63 then k s (ashlarDraw d.key stream ctr slot)
  else
    let va := drawAddr d.src n
    if va.getLsbD 0 then bad s 5 0 va
    else
      match translate s s.who q va 2 with
      | .error e => bad s e.cls e.code va
      | .ok p =>
        match readMove s s.core.num ag (span p.key 2) with
        | (s, .bytes l) => k s (BitVec.ofNat 16 (natOf l))
        | (s, .wait) => s.stall .line
        | (s, .poison _) => bad s 11 (readCode s (span p.key 2)) va

/-- Draw ports that are still active: a store path ends with its last entry (R295). -/
def activePorts (s : State) : List DrawPort :=
  s.core.team.ports.filter (fun p =>
    p.kind != 3 || s.buf.any (fun e => e.serial == p.serial && e.core == s.core.num) ||
      s.core.team.tds.toList.any (fun td => td.a.vm.serial == p.serial))

/-- Another active port names a tag (R295, R386). -/
def tagClash (s : State) (tag : BitVec 32) : Bool := s.core.team.dtg && (activePorts s).any (fun p => p.tag == tag)

end Sys2Proof.Machine
end

