-- ==== Sys2Proof/Machine/ScalarFloat.lean ====
section
/-! DEFINITION. Scalar floating point (R135 to R138). -/

namespace Sys2Proof.Machine

/-- fp32 for variant 0, fp64 for variant 1 (R135). -/
def fmtOf (v : BitVec 2) : Fmt := if v = 0#2 then .fp32 else .fp64

/-- The hart's rounding mode. -/
def State.mode (s : State) : Rnd := Rnd.ofFrm s.h.frm

/-- Writes a result of a format to f[d], boxed, and raises its flags (R135). -/
def State.setFp (s : State) (d : Reg) (f : Fmt) (r : Word × Flags) : State :=
  (s.setF d (boxed f.width r.1)).raise r.2

/-- `fadd` (R135). -/
def execFadd (d a b : Reg) (v : BitVec 2) (s : State) : Out :=
  issue true true (.fadd d a b v) s fun s =>
    (s.setFp d (fmtOf v) (fpAdd (fmtOf v) s.mode (s.getF a) (s.getF b))).done

/-- `fsub` (R135). -/
def execFsub (d a b : Reg) (v : BitVec 2) (s : State) : Out :=
  issue true true (.fsub d a b v) s fun s =>
    (s.setFp d (fmtOf v) (fpSub (fmtOf v) s.mode (s.getF a) (s.getF b))).done

/-- `fmul` (R135). -/
def execFmul (d a b : Reg) (v : BitVec 2) (s : State) : Out :=
  issue true true (.fmul d a b v) s fun s =>
    (s.setFp d (fmtOf v) (fpMul (fmtOf v) s.mode (s.getF a) (s.getF b))).done

/-- `fdiv` (R135). -/
def execFdiv (d a b : Reg) (v : BitVec 2) (s : State) : Out :=
  issue true true (.fdiv d a b v) s fun s =>
    (s.setFp d (fmtOf v) (fpDiv (fmtOf v) s.mode (s.getF a) (s.getF b))).done

/-- `fma` (R135). -/
def execFma (d a b : Reg) (v : BitVec 2) (s : State) : Out :=
  issue true true (.fma d a b v) s fun s =>
    (s.setFp d (fmtOf v) (fpFma (fmtOf v) s.mode (s.getF a) (s.getF b) (s.getF d) false)).done

/-- `fms` (R135). -/
def execFms (d a b : Reg) (v : BitVec 2) (s : State) : Out :=
  issue true true (.fms d a b v) s fun s =>
    (s.setFp d (fmtOf v) (fpFma (fmtOf v) s.mode (s.getF a) (s.getF b) (s.getF d) true)).done

/-- `fmin` (R135). -/
def execFmin (d a b : Reg) (v : BitVec 2) (s : State) : Out :=
  issue true true (.fmin d a b v) s fun s =>
    (s.setFp d (fmtOf v) (fpMinMax (fmtOf v) false (s.getF a) (s.getF b))).done

/-- `fmax` (R135). -/
def execFmax (d a b : Reg) (v : BitVec 2) (s : State) : Out :=
  issue true true (.fmax d a b v) s fun s =>
    (s.setFp d (fmtOf v) (fpMinMax (fmtOf v) true (s.getF a) (s.getF b))).done

/-- `fsqrt` (R135). -/
def execFsqrt (d a : Reg) (v : BitVec 2) (s : State) : Out :=
  issue true true (.fsqrt d a v) s fun s => (s.setFp d (fmtOf v) (fpSqrt (fmtOf v) s.mode (s.getF a))).done

/-- `fcmp` (R136): both operands are fp64. -/
def execFcmp (d a b : Reg) (v : BitVec 2) (s : State) : Out :=
  issue true true (.fcmp d a b v) s fun s =>
    let r := fpCompare .fp64 v (s.getF a) (s.getF b)
    ((s.setS d (if r.1 then 1 else 0)).raise r.2).done

/-- `fcvtfi` (R137): variant [0] source format, [1] an unsigned result. -/
def execFcvtfi (d a : Reg) (v : BitVec 2) (s : State) : Out :=
  issue true true (.fcvtfi d a v) s fun s =>
    let r := fpToInt (if v.getLsbD 0 then .fp64 else .fp32) s.mode (!v.getLsbD 1) 64 (s.getF a)
    ((s.setS d (BitVec.ofInt 64 r.1)).raise r.2).done

/-- `fcvtif` (R137): variant [0] result format, [1] an unsigned source. -/
def execFcvtif (d a : Reg) (v : BitVec 2) (s : State) : Out :=
  issue true true (.fcvtif d a v) s fun s =>
    let f := if v.getLsbD 0 then Fmt.fp64 else .fp32
    (s.setFp d f (intToFp f s.mode (if v.getLsbD 1 then ((s.getS a).toNat : Int) else (s.getS a).toInt))).done

/-- Formats of `fcvtff` (R137). -/
def cvtFmt (c : BitVec 2) : Fmt :=
  match c.toNat with
  | 0 => .fp64
  | 1 => .fp32
  | 2 => .fp16
  | _ => .bf16

/-- `fcvtff` (R137): from format `c` to format `t`. -/
def execFcvtff (d a : Reg) (c t : BitVec 2) (s : State) : Out :=
  issue true true (.fcvtff d a c t) s fun s =>
    (s.setFp d (cvtFmt t) (fpConvert (cvtFmt c) (cvtFmt t) s.mode (s.getF a))).done

/-- `fmvfx` (R137). -/
def execFmvfx (d a : Reg) (v : BitVec 2) (s : State) : Out :=
  issue true true (.fmvfx d a v) s fun s => (if v = 0#2 then s.setS d (s.getF a) else s.setF d (s.getS a)).done

/-- Magnitude of a with the sign of b, or its inverse (R138, R187). -/
def copySign (f : Fmt) (invert : Bool) (a b : Word) : Word :=
  let top := 2 ^ (f.width - 1)
  BitVec.ofNat 64 (a.toNat % top + (if (f.neg? b) != invert then top else 0))

/-- `fsgn` (R138): variant [1] format, [0] inverted sign. -/
def execFsgn (d a b : Reg) (v : BitVec 2) (s : State) : Out :=
  issue true true (.fsgn d a b v) s fun s =>
    let f := if v.getLsbD 1 then Fmt.fp64 else .fp32
    (s.setF d (boxed f.width (copySign f (v.getLsbD 0) (s.getF a) (s.getF b)))).done

/-- The class mask of R138, one bit set of ten. -/
def classMask (f : Fmt) (w : Word) : Word :=
  match f.unpack w with
  | .inf neg => if neg then 0x001 else 0x080
  | .nan sig => if sig then 0x100 else 0x200
  | .fin neg m _ _ =>
    if m = 0 then (if neg then 0x008 else 0x010)
    else if m < 2 ^ f.fbits then (if neg then 0x004 else 0x020)
    else if neg then 0x002 else 0x040

/-- `fclass` (R138). -/
def execFclass (d a : Reg) (v : BitVec 2) (s : State) : Out :=
  issue true true (.fclass d a v) s fun s => (s.setS d (classMask (fmtOf v) (s.getF a))).done

end Sys2Proof.Machine
end

