-- ==== Sys2Proof/Machine/LoadStore.lean ====
section
/-! DEFINITION. Scalar loads and stores (R129 to R131) and the scalar queue instructions (R132 to R134). -/

namespace Sys2Proof.Machine

/-- Effective address (R129). -/
def effAddr (s : State) (a : Reg) (o : BitVec 12) : Word := s.getS a + o.signExtend 64

/-- Bytes of a size code. -/
def sizeOf (z : BitVec 2) : Nat := 2 ^ z.toNat

/-- The register that an integer value of the hart in focus goes to (R57, R129). -/
def State.toS (s : State) (d : Reg) (signed : Bool) : RegDest := { float := false, signed := signed, shadow := s.shadowed d, r := d }
/-- The register that a floating-point value goes to. -/
def toF (d : Reg) : RegDest := { float := true, signed := false, shadow := false, r := d }

/-- The hart in focus writes n bytes to a register (R129, R238). -/
def State.setDest (s : State) (d : RegDest) (n : Nat) (w : Word) : State :=
  if d.float then s.setF d.r (d.form n w) else s.setS d.r (d.form n w)

/-- A scalar load (R129): the agent holds its read where the move says so (R219). -/
def loadScalar (s : State) (d : RegDest) (a : Reg) (z : BitVec 2) (o : BitVec 12) : Out :=
  readThen s s.scalarAgent Ask.load (effAddr s a o) (sizeOf z) fun s p l =>
    (holdRead (s.setDest d (sizeOf z) (wordOf l)) s.scalarAgent (span p.key (sizeOf z)) (.reg d)).done

/-- `ld` (R129). -/
def execLd (d a : Reg) (z : BitVec 2) (o : BitVec 12) (s : State) : Out :=
  issue true false (.ld d a z o) s fun s => loadScalar s (s.toS d true) a z o

/-- `ldu` (R129). -/
def execLdu (d a : Reg) (z : BitVec 2) (o : BitVec 12) (s : State) : Out :=
  issue true false (.ldu d a z o) s fun s => loadScalar s (s.toS d false) a z o

/-- `st` (R129). -/
def execSt (d a : Reg) (z : BitVec 2) (o : BitVec 12) (s : State) : Out :=
  issue true false (.st d a z o) s fun s =>
    placeThen s Ask.store (effAddr s a o) (sizeOf z) fun s p =>
      (storeEntry s p.key (bytesOf (sizeOf z) (s.getS d))).done

/-- `fld` (R129). -/
def execFld (d a : Reg) (z : BitVec 2) (o : BitVec 12) (s : State) : Out :=
  issue true false (.fld d a z o) s fun s => loadScalar s (toF d) a z o

/-- `fst` (R129). -/
def execFst (d a : Reg) (z : BitVec 2) (o : BitVec 12) (s : State) : Out :=
  issue true false (.fst d a z o) s fun s =>
    placeThen s Ask.store (effAddr s a o) (sizeOf z) fun s p =>
      (storeEntry s p.key (bytesOf (sizeOf z) (s.getF d))).done

/-- What `qpush` pushes by its variant: an s register, an f register or a branch outcome (R132). -/
def pushed (s : State) (a : Reg) (v : BitVec 2) : Word :=
  match v.toNat with
  | 0 => s.getS a
  | 1 => s.getF a
  | _ => if s.getS a = 0 then 0 else 1

/-- `qpush` (R132, R134). -/
def execQpush (d a : Reg) (v : BitVec 2) (s : State) : Out :=
  issue true true (.qpush d a v) s fun s =>
    if d != outHead s.xh then s.illegal 6
    else
      match pushScalar s (pushed s a v) with
      | none => s.stall .queue
      | some s => s.done

/-- `qpop` (R132, R134). -/
def execQpop (d a : Reg) (v : BitVec 2) (s : State) : Out :=
  issue true true (.qpop d a v) s fun s =>
    if a != inHead s.xh then s.illegal 6
    else
      match popScalar s with
      | none => s.stall .queue
      | some (w, s) => (if v = 0#2 then s.setS d w else s.setF d w).done

/-- `qbr` (R133, R134). -/
def execQbr (d : Reg) (o : BitVec 10) (v : BitVec 2) (s : State) : Out :=
  issue true true (.qbr d o v) s fun s =>
    if d != inHead s.xh then s.illegal 6
    else
      match popScalar s with
      | none => s.stall .queue
      | some (w, s) => .next (branchIf ((w != 0) == (v == 0#2)) (branchTarget s o) 4 s)

end Sys2Proof.Machine
end

