-- ==== Sys2Proof/Machine/Sync.lean ====
section
/-! DEFINITION. Atomics, acquire and release, fences, barriers, events and waits of the scalar agent (R236 to R250,
R257). -/

namespace Sys2Proof.Machine

/-! ## Scalar atomics (R238 to R241) -/

/-- The place is storage of x64 cells (R239). -/
def isX64 (p : Place) : Bool := leafFmt p.w1 == 6

/-- The checks of a scalar atomic, in the order of R379: misalignment, page, access table, determinism of a
floating-point add outside x64 pages, operand guard. -/
def atomicPlace (s : State) (n : Nat) (need : Need) (float : Bool) (va : Word) (k : State → Place → Out) : Out :=
  if va.toNat % (if float && leafFmt (pageAttr s s.who va) == 6 then 8 else n) != 0 then s.badAccess 5 0 2 va
  else
    match translate s s.who { Ask.atomic with need := need } va n with
    | .error e => s.badAccess e.cls e.code 2 va
    | .ok p =>
      if float && s.core.team.det && !isX64 p then s.badAccess 8 0 0 va
      else if scratchCore? p.key == some s.core.num && guarded s (span p.key n) then
        if s.core.team.og == 1#2 then s.stall .line else s.guardTrap 2 va va
      else k s p

/-- What keeps an atomic on `addrs`, and the entries that it may not pass, from performing at home (R271, R324). -/
def atomicHeld (s : State) (addrs : List Nat) : List Nat :=
  (if heldByGrotto s addrs || (scratchCore? (addrs.headD 0) != some s.core.num && guarded s addrs) then addrs else []) ++
    nowHeld s (onPath s.core.num s.scalarAgent addrs)

/-- An atomic that returns its old value and is not held performs at home at once, after every entry it may not pass
(R223). -/
def atomicReturn (s : State) (op : AtomicOp) (p : Place) (n : Nat) (b va : Word) (acq : Bool)
    (k : State → Word → Out) : Out :=
  let addrs := span p.key n
  match atomicHeld s addrs with
  | x :: l => (askSuspend s (x :: l)).stall .word
  | [] =>
    let s := performNow (dropEarly s s.core.num s.scalarAgent addrs) (onPath s.core.num s.scalarAgent addrs)
    match performAtomic s op p.key n b with
    | (s, none) => s.badAccess 11 (poisonCode s p.key) 2 va
    | (s, some old) => k (if acq then forgetEarly s s.core.num [s.scalarAgent] else s) old

/-- An atomic that returns nothing, or that its agent holds, becomes an entry: at the S point when it is a release (R223,
R225, R240). -/
def atomicEntry (s : State) (op : AtomicOp) (p : Place) (n : Nat) (b va : Word) (rel : Bool) (scope : BitVec 2)
    (ret : Option RegDest) : State :=
  let s := nextSerial s
  let pay := Payload.atomic op p.key n b
    [{ core := s.core.num, t := s.tnd, serial := s.serial, elem := 0, va := va, vsca := false, late := false, ret := ret }]
  if rel then enterAt s s.core.num s.scalarAgent scope pay else enter s s.core.num s.scalarAgent pay

/-- A register that its instruction has written counts as written last (R70). -/
def State.landsIn (s : State) (d : RegDest) : State := s.setLdst (if d.float then 1 else 0) d.r

/-- The agent holds an atomic that returns a value, which later accesses may pass: none that acquires (R219, R227). -/
def heldAtomic (s : State) (q : Bit) (d : Reg) : Bool := s.holds && d != 0#5 && !q.on

/-- A scalar atomic at a place: release first, then the operation, whose old value goes to `d` (R240).
`range` says that the contribution sets `xrange` (R88). -/
def atomicAt (s : State) (op : AtomicOp) (p : Place) (n : Nat) (b va : Word) (sc : BitVec 2) (q r : Bit) (d : RegDest)
    (range : Bool) : Out :=
  let scope := effScope s.core.num p sc
  let now := (d.r != 0#5 || q.on) && !heldAtomic s q d.r
  let go := fun (s : State) =>
    if now then
      atomicReturn s op p n b va q.on fun s old => ((if d.r = 0#5 then s else s.setDest d n old).raiseRange range).done
    else if d.r = 0#5 then ((atomicEntry s op p n b va r.on scope none).raiseRange range).done
    else (((atomicEntry s op p n b va r.on scope (some d)).landsIn d).raiseRange range).done
  if r.on then
    match (if now then [] else enterHeld s s.core.num s.scalarAgent scope (span p.key n)) with
    | [] => releaseThen s [s.scalarAgent] scope go
    | l => (askSuspend s l).stall .word
  else go s

/-- The integer atomics: 4 bytes for variant 0, else 8; a `.w` old value is extended with its sign or with zeros
(R238, R239). -/
def intAtomic (s : State) (op : AtomicOp) (signed : Bool) (v : Bool) (d a b : Reg) (sc : BitVec 2) (q r : Bit) : Out :=
  let n := if v then 8 else 4
  atomicPlace s n (if v then .none else .notX64) false (s.getS a) fun s p =>
    atomicAt s op p n (s.getS b) (s.getS a) sc q r (s.toS d (signed || v)) false

/-- `amoadd.f` and `.fd`: on an x64 page the contribution is added as an integer and the raw cell returned (R238,
R239). -/
def floatAtomic (s : State) (wide : Bool) (d a b : Reg) (sc : BitVec 2) (q r : Bit) : Out :=
  let n := if wide then 8 else 4
  let f := if wide then Fmt.fp64 else .fp32
  atomicPlace s n .none true (s.getS a) fun s p =>
    if isX64 p then
      let c := x64Contrib f (s.getF b) (leafQ p.w1)
      atomicAt s .add p 8 c.1 (s.getS a) sc q r (toF d) c.2
    else
      atomicAt s .fadd p n (s.getF b) (s.getS a) sc q r (toF d) false

/-- `amoadd` (R238, R239). -/
def execAmoadd (d a b : Reg) (sc : BitVec 2) (q r f : Bit) (v : BitVec 2) (s : State) : Out :=
  issue true false (.amoadd d a b sc q r f v) s fun s =>
    if v.getLsbD 1 then floatAtomic s (v.getLsbD 0) d a b sc q r
    else intAtomic s .add true (v.getLsbD 0) d a b sc q r

/-- `amoand` (R238). -/
def execAmoand (d a b : Reg) (sc : BitVec 2) (q r f v : Bit) (s : State) : Out :=
  issue true false (.amoand d a b sc q r f v) s fun s => intAtomic s .and true v.on d a b sc q r

/-- `amoor` (R238). -/
def execAmoor (d a b : Reg) (sc : BitVec 2) (q r f v : Bit) (s : State) : Out :=
  issue true false (.amoor d a b sc q r f v) s fun s => intAtomic s .or true v.on d a b sc q r

/-- `amoxor` (R238). -/
def execAmoxor (d a b : Reg) (sc : BitVec 2) (q r f v : Bit) (s : State) : Out :=
  issue true false (.amoxor d a b sc q r f v) s fun s => intAtomic s .xor true v.on d a b sc q r

/-- The operation of `amomm` by its sub code (R238). -/
def minMaxOp (u : BitVec 2) : AtomicOp :=
  match u.toNat with
  | 0 => .min
  | 1 => .max
  | 2 => .minu
  | _ => .maxu

/-- `amomm` (R238). -/
def execAmomm (d a b : Reg) (sc : BitVec 2) (q r f : Bit) (u : BitVec 2) (v : Bit) (s : State) : Out :=
  issue true false (.amomm d a b sc q r f u v) s fun s =>
    intAtomic s (minMaxOp u) (!u.getLsbD 1) v.on d a b sc q r

/-- `amoswp` (R238). -/
def execAmoswp (d a b : Reg) (sc : BitVec 2) (q r f v : Bit) (s : State) : Out :=
  issue true false (.amoswp d a b sc q r f v) s fun s => intAtomic s .swap true v.on d a b sc q r

/-- `amocas`: the compare value is s[d] before it is written (R238). -/
def execAmocas (d a b : Reg) (sc : BitVec 2) (q r f v : Bit) (s : State) : Out :=
  issue true false (.amocas d a b sc q r f v) s fun s => intAtomic s (.cas (s.getS d)) true v.on d a b sc q r

/-! ## Acquire, release, fences (R243, R244) -/

/-- The agents on the earlier and on the later side of a fence (R228). -/
def fenceSides (s : State) (u : BitVec 2) : List Agent × List Agent :=
  match u.toNat with
  | 0 => ([s.scalarAgent, s.vectorAgent], [s.scalarAgent, s.vectorAgent])
  | 1 => ([s.scalarAgent], [s.vectorAgent])
  | 2 => ([s.vectorAgent], [s.scalarAgent])
  | _ => ([s.vectorAgent], [s.vectorAgent])

/-- `fence` (R228, R243). -/
def execFence (sc u : BitVec 2) (s : State) : Out :=
  issue true false (.fence sc u) s fun s =>
    releaseThen s (fenceSides s u).1 sc fun s => (forgetEarly s s.core.num (fenceSides s u).2).done

/-- `ldacq` (R244). -/
def execLdacq (d a : Reg) (sc v : BitVec 2) (s : State) : Out :=
  issue true false (.ldacq d a sc v) s fun s =>
    let n := if v = 0#2 then 8 else 4
    acquireRead s Ask.load (s.getS a) n fun s l => (s.setS d (extended (v != 2#2) n (wordOf l))).done

/-- `strel` (R244). -/
def execStrel (a b : Reg) (sc : BitVec 2) (v : Bit) (s : State) : Out :=
  issue true false (.strel a b sc v) s fun s =>
    releaseStore s sc (s.getS a) (if v.on then 4 else 8) (s.getS b) fun s => s.done

/-! ## Barriers (R245 to R247) -/

/-- `bar` (R246). -/
def execBar (a b : Reg) (sc : BitVec 2) (v : Bit) (s : State) : Out :=
  issue true false (.bar a b sc v) s fun s =>
    releaseStore s sc (s.getS a) 8 (if v.on then s.getS b else s.a.h.strip) fun s => s.done

/-- The smallest of the words at `addrs` and `lo`, each by an acquiring read. -/
def leastOf : List Word → State → Word → (State → Word → Out) → Out
  | [], s, lo, k => k s lo
  | va :: l, s, lo, k =>
    acquireRead s Ask.load va 8 fun s w => leastOf l s (umin lo (wordOf w)) k

/-- The phase a `barw` waits for (R247). -/
def barTarget (s : State) (b : Reg) (v : Bit) : Word :=
  if v.on then s.getS b else if s.a.h.strip < s.getS b then 0 else s.a.h.strip - s.getS b

/-- A barrier's wait once its record has been read; a malformed record ends it (R245, R247). -/
def barWait (d a b : Reg) (sc : BitVec 2) (v : Bit) (s : State) : Out :=
  acquireRead s Ask.load (s.getS a) 8 fun s l =>
    let hdr := wordOf l
    let parties := (hdr.extractLsb' 0 11).toNat
    if hdr.extractLsb' 11 53 != 0 || parties == 0 || 1024 < parties then
      (s.setS d (BitVec.allOnes 64)).done
    else
      leastOf ((List.range parties).map (fun j => s.getS a + BitVec.ofNat 64 (8 + 8 * j))) s (BitVec.allOnes 64)
        fun s lo =>
          let t := barTarget s b v
          if t ≤ lo && (v.on || t ≤ s.x.h.strip) then (s.setS d lo).done
          else s.stall (.barw d a b sc v)

/-- `barw` (R247). -/
def execBarw (d a b : Reg) (sc : BitVec 2) (v : Bit) (s : State) : Out :=
  issue true false (.barw d a b sc v) s fun s => barWait d a b sc v s

/-! ## Events (R248, R249) -/

/-- Bits of the event word for which a hart waits. -/
def Hart.awaits (h : Hart) : BitVec 16 :=
  match h.wait with
  | some (.event bits) => bits
  | _ => 0

/-- Bits for which the harts that come before the one in focus wait: ascending tandem, A-hart before X-hart (R72, R249). -/
def earlierWaits (s : State) : BitVec 16 :=
  (s.core.team.tds.toList.take s.tnd.val).foldl (fun m td => m ||| td.a.h.awaits ||| td.x.h.awaits)
    (if s.xh then s.td.a.h.awaits else 0)

/-- `wfe` (R248): of several that wait for a bit the first in order consumes it (R249). -/
def execWfe (d a : Reg) (s : State) : Out :=
  issue true true (.wfe d a) s fun s =>
    let m := (s.getS a).extractLsb' 0 16
    let hit := s.core.team.event &&& m &&& ~~~earlierWaits s
    if m != 0 && hit == 0 then s.stall (.event m)
    else ((s.setTeam { s.team with event := s.team.event &&& ~~~hit }).setS d (hit.setWidth 64)).done

/-- `sev` (R248). -/
def execSev (a : Reg) (s : State) : Out :=
  issue true true (.sev a) s fun s =>
    (s.setTeam { s.team with event := s.team.event ||| (s.getS a).extractLsb' 0 16 }).done

/-! ## Waits on words (R250, R257) -/

/-- `hwait` (R250). -/
def execHwait (d a b : Reg) (sc : BitVec 2) (s : State) : Out :=
  issue true false (.hwait d a b sc) s fun s =>
    acquireRead s Ask.load (s.getS a) 8 fun s l =>
      if s.getS b ≤ wordOf l then (s.setS d (wordOf l)).done else s.stall .word

/-- `gstat` (R257). -/
def execGstat (d a : Reg) (sc : BitVec 2) (v : Bit) (s : State) : Out :=
  issue true false (.gstat d a sc v) s fun s =>
    acquireRead s Ask.load (s.getS a) 8 fun s l =>
      if v.on && (wordOf l).extractLsb' 0 16 == 0 then s.stall .word else (s.setS d (wordOf l)).done

end Sys2Proof.Machine
end

