-- ==== Sys2Proof/Machine/Strips.lean ====
section
/-! DEFINITION. Grants, strip configuration, applications and streams (R38 to R47, R144 to R155). -/

namespace Sys2Proof.Machine

/-! ## Limiters (R38) -/

/-- Lines of 128 bytes times 128 over the element size: elements that the first `lines` lines hold (R152). -/
def linesToElems (lines esz : Nat) : Nat := lines * 128 / 2 ^ esz

/-- Limiter 4 of one stream: elements from p on whose fetches have been issued (R152). -/
def streamIssued (app : App) (st : Stream) : Nat := min app.n (linesToElems st.started st.esz) - app.p

/-- Limiter 4: the least over the enabled streams, if there is one. -/
def limiter4 (app : App) : Option Nat :=
  app.streams.toList.foldl (fun m st =>
    if st.en then some (match m with | none => streamIssued app st | some v => min v (streamIssued app st)) else m) none

/-- The limiters that are present, by number, with limiter 5 already read as `h` (R38, R146). -/
def limiters (s : State) (z g : BitVec 2) (h : Option Word) (r6 : Nat) : List (Nat × Nat) :=
  let e := groupElems z
  [(1, s.maxvl z g)] ++ (if s.core.team.port then [(2, 28 * groupCount g * e)] else []) ++
  [(3, s.core.vceil * e)] ++
  (match s.a.app with
    | none => []
    | some app => (match limiter4 app with | none => [] | some v => [(4, v)]) ++
      (match h with | none => [] | some h => [(5, h.toNat - app.p)])) ++
  [(6, r6)]

/-- The least value among limiters. -/
def leastLimiter (l : List (Nat × Nat)) (r6 : Nat) : Nat := l.foldl (fun m p => min m p.2) r6

/-- The limiter mask: bit n - 1 for each limiter n whose value is `raw`, bit 6 for a stall (R42). -/
def limiterMask (l : List (Nat × Nat)) (raw : Nat) (stalled : Bool) : BitVec 7 :=
  BitVec.ofNat 7 ((l.foldl (fun m p => if p.2 = raw then m + 2 ^ (p.1 - 1) else m) 0) + (if stalled then 64 else 0))

/-- Limiter 6 for `setvl` (R38, R146). -/
def remaining (s : State) (rem : Nat) : Nat :=
  match s.a.app with
  | none => rem
  | some app => min rem (app.n - app.p)

/-- The stream whose failed fill a stall at `raw` would wait for, and its fault (R395). -/
def streamFaultAt (s : State) (raw : Nat) : Option (Nat × StreamFault) :=
  match s.a.app with
  | none => none
  | some app => (app.streams.toList.zipIdx).findSome? (fun p =>
      match p.1.fault with
      | some f => if p.1.en && streamIssued app p.1 = raw then some (p.2, f) else none
      | none => none)

/-- Forgets the fault of stream j: the fill starts again (R395). -/
def clearStreamFault (s : State) (j : Nat) : State :=
  match s.a.app with
  | none => s
  | some app =>
    let st := app.streams[j % 4]'(Nat.mod_lt _ (by decide))
    s.setA { s.a with
      app := some { app with streams := app.streams.set (j % 4) { st with fault := none } (Nat.mod_lt _ (by decide)) } }

/-- The grant instruction at the pc stalls before it grants (R42). -/
def State.noteStall (s : State) : State := s.setA { s.a with stalled := some s.pc }

/-- A stall for a limiter, or the trap of the failed fill that it would wait for (R39, R395). -/
def limiterStall (s : State) (raw : Nat) (w : Wait) : Out :=
  match streamFaultAt s raw with
  | some (j, f) => .next ((clearStreamFault s j).takeTrap f.cause f.detail f.addr s.h.pc)
  | none => s.noteStall.stall w

/-- The hart has stalled at this grant before (R42). -/
def grantStalled (s : State) : Bool := s.a.stalled == some s.pc

/-- An outcome at pc that is a stall for an empty line counts as a stall of the grant (R42). -/
def lineStallNoted (pc : Word) : Out → Out
  | .next t => .next (if t.h.wait == some .line && t.pc == pc then t.noteStall else t)
  | o => o

/-- Limiter 5's word, by an acquiring read at the declared scope, which executes now: the limiters are sampled in the cycle
of the evaluation (R40, R43). -/
def withHighWater (s : State) (k : State → Option Word → Out) : Out :=
  match s.a.app with
  | none => k s none
  | some app =>
    if app.hw = 0 then k s none
    else
      lineStallNoted s.pc
        (acquireRead (forgetEarly s s.core.num [s.scalarAgent]) Ask.load app.hw 8 fun s l => k (forgetEarly s s.core.num [s.vectorAgent]) (some (wordOf l)))

/-! ## Grants (R39, R44, R45) -/

/-- A grant of the A-hart: pushed to the grant queue, it replaces the strip state, with the slots that a load given up
half-way had claimed, and advances the position (R45, R47, R145, R146). A full queue stalls. Marked DESIGN CHOICE: R45 says
only that the hart stalls; the grant computed is dropped, and the limiters are evaluated afresh when the queue has room. -/
def makeGrant (s : State) (gr : Grant) (d : Reg) : Out :=
  if 8 ≤ s.td.gq.length then s.stall .queue
  else
    let s := s.setTd { s.td with
      gq := s.td.gq ++ [gr], q := s.td.q.map (fun l => l.filter (fun e => !e.fill)) }
    let a := s.a
    let s := s.setA { a with
      n := gr.n, sew := gr.sew, group := gr.group, vrows := gr.rows, vcols := gr.cols, vm := VMem.idle
      stalled := if grantStalled s then none else a.stalled
      app := a.app.map (fun app => { app with p := app.p + gr.n.toNat })
      h := { a.h with glim := gr.mask, strip := if gr.n = 0 then a.h.strip else a.h.strip + 1 } }
    (s.setS d ((if gr.two then gr.rows else gr.n).setWidth 64)).done

/-- A grant taken by the X-hart (R45, R47). An empty queue stalls. -/
def takeGrant (s : State) (d : Reg) : Out :=
  match s.td.gq with
  | [] => s.stall .queue
  | gr :: rest =>
    let s := s.setTd { s.td with gq := rest }
    let x := s.x
    let s := s.setX { x with
      vl := gr.n, vrows := gr.rows, vcols := gr.cols, two := gr.two, sew := gr.sew, group := gr.group
      h := { x.h with glim := gr.mask, strip := if gr.n = 0 then x.h.strip else x.h.strip + 1 } }
    (s.setS d ((if gr.two then gr.rows else gr.n).setWidth 64)).done

/-- The one-dimensional grant of R39 with limiter 5 read: the mask and grant, or none for a stall, and raw. -/
def grant1 (s : State) (rem : Nat) (g z : BitVec 2) (h : Option Word) : Nat × Option (Nat × BitVec 7) :=
  let r6 := remaining s rem
  let l := limiters s z g h r6
  let raw := leastLimiter l r6
  let n := if raw = r6 then raw else raw / groupElems z * groupElems z
  (raw, if 0 < n || r6 = 0 then some (n, limiterMask l raw (grantStalled s)) else none)

/-- The A-hart's `setvl`. -/
def setvlA (d a : Reg) (g z : BitVec 2) (s : State) : Out :=
  withHighWater s fun s h =>
    match grant1 s (s.getS a).toNat g z h with
    | (_, some (n, m)) =>
      makeGrant s { two := false, n := BitVec.ofNat 17 n, rows := 1, cols := BitVec.ofNat 17 n, sew := z, group := g,
                    mask := m } d
    | (raw, none) => limiterStall s raw (.setvl d a g z)

/-- The rows of R44, with each limiter's term: raw stands for the least. -/
def grant2 (s : State) (rows cols : Nat) (z : BitVec 2) (h : Option Word) : Nat × Option (Nat × BitVec 7) :=
  let r6 := match s.a.app with
    | none => rows
    | some app => min rows ((app.n - app.p) / cols)
  let l := (limiters s z 0 h 0).map (fun p =>
    if p.1 = 6 then (6, r6) else if p.1 = 3 then (3, max (p.2 / cols) 1) else (p.1, p.2 / cols))
  let v := leastLimiter l r6
  (v, if 0 < v || r6 = 0 then some (v, limiterMask l v (grantStalled s)) else none)

/-- The A-hart's `setvl2` (R44). -/
def setvl2A (d a b : Reg) (z : BitVec 2) (s : State) : Out :=
  let rows := (s.getS a).toNat
  let cols := (s.getS b).toNat
  let none2 := fun (m : BitVec 7) =>
    ({ two := true, n := 0, rows := 0, cols := 0, sew := z, group := 0, mask := m } : Grant)
  let st : BitVec 7 := if grantStalled s then 64 else 0
  let over1 := decide (s.maxvl z 0 < cols)
  let over2 := s.core.team.port && decide (28 * groupElems z < cols)
  if cols = 0 then makeGrant s (none2 (32 ||| st)) d
  else if over1 || over2 then
    makeGrant s (none2 ((if over1 then 1 else 0) ||| (if over2 then 2 else 0) ||| st)) d
  else
    withHighWater s fun s h =>
      match grant2 s rows cols z h with
      | (_, some (v, m)) =>
        makeGrant s { two := true, n := BitVec.ofNat 17 (v * cols), rows := BitVec.ofNat 17 v,
                      cols := BitVec.ofNat 17 cols, sew := z, group := 0, mask := m } d
      | (v, none) =>
        match streamFaultAt s (v * cols) with
        | some _ => limiterStall s (v * cols) (.setvl2 d a b z)
        | none => match (match s.a.app with | none => none | some app => limiter4 app) with
          | some l4 =>
            if l4 / cols = v then limiterStall s l4 (.setvl2 d a b z) else s.noteStall.stall (.setvl2 d a b z)
          | none => s.noteStall.stall (.setvl2 d a b z)

/-- `vgrant` (R147). -/
def execVgrant (d : Reg) (s : State) : Out :=
  issue true true (.vgrant d) s fun s => (s.setS d (s.h.glim.setWidth 64)).done

/-! ## X-hart configuration (R148, R149) -/

/-- `setdim` (R149). -/
def execSetdim (d a b : Reg) (s : State) : Out :=
  issue false true (.setdim d a b) s fun s =>
    let v : Dim := { len := BitVec.ofNat 17 (min (s.getS a).toNat 65536), stride := (s.getS b).extractLsb' 0 32 }
    (s.setX { s.x with dims := s.x.dims.set (d.toNat % 3) v (Nat.mod_lt _ (by decide)) }).done

/-- `settype` (R62, R148): code 15 keeps `fmt`. -/
def execSettype (f : BitVec 4) (t : Bit) (s : State) : Out :=
  issue false true (.settype f t) s fun s =>
    (s.setX { s.x with fmt := if f = 15#4 then s.x.fmt else f, tail := t.on }).done

/-! ## Applications (R150 to R152) -/

/-- A fill of some stream is under way, and ending the application waits for it (R150). -/
def fillsPending (s : State) : Bool :=
  match s.a.app with
  | none => false
  | some app => app.streams.toList.any (fun st => st.filling)

/-- Stream j of a record (R151). -/
def streamOf (rec_ : List Word) (j : Nat) : Stream :=
  let w := fun i => rec_.getD (4 + 3 * j + i) 0
  { en := (rec_.getD 2 0).getLsbD j
    src := w 0
    esz := ((w 1).extractLsb' 32 3).toNat
    stride := (w 1).extractLsb' 0 32
    lines := ((w 2).extractLsb' 32 8).toNat
    boff := ((w 2).extractLsb' 0 23).toNat
    started := 0, filling := false, read := 0, seen := [], parts := [], since := 0, fault := none }

/-- Reserved fields of stream j's words, or a reserved element size. Marked DESIGN CHOICE: R151 names no status for a
strip-buffer offset whose bits [6:0] are not zero; it counts here. -/
def streamReserved (rec_ : List Word) (j : Nat) : Bool :=
  let w := fun i => rec_.getD (4 + 3 * j + i) 0
  (w 0).extractLsb' 56 8 != 0 || (w 1).extractLsb' 35 29 != 0 || 5 ≤ ((w 1).extractLsb' 32 3).toNat ||
    (w 2).extractLsb' 40 24 != 0 || (w 2).extractLsb' 23 9 != 0 || (w 2).extractLsb' 0 7 != 0

/-- Two strip buffers overlap. -/
def buffersOverlap (p q : Stream) : Bool :=
  decide (p.boff < q.boff + q.lines * 128) && decide (q.boff < p.boff + p.lines * 128)

/-- The status that `sdecl` writes for a record (R151). Marked DESIGN CHOICE: of several conditions the lowest number is
written. -/
def declStatus (rec_ : List Word) : Nat :=
  let en := ([0, 1, 2, 3] : List Nat).filter (fun j => (rec_.getD 2 0).getLsbD j)
  let sts := en.map (streamOf rec_)
  if (rec_.getD 2 0).extractLsb' 4 60 != 0 || rec_.getD 3 0 != 0 || en.any (streamReserved rec_) then 1
  else if 2 ^ 48 ≤ (rec_.getD 0 0).toNat then 2
  else if sts.any (fun st => st.lines = 0 || 0x800000 < st.boff + st.lines * 128) ||
      en.any (fun i => en.any (fun j => i < j && buffersOverlap (streamOf rec_ i) (streamOf rec_ j))) then 3
  else if (rec_.getD 1 0).toNat % 8 != 0 then 4
  else 0

/-- The application a record declares. -/
def appOf (rec_ : List Word) (scope : BitVec 2) (acq : Option (Nat × Nat)) : App :=
  { n := (rec_.getD 0 0).toNat, hw := rec_.getD 1 0, scope := scope, acq := acq, p := 0, streams := vtab 4 (streamOf rec_) }

/-- Words of 8 bytes, in order. -/
def wordsOf : Nat → List Byte → List Word
  | 0, _ => []
  | n + 1, l => wordOf (l.take 8) :: wordsOf n (l.drop 8)

/-- `sdecl` (R150, R151): the record is read first, then the current application ends. -/
def execSdecl (d a : Reg) (sc : BitVec 2) (q : Bit) (s : State) : Out :=
  issue true false (.sdecl d a sc q) s fun s =>
    readThen s s.scalarAgent Ask.record (s.getS a) 128 fun s _ l =>
      if fillsPending s then s.stall .engine
      else
        let rec_ := wordsOf 16 l
        let st := declStatus rec_
        let s := s.setA { s.a with app := if st = 0 then some (appOf rec_ sc (if q.on then some (s.serial, s.ticks) else none)) else none }
        (s.setS d (BitVec.ofNat 64 st)).done

/-- `sdecl.end` (R150). -/
def execSdeclEnd (d : Reg) (s : State) : Out :=
  issue true false (.sdeclEnd d) s fun s =>
    if fillsPending s then s.stall .engine else ((s.setA { s.a with app := none }).setS d 0).done

/-- `shw` (R154). -/
def execShw (a b : Reg) (sc : BitVec 2) (s : State) : Out :=
  issue true false (.shw a b sc) s fun s => releaseStore s sc (s.getS a) 8 (s.getS b) fun s => s.done

/-- `swait` (R155). -/
def execSwait (a : Reg) (s : State) : Out :=
  issue true false (.swait a) s fun s =>
    if s.a.h.strip - s.x.h.strip ≤ s.getS a then s.done else s.stall .word

end Sys2Proof.Machine
end

