-- ==== Sys2Proof/Machine/VecMem.lean ====
section
/-! DEFINITION. Vector loads and stores, the scatter-add and the full/empty instructions of the A-hart's vector agent
(R156 to R161, R224, R242). Each works through its entries in ascending order, element group by element group, and
keeps the memory restart index when it stops. -/

namespace Sys2Proof.Machine

/-- A stop inside an instruction: the outcome of the step. -/
abbrev Step (α : Type) := Except Out α

/-- The trap of element i (R375, R379). -/
def elemTrap (s : State) (cls code acc i : Nat) (va : Word) : Out :=
  (noteRefusal s s.who cls va).trap cls code acc (BitVec.ofNat 64 i) va

/-! ## Strip buffers as rings (R153) -/

/-- The enabled stream whose strip buffer holds an address. -/
def ringAt (s : State) (va : Word) : Option (Nat × Stream) :=
  match s.a.app with
  | none => none
  | some app =>
    (app.streams.toList.zipIdx).findSome? (fun p =>
      if p.1.en && windowBase + p.1.boff ≤ va.toNat && va.toNat < windowBase + p.1.boff + p.1.lines * 128 then
        some (p.2, p.1)
      else none)

/-- An element address folded into the ring. -/
def foldRing (st : Stream) (va : Word) : Word :=
  let size : Int := st.lines * 128
  let off : Int := (va.toNat : Int) - (windowBase : Int) - st.boff
  BitVec.ofNat 64 (windowBase + st.boff + (off % size).toNat)

/-- The element of a stream that reading the byte at `va` reads, and which byte of it: the next one of that place not
below the lowest unread (R152). -/
def ringByte (st : Stream) (va : Nat) : Option (Nat × Nat) :=
  let size := st.lines * 128
  let off := va - windowBase - st.boff
  let b := st.read * 2 ^ st.esz + (off + size - st.read * 2 ^ st.esz % size) % size
  if b < st.started * 128 then some (b / 2 ^ st.esz, b % 2 ^ st.esz) else none

/-- One byte of an element has been read: an element whose every byte has been read is read (R152). -/
def seeByte (st : Stream) (e b : Nat) : Stream :=
  let old := ((st.parts.find? (fun p => p.1 == e)).map (·.2)).getD 0
  let mask := old ||| 2 ^ b
  let rest := st.parts.filter (fun p => p.1 != e)
  if mask + 1 = 2 ^ 2 ^ st.esz then { st with seen := insertNat e st.seen, parts := rest }
  else { st with parts := (e, mask) :: rest }

/-- The bytes at `vas` of stream j have been read. -/
def markSeen (s : State) (j : Nat) (vas : List Nat) : State :=
  match s.a.app with
  | none => s
  | some app =>
    let st := app.streams[j % 4]'(Nat.mod_lt _ (by decide))
    let st := vas.foldl (fun st va => match ringByte st va with | some (e, b) => seeByte st e b | none => st) st
    s.setA { s.a with app := some { app with streams := app.streams.set (j % 4) st (Nat.mod_lt _ (by decide)) } }

/-- Moves the lowest unread element past those that have been read. -/
def advanceRead : Nat → Nat → List Nat → Nat × List Nat
  | 0, r, l => (r, l)
  | k + 1, r, l => if l.contains r then advanceRead k (r + 1) (eraseNat r l) else (r, l)

/-- A vector load of stream j has completed (R152). -/
def settleSeen (s : State) (j : Nat) : State :=
  match s.a.app with
  | none => s
  | some app =>
    let st := app.streams[j % 4]'(Nat.mod_lt _ (by decide))
    let r := advanceRead st.seen.length st.read st.seen
    s.setA { s.a with app := some { app with
      streams := app.streams.set (j % 4) { st with read := r.1, seen := r.2 } (Nat.mod_lt _ (by decide)) } }

/-- A load waits on an empty line: if a failed fill left it empty, the fault is taken here (R395). -/
def lineStall (s : State) (va : Word) : Out :=
  match ringAt s va with
  | some (j, st) =>
    match st.fault with
    | some f =>
      if st.lines != 0 && (va.toNat - windowBase - st.boff) / 128 == st.started % st.lines then
        .next ((clearStreamFault s j).takeTrap f.cause f.detail f.addr s.h.pc)
      else s.stall .line
    | none => s.stall .line
  | none => s.stall .line

/-! ## The strip and the heads -/

/-- The grant, its sew, elements of a register and of a group (R145, R156). -/
def stripN (s : State) : Nat := s.a.n.toNat
def stripC (s : State) : Nat := s.perReg s.a.sew
def stripE (s : State) : Nat := groupElems s.a.sew
def stripBytes (s : State) : Nat := sewBits s.a.sew / 8

/-- ⌈n / m⌉. -/
def ceilDiv (n m : Nat) : Nat := if m = 0 then 0 else (n + m - 1) / m

def headOf (s : State) (q : Nat) : List QEntry := s.td.q[q % 6]'(Nat.mod_lt _ (by decide))
/-- The entries that a pop may take: those before one that still fills (R156). -/
def readyHead (s : State) (q : Nat) : List QEntry := (headOf s q).takeWhile (fun e => !e.fill)
def setHead (s : State) (q : Nat) (l : List QEntry) : State :=
  s.setTd { s.td with q := s.td.q.set (q % 6) l (Nat.mod_lt _ (by decide)) }
def headFull (s : State) (q : Nat) : Bool := 2 ≤ (headOf s q).length
def pushHead (s : State) (q : Nat) (e : QEntry) : State := setHead s q (headOf s q ++ [e])

/-- k entries have left the front of a head: a held read of an element follows its entry, and one whose entry has gone is not
held any longer (R219). -/
def shiftHeld (s : State) (q k : Nat) : State :=
  { s with early := s.early.filterMap (fun e =>
      match e.dest with
      | some (.elem h pos w i) =>
        if e.core == s.core.num && e.agent == .vector s.tnd && h == q % 6 then
          (if pos < k then none else some { e with dest := some (.elem h (pos - k) w i) })
        else some e
      | _ => some e) }

def popHead (s : State) (q : Nat) : State := shiftHeld (setHead s q ((headOf s q).drop 1)) q 1

/-- The entry of a head that still fills. -/
def filling (s : State) (q : Nat) : Option QEntry := (headOf s q).find? (·.fill)

/-- Claims a slot of a head for an entry to fill, unless that is done; none while the head is full (R156). -/
def claimHead (s : State) (q : Nat) : Option State :=
  if (filling s q).isSome then some s
  else if headFull s q then none
  else some (pushHead s q { data := 0, count := 0, sew := 0, fill := true })

/-- The entry that fills holds this now; it is pushed once it is complete (R156). -/
def fillHead (s : State) (q : Nat) (data : VReg) (count : Nat) (sew : BitVec 2) (complete : Bool) : State :=
  setHead s q ((headOf s q).map (fun e =>
    if e.fill then { data := data, count := BitVec.ofNat 17 count, sew := sew, fill := !complete } else e))

/-- Whole elements of width w that an entry supplies. Marked DESIGN CHOICE: a data entry whose sew differs from the strip's
is read again at the strip's width, as R161 has it for `vpop`; R156 does not say. -/
def QEntry.supply (e : QEntry) (w : Nat) : Nat := e.count.toNat * sewBits e.sew / w

def State.vm (s : State) : VMem := s.a.vm
def State.setVm (s : State) (v : VMem) : State := s.setA { s.a with vm := v }

/-- The indices that head b holds, past those already used, signed at each entry's own sew (R157). -/
def indices (s : State) (b : Nat) : List Int :=
  ((headOf s b).flatMap (fun e => (List.range e.count.toNat).map (fun t =>
    signedElem (sewBits e.sew) (getElem e.data (sewBits e.sew) t)))).drop s.vm.used

/-- Drops entries of head b that are used up. -/
def dropUsed : Nat → List QEntry → Nat → List QEntry × Nat
  | 0, l, u => (l, u)
  | k + 1, l, u =>
    match l with
    | [] => ([], u)
    | e :: r => if e.count.toNat ≤ u then dropUsed k r (u - e.count.toNat) else (e :: r, u)

/-- m more indices of head b lie below the restart index (R156). -/
def useIndices (s : State) (b m : Nat) : State :=
  let r := dropUsed 3 (headOf s b) (s.vm.used + m)
  (shiftHeld (setHead s b r.1) b ((headOf s b).length - r.1.length)).setVm { s.vm with used := r.2 }

/-- Index entries of no elements, which no element needs, go before a group takes its indices (R156). -/
def freeIndices (s : State) (idx : Option Nat) : State :=
  match idx with
  | some b => useIndices s b 0
  | none => s

/-- The instruction is done: the index entry in use goes with what is left in it (R157). -/
def dropLeftover (s : State) (b : Nat) : State :=
  if s.vm.used = 0 then s else (popHead s b).setVm { s.vm with used := 0 }

/-! ## Stops between groups (R51, R345) -/

/-- The element groups, entries or planes that an instruction takes in this move: all of `all`, or as many as the move
leaves it. -/
def groupFuel (s : State) (all : Nat) : Nat :=
  match s.limit with
  | none => all
  | some n => min n all

/-- The A-hart stops between two groups of an instruction that has not ended: it waits for nothing, and the instruction
goes on from its restart index. -/
def State.pause (s : State) : Out :=
  let s := s.setH { s.h with wait := none }
  .next (s.setA { s.a with paused := true })

/-! ## Loads -/

/-- A vector load: destination head, fields, whether it acquires and its scope, the ring its addresses fold into, the
index head, and the address of field f of element i with index x (R157). -/
structure VLoad where
  d : Nat
  f : Nat
  acq : Bool
  scope : BitVec 2
  ring : Option (Nat × Stream)
  idx : Option Nat
  addr : Nat → Nat → Int → Word

/-- What a group of a load has read: the entries of its fields, the miss bits, and the step of the latest of its reads. -/
structure Reads where
  data : Vector VReg 4
  miss : VReg
  last : Nat

/-- The read of one element: its bytes as a value, none for a scope miss (R159, R224), and the step in which it executed:
after every lower element on a host-shared page, after every lower group in a deterministic team (R229). -/
def loadElem (s : State) (l : VLoad) (i n last : Nat) (va : Word) : Step (State × Option Word × Nat) :=
  if va.toNat % n != 0 then .error (elemTrap s 5 0 0 i va)
  else
    match translate s s.who Ask.load va n with
    | .error e => .error (elemTrap s e.cls e.code 0 i va)
    | .ok p =>
      if l.acq && leafSync p.w1 && !eligible s.core.num p l.scope then .ok (s, none, 0)
      else
        let since := if leafHshared p.w1 then last else if s.core.team.det then s.vm.lastRead else 0
        match readSince s s.core.num s.vectorAgent since (span p.key n) with
        | (s, .bytes b, at_) => .ok (s, some (wordOf b), at_)
        | (s, .wait, _) => .error (lineStall s va)
        | (s, .poison _, _) => .error (elemTrap s 11 (readCode s (span p.key n)) 0 i va)

/-- The address of field f of element i, folded where a ring is read (R153). -/
def VLoad.at (l : VLoad) (i f : Nat) (x : Int) : Word :=
  match l.ring with
  | some (_, st) => foldRing st (l.addr i f x)
  | none => l.addr i f x

/-- The agent holds the read of field f of element i, at `va`, into the entry that fills (R219): not one of a load that
acquires, which later accesses may not pass (R226), nor where element order binds it (R229). One of a strip buffer is held
until its line is filled again (R152). -/
def holdElem (s : State) (l : VLoad) (i f c n : Nat) (va : Word) : State :=
  if l.acq || s.core.team.det then s
  else
    match translate s s.who Ask.load va n with
    | .error _ => s
    | .ok p =>
      if leafHshared p.w1 then s
      else holdRead s s.vectorAgent (span p.key n) (.elem ((l.d + f) % 6) ((headOf s (l.d + f)).length - 1) (8 * n) (i % c))

/-- The elements of one group into the entries being filled, in ascending order. -/
def loadElems (l : VLoad) (w c n : Nat) : List (Nat × Nat × Int) → State → Reads → Step (State × Reads)
  | [], s, v => .ok (s, v)
  | (i, f, x) :: rest, s, v =>
    match loadElem s l i n v.last (l.at i f x) with
    | .error o => .error o
    | .ok (s, some b, at_) =>
      loadElems l w c n rest (holdElem s l i f c n (l.at i f x)) { v with
        data := v.data.set (f % 4) (setElem (v.data[f % 4]'(Nat.mod_lt _ (by decide))) w (i % c) b)
          (Nat.mod_lt _ (by decide))
        last := max v.last at_ }
    | .ok (s, none, _) => loadElems l w c n rest s { v with miss := v.miss ||| BitVec.ofNat 65536 (2 ^ i) }

/-- Claims the slots of `m` heads from d on, one after another; false where one is full (R156). -/
def claimAll (d : Nat) : Nat → State → State × Bool
  | 0, s => (s, true)
  | m + 1, s =>
    match claimAll d m s with
    | (s, false) => (s, false)
    | (s, true) =>
      match claimHead s (d + m) with
      | some s => (s, true)
      | none => (s, false)

/-- What the slots hold before a group is read. -/
def heldReads (s : State) (l : VLoad) : Reads where
  data := vtab 4 (fun f => ((filling s (l.d + f)).map (·.data)).getD 0)
  miss := ((filling s (l.d + l.f)).map (·.data)).getD 0
  last := s.vm.lastRead

/-- A group has been read: its elements stand in the claimed slots, `cnt` of each entry, and complete entries are pushed
(R156); the slot of the miss entry keeps the miss bits (R224). -/
def keepReads (s : State) (l : VLoad) (v : Reads) (cnt : Nat) (complete : Bool) : State :=
  let s := (List.range l.f).foldl (fun s f =>
    fillHead s (l.d + f) (v.data[f % 4]'(Nat.mod_lt _ (by decide))) cnt s.a.sew complete) s
  if l.acq then fillHead s (l.d + l.f) v.miss (ceilDiv (stripN s) 8) 0 false else s

/-- The load is complete: miss entry, leftover indices, elements of the ring read (R152, R157, R224). -/
def finishLoad (s : State) (l : VLoad) : State :=
  let s := if l.acq then fillHead s (l.d + l.f) (heldReads s l).miss (ceilDiv (stripN s) 8) 0 true else s
  let s := match l.idx with
    | some b => dropLeftover s b
    | none => s
  let s := match l.ring with
    | some (j, _) => settleSeen s j
    | none => s
  let s := if l.acq then forgetEarly s s.core.num [s.vectorAgent] else s
  (s.setVm VMem.idle).bump 4

/-- The elements that group g of a load reads: index, field, and what an index head gives it. -/
def loadItems (l : VLoad) (lo hi : Nat) (xs : List Int) : List (Nat × Nat × Int) :=
  ((span lo (hi - lo)).zip xs).flatMap (fun p => (List.range l.f).map (fun f => (p.1, f, p.2)))

/-- The state once group g, its elements up to `hi`, has been read. -/
def groupRead (s : State) (l : VLoad) (g hi : Nat) (items : List (Nat × Nat × Int)) (v : Reads) : State :=
  let n := stripN s
  let c := stripC s
  let s := keepReads s l v ((hi - 1) % c + 1) (hi == n || hi % c == 0)
  let s := s.setVm { s.vm with restart := g + 1, lastRead := v.last }
  let s := match l.idx with
    | some b => useIndices s b (hi - g * stripE s)
    | none => s
  match l.ring with
  | some (j, _) => markSeen s j (items.flatMap (fun p => span (l.at p.1 p.2.1 p.2.2).toNat (stripBytes s)))
  | none => s

/-- Works through at most k element groups from the restart index on. -/
def loadGroups (l : VLoad) : Nat → State → Out
  | 0, s => s.pause
  | k + 1, s =>
    let n := stripN s
    let e := stripE s
    let g := s.vm.restart
    if n ≤ g * e then .next (finishLoad s l)
    else
      match claimAll l.d l.f (freeIndices s l.idx) with
      | (s, false) => s.stall .queue
      | (s, true) =>
        let hi := min (g * e + e) n
        let xs := match l.idx with
          | some b => indices s b
          | none => List.replicate e 0
        if xs.length < hi - g * e then s.stall .queue
        else
          let items := loadItems l (g * e) hi xs
          match loadElems l (sewBits s.a.sew) (stripC s) (stripBytes s) items s (heldReads s l) with
          | .error o => o
          | .ok (s, v) => loadGroups l k (groupRead s l g hi items v)

/-- A vector memory instruction issues: its entries carry one number, however often it stops (R229). -/
def issueVec (s : State) : State :=
  if s.vm.serial != 0 then s
  else
    let s := nextSerial s
    s.setVm { s.vm with serial := s.serial, draw := s.core.team.sample }

/-- The acquire of a load that has not issued yet: its agent's earlier reads have executed (R156, R226). -/
def acquireVec (s : State) (acq : Bool) : State :=
  if acq && s.vm.serial == 0 then forgetEarly s s.core.num [s.vectorAgent] else s

/-- A vector load: the acquire first, a slot for the miss entry, then the groups (R156, R224). -/
def vectorLoad (s : State) (l : VLoad) : Out :=
  let s := acquireVec s l.acq
  if stripN s = 0 then s.done
  else
    let s := issueVec s
    match (if l.acq then claimHead s (l.d + l.f) else some s) with
    | none => s.stall .queue
    | some s => loadGroups l (groupFuel s (ceilDiv (stripN s) (stripE s) + 1)) s

/-- A load whose addresses need no indices. -/
def plainLoad (s : State) (d f : Nat) (q : Bit) (sc : BitVec 2) (base : Word) (addr : Nat → Nat → Word) : Out :=
  vectorLoad s { d := d, f := f, acq := q.on, scope := sc, ring := ringAt s base, idx := none,
                 addr := fun i f _ => addr i f }

/-- A product of a count and a byte distance, modulo 2^64. -/
def times (i : Nat) (w : Word) : Word := BitVec.ofNat 64 i * w

/-- `vld` (R157). -/
def execVld (d a b : Reg) (sc : BitVec 2) (q : Bit) (s : State) : Out :=
  issue true false (.vld d a b sc q) s fun s =>
    let base := s.getS a + s.getS b
    plainLoad s d.toNat 1 q sc base (fun i _ => base + times i (BitVec.ofNat 64 (stripBytes s)))

/-- `vlds` (R157). -/
def execVlds (d a b : Reg) (sc : BitVec 2) (q : Bit) (s : State) : Out :=
  issue true false (.vlds d a b sc q) s fun s =>
    plainLoad s d.toNat 1 q sc (s.getS a) (fun i _ => s.getS a + times i (s.getS b))

/-- Row and column of element i of a strip (R44, R157). -/
def rowCol (s : State) (i : Nat) : Nat × Nat :=
  if s.a.vcols.toNat = 0 then (0, i) else (i / s.a.vcols.toNat, i % s.a.vcols.toNat)

/-- Offset of element i of a two-dimensional access of element size z, plain or transposed (R157). -/
def offset2 (s : State) (i : Nat) (pitch z : Word) (transposed : Bool) : Word :=
  let rc := rowCol s i
  if transposed then times rc.2 pitch + times rc.1 z else times rc.1 pitch + times rc.2 z

/-- `vld2` (R157). -/
def execVld2 (d a b : Reg) (sc : BitVec 2) (q : Bit) (v : BitVec 2) (s : State) : Out :=
  issue true false (.vld2 d a b sc q v) s fun s =>
    plainLoad s d.toNat 1 q sc (s.getS a)
      (fun i _ => s.getS a + offset2 s i (s.getS b) (BitVec.ofNat 64 (stripBytes s)) (v == 1#2))

/-- `vldx` (R157): variant 1 scales the index by the element size. Marked DESIGN CHOICE: s[a] is the start address of R153,
which does not say which address that is. -/
def execVldx (d a b : Reg) (sc : BitVec 2) (q : Bit) (v : BitVec 2) (s : State) : Out :=
  issue true false (.vldx d a b sc q v) s fun s =>
    let m : Int := if v = 1#2 then stripBytes s else 1
    vectorLoad s { d := d.toNat, f := 1, acq := q.on, scope := sc, ring := ringAt s (s.getS a), idx := some b.toNat,
                   addr := fun _ _ x => s.getS a + BitVec.ofInt 64 (x * m) }

/-- `vldseg` (R157): F = variant + 1 fields. -/
def execVldseg (d a : Reg) (sc : BitVec 2) (q : Bit) (v : BitVec 2) (s : State) : Out :=
  issue true false (.vldseg d a sc q v) s fun s =>
    let n := v.toNat + 1
    plainLoad s d.toNat n q sc (s.getS a)
      (fun i f => s.getS a + times (i * n + f) (BitVec.ofNat 64 (stripBytes s)))

/-! ## Stores -/

/-- Storage formats that convert, by their leaf code (R204). -/
def storageFmt (c : Nat) : Option Fmt :=
  match c with
  | 1 => some .bf16
  | 2 => some .fp16
  | 3 => some .e5m2
  | 4 => some .e4m3
  | 5 => some .e2m1
  | _ => none

/-- Twice the storage size of an element on a page: formats apply at sew 32 and 64 only (R158). -/
def storageHalves (fmt : Nat) (z : BitVec 2) : Nat :=
  if z.toNat < 2 then 2 * (sewBits z / 8)
  else
    match fmt with
    | 1 => 4
    | 2 => 4
    | 3 => 2
    | 4 => 2
    | 5 => 1
    | 6 => 16
    | _ => 2 * (sewBits z / 8)

/-- What an element writes: bytes at an address, or a nibble, with flags and `xrange` (R158). -/
inductive Stored where
  | bytes (l : List Byte)
  | nibble (n : BitVec 4)
  deriving DecidableEq, Repr

/-- Rounding of a page with its draw (R204). -/
def pageRnd (srnd : Nat) (delta : BitVec 16) : Rnd :=
  match srnd with
  | 0 => .rne
  | 1 => .rtz
  | _ => .sr delta

/-- The stored form of a value on a page, with a draw where the page rounds stochastically (R158). -/
def storedForm (z : BitVec 2) (w1 v : Word) (delta : BitVec 16) : Stored × Flags × Bool :=
  let src := if z = 2#2 then Fmt.fp32 else .fp64
  let f := leafFmt w1
  if z.toNat < 2 then (.bytes (bytesOf (sewBits z / 8) v), 0, false)
  else if f = 6 then
    let c := x64Contrib src v (leafQ w1)
    (.bytes (bytesOf 8 c.1), 0, c.2)
  else
    match storageFmt f with
    | none => (.bytes (bytesOf (sewBits z / 8) v), 0, false)
    | some t =>
      let r := fpConvert src t (pageRnd (leafSrnd w1) delta) v
      (if t == .e2m1 then .nibble (r.1.setWidth 4) else .bytes (bytesOf (t.width / 8) r.1), r.2, false)

/-- A vector store: data head, fields, index head, whether addresses are scaled by ssz, and twice the address of field
f of element i with index x, given twice the ssz of the base page (R158). -/
structure VStore where
  d : Nat
  f : Nat
  idx : Option Nat
  base : Word
  scaled : Bool
  addr2 : Nat → Nat → Int → Nat → Int

/-- Draw index of a store-path draw in tabled mode (R102). -/
def storeDrawIndex (repoch : BitVec 40) (ea s : Nat) : Nat := repoch.toNat % 256 * 2 ^ 24 + ea / s % 2 ^ 24

/-- The store-path port of the store under way: another port with its tag clashes, and a store that finds the team's
port active joins it (R295, R386). -/
def openStorePort (s : State) : Option State :=
  let ports := activePorts s
  if !ports.any (fun p => p.kind == 3) && tagClash s 3 then none
  else if ports.any (fun p => p.kind == 3 && p.serial == s.vm.serial) then some s
  else some (s.setTeam { s.core.team with
    ports := ports ++ [{ kind := 3, tag := 3, t := s.tnd, serial := s.vm.serial, draw := s.vm.draw }] })

/-- The page of an address rounds a store of the strip's width stochastically (R158, R204). -/
def srPage (z : BitVec 2) (w1 : Word) : Bool := 2 ≤ z.toNat && leafSrnd w1 == 2

/-- Where elements of the store under way, at twice these addresses, lie on a page that rounds stochastically, the store
is one to such a page: it opens the store-path port, or clashes with another (R295, R379, R386). -/
def openFor (s : State) (as : List Int) : Option State :=
  if as.any (fun a2 => srPage s.a.sew (pageAttr s s.who (BitVec.ofInt 64 (a2 / 2)))) then openStorePort s else some s

/-- How an instruction stops at an element: the outcome, and the element where it is a fault of one. -/
abbrev Halt := Option Nat × Out

/-- A fault of element i. -/
def elemHalt (s : State) (cls code acc i : Nat) (va : Word) : Halt := (some i, elemTrap s cls code acc i va)

/-- The draw of an element on a page, if its page rounds stochastically, from what the store sampled at issue (R72, R102,
R386). Marked DESIGN CHOICE: the draw table is read for every such element, also for one that uses no draw, on which R102 is
silent. -/
def storeDraw (s : State) (i : Nat) (va : Word) (nib : Bool) (z : BitVec 2) (w1 : Word) : Except Halt (State × BitVec 16) :=
  if !srPage z w1 then .ok (s, 0)
  else
    let d := s.vm.draw
    let isNib := leafFmt w1 == 5
    let ea := if isNib then (2 * va.toNat + nib.toNat) % 2 ^ 56 else va.toNat % 2 ^ 56
    let size := if isNib then 1 else storageHalves (leafFmt w1) z / 2
    let ctr : BitVec 96 := BitVec.ofNat 56 ea ++ d.epoch
    if !d.src.getLsbD 63 then .ok (s, ashlarDraw d.key 3 ctr 0)
    else
      let da := drawAddr d.src (storeDrawIndex d.epoch ea size)
      if da.getLsbD 0 then .error (elemHalt s 5 0 6 i da)
      else
        match translate s s.who Ask.draw da 2 with
        | .error e => .error (elemHalt s e.cls e.code 6 i da)
        | .ok p =>
          match readMove s s.core.num s.vectorAgent (span p.key 2) with
          | (s, .bytes l) => .ok (s, BitVec.ofNat 16 (natOf l))
          | (s, .wait) => .error (none, s.stall .line)
          | (s, .poison _) => .error (elemHalt s 11 (readCode s (span p.key 2)) 6 i da)

/-- One write of a group: home address, what is written, the element, and whether its page is host-shared (R229). -/
structure Wr where
  key : Nat
  out : Stored
  hi : Bool
  elem : Nat
  hshared : Bool

/-- Base of the line of an address, which a guarded access reports (R375). -/
def lineBase (va : Word) : Word := va &&& ~~~127#64

/-- The checks of one element at twice an address: its page, or the class, the code and the address of its fault; one off
its memory size, or at half a byte on a page that is not e2m1, is misaligned (R158, R159, R379). -/
def storePlace (s : State) (a2 : Int) : Except (Nat × Nat × Word) Place :=
  let z := s.a.sew
  let va := BitVec.ofInt 64 (a2 / 2)
  let halves := storageHalves (leafFmt (pageAttr s s.who va)) z
  let size := max (halves / 2) 1
  if va.toNat % size != 0 || (a2 % 2 == 1 && halves != 1) then .error (5, 0, va)
  else
    match translate s s.who Ask.store va size with
    | .error e => .error (e.cls, e.code, va)
    | .ok p =>
      if s.core.team.og != 1#2 && scratchCore? p.key == some s.core.num && guarded s (span p.key size) then
        .error (10, 0, lineBase va)
      else .ok p

/-- The checks and the conversion of one element. -/
def storeElem (s : State) (i : Nat) (a2 : Int) (v : Word) : Except Halt (State × Wr × Flags × Bool) :=
  let z := s.a.sew
  let va := BitVec.ofInt 64 (a2 / 2)
  let size := max (storageHalves (leafFmt (pageAttr s s.who va)) z / 2) 1
  let nib := a2 % 2 == 1
  match storePlace s a2 with
  | .error e => .error (elemHalt s e.1 e.2.1 1 i e.2.2)
  | .ok p =>
    if scratchCore? p.key == some s.core.num && guarded s (span p.key size) then .error (none, s.stall .line)
    else
      match storeDraw s i va nib z p.w1 with
      | .error o => .error o
      | .ok (s, delta) =>
        let r := storedForm z p.w1 v delta
        .ok (s, { key := p.key, out := r.1, hi := nib, elem := i, hshared := leafHshared p.w1 }, r.2.1, r.2.2)

/-- The elements of a group, checked and converted before any is written. -/
def storeElems : List (Nat × Int × Word) → State → Except Halt (State × List Wr × Flags × Bool)
  | [], s => .ok (s, [], 0, false)
  | (i, a2, v) :: rest, s =>
    match storeElem s i a2 v with
    | .error o => .error o
    | .ok (s, w, fl, xr) =>
      match storeElems rest s with
      | .error o => .error o
      | .ok (s, ws, fl', xr') => .ok (s, w :: ws, fl ||| fl', xr || xr')

/-- Bytes and nibbles that a group writes, at addresses of their own. -/
abbrev Cells := List Host.Cell × List (Nat × Bool × BitVec 4)

/-- A later write of a byte stands over an earlier one, and over nibbles of it. -/
def putByte (m : Cells) (c : Host.Cell) : Cells := (m.1.filter (fun d => d.1 != c.1) ++ [c], m.2.filter (fun d => d.1 != c.1))

/-- A later write of a nibble stands over an earlier one, within a byte that the group writes or on its own. -/
def putNibble (m : Cells) (a : Nat) (hi : Bool) (n : BitVec 4) : Cells :=
  if m.1.any (fun c => c.1 == a) then
    (m.1.map (fun c => if c.1 == a then (a, if hi then n ++ c.2.extractLsb' 0 4 else c.2.extractLsb' 4 4 ++ n) else c), m.2)
  else (m.1, m.2.filter (fun d => !(d.1 == a && d.2.1 == hi)) ++ [(a, hi, n)])

/-- What the elements of a group write, in ascending order: the highest element stands (R158). -/
def groupCells (ws : List Wr) : Cells :=
  ws.foldl (fun m w => match w.out with
    | .bytes b => (cellsAt w.key b).foldl putByte m
    | .nibble n => putNibble m w.key w.hi n) ([], [])

/-- Lines that a list of addresses touches, in order of first touch. -/
def linesOf (as : List Nat) : List Nat := (as.map (· / 128)).eraseDups

/-- One entry of the vector agent, under the number of its instruction, with its lowest element and the element below
which all others come first (R229). -/
def enterVec (s : State) (low : Nat) (rank : Option Nat) (p : Payload) : State :=
  let s := dropEarly s s.core.num s.vectorAgent p.addrs
  { s with
    buf := s.buf ++ [{ loc := .sb s.core.num s.vectorAgent, core := s.core.num, agent := s.vectorAgent, payload := p,
                       serial := s.vm.serial, low := low, rank := rank, bad := false }] }

/-- Element `low` of group g comes after every lower element on a host-shared page, after every lower group in a
deterministic team (R229). -/
def elemRank (s : State) (hshared : Bool) (low : Nat) : Option Nat :=
  if hshared then some low else if s.core.team.det then some (low / stripE s * stripE s) else none

/-- The entries of a group: one for each line its elements touch (R220). Marked DESIGN CHOICE: where the elements of two
entries of one store interleave on a host-shared page, R229 does not say which leaves first; the one with the lowest element
does. -/
def enterGroup (s : State) (ws : List Wr) : State :=
  let m := groupCells ws
  let on := fun (l : Nat) => ws.filter (fun w => (span w.key (match w.out with | .bytes b => b.length | .nibble _ => 1)).any
    (fun a => a / 128 == l))
  let low := fun (l : Nat) => (on l).foldl (fun n w => min n w.elem) (((on l).headD ⟨0, .nibble 0, false, 0, false⟩).elem)
  let rank := fun (l : Nat) => elemRank s ((on l).any (·.hshared)) (low l)
  let s := (linesOf (m.1.map (·.1))).foldl (fun s l =>
    enterVec s (low l) (rank l) (.bytes (m.1.filter (fun c => c.1 / 128 == l)))) s
  (linesOf (m.2.map (·.1))).foldl (fun s l =>
    enterVec s (low l) (rank l) (.nibbles (m.2.filter (fun c => c.1 / 128 == l)))) s

/-- Word 1 of the leaf of a base address, which the local window has none of: what fixes a scale before any element is
checked (R158, R242). An address without a leaf faults, as element 0. -/
def baseAttr (s : State) (acc : Nat) (base : Word) : Step Word :=
  if windowBase ≤ base.toNat then .ok 0
  else
    match leafOf s s.who base.toNat with
    | .error e => .error (elemTrap s e.cls e.code acc 0 base)
    | .ok l => .ok l.w1

/-- Twice the ssz that scales the addresses: that of the base page (R158). -/
def baseHalves (s : State) (st : VStore) : Step Nat :=
  if !st.scaled then .ok 2
  else
    match baseAttr s 1 st.base with
    | .error o => .error o
    | .ok w1 => .ok (storageHalves (leafFmt w1) s.a.sew)

/-- Whether the entries supply record i to field m of a store that works on entry `cur`, counted over all fields' entries,
which are k to a field (R156). Whether entries that have not come will supply it is open. -/
def supplies (s : State) (st : VStore) (cur k i m : Nat) : Bool :=
  match (headOf s st.d)[m * k + i / max (stripC s) 1 - cur]? with
  | some q => i % max (stripC s) 1 < q.supply (sewBits s.a.sew)
  | none => Config.comesLater s.ticks (m * stripN s + i)

/-- How an element of a store faults, at its own checks or at those of its draw (R102, R379). -/
def storeFault (s : State) (i : Nat) (a2 : Int) : Option Out :=
  match storePlace s a2 with
  | .error e => some (elemTrap s e.1 e.2.1 1 i e.2.2)
  | .ok p =>
    match storeDraw s i (BitVec.ofInt 64 (a2 / 2)) (a2 % 2 == 1) s.a.sew p.w1 with
    | .error (some _, o) => some o
    | _ => none

/-- The fault of the lowest record below j one of whose later fields than f faults, if there is one: the lowest faulting
index of a `vstseg` is that of a record (R378). A record that the entries do not supply is not written and has no fault
(R156). -/
def lowerFault (st : VStore) (h f j : Nat) (s : State) : Option Out :=
  let k := ceilDiv (stripN s) (max (stripC s) 1)
  let cur := f * k + j / max (stripC s) 1
  (List.range j).findSome? (fun i => (span (f + 1) (st.f - (f + 1))).findSome? (fun m =>
    if supplies s st cur k i m then storeFault s i (st.addr2 i m 0 h) else none))

/-- The group of field f stops: at a fault, the lowest faulting record is reported (R378). -/
def haltStore (st : VStore) (h f : Nat) (s : State) (o : Halt) : Out :=
  match o.1 with
  | none => o.2
  | some j => (lowerFault st h f j s).getD o.2

/-- Works through the data entries, at most k groups: the restart index counts the groups of all fields' entries. -/
def storeGroups (st : VStore) (h : Nat) : Nat → State → Out
  | 0, s => s.pause
  | k + 1, s =>
    let n := stripN s
    let c := stripC s
    let e := stripE s
    let per := ceilDiv n e
    let r := s.vm.restart
    if st.f * per ≤ r then
      .next (((match st.idx with | some b => dropLeftover s b | none => s).setVm VMem.idle).bump 4)
    else
      let s := freeIndices s st.idx
      match headOf s st.d with
      | [] => s.stall .queue
      | q :: _ =>
        let f := r / per
        let g := r % per
        let hi := min (g * e + e) n
        let w := sewBits s.a.sew
        let is := (span (g * e) (hi - g * e)).filter (fun i => i % c < q.supply w)
        let xs := match st.idx with
          | some b => indices s b
          | none => List.replicate e 0
        if xs.length < is.length then s.stall .queue
        else
          let items := (is.zip xs).map (fun p => (p.1, st.addr2 p.1 f p.2 h, getElem q.data w (p.1 % c)))
          match openFor s (items.map (fun p => p.2.1)) with
          | none => s.trap 9 3 0 0 3
          | some s =>
            match storeElems items s with
            | .error o => haltStore st h f s o
            | .ok (s, ws, fl, xr) =>
              let s := ((enterGroup s ws).raise fl).raiseRange xr
              let s := match st.idx with
                | some b => useIndices s b is.length
                | none => s
              let s := s.setVm { s.vm with restart := r + 1 }
              storeGroups st h k (if hi == n || hi % c == 0 then popHead s st.d else s)

/-- Twice the addresses of the elements of the group that the restart index r names (R158, R159). -/
def groupAddrs (s : State) (st : VStore) (h r : Nat) : List Int :=
  let per := ceilDiv (stripN s) (stripE s)
  let lo := r % per * stripE s
  (span lo (min (stripE s) (stripN s - lo))).map (fun i => st.addr2 i (r / per) 0 h)

/-- Twice the addresses of the elements that a store has left as it issues: those of the indices at hand, or of every field.
Marked DESIGN CHOICE: whether the entries will supply an element is not known then, and none is left out. -/
def issueAddrs (s : State) (st : VStore) (h : Nat) : List Int :=
  let r := s.vm.restart
  let lo := r * stripE s
  match st.idx with
  | some b => ((span lo (stripN s - lo)).zip (indices s b)).map (fun p => st.addr2 p.1 0 p.2 h)
  | none => (span r (st.f * ceilDiv (stripN s) (stripE s) - r)).flatMap (groupAddrs s st h)

/-- The store issues: one to a page that rounds stochastically opens the store-path port or clashes with another (R72,
R295, R379, R386). Marked DESIGN CHOICE: the page is that of an element, not of the base address as such; an element whose
index comes later counts when it comes. -/
def issueStore (s : State) (st : VStore) (h : Nat) : Option State := openFor s (issueAddrs s st h)

/-- The fault of the base address, which is one of element 0: it is translated before any element, but a misaligned
element 0 comes first (R158, R379). -/
def baseFault (s : State) (st : VStore) (h : Nat) : Option Out :=
  if !st.scaled then none
  else
    match translate s s.who Ask.store st.base 1 with
    | .ok _ => none
    | .error e =>
      match (if s.vm.restart = 0 then ((issueAddrs s st h).head?).map (storePlace s) else none) with
      | some (.error (5, c, va)) => some (elemTrap s 5 c 1 0 va)
      | _ => some (elemTrap s e.cls e.code 1 0 st.base)

/-- A vector store: the release first, the leaf of the base, the draw port, the fault of the base, then the groups (R156,
R158, R379). Where the base has no leaf, the addresses that it scales are unknown, and no element opens the port. -/
def vectorStore (s : State) (st : VStore) (sc : BitVec 2) (r : Bit) : Out :=
  let go := fun (s : State) =>
    if stripN s = 0 then s.done
    else
      let s := issueVec s
      match baseHalves s st with
      | .error o => o
      | .ok h =>
        match issueStore s st h with
        | none => s.trap 9 3 0 0 3
        | some s =>
          match baseFault s st h with
          | some o => o
          | none => storeGroups st h (groupFuel s (st.f * ceilDiv (stripN s) (stripE s) + 1)) s
  if r.on && s.vm.serial == 0 then releaseThen s [s.vectorAgent] sc go else go s

/-- Twice an address plus i scaled by h halves. -/
def scaled2 (base : Word) (i h : Nat) : Int := 2 * (base.toNat : Int) + i * h

/-- `vst` (R158). -/
def execVst (d a b : Reg) (sc : BitVec 2) (r : Bit) (s : State) : Out :=
  issue true false (.vst d a b sc r) s fun s =>
    let base := s.getS a + s.getS b
    vectorStore s { d := d.toNat, f := 1, idx := none, base := base, scaled := true,
                    addr2 := fun i _ _ h => scaled2 base i h } sc r

/-- `vsts` (R158). -/
def execVsts (d a b : Reg) (sc : BitVec 2) (r : Bit) (s : State) : Out :=
  issue true false (.vsts d a b sc r) s fun s =>
    vectorStore s { d := d.toNat, f := 1, idx := none, base := s.getS a, scaled := false,
                    addr2 := fun i _ _ _ => 2 * ((s.getS a + times i (s.getS b)).toNat : Int) } sc r

/-- `vst2` (R158). -/
def execVst2 (d a b : Reg) (sc : BitVec 2) (r : Bit) (v : BitVec 2) (s : State) : Out :=
  issue true false (.vst2 d a b sc r v) s fun s =>
    vectorStore s { d := d.toNat, f := 1, idx := none, base := s.getS a, scaled := true,
                    addr2 := fun i _ _ h =>
                      let rc := rowCol s i
                      if v = 1#2 then scaled2 (s.getS a + times rc.2 (s.getS b)) rc.1 h
                      else scaled2 (s.getS a + times rc.1 (s.getS b)) rc.2 h } sc r

/-- `vstx` (R158). -/
def execVstx (d a b : Reg) (sc : BitVec 2) (r : Bit) (v : BitVec 2) (s : State) : Out :=
  issue true false (.vstx d a b sc r v) s fun s =>
    vectorStore s { d := d.toNat, f := 1, idx := some b.toNat, base := s.getS a, scaled := v == 1#2,
                    addr2 := fun _ _ x h =>
                      if v = 1#2 then 2 * ((s.getS a).toNat : Int) + x * h
                      else 2 * ((s.getS a).toNat + x) } sc r

/-- `vstseg` (R158). -/
def execVstseg (d a : Reg) (sc : BitVec 2) (r : Bit) (v : BitVec 2) (s : State) : Out :=
  issue true false (.vstseg d a sc r v) s fun s =>
    let n := v.toNat + 1
    vectorStore s { d := d.toNat, f := n, idx := none, base := s.getS a, scaled := true,
                    addr2 := fun i f _ h => scaled2 (s.getS a) (i * n + f) h } sc r

/-! ## Scatter-add (R242) -/

/-- The contribution of an element at its page: operation, bytes, operand and whether it sets `xrange` (R239, R242). -/
def scaOp (float : Bool) (z : BitVec 2) (w1 v : Word) : AtomicOp × Nat × Word × Bool :=
  if leafFmt w1 = 6 then
    if float then
      let c := x64Contrib (if z = 2#2 then .fp32 else .fp64) v (leafQ w1)
      (.add, 8, c.1, c.2)
    else (.add, 8, v, false)
  else (if float then .fadd else .add, sewBits z / 8, v, false)

/-- Element i of the `vsca` under way, as a contribution (R390). -/
def scaContrib (s : State) (i : Nat) (va : Word) : Contrib :=
  { core := s.core.num, t := s.tnd, serial := s.vm.serial, elem := i, va := va, vsca := true, late := false }

/-- One element of a `vsca`, checked: its atomic, its place in the order, and whether it sets `xrange`. -/
structure Add where
  elem : Nat
  rank : Option Nat
  payload : Payload
  range : Bool

/-- The checks of one element of `vsca`, and its atomic, or how it stops; an integer add needs sew 64 on an x64 page
(R241, R242, R379). -/
def scaElem (s : State) (float : Bool) (i : Nat) (va v : Word) : Except (State → Out) Add :=
  let z := s.a.sew
  let o := scaOp float z (pageAttr s s.who va) v
  let need := if float || z == 3#2 then Need.none else .notX64
  if va.toNat % o.2.1 != 0 then .error (fun s => elemTrap s 5 0 2 i va)
  else
    match translate s s.who { Ask.atomic with need := need } va o.2.1 with
    | .error e => .error (fun s => elemTrap s e.cls e.code 2 i va)
    | .ok p =>
      if float && s.core.team.det && !isX64 p then .error (fun s => elemTrap s 8 0 0 i va)
      else if scratchCore? p.key == some s.core.num && guarded s (span p.key o.2.1) then
        .error (fun s => if s.core.team.og == 1#2 then s.stall .line else elemTrap s 10 0 2 i (lineBase va))
      else
        .ok { elem := i, rank := elemRank s (leafHshared p.w1) i
              payload := .atomic o.1 p.key o.2.1 o.2.2.1 [scaContrib s i va], range := o.2.2.2 }

/-- The elements of a group, all checked before any enters. -/
def scaElems (s : State) (float : Bool) (l : List (Nat × Word × Word)) : Except (State → Out) (List Add) :=
  l.mapM (fun p => scaElem s float p.1 p.2.1 p.2.2)

/-- The scale of the indices, from the page of s[a] (R242). -/
def scaScale (s : State) (a : Word) : Step Int :=
  match baseAttr s 2 a with
  | .error o => .error o
  | .ok w1 => .ok (if leafFmt w1 = 6 then 8 else (stripBytes s : Nat))

/-- Elements of data entries from group r on, as far as their entries are at hand, for the checks that a deterministic
team makes before any element performs (R379). -/
def scaItems (s : State) (q : QEntry) (b : Nat) (base : Word) (m : Int) (r : Nat) : Option (List (Nat × Word × Word)) :=
  let n := stripN s
  let c := stripC s
  let e := stripE s
  let hi := min (r * e + e) n
  let w := sewBits s.a.sew
  let is := (span (r * e) (hi - r * e)).filter (fun i => i % c < q.supply w)
  let xs := indices s b
  if xs.length < is.length then none
  else some ((is.zip xs).map (fun p => (p.1, base + BitVec.ofInt 64 (p.2 * m), getElem q.data w (p.1 % c))))

/-- The fault of s[a], which is one of element 0; a misaligned element 0 comes first where its entries are at hand (R242,
R379). -/
def scaBaseFault (s : State) (float : Bool) (d b : Nat) (a : Word) (m : Int) : Option Out :=
  match translate s s.who Ask.atomic a 1 with
  | .ok _ => none
  | .error e =>
    let t := freeIndices s (some b)
    match (if s.vm.restart = 0 then ((headOf t d).head?.bind (fun q => scaItems t q b a m 0)).bind List.head? else none) with
    | some (i, va, v) =>
      if va.toNat % (scaOp float s.a.sew (pageAttr s s.who va) v).2.1 != 0 then some (elemTrap s 5 0 2 i va)
      else some (elemTrap s e.cls e.code 2 0 a)
    | none => some (elemTrap s e.cls e.code 2 0 a)

/-- The atomics of elements that have passed their checks enter. -/
def scaEnter (s : State) (ps : List Add) : State :=
  (ps.foldl (fun s p => enterVec s p.elem p.rank p.payload) s).raiseRange (ps.any (·.range))

/-- A group of `vsca` is checked: its atomics enter, or in a deterministic team wait until every element has been checked
(R379); its indices and, with its last element, its data entry go. -/
def scaDone (s : State) (d b r : Nat) (items : List (Nat × Word × Word)) (ps : List Add) : State :=
  let n := stripN s
  let c := stripC s
  let s := if s.core.team.det then s.setVm { s.vm with sca := s.vm.sca ++ items } else scaEnter s ps
  let s := useIndices s b ps.length
  let s := s.setVm { s.vm with restart := r + 1 }
  let hi := min (r * stripE s + stripE s) n
  if hi == n || hi % c == 0 then popHead s d else s

/-- The end of `vsca`: the elements that waited for the checks of all pass theirs again, where the team may have moved
since, and enter (R242, R379). -/
def scaFinish (s : State) (float : Bool) (b : Nat) : Out :=
  match scaElems s float s.vm.sca with
  | .error o => o s
  | .ok ps => .next (((dropLeftover (scaEnter s ps) b).setVm VMem.idle).bump 4)

/-- Works through the data entries of `vsca`, at most k groups. -/
def scaGroups (float : Bool) (d b : Nat) (base : Word) (m : Int) : Nat → State → Out
  | 0, s => s.pause
  | k + 1, s =>
    let r := s.vm.restart
    if stripN s ≤ r * stripE s then scaFinish s float b
    else
      let s := freeIndices s (some b)
      match headOf s d with
      | [] => s.stall .queue
      | q :: _ =>
        match scaItems s q b base m r with
        | none => s.stall .queue
        | some items =>
          match scaElems s float items with
          | .error o => o s
          | .ok ps => scaGroups float d b base m k (scaDone s d b r items ps)

/-- How an element among those at hand stops a `vsca` of a deterministic team before any of them performs (R242, R379).
Those whose entries have not come yet are checked as they come, and until every element has been no element performs.
Marked DEDUCED: a head holds two entries, so that a longer strip gives up earlier ones before the last is checked; their
elements wait in the instruction's own record, across a trap and a pre-emption too. -/
def scaDry (float : Bool) (d b : Nat) (base : Word) (m : Int) : Nat → State → Option (State → Out)
  | 0, _ => none
  | k + 1, s =>
    let r := s.vm.restart
    if stripN s ≤ r * stripE s then none
    else
      let s := freeIndices s (some b)
      match headOf s d with
      | [] => none
      | q :: _ =>
        match scaItems s q b base m r with
        | none => none
        | some items =>
          match scaElems s float items with
          | .error o => some o
          | .ok ps => scaDry float d b base m k (scaDone s d b r items ps)

/-- `vsca` (R242). -/
def execVsca (d a b : Reg) (sc : BitVec 2) (r f v : Bit) (s : State) : Out :=
  issue true false (.vsca d a b sc r f v) s fun s =>
    if v.on && s.a.sew.toNat < 2 then s.illegal 7
    else
      let go := fun (s : State) =>
        if stripN s = 0 then s.done
        else
          let s := issueVec s
          match scaScale s (s.getS a) with
          | .error o => o
          | .ok m =>
            let fuel := ceilDiv (stripN s) (stripE s) + 1
            match scaBaseFault s v.on d.toNat b.toNat (s.getS a) m with
            | some o => o
            | none =>
            match (if s.core.team.det then scaDry v.on d.toNat b.toNat (s.getS a) m fuel s else none) with
            | some o => o s
            | none => scaGroups v.on d.toNat b.toNat (s.getS a) m (groupFuel s fuel) s
      if r.on && s.vm.serial == 0 then releaseThen s [s.vectorAgent] sc go else go s

/-! ## Full/empty lines (R161, R233) -/

/-- The lines that start at s[a], or the trap: misaligned, or a range that leaves the window or the
launch's part of it (R161, R336). Marked DESIGN CHOICE: R161 does not say whether `s[b]` = 0 completes before an unaligned
`s[a]`, or one outside the window, faults; it does, and `s[a]` is not checked. -/
def linesThen (s : State) (a n : Word) (acc : Nat) (k : State → List Nat → Out) : Out :=
  let off := a.toNat - windowBase
  if n = 0 then s.done
  else if a.toNat % 128 != 0 then s.badAccess 5 0 acc a
  else if a.toNat < windowBase || 0x800000 < off + 128 * n.toNat then s.badAccess 6 6 acc a
  else if s.core.team.spad * 0x10000 < off + 128 * n.toNat then s.badAccess 6 1 acc a
  else k s (span (off / 128) n.toNat)

/-- Reads that the vector agent executed early do not pass an instruction on their lines (R219, R233). -/
def dropLines (s : State) (ls : List Nat) : State :=
  dropEarly s s.core.num s.vectorAgent (ls.flatMap (fun l => span (scratchBase + s.core.num * 2 ^ 23 + 128 * l) 128))

/-- `lfe` (R161): variant 1 marks full, after a release when rel = 1. -/
def execLfe (a b : Reg) (sc : BitVec 2) (r : Bit) (v : BitVec 2) (s : State) : Out :=
  issue true false (.lfe a b sc r v) s fun s =>
    linesThen s (s.getS a) (s.getS b) 1 fun s ls =>
      let mark := fun (s : State) => (ls.foldl (fun s l => markLine s s.core.num l (v == 1#2)) (dropLines s ls)).done
      if r.on then releaseThen s [s.vectorAgent] sc mark else mark s

/-- `lwait` (R161): variant 1 waits for empty lines. -/
def execLwait (a b : Reg) (sc : BitVec 2) (q : Bit) (v : BitVec 2) (s : State) : Out :=
  issue true false (.lwait a b sc q v) s fun s =>
    linesThen s (s.getS a) (s.getS b) 0 fun s ls =>
      if ls.all (fun l => s.core.emptyLines.contains l == (v == 1#2)) then
        (if q.on then forgetEarly s s.core.num [s.vectorAgent] else dropLines s ls).done
      else s.stall .line

end Sys2Proof.Machine
end

