-- ==== Sys2Proof/Machine/Vector.lean ====
section
/-! DEFINITION. The element-wise model of the X-hart (R164 to R169), queue and register moves (R162), and the integer,
fixed-point and bit instructions (R170 to R178). -/

namespace Sys2Proof.Machine

/-! ## Formats of elements (R63, R168) -/

/-- Sew code that a format requires (R63). -/
def fmtSew (f : BitVec 4) : BitVec 2 :=
  match f.toNat with
  | 0 => 0
  | 1 => 0
  | 2 => 1
  | 3 => 1
  | 4 => 2
  | 5 => 2
  | 6 => 3
  | 7 => 3
  | 8 => 3
  | 9 => 2
  | 10 => 1
  | 11 => 1
  | _ => 0

/-- Integer formats, and the signed ones (R63). -/
def fmtInt (f : BitVec 4) : Bool := f.toNat < 8
def fmtSigned (f : BitVec 4) : Bool := f.toNat < 8 && !f.getLsbD 0

/-- Floating-point formats by code (R63). -/
def fmtFloat (f : BitVec 4) : Option Fmt :=
  match f.toNat with
  | 8 => some .fp64
  | 9 => some .fp32
  | 10 => some .bf16
  | 11 => some .fp16
  | 12 => some .e5m2
  | 13 => some .e4m3
  | 14 => some .e2m1
  | _ => none

/-- The set *fp* of R168: fp64, fp32, bf16 and fp16. -/
def fmtFp (f : BitVec 4) : Bool := 8 ≤ f.toNat && f.toNat ≤ 11

/-- The format, fp32 where the code is none of them. -/
def XHart.float (x : XHart) : Fmt := (fmtFloat x.fmt).getD .fp32

/-- The format matches the element width (R63). -/
def XHart.matched (x : XHart) : Bool := fmtSew x.fmt == x.sew && x.fmt != 15#4

/-! ## Check 7 (R58, R60, R165, R168) -/

/-- A register group: first register and count. -/
abbrev Group := Reg × Nat

/-- A group of at most 8 registers whose first is a multiple of the count (R58, R165). -/
def groupOk (g : Group) : Bool := g.2 ≤ 8 && g.1.toNat % max g.2 1 == 0

/-- Two groups share a register. -/
def overlap (g h : Group) : Bool := decide (g.1.toNat < h.1.toNat + h.2) && decide (h.1.toNat < g.1.toNat + g.2)

/-- Check 7: the accepted format, the groups, a mask with more than 2,048 elements, a whole-strip entry in the middle of
a strip, and groups that must not overlap. -/
def check7 (x : XHart) (fmt : Bool) (groups : List Group) (masks whole : Bool) (apart : List (Group × Group)) : Bool :=
  fmt && groups.all groupOk && !(masks && 2048 < x.vl.toNat) && !(whole && x.vstart != 0) &&
    apart.all (fun p => !overlap p.1 p.2)

/-- The X-hart's own checks before an instruction of layout V: checks 4, 6 and 7. -/
def issueV (i : Instr) (s : State) (ok : XHart → Bool) (body : State → Out) : Out :=
  issue false true i s fun s => if ok s.x then body s else s.illegal 7

/-- Registers of an operand of `m` times sew (R165). -/
def XHart.g (x : XHart) (m : Nat) : Nat := m * groupCount x.group
/-- Width of an element. -/
def XHart.w (x : XHart) : Nat := sewBits x.sew

/-- An execute mask or an exception mask is in use (R60). -/
def maskUsed (k : BitVec 3) (e : Bit) : Bool := k != 0#3 || e.on

/-! ## The element loop (R167) -/

/-- What one element gives: its value, the flags it raises, whether it saturated and whether it met an integer
exception. -/
structure ElemRes where
  v : Nat
  fl : Flags := 0
  sat : Bool := false
  exc : Bool := false

/-- The exception-mask bit of an element (R69, R167). -/
def ElemRes.bit (r : ElemRes) (xsel : BitVec 5) : Bool := r.exc || (r.fl &&& xsel) != 0

/-- State of the loop: the registers, the flags gathered and saturation. -/
structure Loop where
  x : XHart
  fl : Flags
  sat : Bool

/-- Elements [vstart, vl) of the strip, in ascending order. -/
def XHart.elems (x : XHart) : List Nat := span x.vstart.toNat (x.vl.toNat - x.vstart.toNat)

/-- One element: `wr` writes its result. -/
def elemStep (k : BitVec 3) (e : Bit) (kx : BitVec 3) (x0 : XHart) (op : Nat → ElemRes)
    (wr : XHart → Nat → Nat → XHart) (l : Loop) (i : Nat) : Loop :=
  if x0.active k i then
    let r := op i
    let x := wr l.x i r.v
    { x := if e.on then x.setMaskBit kx i (r.bit x0.xsel) else x, fl := l.fl ||| r.fl, sat := l.sat || r.sat }
  else { l with x := if e.on then l.x.setMaskBit kx i false else l.x }

def runElems (x0 : XHart) (k : BitVec 3) (e : Bit) (kx : BitVec 3) (op : Nat → ElemRes)
    (wr : XHart → Nat → Nat → XHart) : Loop :=
  x0.elems.foldl (elemStep k e kx x0 op wr) { x := x0, fl := 0, sat := false }

/-- Tail elements from `lo` on are zeroed when `vtype.tail` is 1; the tail rows of a two-dimensional strip never are
(R44, R62, R167). `c` elements of width w to a register, `g` registers. -/
def zeroTail (x : XHart) (c w d g lo : Nat) : XHart :=
  if x.tail && !x.two then (span lo (c * g - lo)).foldl (fun x i => x.putN c w d i 0) x else x

/-- Progress indices of a destination group after the instruction (R48). Marked DESIGN CHOICE: R48 does not say from where
the index of a later register of a group counts; each counts from its own first element. -/
def setProgress (x : XHart) (c d g n : Nat) : XHart :=
  (List.range g).foldl (fun x j =>
    { x with prog := x.prog.set ((d + j) % 32) (BitVec.ofNat 17 (min (n - j * c) c)) (Nat.mod_lt _ (by decide)) }) x

/-- After a vector instruction: flags, saturation, `ldst` and `vstart` (R66, R68, R70). -/
def closeVector (s : State) (l : Loop) (d : Reg) : State :=
  (((s.setX { l.x with vstart := 0 }).raise l.fl).raiseSat l.sat).setLdst 2 d

/-- An instruction that starts at or past `vl` writes nothing (R66). Marked DESIGN CHOICE: neither R48 nor R66 says whether
it sets the progress index of its destination; it leaves the index as it was. -/
def nothingToDo (s : State) : State := s.setX { s.x with vstart := 0 }

/-- An element-wise instruction into a group of vector registers of width w. Every element's sources are as they stood before
the first element that this run takes, of the instruction or of one element group (R51). Marked DESIGN CHOICE for a
destination register that also lies within a source group of another count, where the loop of R167 could be read to let later
elements see it. -/
def vectorOp (s : State) (d : Reg) (g w : Nat) (k : BitVec 3) (e : Bit) (kx : BitVec 3)
    (op : Nat → ElemRes) : State :=
  let x := s.x
  if x.vl ≤ x.vstart then nothingToDo s
  else
    let c := s.perWidth w
    let l := runElems x k e kx op (fun x i v => x.putN c w d.toNat i v)
    let y := setProgress (zeroTail l.x c w d.toNat g x.vl.toNat) c d.toNat g x.vl.toNat
    closeVector s { l with x := y } d

/-- An element-wise instruction into a mask register; it writes no vector register, so `ldst` stays (R70). -/
def maskOp (s : State) (d : BitVec 3) (k : BitVec 3) (e : Bit) (kx : BitVec 3) (op : Nat → ElemRes) : State :=
  let x := s.x
  if x.vl ≤ x.vstart then nothingToDo s
  else
    let l := runElems x k e kx op (fun x i v => x.setMaskBit d i (v != 0))
    (s.setX { l.x with vstart := 0 }).raise l.fl

/-! ## Operands (R166) -/

/-- Element i of a group at sew. -/
def vElem (s : State) (r : Reg) (i : Nat) : Word := s.x.elem (s.perWidth s.x.w) s.x.w r.toNat i

/-- The b operand of an integer entry by its variant (R166). -/
def bInt (s : State) (v : BitVec 2) (b : Reg) (i : Nat) : Word :=
  match v.toNat with
  | 0 => vElem s b i
  | 1 => BitVec.ofNat 64 ((s.getS b).toNat % 2 ^ s.x.w)
  | _ => toElem s.x.w b.toInt

/-- The b operand of a shift entry: the immediate is unsigned. -/
def bShift (s : State) (v : BitVec 2) (b : Reg) (i : Nat) : Word :=
  if v.toNat < 2 then bInt s v b i else b.setWidth 64

/-- The b operand of a floating-point entry: vb for an even variant, f[b] for an odd one. -/
def bFloat (s : State) (v : BitVec 2) (b : Reg) (i : Nat) : Word :=
  if v.getLsbD 0 then BitVec.ofNat 64 ((s.getF b).toNat % 2 ^ s.x.w) else vElem s b i

/-- Value of an element by the signedness of `fmt` (R170). -/
def fmtVal (x : XHart) (v : Word) : Int := if fmtSigned x.fmt then signedElem x.w v else (v.toNat : Int)

/-- An integer as an element of sew bits. -/
def fit (w : Nat) (v : Int) : Nat := (toElem w v).toNat

/-! ## Moves (R162) -/

/-- A stop of `vpop` before element `lo`: `vstart` and the progress indices stand there (R48, R162). -/
def stopPop (s : State) (d : Reg) (lo : Nat) : State :=
  s.setX { setProgress s.x (s.perReg s.x.sew) d.toNat (s.x.g 1) lo with vstart := BitVec.ofNat 17 lo }

/-- The loop of `vpop` over at most f entries from m on: elements an entry does not supply are zero. -/
def popEntries (d a : Reg) (k : BitVec 3) : Nat → Nat → State → Out
  | 0, m, s => .next (stopPop s d (m * s.perReg s.x.sew))
  | f + 1, m, s =>
    let x := s.x
    let c := s.perReg x.sew
    let lo := max (m * c) x.vstart.toNat
    let hi := min ((m + 1) * c) x.vl.toNat
    if x.vl.toNat ≤ m * c then
      let y := setProgress (zeroTail x c x.w d.toNat (x.g 1) x.vl.toNat) c d.toNat (x.g 1) x.vl.toNat
      (closeVector s { x := y, fl := 0, sat := false } d).done
    else
      match readyHead s a.toNat with
      | [] => (stopPop s d lo).stall .queue
      | q :: _ =>
        let y := (span lo (hi - lo)).foldl (fun y i =>
          if x.active k i then
            y.putN c x.w d.toNat i (if i % c < q.supply x.w then getElemN q.data x.w (i % c) else 0)
          else y) x
        popEntries d a k f (m + 1) (popHead (s.setX y) a.toNat)

/-- `vpop` (R162). -/
def execVpop (d a : Reg) (k : BitVec 3) (s : State) : Out :=
  issueV (.vpop d a k) s (fun x => check7 x true [(d, x.g 1)] (k != 0#3) false []) fun s =>
    let x := s.x
    let c := s.perReg x.sew
    if x.vl ≤ x.vstart then (nothingToDo s).done
    else popEntries d a k (ceilDiv x.vl.toNat c + 1) (x.vstart.toNat / max c 1) s

/-- The loop of `vpush` over at most f entries from m on: the active elements of each, in ascending order. -/
def pushEntries (d a : Reg) (k : BitVec 3) : Nat → Nat → State → Out
  | 0, m, s => .next (s.setX { s.x with vstart := BitVec.ofNat 17 (m * s.perReg s.x.sew) })
  | f + 1, m, s =>
    let x := s.x
    let c := s.perReg x.sew
    let lo := max (m * c) x.vstart.toNat
    let hi := min ((m + 1) * c) x.vl.toNat
    if x.vl.toNat ≤ m * c then (s.setX { x with vstart := 0 }).done
    else if headFull s d.toNat then (s.setX { x with vstart := BitVec.ofNat 17 lo }).stall .queue
    else
      let act := (span lo (hi - lo)).filter (x.active k)
      let data := (act.zipIdx).foldl (fun r p => setElemN r x.w p.2 (x.elemN c x.w a.toNat p.1)) 0
      pushEntries d a k f (m + 1)
        (pushHead s d.toNat { data := data, count := BitVec.ofNat 17 act.length, sew := x.sew, fill := false })

/-- `vpush` (R162). -/
def execVpush (d a : Reg) (k : BitVec 3) (s : State) : Out :=
  issueV (.vpush d a k) s (fun x => check7 x true [(a, x.g 1)] (k != 0#3) false []) fun s =>
    let x := s.x
    let c := s.perReg x.sew
    if x.vl ≤ x.vstart then (nothingToDo s).done
    else pushEntries d a k (ceilDiv x.vl.toNat c + 1) (x.vstart.toNat / max c 1) s

/-- Element i of `vmv.d`: the sweep, zero and an exception outside the source group (R149). -/
def sweepElem (s : State) (a : Reg) (i : Nat) : ElemRes :=
  let x := s.x
  let j := x.sweep i
  if 0 ≤ j && j < (s.perWidth x.w * x.g 1 : Nat) then { v := (vElem s a j.toNat).toNat } else { v := 0, exc := true }

/-- `vmv` (R162); it is shared with `k.vmv` (R114). -/
def moveVector (d a : Reg) (k : BitVec 3) (e : Bit) (kx : BitVec 3) (sweep : Bool) (s : State) : State :=
  vectorOp s d (s.x.g 1) s.x.w k e kx (fun i => if sweep then sweepElem s a i else { v := (vElem s a i).toNat })

/-- Check 7 of `vmv`. -/
def moveOk (d a : Reg) (k : BitVec 3) (e : Bit) (sweep : Bool) (x : XHart) : Bool :=
  check7 x true [(d, x.g 1), (a, x.g 1)] (maskUsed k e) (sweep && overlap (d, x.g 1) (a, x.g 1)) []

/-- `vmv` (R162). -/
def execVmv (d a : Reg) (k : BitVec 3) (e : Bit) (kx : BitVec 3) (v : BitVec 2) (s : State) : Out :=
  issueV (.vmv d a k e kx v) s (moveOk d a k e (v == 1#2)) fun s => (moveVector d a k e kx (v == 1#2) s).done

/-- `vsplat` (R162). -/
def execVsplat (d a : Reg) (k : BitVec 3) (v : BitVec 2) (s : State) : Out :=
  issueV (.vsplat d a k v) s (fun x => check7 x true [(d, x.g 1)] (k != 0#3) false []) fun s =>
    (vectorOp s d (s.x.g 1) s.x.w k 0 0 (fun _ => { v := (if v = 1#2 then s.getF a else s.getS a).toNat })).done

/-! ## Integer and bit operations (R170, R171) -/

/-- Registers of the operands of a binary entry: vb counts only in variant 0. -/
def binGroups (x : XHart) (d a b : Reg) (v : BitVec 2) : List Group :=
  [(d, x.g 1), (a, x.g 1)] ++ (if v = 0#2 then [(b, x.g 1)] else [])

/-- Check 7 of an integer entry, and of one that accepts any format. -/
def intOk (d a b : Reg) (k : BitVec 3) (e : Bit) (v : BitVec 2) (x : XHart) : Bool :=
  check7 x (fmtInt x.fmt && x.matched) (binGroups x d a b v) (maskUsed k e) false []
def anyOk (d a b : Reg) (k : BitVec 3) (v : BitVec 2) (x : XHart) : Bool :=
  check7 x x.matched (binGroups x d a b v) (k != 0#3) false []

/-- vd[i] := f (va[i], b), both read by the signedness of `fmt`. -/
def binInt (f : Nat → Int → Int → ElemRes) (d a b : Reg) (k : BitVec 3) (e : Bit) (kx : BitVec 3) (v : BitVec 2)
    (s : State) : State :=
  let x := s.x
  vectorOp s d (x.g 1) x.w k e kx (fun i => f x.w (fmtVal x (vElem s a i)) (fmtVal x (bInt s v b i)))

/-- vd[i] := f (va[i], b) on bits; shifts take the amount unsigned, modulo sew. -/
def binBits (f : Nat → Nat → Nat → Nat) (shift : Bool) (d a b : Reg) (k : BitVec 3) (v : BitVec 2) (s : State) : State :=
  let x := s.x
  vectorOp s d (x.g 1) x.w k 0 0 (fun i =>
    { v := f x.w (vElem s a i).toNat (if shift then (bShift s v b i).toNat % x.w else (bInt s v b i).toNat) })

/-- A saturated result (R85, R170). -/
def satRes (signed : Bool) (w : Nat) (v : Int) : ElemRes :=
  { v := (BitVec.ofInt w (sat signed w v)).toNat, sat := sat signed w v != v }

/-- Quotient and remainder of one element, with the exception of R171. -/
def divRes (signed remainder : Bool) (w : Nat) (a b : Int) : ElemRes :=
  let p := BitVec.ofInt w a
  let q := BitVec.ofInt w b
  { v := (if remainder then remnd signed p q else quot signed p q).toNat, exc := divEdge signed p q }

/-- Arithmetic shift right of a w-bit value. -/
def sraBits (w a n : Nat) : Nat := ((BitVec.ofNat w a).sshiftRight n).toNat

/-- `vadd` (R170). -/
def execVadd (d a b : Reg) (k : BitVec 3) (v : BitVec 2) (s : State) : Out :=
  issueV (.vadd d a b k v) s (intOk d a b k 0 v) fun s =>
    (binInt (fun w a b => { v := fit w (a + b) }) d a b k 0 0 v s).done

/-- `vsub` (R170). -/
def execVsub (d a b : Reg) (k : BitVec 3) (v : BitVec 2) (s : State) : Out :=
  issueV (.vsub d a b k v) s (intOk d a b k 0 v) fun s =>
    (binInt (fun w a b => { v := fit w (a - b) }) d a b k 0 0 v s).done

/-- `vsadd` (R170). -/
def execVsadd (d a b : Reg) (k : BitVec 3) (v : BitVec 2) (s : State) : Out :=
  issueV (.vsadd d a b k v) s (intOk d a b k 0 v) fun s =>
    (binInt (fun w a b => satRes (fmtSigned s.x.fmt) w (a + b)) d a b k 0 0 v s).done

/-- `vssub` (R170). -/
def execVssub (d a b : Reg) (k : BitVec 3) (v : BitVec 2) (s : State) : Out :=
  issueV (.vssub d a b k v) s (intOk d a b k 0 v) fun s =>
    (binInt (fun w a b => satRes (fmtSigned s.x.fmt) w (a - b)) d a b k 0 0 v s).done

/-- `vmul` (R170). -/
def execVmul (d a b : Reg) (k : BitVec 3) (v : BitVec 2) (s : State) : Out :=
  issueV (.vmul d a b k v) s (intOk d a b k 0 v) fun s =>
    (binInt (fun w a b => { v := fit w (a * b) }) d a b k 0 0 v s).done

/-- `vmulh` (R170). -/
def execVmulh (d a b : Reg) (k : BitVec 3) (v : BitVec 2) (s : State) : Out :=
  issueV (.vmulh d a b k v) s (intOk d a b k 0 v) fun s =>
    (binInt (fun w a b => { v := fit w (a * b / 2 ^ w) }) d a b k 0 0 v s).done

/-- `vmin` (R170). -/
def execVmin (d a b : Reg) (k : BitVec 3) (v : BitVec 2) (s : State) : Out :=
  issueV (.vmin d a b k v) s (intOk d a b k 0 v) fun s =>
    (binInt (fun w a b => { v := fit w (min a b) }) d a b k 0 0 v s).done

/-- `vmax` (R170). -/
def execVmax (d a b : Reg) (k : BitVec 3) (v : BitVec 2) (s : State) : Out :=
  issueV (.vmax d a b k v) s (intOk d a b k 0 v) fun s =>
    (binInt (fun w a b => { v := fit w (max a b) }) d a b k 0 0 v s).done

/-- `vdiv` (R170, R171). -/
def execVdiv (d a b : Reg) (k : BitVec 3) (e : Bit) (kx : BitVec 3) (v : BitVec 2) (s : State) : Out :=
  issueV (.vdiv d a b k e kx v) s (intOk d a b k e v) fun s =>
    (binInt (divRes (fmtSigned s.x.fmt) false) d a b k e kx v s).done

/-- `vrem` (R170, R171). -/
def execVrem (d a b : Reg) (k : BitVec 3) (e : Bit) (kx : BitVec 3) (v : BitVec 2) (s : State) : Out :=
  issueV (.vrem d a b k e kx v) s (intOk d a b k e v) fun s =>
    (binInt (divRes (fmtSigned s.x.fmt) true) d a b k e kx v s).done

/-- `vand` (R170). -/
def execVand (d a b : Reg) (k : BitVec 3) (v : BitVec 2) (s : State) : Out :=
  issueV (.vand d a b k v) s (anyOk d a b k v) fun s =>
    (binBits (fun _ a b => a &&& b) false d a b k v s).done

/-- `vor` (R170). -/
def execVor (d a b : Reg) (k : BitVec 3) (v : BitVec 2) (s : State) : Out :=
  issueV (.vor d a b k v) s (anyOk d a b k v) fun s =>
    (binBits (fun _ a b => a ||| b) false d a b k v s).done

/-- `vxor` (R170). -/
def execVxor (d a b : Reg) (k : BitVec 3) (v : BitVec 2) (s : State) : Out :=
  issueV (.vxor d a b k v) s (anyOk d a b k v) fun s =>
    (binBits (fun _ a b => a ^^^ b) false d a b k v s).done

/-- `vsll` (R170). -/
def execVsll (d a b : Reg) (k : BitVec 3) (v : BitVec 2) (s : State) : Out :=
  issueV (.vsll d a b k v) s (anyOk d a b k v) fun s =>
    (binBits (fun _ a b => a <<< b) true d a b k v s).done

/-- `vsrl` (R170). -/
def execVsrl (d a b : Reg) (k : BitVec 3) (v : BitVec 2) (s : State) : Out :=
  issueV (.vsrl d a b k v) s (anyOk d a b k v) fun s =>
    (binBits (fun _ a b => a >>> b) true d a b k v s).done

/-- `vsra` (R170). -/
def execVsra (d a b : Reg) (k : BitVec 3) (v : BitVec 2) (s : State) : Out :=
  issueV (.vsra d a b k v) s (anyOk d a b k v) fun s =>
    (binBits (sraBits) true d a b k v s).done

/-- The low three bits of a field that names a mask register. -/
def maskOf (r : Reg) : BitVec 3 := r.extractLsb' 0 3

/-- `vcmp` (R172). -/
def execVcmp (d a b : Reg) (k : BitVec 3) (p : BitVec 2) (s : State) : Out :=
  issueV (.vcmp d a b k p) s
    (fun x => check7 x (fmtInt x.fmt && x.matched) [(a, x.g 1), (b, x.g 1)] true false []) fun s =>
    (maskOp s (maskOf d) k 0 0 (fun i =>
      let u := fmtVal s.x (vElem s a i)
      let w := fmtVal s.x (vElem s b i)
      let r := match p.toNat with
        | 0 => u == w
        | 1 => u != w
        | 2 => decide (u < w)
        | _ => decide (u ≤ w)
      { v := if r then 1 else 0 })).done

/-- `vsel` (R173): the selector is no execute mask, and every element is written. -/
def execVsel (d a b : Reg) (n : BitVec 3) (v : BitVec 2) (s : State) : Out :=
  issueV (.vsel d a b n v) s (anyOk d a b n v) fun s =>
    (vectorOp s d (s.x.g 1) s.x.w 0 0 0 (fun i =>
      { v := (if s.x.active n i then vElem s a i else bInt s v b i).toNat })).done

/-- Elements of the strip that are active and set in a mask register (R174). -/
def maskHits (x : XHart) (a : BitVec 3) (k : BitVec 3) : List Nat :=
  (List.range x.vl.toNat).filter (fun i => x.active k i && x.maskBit a i)

/-- `vpopc` (R174). -/
def execVpopc (d a : Reg) (k : BitVec 3) (v : BitVec 2) (s : State) : Out :=
  issueV (.vpopc d a k v) s (fun x =>
      if v = 1#2 then check7 x x.matched [(d, x.g 1), (a, x.g 1)] (k != 0#3) false []
      else check7 x x.matched [] true true []) fun s =>
    match v.toNat with
    | 1 => (vectorOp s d (s.x.g 1) s.x.w k 0 0 (fun i => { v := popCount s.x.w (vElem s a i).toNat })).done
    | 0 => ((nothingToDo s).setS d (BitVec.ofNat 64 (maskHits s.x (maskOf a) k).length)).done
    | _ =>
      ((nothingToDo s).setS d (match maskHits s.x (maskOf a) k with
        | [] => BitVec.allOnes 64
        | i :: _ => BitVec.ofNat 64 i)).done

/-- `vmlog` (R174). -/
def execVmlog (d a b : Reg) (k : BitVec 3) (v : BitVec 2) (s : State) : Out :=
  issueV (.vmlog d a b k v) s (fun x => check7 x x.matched [] true false []) fun s =>
    (maskOp s (maskOf d) k 0 0 (fun i =>
      let p := s.x.maskBit (maskOf a) i
      let q := s.x.maskBit (maskOf b) i
      let r := match v.toNat with
        | 0 => p && q
        | 1 => p || q
        | 2 => p != q
        | _ => p && !q
      { v := if r then 1 else 0 })).done

/-! ## Fixed point (R175, R176) -/

/-- Value of a w-bit number by signedness. -/
def valueAt (signed : Bool) (w n : Nat) : Int := if signed then (BitVec.ofNat w n).toInt else (n : Int)

/-- `vwmac` (R175): variant [1] the widening, [0] the b operand. -/
def execVwmac (d a b : Reg) (k : BitVec 3) (v : BitVec 2) (s : State) : Out :=
  let m := if v.getLsbD 1 then 4 else 2
  issueV (.vwmac d a b k v) s (fun x =>
      let bs : List Group := if v.getLsbD 0 then [] else [(b, x.g 1)]
      check7 x (fmtInt x.fmt && x.matched) ([(d, x.g m), (a, x.g 1)] ++ bs) (k != 0#3) false
        (((d, x.g m), (a, x.g 1)) :: bs.map (fun g => ((d, x.g m), g)))) fun s =>
    let x := s.x
    let ww := m * x.w
    let sg := fmtSigned x.fmt
    (vectorOp s d (x.g m) ww k 0 0 (fun i =>
      let p := fmtVal x (vElem s a i) * fmtVal x (bInt s (if v.getLsbD 0 then 1#2 else 0#2) b i)
      satRes sg ww (valueAt sg ww (x.elemN (s.perWidth ww) ww d.toNat i) + p))).done

/-- `vnsr` (R176): variant [1] the source, [0] the shift. -/
def execVnsr (d a b : Reg) (k : BitVec 3) (v : BitVec 2) (s : State) : Out :=
  let m := if v.getLsbD 1 then 4 else 2
  issueV (.vnsr d a b k v) s (fun x =>
      let bs : List Group := if v.getLsbD 0 then [] else [(b, x.g 1)]
      check7 x (fmtInt x.fmt && x.matched) ([(d, x.g 1), (a, x.g m)] ++ bs) (k != 0#3) false
        (((d, x.g 1), (a, x.g m)) :: bs.map (fun g => ((a, x.g m), g)))) fun s =>
    let x := s.x
    let ww := m * x.w
    let sg := fmtSigned x.fmt
    (vectorOp s d (x.g 1) x.w k 0 0 (fun i =>
      let n := (if v.getLsbD 0 then b.toNat else (vElem s b i).toNat) % ww
      satRes sg x.w (fixedRound (valueAt sg ww (x.elemN (s.perWidth ww) ww a.toNat i)) n x.vxrm))).done

/-! ## Bits for clause models (R177, R178) -/

/-- va[i] > t, compared exactly (R177): variant 1 takes s[b], or f[b] as fp32. -/
def aboveThreshold (s : State) (a b : Reg) (v : BitVec 2) (i : Nat) : Bool :=
  let x := s.x
  match fmtFloat x.fmt with
  | some f =>
    let t := if v = 1#2 then Fmt.fp32.unpack (s.getF b) else f.unpack (vElem s b i)
    t.lt (f.unpack (vElem s a i))
  | none =>
    let t := if v = 1#2 then BitVec.ofNat 64 ((s.getS b).toNat % 2 ^ x.w) else vElem s b i
    decide (fmtVal x t < fmtVal x (vElem s a i))

/-- `vthrb` (R177): vd is one register, of which bytes [0, ⌈vl / 8⌉) are written. Marked DESIGN CHOICE: R177 names no flag
and does not say whether its comparison is an arithmetic operation in the sense of R82; a signalling NaN raises no `nv`. -/
def execVthrb (d a b : Reg) (k : BitVec 3) (v : BitVec 2) (s : State) : Out :=
  issueV (.vthrb d a b k v) s (fun x =>
      check7 x (x.matched && x.fmt != 14#4) ([(a, x.g 1)] ++ (if v = 0#2 then [(b, x.g 1)] else [])) (k != 0#3) false
        []) fun s =>
    let x := s.x
    if x.vl ≤ x.vstart then (nothingToDo s).done
    else
      let n := 8 * ceilDiv x.vl.toNat 8
      let r := (span x.vstart.toNat (n - x.vstart.toNat)).foldl (fun r i =>
        setElemN r 1 i (if i < x.vl.toNat && x.active k i && aboveThreshold s a b v i then 1 else 0)) (x.reg d.toNat)
      let y := setProgress (x.setReg d.toNat r) x.vl.toNat d.toNat 1 x.vl.toNat
      (closeVector s { x := y, fl := 0, sat := false } d).done

/-- Bit i of plane p of a group read as one byte string, planes P bytes apart (R178). -/
def planeBit (x : XHart) (c a pitch p i : Nat) : Bool := (x.elemN c 8 a (p * pitch + i / 8)).testBit (i % 8)

/-- `vbtr` (R178). -/
def execVbtr (d a : Reg) (v : BitVec 2) (s : State) : Out :=
  issueV (.vbtr d a v) s (fun x =>
      check7 x x.matched [(d, x.g 1), (a, x.g 1)] false true [((d, x.g 1), (a, x.g 1))]) fun s =>
    let x := s.x
    let n := x.vl.toNat
    let c := s.perWidth 8
    let pitch := 16 * ceilDiv n 128
    if n = 0 then (nothingToDo s).done
    else if v = 1#2 then
      (vectorOp s d (x.g 1) x.w 0 0 0 (fun i =>
        { v := (List.range x.w).foldl (fun t p => if planeBit x c a.toNat pitch p i then t + 2 ^ p else t) 0 })).done
    else
      let y := (List.range (x.w * pitch)).foldl (fun y o =>
        let p := o / pitch
        let byte := (List.range 8).foldl (fun t j =>
          let i := o % pitch * 8 + j
          if i < n && (vElem s a i).getLsbD p then t + 2 ^ j else t) 0
        y.putN c 8 d.toNat o byte) x
      let y := if x.tail then
          (span (x.w * pitch) (c * x.g 1 - x.w * pitch)).foldl (fun y o => y.putN c 8 d.toNat o 0) y
        else y
      let y := setProgress y (s.perWidth x.w) d.toNat (x.g 1) n
      (closeVector s { x := y, fl := 0, sat := false } d).done

end Sys2Proof.Machine
end

