-- ==== Sys2Proof/Machine/VecFloat.lean ====
section
/-! DEFINITION. Vector floating point and conversion (R179 to R186). -/

namespace Sys2Proof.Machine

/-- An element result from a value and its flags. -/
def fpRes (r : Word × Flags) : ElemRes := { v := r.1.toNat, fl := r.2 }

/-- Check 7 of a floating-point entry: vb counts in even variants. -/
def fpOk (d a b : Reg) (k : BitVec 3) (e : Bit) (v : BitVec 2) (x : XHart) : Bool :=
  check7 x (fmtFp x.fmt && x.matched) ([(d, x.g 1), (a, x.g 1)] ++ (if v.getLsbD 0 then [] else [(b, x.g 1)]))
    (maskUsed k e) false []

/-- vd[i] := f (va[i], b, vd[i]). -/
def binFloat (f : Fmt → Rnd → Word → Word → Word → Word × Flags) (d a b : Reg) (k : BitVec 3) (e : Bit) (kx : BitVec 3)
    (v : BitVec 2) (s : State) : State :=
  vectorOp s d (s.x.g 1) s.x.w k e kx (fun i =>
    fpRes (f s.x.float (Rnd.ofFrm s.x.h.frm) (vElem s a i) (bFloat s v b i) (vElem s d i)))

/-- `vfadd` (R179). -/
def execVfadd (d a b : Reg) (k : BitVec 3) (e : Bit) (kx : BitVec 3) (v : BitVec 2) (s : State) : Out :=
  issueV (.vfadd d a b k e kx v) s (fpOk d a b k e v) fun s =>
    (binFloat (fun f r a b _ => fpAdd f r a b) d a b k e kx v s).done

/-- `vfsub` (R179). -/
def execVfsub (d a b : Reg) (k : BitVec 3) (e : Bit) (kx : BitVec 3) (v : BitVec 2) (s : State) : Out :=
  issueV (.vfsub d a b k e kx v) s (fpOk d a b k e v) fun s =>
    (binFloat (fun f r a b _ => fpSub f r a b) d a b k e kx v s).done

/-- `vfmul` (R179). -/
def execVfmul (d a b : Reg) (k : BitVec 3) (e : Bit) (kx : BitVec 3) (v : BitVec 2) (s : State) : Out :=
  issueV (.vfmul d a b k e kx v) s (fpOk d a b k e v) fun s =>
    (binFloat (fun f r a b _ => fpMul f r a b) d a b k e kx v s).done

/-- `vfdiv` (R179). -/
def execVfdiv (d a b : Reg) (k : BitVec 3) (e : Bit) (kx : BitVec 3) (v : BitVec 2) (s : State) : Out :=
  issueV (.vfdiv d a b k e kx v) s (fpOk d a b k e v) fun s =>
    (binFloat (fun f r a b _ => fpDiv f r a b) d a b k e kx v s).done

/-- `vfma` (R179). -/
def execVfma (d a b : Reg) (k : BitVec 3) (e : Bit) (kx : BitVec 3) (v : BitVec 2) (s : State) : Out :=
  issueV (.vfma d a b k e kx v) s (fpOk d a b k e v) fun s =>
    (binFloat (fun f r a b c => fpFma f r a b c (v.getLsbD 1)) d a b k e kx v s).done

/-- `vfmin` (R179). -/
def execVfmin (d a b : Reg) (k : BitVec 3) (e : Bit) (kx : BitVec 3) (v : BitVec 2) (s : State) : Out :=
  issueV (.vfmin d a b k e kx v) s (fpOk d a b k e v) fun s =>
    (binFloat (fun f _ a b _ => fpMinMax f false a b) d a b k e kx v s).done

/-- `vfmax` (R179). -/
def execVfmax (d a b : Reg) (k : BitVec 3) (e : Bit) (kx : BitVec 3) (v : BitVec 2) (s : State) : Out :=
  issueV (.vfmax d a b k e kx v) s (fpOk d a b k e v) fun s =>
    (binFloat (fun f _ a b _ => fpMinMax f true a b) d a b k e kx v s).done

/-- `vfcmp` (R180). -/
def execVfcmp (d a b : Reg) (k : BitVec 3) (e : Bit) (kx : BitVec 3) (p : BitVec 2) (s : State) : Out :=
  issueV (.vfcmp d a b k e kx p) s (fun x =>
      check7 x (fmtFp x.fmt && x.matched) [(a, x.g 1), (b, x.g 1)] true false []) fun s =>
    (maskOp s (maskOf d) k e kx (fun i =>
      let r := fpCompare s.x.float p (vElem s a i) (vElem s b i)
      { v := if r.1 then 1 else 0, fl := r.2 })).done

/-- The function of `vfsfu` (R181). -/
def sfuOf (b : Reg) : Sfu :=
  match b.toNat with
  | 0 => .sqrt
  | 1 => .rcp
  | 2 => .rsqrt
  | 3 => .exp2
  | _ => .log2

/-- `vfsfu` (R181). -/
def execVfsfu (d a b : Reg) (k : BitVec 3) (e : Bit) (kx : BitVec 3) (s : State) : Out :=
  issueV (.vfsfu d a b k e kx) s (fun x =>
      check7 x (x.fmt == 9#4 && x.matched) [(d, x.g 1), (a, x.g 1)] (maskUsed k e) false []) fun s =>
    (vectorOp s d (s.x.g 1) s.x.w k e kx (fun i => fpRes (sfu (sfuOf b) (vElem s a i)))).done

/-! ## Signs and classes (R182) -/

/-- The sign bit of va replaced, for one w-bit value: 0 copies, 1 inverts, 2 multiplies (R182). -/
def signOp (w : Nat) (v : BitVec 2) (a b : Nat) : Nat :=
  let sb := b.testBit (w - 1)
  let s := match v.toNat with
    | 0 => sb
    | 1 => !sb
    | _ => a.testBit (w - 1) != sb
  a % 2 ^ (w - 1) + (if s then 2 ^ (w - 1) else 0)

/-- One element of `vfsgn`; the two nibbles of an e2m1 slot have their own signs. -/
def signElem (x : XHart) (v : BitVec 2) (p q : Nat) : Nat :=
  if x.fmt = 14#4 then signOp 4 v (p % 16) (q % 16) + 16 * signOp 4 v (p / 16) (q / 16) else signOp x.w v p q

/-- `vfsgn` (R182): replaces sign bits. -/
def execVfsgn (d a b : Reg) (k : BitVec 3) (v : BitVec 2) (s : State) : Out :=
  issueV (.vfsgn d a b k v) s (fun x =>
      check7 x (!fmtInt x.fmt && x.matched) [(d, x.g 1), (a, x.g 1), (b, x.g 1)] (k != 0#3) false []) fun s =>
    (vectorOp s d (s.x.g 1) s.x.w k 0 0 (fun i =>
      { v := signElem s.x v (vElem s a i).toNat (vElem s b i).toNat })).done

/-- The number of the class of a value (R138, R182). -/
def classNumber (f : Fmt) (w : Word) : Nat := trailingZeros 10 (classMask f w).toNat

/-- `vfcls` (R182). -/
def execVfcls (d a : Reg) (k : BitVec 3) (s : State) : Out :=
  issueV (.vfcls d a k) s (fun x =>
      check7 x (!fmtInt x.fmt && x.fmt != 14#4 && x.matched) [(d, x.g 1), (a, x.g 1)] (k != 0#3) false []) fun s =>
    (vectorOp s d (s.x.g 1) s.x.w k 0 0 (fun i => { v := classNumber s.x.float (vElem s a i) })).done

/-! ## Conversions (R183, R184) -/

/-- The pairings that `vfcvt` accepts (R183). -/
def cvtPair (f t : BitVec 4) : Bool :=
  fmtSew f == fmtSew t && f.toNat < 14 && t.toNat < 14 &&
  (fmtInt f != fmtInt t || (f == 10#4 && t == 11#4) || (f == 11#4 && t == 10#4) || (f == 12#4 && t == 13#4) ||
    (f == 13#4 && t == 12#4))

/-- One element from format f to format t (R83, R86, R137, R183). -/
def cvtElem (x : XHart) (t : BitVec 4) (r : Rnd) (v : Word) : ElemRes :=
  match fmtFloat t with
  | some tf =>
    match fmtFloat x.fmt with
    | some ff => fpRes (fpConvert ff tf r v)
    | none => fpRes (intToFp tf r (fmtVal x v))
  | none =>
    let o := fpToInt x.float r (fmtSigned t) x.w v
    { v := fit x.w o.1, fl := o.2 }

/-- `vfcvt` (R183): variant 0 rounds under `frm`, 1 toward zero. -/
def execVfcvt (d a : Reg) (t : BitVec 4) (k : BitVec 3) (e : Bit) (kx : BitVec 3) (v : BitVec 2) (s : State) : Out :=
  issueV (.vfcvt d a t k e kx v) s (fun x =>
      check7 x (cvtPair x.fmt t && x.matched) [(d, x.g 1), (a, x.g 1)] (maskUsed k e) false []) fun s =>
    (vectorOp s d (s.x.g 1) s.x.w k e kx (fun i =>
      cvtElem s.x t (if v = 0#2 then Rnd.ofFrm s.x.h.frm else .rtz) (vElem s a i))).done

/-- A draw value: element j of a group viewed at sew 16 (R184, R185). -/
def drawValue (s : State) (b : Reg) (j : Nat) : BitVec 16 := BitVec.ofNat 16 (s.x.elemN (s.perWidth 16) 16 b.toNat j)

/-- The rounding of `vfnar` and `vfq4`: under `frm`, or stochastic with draw value j. -/
def narrowRnd (s : State) (sr : Bool) (b : Reg) (j : Nat) : Rnd :=
  if sr then .sr (drawValue s b j) else Rnd.ofFrm s.x.h.frm

/-- Source format of `vfnar` by its destination format (R184). -/
def narrowSource (f : BitVec 4) (bf : Bool) : Fmt :=
  match f.toNat with
  | 9 => .fp64
  | 10 => .fp32
  | 11 => .fp32
  | _ => if bf then .bf16 else .fp16

/-- Registers of the draw values: (16 / sew) x g (R184). -/
def drawGroup (x : XHart) : Nat := max (16 * x.g 1 / x.w) 1

/-- `vfnar` (R184): variant [1] a bf16 source, [0] stochastic rounding. -/
def execVfnar (d a b : Reg) (k : BitVec 3) (e : Bit) (kx : BitVec 3) (v : BitVec 2) (s : State) : Out :=
  let sr := v.getLsbD 0
  issueV (.vfnar d a b k e kx v) s (fun x =>
      let bs : List Group := if sr then [(b, drawGroup x)] else []
      check7 x (9 ≤ x.fmt.toNat && x.fmt.toNat ≤ 13 && x.matched && (!v.getLsbD 1 || 12 ≤ x.fmt.toNat))
        ([(d, x.g 1), (a, x.g 2)] ++ bs) (maskUsed k e) false
        (((d, x.g 1), (a, x.g 2)) :: bs.map (fun g => ((a, x.g 2), g)) ++
          (if sr && x.sew == 0#2 then [((d, x.g 1), (b, x.g 2))] else []))) fun s =>
    let x := s.x
    let src := narrowSource x.fmt (v.getLsbD 1)
    (vectorOp s d (x.g 1) x.w k e kx (fun i =>
      fpRes (fpConvert src x.float (narrowRnd s sr b i) (x.elem (s.perWidth (2 * x.w)) (2 * x.w) a.toNat i)))).done

/-- Target format of `vfwid` (R184). -/
def widenTarget (f : BitVec 4) (bf : Bool) : Fmt :=
  match f.toNat with
  | 9 => .fp64
  | 10 => .fp32
  | 11 => .fp32
  | 14 => .e4m3
  | _ => if bf then .bf16 else .fp16

/-- A nibble of a slot: value j of an e2m1 group (R80). -/
def nibbleOf (s : State) (a : Reg) (j : Nat) : Word :=
  BitVec.ofNat 64 ((vElem s a (j / 2)).toNat / 16 ^ (j % 2) % 16)

/-- Widening of an element: exact and without flags; a NaN becomes the target's default NaN (R82, R184). -/
def widenElem (src t : Fmt) (v : Word) : Word := (fpConvert src t .rne v).1

/-- `vfwid` from e2m1: 2 x vl destination elements at sew 8, slot by slot (R184); the progress index ends at `vl` (R48). -/
def widenNibbles (s : State) (d a : Reg) (k : BitVec 3) (e : Bit) (kx : BitVec 3) : State :=
  let x := s.x
  if x.vl ≤ x.vstart then nothingToDo s
  else
    let c := s.perWidth 8
    let l := runElems x k e kx (fun _ => { v := 0 }) (fun y i _ =>
      (y.put c 8 d.toNat (2 * i) (widenElem .e2m1 .e4m3 (nibbleOf s a (2 * i)))).put c 8 d.toNat (2 * i + 1)
        (widenElem .e2m1 .e4m3 (nibbleOf s a (2 * i + 1))))
    let n := 2 * x.vl.toNat
    closeVector s { l with x := setProgress (zeroTail l.x c 8 d.toNat (x.g 2) n) c d.toNat (x.g 2) x.vl.toNat } d

/-- `vfwid` (R184). -/
def execVfwid (d a : Reg) (k : BitVec 3) (e : Bit) (kx : BitVec 3) (v : BitVec 2) (s : State) : Out :=
  issueV (.vfwid d a k e kx v) s (fun x =>
      check7 x (9 ≤ x.fmt.toNat && x.matched && (v == 0#2 || x.fmt == 12#4 || x.fmt == 13#4))
        [(d, x.g 2), (a, x.g 1)] (maskUsed k e) false [((d, x.g 2), (a, x.g 1))]) fun s =>
    let x := s.x
    if x.fmt = 14#4 then (widenNibbles s d a k e kx).done
    else
      (vectorOp s d (x.g 2) (2 * x.w) k e kx (fun i =>
        { v := (widenElem x.float (widenTarget x.fmt (v == 1#2)) (vElem s a i)).toNat })).done

/-- `vfq4` (R185): slot i takes values 2i and 2i + 1. -/
def execVfq4 (d a b : Reg) (k : BitVec 3) (e : Bit) (kx : BitVec 3) (v : BitVec 2) (s : State) : Out :=
  let sr := v == 1#2
  issueV (.vfq4 d a b k e kx v) s (fun x =>
      let bs : List Group := if sr then [(b, 4)] else []
      check7 x (x.fmt == 14#4 && x.matched && x.group == 0#2) ([(d, 1), (a, 8)] ++ bs) (maskUsed k e) false
        (((d, 1), (a, 8)) :: bs.flatMap (fun g => [((a, 8), g), ((d, 1), g)]))) fun s =>
    let x := s.x
    let val := fun (j : Nat) =>
      fpConvert .fp32 .e2m1 (narrowRnd s sr b j) (x.elem (s.perWidth 32) 32 a.toNat j)
    (vectorOp s d 1 8 k e kx (fun i =>
      let lo := val (2 * i)
      let hi := val (2 * i + 1)
      { v := lo.1.toNat + 16 * hi.1.toNat, fl := lo.2 ||| hi.2 })).done

/-! ## Block scale (R81, R186) -/

/-- emax of the target element format by variant (R186). -/
def sclEmax (v : BitVec 2) : Int :=
  match v.toNat with
  | 0 => 2
  | 1 => 8
  | _ => 15

/-- Elements of block b that are active and below vl. -/
def sclBlock (x : XHart) (k : BitVec 3) (b : Nat) : List Nat :=
  (span (32 * b) 32).filter (fun i => i < x.vl.toNat && x.active k i)

/-- The exponent floor (log2 of the largest magnitude), none for a zero or an empty block. -/
def blockTop (vals : List Word) : Option Int :=
  vals.foldl (fun m v =>
    match Fmt.fp32.unpack v with
    | .fin _ n e _ => if n = 0 then m else
        let t : Int := e + Nat.log2 n
        some (match m with | none => t | some u => max t u)
    | _ => m) none

/-- The code of a block when quantising: 0xFF for a NaN or an infinity (R186). -/
def sclCode (s : State) (a : Reg) (k : BitVec 3) (v : BitVec 2) (b : Nat) : Nat :=
  let vals := (sclBlock s.x k b).map (vElem s a)
  if vals.any (fun w => match Fmt.fp32.unpack w with | .fin _ _ _ _ => false | _ => true) then 0xFF
  else
    match blockTop vals with
    | none => 0
    | some t => (max (-127) (min (t - sclEmax v) 127) + 127).toNat

/-- va[i] x 2^x in fp32 under RNE. -/
def scaled (v : Word) (x : Int) : Word × Flags :=
  match Fmt.fp32.unpack v with
  | .fin n m e st => Fmt.fp32.roundFin .rne n m (e + x) st
  | w => Fmt.fp32.finish .rne w.isSNaN (some w)

/-- The default NaN of an element whose block has code 0xFF; a signalling operand raises nv (R82, R186). -/
def scaledNaN (v : Word) : ElemRes := fpRes (Fmt.fp32.finish .rne (Fmt.fp32.unpack v).isSNaN (some (.nan false)))

/-- Bytes of vb that a quantising `vfscl` writes: those of the blocks that reach past `vstart` (R51, R186). -/
def sclCodes (s : State) (a b : Reg) (k : BitVec 3) (v : BitVec 2) : VReg :=
  let lo := s.x.vstart.toNat / 32
  (span lo (ceilDiv s.x.vl.toNat 32 - lo)).foldl (fun r blk => setElemN r 8 blk (sclCode s a k v blk)) (s.x.reg b.toNat)

/-- `vfscl` (R186): vb is one register of codes, written when quantising. Marked DESIGN CHOICE: `ldst` then names vd, not
vb, for R70 does not say which of the two; and R168, whose overlaps are those of the destination, is taken to mean vd alone,
so that vb may lie within va. -/
def execVfscl (d a b : Reg) (k : BitVec 3) (e : Bit) (kx : BitVec 3) (v : BitVec 2) (s : State) : Out :=
  issueV (.vfscl d a b k e kx v) s (fun x =>
      check7 x (x.fmt == 9#4 && x.matched) [(d, x.g 1), (a, x.g 1)] (maskUsed k e) false
        [((d, x.g 1), (a, x.g 1)), ((d, x.g 1), (b, 1))]) fun s =>
    let x := s.x
    let code := fun (blk : Nat) => if v = 3#2 then getElemN (x.reg b.toNat) 8 blk else sclCode s a k v blk
    let s' := vectorOp s d (x.g 1) x.w k e kx (fun i =>
      let c := code (i / 32)
      if c = 0xFF then scaledNaN (vElem s a i)
      else fpRes (scaled (vElem s a i) (if v = 3#2 then (c : Int) - 127 else 127 - (c : Int))))
    if v = 3#2 || x.vl ≤ x.vstart then s'.done
    else (s'.setX (setProgress (s'.x.setReg b.toNat (sclCodes s a b k v)) x.vl.toNat b.toNat 1 x.vl.toNat)).done

end Sys2Proof.Machine
end

