-- ==== Sys2Proof/Machine/Compact.lean ====
section
/-! DEFINITION. Compact instructions (R113 to R115): the C-form instruction of R114, with the register that `ldst` names
as first source and the next instruction two bytes on. -/

namespace Sys2Proof.Machine

/-- The register that `ldst` names (R70, R113). -/
def State.last (s : State) : Reg := s.h.ldst.extractLsb' 0 5

/-- Checks 4, 5 and 6 of R119 before a compact: the hart, the class of `ldst` and a src field that must be 0 (R115). -/
def compact (i : Instr) (onA : Bool) (cls : BitVec 2) (src : Bool) (s : State) (body : Reg → State → Out) : Out :=
  if !s.xh && !onA then s.illegal 4
  else if s.h.ldst.extractLsb' 5 2 != cls || !src then s.illegal 5
  else if !i.wf then s.illegal 6
  else body s.last s

/-- The next compact, or the next slot (R113). -/
def State.doneK (s : State) : Out := .next (s.bump 2)

/-- A compact vector instruction with its check 7 (R114, R119). -/
def compactV (i : Instr) (s : State) (ok : Reg → XHart → Bool) (body : Reg → State → State) : Out :=
  compact i false 2 true s fun l s => if ok l s.x then (body l s).doneK else s.illegal 7

/-- `k.nop` (R113): no class check. -/
def execKNop (s : State) : Out := issue true true .kNop s fun s => s.doneK

/-- `k.add` (R114). -/
def execKAdd (d b : Reg) (s : State) : Out :=
  compact (.kAdd d b) true 0 true s fun l s => (binaryS (fun x y => x + y) d l b s).doneK

/-- `k.sub` (R114). -/
def execKSub (d b : Reg) (s : State) : Out :=
  compact (.kSub d b) true 0 true s fun l s => (binaryS (fun x y => x - y) d l b s).doneK

/-- `k.and` (R114). -/
def execKAnd (d b : Reg) (s : State) : Out :=
  compact (.kAnd d b) true 0 true s fun l s => (binaryS (fun x y => x &&& y) d l b s).doneK

/-- `k.or` (R114). -/
def execKOr (d b : Reg) (s : State) : Out :=
  compact (.kOr d b) true 0 true s fun l s => (binaryS (fun x y => x ||| y) d l b s).doneK

/-- `k.xor` (R114). -/
def execKXor (d b : Reg) (s : State) : Out :=
  compact (.kXor d b) true 0 true s fun l s => (binaryS (fun x y => x ^^^ y) d l b s).doneK

/-- `k.sll` (R114). -/
def execKSll (d b : Reg) (s : State) : Out :=
  compact (.kSll d b) true 0 true s fun l s => (binaryS (fun x y => x <<< shiftOf y) d l b s).doneK

/-- `k.srl` (R114). -/
def execKSrl (d b : Reg) (s : State) : Out :=
  compact (.kSrl d b) true 0 true s fun l s => (binaryS (fun x y => x >>> shiftOf y) d l b s).doneK

/-- `k.addi` (R114). -/
def execKAddi (d i : Reg) (s : State) : Out :=
  compact (.kAddi d i) true 0 true s fun l s => (s.setS d (s.getS l + i.signExtend 64)).doneK

/-- `k.mv` (R114). -/
def execKMv (d b : Reg) (s : State) : Out :=
  compact (.kMv d b) true 0 (b == 0#5) s fun l s => (s.setS d (s.getS l)).doneK

/-- `k.beqz` (R114): the target counts from the compact's own address. -/
def execKBeqz (o : BitVec 10) (s : State) : Out :=
  compact (.kBeqz o) true 0 true s fun l s => .next (branchIf (s.getS l == 0) (branchTarget s o) 2 s)

/-- `k.bnez` (R114). -/
def execKBnez (o : BitVec 10) (s : State) : Out :=
  compact (.kBnez o) true 0 true s fun l s => .next (branchIf (s.getS l != 0) (branchTarget s o) 2 s)

/-- `k.vadd` (R114). -/
def execKVadd (d b : Reg) (s : State) : Out :=
  compactV (.kVadd d b) s (fun l => intOk d l b 0 0 0) fun l s =>
    binInt (fun w a b => { v := fit w (a + b) }) d l b 0 0 0 0 s

/-- `k.vfadd` (R114). -/
def execKVfadd (d b : Reg) (s : State) : Out :=
  compactV (.kVfadd d b) s (fun l => fpOk d l b 0 0 0) fun l s =>
    binFloat (fun f r a b _ => fpAdd f r a b) d l b 0 0 0 0 s

/-- `k.vfmul` (R114). -/
def execKVfmul (d b : Reg) (s : State) : Out :=
  compactV (.kVfmul d b) s (fun l => fpOk d l b 0 0 0) fun l s =>
    binFloat (fun f r a b _ => fpMul f r a b) d l b 0 0 0 0 s

/-- `k.vfma` (R114). -/
def execKVfma (d b : Reg) (s : State) : Out :=
  compactV (.kVfma d b) s (fun l => fpOk d l b 0 0 0) fun l s =>
    binFloat (fun f r a b c => fpFma f r a b c false) d l b 0 0 0 0 s

/-- `k.vmv` (R114). -/
def execKVmv (d b : Reg) (s : State) : Out :=
  compact (.kVmv d b) false 2 (b == 0#5) s fun l s =>
    if moveOk d l 0 0 false s.x then (moveVector d l 0 0 0 false s).doneK else s.illegal 7

end Sys2Proof.Machine
end

