-- ==== Sys2Proof/Machine/Engines.lean ====
section
/-! DEFINITION. The core's engines: records and handover (R230, R237), accesses and failures of engine commands (R231,
R392 to R395), the copy engine and its streams (R152, R251 to R253). -/

namespace Sys2Proof.Machine

/-! ## Records and handover (R230, R237) -/

/-- A command record of `n` words, read by the scalar agent. -/
def recordThen (s : State) (va : Word) (n : Nat) (k : State → List Word → Out) : Out :=
  readThen s s.scalarAgent Ask.record va (8 * n) fun s _ l => k s (wordsOf n l)

/-- Word i of a record. -/
def rw (ws : List Word) (i : Nat) : Word := ws.getD i 0

/-- Bits from `lo` up of word i are zero. -/
def clearFrom (ws : List Word) (i lo : Nat) : Bool := (rw ws i).toNat / 2 ^ lo == 0

/-- The instruction writes its issue status; a non-zero one hands nothing over. -/
def issueStatus (s : State) (d : Reg) (st : Nat) : Out := (s.setS d (BitVec.ofNat 64 st)).done

/-- The release of a handover with rel = 1, by both agents of the A-hart (R230). Every earlier read has executed by
then, so an acquire waits for nothing. -/
def handOver (s : State) (sc : BitVec 2) (r : Bit) (k : State → Out) : Out :=
  if r.on then releaseThen s [s.scalarAgent, s.vectorAgent] sc k else k s

/-- The ordering fields of a command. -/
def ordOf (sc : BitVec 2) (q r : Bit) : Ord := { scope := sc, acq := q.on, rel := r.on }

/-! ## Engine accesses -/

/-- A refused engine access: class, code and address. -/
structure AccErr where
  cls : Nat
  code : Nat
  va : Word

/-- What an engine access comes to. -/
inductive Eng (α : Type) where
  | ok (s : State) (v : α)
  | wait (s : State)
  | bad (s : State) (e : AccErr)

/-- An engine of the core's team, whose pages must carry u. Marked DESIGN CHOICE: at which privilege an engine's accesses are
checked when its command was handed over at privilege system is open; user, always. -/
def State.engWho (s : State) : Who := { s.who with user := true }

/-- Bytes with the positions that hold poison. -/
abbrev Marked := List (Byte × Bool)

/-- What an engine reads to get `n` bytes within one line: the whole line of 128 bytes in scratchpad and HBM, in one
move (R231). -/
def lineRead (key n : Nat) : List Nat := if isHost key then span key n else span (key / 128 * 128) 128

/-- A line read by an engine: the bytes asked for with those of a poisoned granule marked, the code where the line met
poison, and the step in which the read executed, not before `since` (R230, R231, R389). -/
structure Line where
  bytes : Marked
  bad : Option Nat
  at_ : Nat

/-- A read within one line. -/
def engineLine (s : State) (ag : Agent) (since : Nat) (q : Ask) (va : Word) (n : Nat) : Eng Line :=
  match translate s s.engWho q va n with
  | .error e => .bad s ⟨e.cls, e.code, va⟩
  | .ok p =>
    let addrs := lineRead p.key n
    match readSince s s.core.num ag since addrs with
    | (s, .bytes l, at_) => .ok s ⟨((l.drop (p.key - addrs.headD 0)).take n).map (fun b => (b, false)), none, at_⟩
    | (s, .wait, _) => .wait s
    | (s, .poison _, at_) =>
      .ok s ⟨(span p.key n).map (fun a =>
        if badByte s s.core.num ag a then (0, true)
        else
          match visibleByte s s.core.num ag a with
          | some b => (b, false)
          | none => if poisonedAt s a then (0, true) else (s.mem.read a, false)), some (readCode s addrs), at_⟩

/-- A read that meets poison fails (R389). The bytes, and the step in which they were read. -/
def engineReadAt (s : State) (ag : Agent) (since : Nat) (q : Ask) (va : Word) (n : Nat) : Eng (List Byte × Nat) :=
  match engineLine s ag since q va n with
  | .ok s l =>
    match l.bad with
    | some code => .bad s ⟨11, code, va⟩
    | none => .ok s (l.bytes.map (·.1), l.at_)
  | .wait s => .wait s
  | .bad s e => .bad s e

def engineRead (s : State) (ag : Agent) (since : Nat) (q : Ask) (va : Word) (n : Nat) : Eng (List Byte) :=
  match engineReadAt s ag since q va n with
  | .ok s l => .ok s l.1
  | .wait s => .wait s
  | .bad s e => .bad s e

/-- The place of an engine write: checks, then the operand guard of the team (R271, R386). -/
def enginePlace (s : State) (q : Ask) (va : Word) (n : Nat) : Eng Place :=
  match translate s s.engWho q va n with
  | .error e => .bad s ⟨e.cls, e.code, va⟩
  | .ok p =>
    if scratchCore? p.key == some s.core.num && guarded s (span p.key n) then
      if s.core.team.og == 1#2 then .wait s else .bad s ⟨10, 0, va⟩
    else .ok s p

/-- An entry of an engine under its command's number; `bad` says that it carries poison. -/
def enterEngine (s : State) (ag : Agent) (serial : Nat) (bad : Bool) (cells : List Host.Cell) : State :=
  let s := dropEarly s s.core.num ag (cells.map (·.1))
  { s with
    buf := s.buf ++ [{ loc := .sb s.core.num ag, core := s.core.num, agent := ag, payload := .bytes cells,
                       serial := serial, low := 0, rank := none, bad := bad }] }

/-- Entries of a command that have not performed (R230). -/
def unperformed (s : State) (ag : Agent) (serial : Nat) : Bool :=
  s.buf.any (fun e => e.core == s.core.num && e.agent == ag && e.serial == serial)

/-- A range cut at the lines: at most k pieces. -/
def pieces : Nat → Nat → Nat → List (Nat × Nat)
  | 0, _, _ => []
  | k + 1, va, n =>
    if n = 0 then []
    else (va, min n (128 - va % 128)) :: pieces k (va + min n (128 - va % 128)) (n - min n (128 - va % 128))

/-- Reads of the pieces in order; the last failure by poison. -/
def readPieces (ag : Agent) (since : Nat) (q : Ask) : List (Nat × Nat) → State → Eng (Marked × Option AccErr)
  | [], s => .ok s ([], none)
  | (va, n) :: rest, s =>
    match engineLine s ag since q (BitVec.ofNat 64 va) n with
    | .bad s e => .bad s e
    | .wait s => .wait s
    | .ok s l =>
      match readPieces ag since q rest s with
      | .bad s e => .bad s e
      | .wait s => .wait s
      | .ok s (l', e) =>
        .ok s (l.bytes ++ l', match l.bad with | some code => some ⟨11, code, BitVec.ofNat 64 va⟩ | none => e)

/-- Places of the pieces in order: the home address of each byte. -/
def placePieces (q : Ask) : List (Nat × Nat) → State → Eng (List Nat)
  | [], s => .ok s []
  | (va, n) :: rest, s =>
    match enginePlace s q (BitVec.ofNat 64 va) n with
    | .bad s e => .bad s e
    | .wait s => .wait s
    | .ok s p =>
      match placePieces q rest s with
      | .bad s e => .bad s e
      | .wait s => .wait s
      | .ok s l => .ok s (span p.key n ++ l)

/-- Entries for bytes placed one by one: one for each line (R220). -/
def enterCells (s : State) (ag : Agent) (serial : Nat) (bad : Bool) (cells : List Host.Cell) : State :=
  ((cells.map (fun c => c.1 / 128)).eraseDups).foldl (fun s l =>
    enterEngine s ag serial bad (cells.filter (fun c => c.1 / 128 == l))) s

/-! ## Failures and completion (R392 to R394) -/

/-- The failure of a command: status code 0x0307 for the operand guard, else 0x0302 (R392). -/
def failureOf (engine index : Nat) (e : AccErr) : CmdFault :=
  { code := if e.cls = 10 then 0x0307#16 else 0x0302#16, detail := detailWord e.cls e.code engine index, addr := e.va }

/-- The pending fault that a detail word makes (R394). -/
def pendingOf (detail addr : Word) : PFault :=
  { cause := causeWord (detail.extractLsb' 56 8).toNat (detail.extractLsb' 52 4).toNat 7, tval := detail, addr := addr,
    serial := none }

/-- Adds it to the A-hart of tandem t of the core in focus. -/
def pendFault (s : State) (t : Fin 4) (detail addr : Word) : State :=
  addFault s s.core.num t (fun l => l ++ [pendingOf detail addr])

/-- A status word of a tag and a code (R237). -/
def statusWord (tag : Word) (code : BitVec 16) : Word := (tag <<< 16) ||| code.setWidth 64

/-- What an engine's write asks of its page: the copy engine reaches hbm, host and scratch pages, the others hbm pages alone
(R207). -/
def Agent.writeAsk (ag : Agent) : Ask :=
  match ag with
  | .copy => Ask.copyWrite
  | _ => Ask.engineWrite

/-- A word an engine writes before its status word. -/
def engineWord (s : State) (ag : Agent) (va w : Word) : Eng Unit :=
  if va.toNat % 8 != 0 then .bad s ⟨5, 0, va⟩
  else
    match enginePlace s ag.writeAsk va 8 with
    | .bad s e => .bad s e
    | .wait s => .wait s
    | .ok s p =>
      let s := nextSerial s
      .ok (enterEngine s ag s.serial false (cellsAt p.key (bytesOf 8 w))) ()

/-- The status word, a release by the engine at the command's scope, or at the narrowest one its location allows (R224,
R230). -/
def engineStatus (s : State) (ag : Agent) (sc : BitVec 2) (va w : Word) : Eng Unit :=
  match enginePlace s ag.writeAsk va 8 with
  | .bad s e => .bad s e
  | .wait s => .wait s
  | .ok s p =>
    let sc := effScope s.core.num p sc
    match releaseHeld s s.core.num [ag] sc ++ enterHeld s s.core.num ag sc (span p.key 8) with
    | [] =>
      .ok (enterAt (nextSerial (releaseMove s s.core.num [ag] sc)) s.core.num ag sc (.bytes (cellsAt p.key (bytesOf 8 w)))) ()
    | l => .wait (askSuspend s l)

/-- Detail word and address, then the status word; or the plain status word of a complete command (R392). -/
def writeOutcome (s : State) (ag : Agent) (sc : BitVec 2) (stat tag : Word) (fault : Option CmdFault) : Eng Word :=
  let go := fun (s : State) (code : BitVec 16) =>
    match engineStatus s ag sc stat (statusWord tag code) with
    | .ok s _ => Eng.ok s (statusWord tag code)
    | .wait s => .wait s
    | .bad s e => .bad s e
  match fault with
  | none => go s 1
  | some f =>
    let s := noteRefusal s s.engWho (f.detail.extractLsb' 56 8).toNat f.addr
    match engineWord s ag (stat + 8) f.detail with
    | .bad s e => .bad s e
    | .wait s => .wait s
    | .ok s _ =>
      match engineWord s ag (stat + 16) f.addr with
      | .bad s e => .bad s e
      | .wait s => .wait s
      | .ok s _ => go s f.code

/-- The release of a command with rel = 1 (R230). -/
def quietRelease (s : State) (ag : Agent) (o : Ord) : Eng Unit :=
  if !o.rel then .ok s ()
  else
    match releaseHeld s s.core.num [ag] o.scope with
    | [] => .ok (releaseMove s s.core.num [ag] o.scope) ()
    | l => .wait (askSuspend s l)

/-- A command that cannot end yet has had no effect, but that the kernels which hold its homes are asked to suspend
(R324). -/
def heldBack (s r : State) : State := { s with seqs := r.seqs }

/-- A command comes to its end: its release, where it makes one, comes first; the outcome is reported by its status word or,
with stat = 0, by a pending fault; a status word that cannot be written is a pending fault too (R230, R393). The word
written, if any. -/
def concludeCommand (s : State) (ag : Agent) (engine : Nat) (t : Fin 4) (o : Ord) (stat tag : Word)
    (fault : Option CmdFault) : Eng (Option Word) :=
  match quietRelease s ag o with
  | .bad r e => .bad r e
  | .wait r => .wait r
  | .ok q _ =>
    if stat = 0 then .ok (match fault with | none => q | some f => pendFault q t f.detail f.addr) none
    else
      match writeOutcome q ag o.scope stat tag fault with
      | .ok r w => .ok r (some w)
      | .wait r => .wait (heldBack s r)
      | .bad r e => .ok (pendFault r t (detailWord e.cls e.code engine (2 ^ 48 - 1)) e.va) none

/-- A list with element n replaced or removed. -/
def putAt {α : Type} (n : Nat) (v : α) (l : List α) : List α := l.set n v

/-! ## The copy engine (R251, R252) -/

def copyFrom (ws : List Word) : Nat := (rw ws 0).toNat
def copyTo (ws : List Word) : Nat := (rw ws 1).toNat
def copyLen (ws : List Word) : Nat := (rw ws 2).toNat
def copyStat (ws : List Word) : Word := rw ws 3
def copyTag (ws : List Word) : Word := rw ws 4
def copyChunks (ws : List Word) : Nat := (copyLen ws + 127) / 128

/-- Issue status of a copy record (R237, R251). Marked DESIGN CHOICE: R251 says that stat must be 0 in a record of `.fe` and
gives no status for another value; it counts as a reserved field, status 1. Marked DESIGN CHOICE: R237 gives no order
between statuses 1 and 2; a record that earns both gets 1. -/
def copyIssue (v : BitVec 2) (ws : List Word) : Nat :=
  if !(clearFrom ws 0 56 && clearFrom ws 1 56 && clearFrom ws 2 40 && clearFrom ws 3 56 && clearFrom ws 4 48 &&
      rw ws 5 == 0 && rw ws 6 == 0 && rw ws 7 == 0) then 1
  else if v = 0#2 then
    if copyStat ws != 0 then 1
    else if copyTo ws % 128 != 0 || copyTo ws < windowBase || copyLen ws % 128 != 0 ||
        windowBase + windowSize ≤ copyTo ws || windowBase + windowSize < copyTo ws + copyLen ws then 2
    else 0
  else if copyStat ws == 0 || (copyStat ws).toNat % 8 != 0 then 2
  else 0

/-- The lines that a `.fe` command has written are marked full in ascending order (R233). -/
def markFull (s : State) (c : CopyCmd) : State :=
  (List.range c.next).foldl (fun s j => markLine s s.core.num ((copyTo c.words - windowBase) / 128 + j) true) s

/-- Removes command n. -/
def dropCopy (s : State) (n : Nat) : State :=
  s.setTeam { s.core.team with copies := s.core.team.copies.eraseIdx n }

def setCopy (s : State) (n : Nat) (c : CopyCmd) : State :=
  s.setTeam { s.core.team with copies := putAt n c s.core.team.copies }

/-- The completion of copy command n, once its last chunk is written or it has failed, and all its writes have performed:
only then, after its release, do its signals come, the full marks among them (R230, R233, R253). Marked DESIGN CHOICE: R251
says only that the chunks below a failing one stay written; the lines they filled are marked full. -/
def completeCopy (s : State) (n : Nat) : State :=
  match s.core.team.copies[n]? with
  | none => s
  | some c =>
    if (c.next < copyChunks c.words && c.fault.isNone) || unperformed s .copy c.serial then s
    else if c.kind = 2#2 && 16 ≤ s.core.team.tds[c.t].a.done.length then s
    else
      match concludeCommand s .copy 0 c.t c.ord (copyStat c.words) (copyTag c.words) c.fault with
      | .bad s _ => s
      | .wait s => s
      | .ok s w =>
        let s := dropCopy (if c.kind = 0#2 then markFull s c else s) n
        match (if c.kind = 2#2 then w else none) with
        | none => s
        | some w =>
          let td := s.core.team.tds[c.t]
          s.setTeam { s.core.team with
            tds := s.core.team.tds.set c.t
              { td with a := { td.a with done := td.a.done ++ [{ stat := copyStat c.words, status := w }] } } }

/-- `cpy` (R251): a command of no bytes completes at once. -/
def execCpy (d a : Reg) (sc : BitVec 2) (q r : Bit) (v : BitVec 2) (s : State) : Out :=
  issue true false (.cpy d a sc q r v) s fun s =>
    recordThen s (s.getS a) 8 fun s ws =>
      if copyIssue v ws != 0 then issueStatus s d (copyIssue v ws)
      else if 16 ≤ s.core.team.copies.length then s.stall .engine
      else
        handOver s sc r fun s =>
          let s := nextSerial s
          let n := s.core.team.copies.length
          let s := s.setTeam { s.core.team with
            copies := s.core.team.copies ++ [{ kind := v, t := s.tnd, words := ws, ord := ordOf sc q r, next := 0,
                                               serial := s.serial, since := s.ticks, fault := none }] }
          issueStatus (if copyLen ws = 0 then completeCopy s n else s) d 0

/-- Some page of the n bytes at a virtual address puts one of them at one of the home addresses. -/
def reaches (s : State) (q : Ask) (va n : Nat) (keys : List Nat) : Bool :=
  (List.range (n / 4096 + 2)).any (fun i =>
    let lo := if i = 0 then va else (va / 4096 + i) * 4096
    let len := min (va + n) ((va / 4096 + i + 1) * 4096) - lo
    len != 0 &&
      (match translate s s.engWho q (BitVec.ofNat 64 lo) len with
        | .ok p => keys.any (fun k => p.key ≤ k && k < p.key + len)
        | .error _ => false))

/-- An earlier command still has accesses that overlap those of a chunk, at the home addresses it reads and writes, which
must then wait (R219); and commands start in handover order (R252). -/
def copyWaits (s : State) (l : List CopyCmd) (n : Nat) (rd wr : List Nat) : Bool :=
  (l.take n).any (fun e =>
    let left := copyLen e.words - e.next * 128
    e.fault.isNone && 0 < left &&
      (e.next == 0 || reaches s Ask.copyWrite (copyTo e.words + e.next * 128) left (rd ++ wr) ||
        reaches s Ask.copyRead (copyFrom e.words + e.next * 128) left wr))

/-- Home addresses of the pieces that translate. -/
def pieceKeys (s : State) (q : Ask) (l : List (Nat × Nat)) : List Nat :=
  l.flatMap (fun p =>
    match translate s s.engWho q (BitVec.ofNat 64 p.1) p.2 with
    | .ok pl => span pl.key p.2
    | .error _ => [])

/-- A `.fe` command marks the line of its next chunk empty before it writes it (R233). -/
def emptyChunk (s : State) (c : CopyCmd) : State :=
  if c.kind = 0#2 then markLine s s.core.num ((copyTo c.words + c.next * 128 - windowBase) / 128) false else s

/-- The reads of the copy engine that precede an acquire declared at a point have executed: those of the commands handed over
by then, and of the lines whose fill had started (R150, R226). -/
def acquireDone (s : State) (a : Nat × Nat) : Bool :=
  s.core.team.copies.all (fun c => a.1 < c.serial || copyChunks c.words ≤ c.next || c.fault.isSome) &&
    s.core.team.tds.toList.all (fun td => td.a.app.all (fun app =>
      app.streams.toList.all (fun st => !st.filling || a.2 ≤ st.since)))

/-- The acquires declared before instruction number n, complete: none where one of them still waits for a read. What the
engine has read early does not outlast them (R226). -/
def engineAcquires (s : State) (n : Nat) : Option State :=
  let due := fun (app : App) => app.acq.filter (fun a => a.1 < n)
  let apps := s.core.team.tds.toList.filterMap (fun td => td.a.app.bind due)
  if apps.isEmpty then some s
  else if apps.all (acquireDone s) then
    let s := forgetEarly s s.core.num [.copy]
    some (s.setTeam { s.core.team with tds := s.core.team.tds.map (fun td =>
      { td with a := { td.a with app := td.a.app.map (fun app =>
        { app with acq := if (due app).isSome then none else app.acq }) } }) })
  else none

/-- One chunk of a copy command is read and written (R252). Poisoned bytes are written as poison, and the command ends
(R389). -/
def copyChunkMove (s : State) (n : Nat) : State :=
  match s.core.team.copies[n]? with
  | none => s
  | some c =>
    let at_ := c.next * 128
    let len := min 128 (copyLen c.words - at_)
    let src := pieces 2 (copyFrom c.words + at_) len
    let dst := pieces 2 (copyTo c.words + at_) len
    if copyChunks c.words ≤ c.next || c.fault.isSome ||
        copyWaits s s.core.team.copies n (pieceKeys s Ask.copyRead src) (pieceKeys s Ask.copyWrite dst) then s
    else
      match engineAcquires s c.serial with
      | none => s
      | some s =>
      match readPieces .copy c.since Ask.copyRead src s with
      | .wait s => s
      | .bad s e => setCopy s n { c with fault := some (failureOf 0 at_ e) }
      | .ok s (l, bad) =>
        match placePieces Ask.copyWrite dst s with
        | .wait s => s
        | .bad s e => setCopy s n { c with fault := some (failureOf 0 at_ e) }
        | .ok s keys =>
          let s := emptyChunk s c
          match bad with
          | some e =>
            let hit := (keys.zip l).filterMap (fun p => if p.2.2 then some (p.1, 0#8) else none)
            setCopy (enterCells s .copy c.serial true hit) n { c with fault := some (failureOf 0 at_ e) }
          | none => setCopy (enterCells s .copy c.serial false (keys.zip (l.map (·.1)))) n { c with next := c.next + 1 }

/-- `COPY_CHUNK` (R252). -/
def execCopyChunk (n : Nat) (s : State) : Out := whileResident s fun s => .next (copyChunkMove s n)

/-- `COPY_COMPLETE` (R230). -/
def execCopyComplete (n : Nat) (s : State) : Out := whileResident s fun s => .next (completeCopy s n)

/-! ## Streams (R152, R395) -/

/-- Elements of line L of a stream that lie below N. -/
def lineElems (app : App) (st : Stream) (l : Nat) : List Nat :=
  let per := 128 / 2 ^ st.esz
  (span (l * per) per).filter (· < app.n)

/-- The line may start: the ring has room (R152). -/
def lineRoom (st : Stream) : Bool := st.started < st.read * 2 ^ st.esz / 128 + st.lines

def setStream (s : State) (app : App) (j : Nat) (st : Stream) : State :=
  s.setA { s.a with app := some { app with streams := app.streams.set (j % 4) st (Nat.mod_lt _ (by decide)) } }

/-- A fill of line L fails: nothing of it is full, later lines are not started (R395); a table that refused it logs the
refusal (R408). -/
def failFill (s : State) (app : App) (j : Nat) (st : Stream) (line e : Nat) (err : AccErr) : State :=
  setStream (noteRefusal s s.engWho err.cls err.va) app j { st with
    started := line, filling := false
    fault := some { cause := causeWord err.cls err.code 7, detail := detailWord err.cls err.code (4 + j) e
                    addr := BitVec.ofNat 64 (windowBase + st.boff + line % max st.lines 1 * 128) } }

/-- The bytes of an element of a stream, and what the fill has read so far: a line that it has read whole is not read again
(R231). -/
def fillRead (s : State) (since : Nat) (got : List Host.Cell) (va : Word) (n : Nat) : Eng (List Byte × List Host.Cell) :=
  match translate s s.engWho Ask.copyRead va n with
  | .error e => .bad s ⟨e.cls, e.code, va⟩
  | .ok p =>
    let pickFrom := fun (l : List Host.Cell) => (span p.key n).map (fun a => ((l.find? (fun c => c.1 == a)).map (·.2)).getD 0)
    if !isHost p.key && (span p.key n).all (fun a => got.any (fun c => c.1 == a)) then .ok s (pickFrom got, got)
    else
      let addrs := lineRead p.key n
      match readSince s s.core.num .copy since addrs with
      | (s, .bytes l, _) => .ok s (pickFrom (addrs.zip l), got ++ addrs.zip l)
      | (s, .wait, _) => .wait s
      | (s, .poison _, _) => .bad s ⟨11, readCode s addrs, va⟩

/-- The bytes of a line: its elements in order. -/
def fillBytes (st : Stream) : List Nat → State → List Host.Cell → Eng (List Byte)
  | [], s, _ => .ok s []
  | e :: rest, s, got =>
    let n := 2 ^ st.esz
    let va := st.src + BitVec.ofInt 64 (e * st.stride.toInt)
    if va.toNat % n != 0 then .bad s ⟨5, 0, va⟩
    else
      match fillRead s st.since got va n with
      | .bad s err => .bad s err
      | .wait s => .wait s
      | .ok s (l, got) =>
        match fillBytes st rest s got with
        | .ok s l' => .ok s (l ++ l')
        | .wait s => .wait s
        | .bad s err => .bad s err

/-- The high-water value covers every element of a line below N, read by an acquire of the engine (R152). -/
def lineReady (s : State) (app : App) (es : List Nat) : Eng Bool :=
  if app.hw = 0 then .ok s true
  else
    match engineRead s .copy s.ticks Ask.copyRead app.hw 8 with
    | .ok s l => .ok s (es.all (fun e => e < (wordOf l).toNat))
    | .wait s => .wait s
    | .bad s e => .bad s e

/-- Reads of a line of the core's scratchpad that its agents executed early, before the line was marked empty, do not
stand (R153, R221). -/
def forgetLine (s : State) (l : Nat) : State :=
  let lo := scratchBase + s.core.num * 2 ^ 23 + 128 * l
  { s with early := s.early.filter (fun e => !(e.core == s.core.num && e.cells.any (fun c => lo ≤ c.1 && c.1 < lo + 128))) }

/-- The acquire that precedes the first stream read of the application of the hart in focus is complete, or none was asked
for; none where it waits for a read (R150, R226). -/
def streamAcquired (s : State) (app : App) : Option (State × App) :=
  match app.acq with
  | none => some (s, app)
  | some a =>
    if acquireDone s a then some (forgetEarly s s.core.num [.copy], { app with acq := none }) else none

/-- The engine starts the next line of stream j of the hart in focus: it marks the line empty. -/
def startLine (s : State) (app : App) (j : Nat) (st : Stream) : State :=
  match streamAcquired s app with
  | none => s
  | some (s, app) =>
  let es := lineElems app st st.started
  if es.isEmpty || !lineRoom st then s
  else
    match lineReady s app es with
    | .wait s => s
    | .bad s e => failFill s app j st st.started (st.started * (128 / 2 ^ st.esz)) e
    | .ok s false => s
    | .ok s true =>
      let l := st.boff / 128 + st.started % max st.lines 1
      let s := markLine (forgetLine s l) s.core.num l false
      setStream s app j { st with started := st.started + 1, filling := true, since := s.ticks }

/-- The engine fills the started line and marks it full when its writes have performed. -/
def fillLine (s : State) (app : App) (j : Nat) (st : Stream) : State :=
  let line := st.started - 1
  let es := lineElems app st line
  let first := line * (128 / 2 ^ st.esz)
  let off := st.boff + line % max st.lines 1 * 128
  match fillBytes st es s [] with
  | .wait s => s
  | .bad s e => failFill s app j st line first e
  | .ok s l =>
    match enginePlace s Ask.copyWrite (BitVec.ofNat 64 (windowBase + off)) 128 with
    | .wait s => s
    | .bad s e => failFill s app j st line first e
    | .ok s p =>
      let s := nextSerial s
      let s := enterEngine s .copy s.serial false (cellsAt p.key (l ++ List.replicate (128 - l.length) 0))
      let n := s.serial
      let s := performNow s (fun e => e.serial == n && e.core == s.core.num)
      setStream (markLine s s.core.num (off / 128) true) app j { st with filling := false }

/-- `STREAM_LINE_FILL` (R152): a line of stream j of tandem t starts, or its fill completes. -/
def execStreamLineFill (t j : BitVec 2) (s : State) : Out := whileResident s fun s =>
  let back := fun (r : State) => State.onHart r s.tnd s.xh
  let s := s.onHart t.toFin false
  match s.a.app with
  | none => .next (back s)
  | some app =>
    let st := app.streams[j.toFin]
    if !st.en || st.fault.isSome then .next (back s)
    else .next (back (if st.filling then fillLine s app j.toNat st else startLine s app j.toNat st))

end Sys2Proof.Machine
end

