-- ==== Sys2Proof/Machine/VecPerm.lean ====
section
/-! DEFINITION. Reductions and scans with the summation tree and the carry stack, permutes and strip-softmax (R94 to R97,
R187 to R190). -/

namespace Sys2Proof.Machine

/-! ## Operators (R94, R95, R187) -/

/-- The floating-point operator of a code 0 to 2. -/
def redOp (o : BitVec 3) : RedOp :=
  match o.toNat with
  | 0 => .sum
  | 1 => .max
  | _ => .min

/-- identity(op) in the format of the hart. -/
def redIdentity (x : XHart) (o : BitVec 3) : Word :=
  match fmtFloat x.fmt with
  | some f => fpIdentity f (redOp o)
  | none =>
    match o.toNat with
    | 1 => toElem x.w (intMin (fmtSigned x.fmt) x.w)
    | 2 => toElem x.w (intMax (fmtSigned x.fmt) x.w)
    | 3 => toElem x.w (-1)
    | _ => 0

/-- apply(op, a, b). -/
def redApply (x : XHart) (o : BitVec 3) (a b : Word) : Word × Flags :=
  match fmtFloat x.fmt with
  | some f => fpApply f (redOp o) a b
  | none =>
    (match o.toNat with
      | 0 => toElem x.w (fmtVal x a + fmtVal x b)
      | 1 => toElem x.w (max (fmtVal x a) (fmtVal x b))
      | 2 => toElem x.w (min (fmtVal x a) (fmtVal x b))
      | 3 => a &&& b
      | 4 => a ||| b
      | _ => a ^^^ b, 0)

/-- The formats and operators that reductions accept. -/
def redFmtOk (x : XHart) (o : BitVec 3) : Bool :=
  x.matched && (fmtInt x.fmt || (fmtFp x.fmt && o.toNat ≤ 2))

/-! ## The summation tree (R94) -/

/-- The smallest power of two that is not less than n, as an exponent. -/
def log2Up (n : Nat) : Nat := if n ≤ 1 then 0 else Nat.log2 (n - 1) + 1

/-- One level of the tree: neighbours combined. -/
def treeLevel (f : Word → Word → Word × Flags) : List Word → List Word × Flags
  | a :: b :: l =>
    let r := treeLevel f l
    let c := f a b
    (c.1 :: r.1, c.2 ||| r.2)
  | l => (l, 0)

/-- The levels of the tree, and the flags of all its steps. -/
def treeUp (f : Word → Word → Word × Flags) : Nat → List Word → Flags → List Word × Flags
  | 0, l, fl => (l, fl)
  | k + 1, l, fl =>
    let r := treeLevel f l
    treeUp f k r.1 (fl ||| r.2)

/-- tree_sum: the leaves padded with the identity to a power of two. -/
def treeSum (ident : Word) (f : Word → Word → Word × Flags) (l : List Word) : Word × Flags :=
  let k := log2Up l.length
  let r := treeUp f k (l ++ List.replicate (2 ^ k - l.length) ident) 0
  (r.1.headD ident, r.2)

/-! ## The carry stack (R96) -/

def stackCount (st : VReg) : Nat := getElemN st 64 0
def stackSlot (st : VReg) (j : Nat) : Nat := getElemN st 64 (j + 1)

/-- The push from slot j on, with `k` slots left. A push that finds no free slot has no stated result. -/
def pushFrom (x : XHart) (o : BitVec 3) (whole : VReg) (v : Word) : Nat → Nat → Word → VReg → Flags → VReg × Flags
  | 0, _, _, _, fl => (Config.carryFull whole v, fl)
  | k + 1, j, c, st, fl =>
    if (stackCount whole).testBit j then
      let r := redApply x o (BitVec.ofNat 64 (stackSlot st j % 2 ^ x.w)) c
      pushFrom x o whole v k (j + 1) r.1 (setElemN st 64 (j + 1) 0) (fl ||| r.2)
    else (setElemN (setElemN st 64 (j + 1) c.toNat) 64 0 (stackCount whole + 1), fl)

/-- carry_push. -/
def carryPush (x : XHart) (o : BitVec 3) (st : VReg) (v : Word) : VReg × Flags := pushFrom x o st v 49 0 v st 0

/-- Levels j on of carry_final with `k` left: `c` is the subtree that the lower levels and the padding give. -/
def finalFrom (x : XHart) (o : BitVec 3) (st : VReg) : Nat → Nat → Option Word → Flags → Word × Flags
  | 0, j, c, fl => (c.getD (BitVec.ofNat 64 (stackSlot st j % 2 ^ x.w)), fl)
  | k + 1, j, c, fl =>
    let slot := BitVec.ofNat 64 (stackSlot st j % 2 ^ x.w)
    match (stackCount st).testBit j, c with
    | true, some c =>
      let r := redApply x o slot c
      finalFrom x o st k (j + 1) (some r.1) (fl ||| r.2)
    | true, none =>
      let r := redApply x o slot (redIdentity x o)
      finalFrom x o st k (j + 1) (some r.1) (fl ||| r.2)
    | false, some c =>
      let r := redApply x o c (redIdentity x o)
      finalFrom x o st k (j + 1) (some r.1) (fl ||| r.2)
    | false, none => finalFrom x o st k (j + 1) none fl

/-- carry_final(st, st.count, op): the pushes of identities up to the next power of two, taken level by level. -/
def carryFinal (x : XHart) (o : BitVec 3) (st : VReg) : Word × Flags :=
  let n := stackCount st
  if n = 0 then (redIdentity x o, 0)
  else if 2 ^ 48 < n then (BitVec.ofNat 64 ((Config.carryBeyond st).toNat % 2 ^ x.w), 0)
  else finalFrom x o st (log2Up n) 0 none 0

/-! ## `vred` and `vscan` (R187, R188) -/

/-- The leaf of element i: inactive elements hold the identity. -/
def leaf (s : State) (a : Reg) (k o : BitVec 3) (i : Nat) : Word :=
  if s.x.active k i then vElem s a i else redIdentity s.x o

/-- `vred` (R187). -/
def execVred (d a : Reg) (k o : BitVec 3) (v : BitVec 2) (s : State) : Out :=
  issueV (.vred d a k o v) s (fun x =>
      let src : Group := if v = 2#2 then (a, 1) else (a, x.g 1)
      check7 x (redFmtOk x o) [(d, if v = 1#2 then 1 else x.g 1), src] (k != 0#3) (v != 1#2) (if v = 1#2 then [((d, 1), src)] else [])) fun s =>
    let x := s.x
    let c := s.perWidth x.w
    if x.vl ≤ x.vstart then (nothingToDo s).done
    else
      let r : VReg × Flags := match v.toNat with
        | 0 =>
          let t := treeSum (redIdentity x o) (redApply x o) ((List.range x.vl.toNat).map (leaf s a k o))
          (setElem (x.reg d.toNat) x.w 0 t.1, t.2)
        | 1 =>
          x.elems.foldl (fun p i =>
            let q := carryPush x o p.1 (leaf s a k o i)
            (q.1, p.2 ||| q.2)) (x.reg d.toNat, 0)
        | _ =>
          let t := carryFinal x o (x.reg a.toNat)
          (setElem (x.reg d.toNat) x.w 0 t.1, t.2)
      let y := x.setReg d.toNat r.1
      let y := if v = 1#2 then setProgress y x.vl.toNat d.toNat 1 x.vl.toNat else setProgress y c d.toNat (x.g 1) x.vl.toNat
      (closeVector s { x := y, fl := r.2, sat := false } d).done

/-- One element of a carry-form scan: the stack, the registers and the flags after it. -/
def scanStep (s : State) (d a : Reg) (k o : BitVec 3) (exclusive : Bool) (p : VReg × XHart × Flags) (i : Nat) :
    VReg × XHart × Flags :=
  let x := s.x
  let q := carryPush x o p.1 (leaf s a k o i)
  if x.active k i then
    let t := carryFinal x o (if exclusive then p.1 else q.1)
    (q.1, p.2.1.put (s.perWidth x.w) x.w d.toNat i t.1, p.2.2 ||| q.2 ||| t.2)
  else (q.1, p.2.1, p.2.2 ||| q.2)

/-- `vscan` (R188): variant [0] the carry form, [1] exclusive. -/
def execVscan (d a b : Reg) (k o : BitVec 3) (v : BitVec 2) (s : State) : Out :=
  issueV (.vscan d a b k o v) s (fun x =>
      let carry := v.getLsbD 0
      let st : List Group := if carry then [(b, 1)] else []
      check7 x (redFmtOk x o) ([(d, x.g 1), (a, x.g 1)] ++ st) (k != 0#3) (!carry)
        (((d, x.g 1), (a, x.g 1)) :: st.map (fun g => ((d, x.g 1), g)))) fun s =>
    let x := s.x
    let c := s.perWidth x.w
    if v.getLsbD 0 then
      if x.vl ≤ x.vstart then (nothingToDo s).done
      else
        let r := x.elems.foldl (scanStep s d a k o (v.getLsbD 1)) (x.reg b.toNat, x, 0)
        let y := setProgress (r.2.1.setReg b.toNat r.1) x.vl.toNat b.toNat 1 x.vl.toNat
        let y := setProgress (zeroTail y c x.w d.toNat (x.g 1) x.vl.toNat) c d.toNat (x.g 1) x.vl.toNat
        (closeVector s { x := y, fl := r.2.2, sat := false } d).done
    else
      (vectorOp s d (x.g 1) x.w k 0 0 (fun i =>
        fpRes (treeSum (redIdentity x o) (redApply x o)
          ((List.range (if v.getLsbD 1 then i else i + 1)).map (leaf s a k o))))).done

/-! ## Permutes (R189) -/

/-- `vslide` (R189): variant [0] up, [1] the immediate offset. -/
def execVslide (d a b : Reg) (k : BitVec 3) (v : BitVec 2) (s : State) : Out :=
  issueV (.vslide d a b k v) s (fun x =>
      check7 x true [(d, x.g 1), (a, x.g 1)] (k != 0#3) true [((d, x.g 1), (a, x.g 1))]) fun s =>
    let x := s.x
    let o := if v.getLsbD 1 then b.toNat else (s.getS b).toNat
    (vectorOp s d (x.g 1) x.w k 0 0 (fun i =>
      { v := (if v.getLsbD 0 then (if o ≤ i then vElem s a (i - o) else vElem s d i)
              else if i + o < x.vl.toNat then vElem s a (i + o) else 0).toNat })).done

/-- The elements of `vgath`, with indices below `n` in range. -/
def gather (n : Nat) (d a b : Reg) (k : BitVec 3) (e : Bit) (kx : BitVec 3) (wide : Bool) (s : State) : State :=
  let x := s.x
  vectorOp s d (x.g 1) x.w k e kx (fun i =>
    let j := if wide then x.elemN (s.perWidth 16) 16 b.toNat i else (vElem s b i).toNat
    if j < n then { v := (vElem s a j).toNat } else { v := 0, exc := true })

/-- `vgath` (R189): variant 1 reads 16-bit indices at sew 8. -/
def execVgath (d a b : Reg) (k : BitVec 3) (e : Bit) (kx : BitVec 3) (v : BitVec 2) (s : State) : Out :=
  let wide := v == 1#2
  issueV (.vgath d a b k e kx v) s (fun x =>
      let bs : Group := (b, x.g (if wide then 2 else 1))
      check7 x (!wide || x.sew == 0#2) [(d, x.g 1), (a, x.g 1), bs] (maskUsed k e) false
        ([((d, x.g 1), (a, x.g 1)), ((d, x.g 1), bs)] ++ if wide then [((a, x.g 1), bs)] else [])) fun s =>
    (gather s.x.vl.toNat d a b k e kx wide s).done

/-- `vcmpr` (R189): the tail rows of a two-dimensional strip stay, elements [c, vl) do not (R44). -/
def execVcmpr (d a b : Reg) (n : BitVec 3) (s : State) : Out :=
  issueV (.vcmpr d a b n) s (fun x =>
      check7 x true [(d, x.g 1), (a, x.g 1)] (n != 0#3) true [((d, x.g 1), (a, x.g 1))]) fun s =>
    let x := s.x
    let c := s.perWidth x.w
    let act := (List.range x.vl.toNat).filter (x.active n)
    if x.vl = 0 then (((nothingToDo s).setS b 0).setLdst 2 d).done
    else
      let y := act.zipIdx.foldl (fun y p => y.put c x.w d.toNat p.2 (vElem s a p.1)) x
      let y := if x.tail then
          (span act.length (x.vl.toNat - act.length)).foldl (fun y i => y.put c x.w d.toNat i 0) y
        else y
      let y := setProgress (zeroTail y c x.w d.toNat (x.g 1) x.vl.toNat) c d.toNat (x.g 1) x.vl.toNat
      (((s.setX { y with vstart := 0 }).setS b (BitVec.ofNat 64 act.length)).setLdst 2 d).done

/-! ## Strip-softmax (R97, R190) -/

/-- A step of the softmax: its value and the flags gathered so far. -/
def andThen (r : Word × Flags) (f : Word → Word × Flags) : Word × Flags :=
  let t := f r.1
  (t.1, r.2 ||| t.2)

/-- corr(a, m): exp(a - m), step by step. -/
def corr (a m : Word) : Word × Flags :=
  if (Fmt.fp32.unpack a).eq (Fmt.fp32.unpack m) then (0x3F800000, 0)
  else andThen (andThen (fpSub .fp32 .rne a m) (fun d => fpMul .fp32 .rne d 0x3FB8AA3B)) (sfu .exp2)

/-- A value is minus infinity. -/
def negInf (w : Word) : Bool := w == Fmt.fp32.infinity true

/-- The outcome of a block: maximum, sum, correction, exponentials, flags. -/
structure SmxBlock where
  m : Word
  sum : Word
  c : Word
  e : List Word
  fl : Flags

/-- smx_block. -/
def smxBlock (m0 s0 : Word) (y : List Word) : SmxBlock :=
  let mb := treeSum (fpIdentity .fp32 .max) (fpApply .fp32 .max) y
  let m := fpApply .fp32 .max m0 mb.1
  let c := corr m0 m.1
  let es := y.map (fun v => if negInf v then ((0 : Word), (0 : Flags)) else corr v m.1)
  let t := treeSum (fpIdentity .fp32 .sum) (fpApply .fp32 .sum) (es.map (·.1))
  let p := fpMul .fp32 .rne s0 c.1
  let r := fpAdd .fp32 .rne p.1 t.1
  { m := m.1, sum := r.1, c := c.1, e := es.map (·.1),
    fl := es.foldl (fun f e => f ||| e.2) (mb.2 ||| m.2 ||| c.2 ||| t.2 ||| p.2 ||| r.2) }

/-- Element i of the strip as FP32; inactive elements and those at `vl` and beyond are minus infinity. Marked DESIGN CHOICE: a
signalling NaN of a narrower format raises no flag as it widens, as R97 and R190 say only that widening is exact. -/
def smxElem (s : State) (a : Reg) (k : BitVec 3) (i : Nat) : Word :=
  if i < s.x.vl.toNat && s.x.active k i then
    if s.x.fmt = 9#4 then vElem s a i else widenElem s.x.float .fp32 (vElem s a i)
  else Fmt.fp32.infinity true

/-- A running value that an f register holds (R190). -/
def smxHeld (s : State) (n : Reg) : Word := BitVec.ofNat 64 ((s.getF n).toNat % 2 ^ 32)

/-- The blocks of a strip in ascending order: each with its outcome. -/
def smxBlocks (s : State) (a : Reg) (k : BitVec 3) (len : Nat) : Nat → Nat → Word → Word → List SmxBlock
  | 0, _, _, _ => []
  | n + 1, j, m, t =>
    let b := smxBlock m t ((span (j * len) len).map (smxElem s a k))
    b :: smxBlocks s a k len n (j + 1) b.m b.sum

/-- f[n] and f[n + 1] after the blocks of `vsmx.e`, or as they were, in FP32, where there are none (R190); `ldst` is set
afterwards to vd. -/
def smxRunning (s : State) (n : Reg) (bs : List SmxBlock) : State :=
  let m := (bs.getLast?.map (·.m)).getD (smxHeld s n)
  let t := (bs.getLast?.map (·.sum)).getD (smxHeld s (n + 1))
  (s.setF n (boxed 32 m)).setF (n + 1) (boxed 32 t)

/-- `vsmx` (R190): variant 0 the exponentials, 1 the corrections. With `vl` = 0 no element is written (R66), the tail's
among them; the running values are written back, and `ldst` is set. -/
def execVsmx (d a b : Reg) (k : BitVec 3) (v : BitVec 2) (s : State) : Out :=
  let dest := fun (x : XHart) => if v = 0#2 then x.g (32 / x.w) else 1
  issueV (.vsmx d a b k v) s (fun x =>
      check7 x (9 ≤ x.fmt.toNat && x.fmt.toNat ≤ 11 && x.matched) [(d, dest x), (a, x.g 1)] (k != 0#3) true
        [((d, dest x), (a, x.g 1))]) fun s =>
    let x := s.x
    let c := s.perWidth 32
    let len := groupElems x.sew
    let n := ceilDiv x.vl.toNat len
    if x.vl ≤ x.vstart then
      let s := if v = 0#2 then smxRunning s b [] else s
      (closeVector s { x := s.x, fl := 0, sat := false } d).done
    else
      let bs := smxBlocks s a k len n 0 (smxHeld s b) (smxHeld s (b + 1))
      let fl := bs.foldl (fun f t => f ||| t.fl) 0
      if v = 0#2 then
        let y := (bs.flatMap (·.e)).zipIdx.foldl (fun y p =>
          if p.2 < x.vl.toNat && x.active k p.2 then y.put c 32 d.toNat p.2 p.1 else y) x
        let y := setProgress (zeroTail y c 32 d.toNat (dest x) x.vl.toNat) c d.toNat (dest x) x.vl.toNat
        (closeVector (smxRunning s b bs) { x := { y with h := (smxRunning s b bs).x.h }, fl := fl, sat := false } d).done
      else
        let y := bs.zipIdx.foldl (fun y p => y.put c 32 d.toNat p.2 p.1.c) x
        let y := if x.tail then (span n (c - n)).foldl (fun y i => y.put c 32 d.toNat i 0) y else y
        let y := setProgress y x.vl.toNat d.toNat 1 x.vl.toNat
        (closeVector s { x := y, fl := fl, sat := false } d).done

end Sys2Proof.Machine
end

