-- ==== Sys2Proof/Machine/Collective.lean ====
section
/-! DEFINITION. Engines outside the cores and what they tell a team (R393), the peer ports and their table (R364 to
R368, R404 to R406) and the collective engine (R254, R255). -/

namespace Sys2Proof.Machine

/-! ## Faults of engines outside the cores (R350, R393) -/

/-- A late fault joins the header: sixteen are kept, all are counted. -/
def Team.addLate (t : Team) (f : LateFault) : Team :=
  { t with late := if t.late.length < 16 then t.late ++ [f] else t.late, lateCount := t.lateCount + 1 }

/-- Bits [51:15] of a record's word 2, the translation root, as kinds 0, 1 and 4 carry it, and the scratchpad of the
launch (R202, R336). -/
def rootMask : Word := 0x000FFFFFFFFF8000
def recRoot (ws : List Word) : Word := rw ws 2 &&& rootMask
def recSpad (ws : List Word) : Nat := ((rw ws 2).extractLsb' 7 8).toNat

/-- The team is that of a launch, with its number in the launch (R334, R339). -/
def isTeam (launch epoch team : Nat) (t : Team) : Bool :=
  t.launch == launch && t.epoch == epoch && t.index == team && t.status != .none

/-- The record of a launch, by its identifier and the enabling of its queue that it counts in (R334, R339). -/
def State.launchOf (s : State) (id epoch : Nat) : Option LaunchRec :=
  s.launches.find? (fun r => r.id == id && r.epoch == epoch && (r.kind == 0 || r.kind == 4))

/-- Bytes of an image without its scratchpad, and the slot size of an area (R349, R353). -/
def imageSize : Nat := 2621440
def slotSize (spad : Nat) : Nat := imageSize + spad * 65536

/-- Where an evict record has put the image of a team, if it has (R353). -/
def evictedAt (s : State) (launch epoch team : Nat) : Option Nat :=
  match s.launchOf launch epoch with
  | none => none
  | some r => r.area.map (fun a => a + 4096 + team * slotSize (recSpad r.words))

/-- The tag that some private area of the image at an address carries, 0 where every one is zero (R425). -/
def imageTagAt (s : State) (at_ : Nat) : Word :=
  ((([0, 1, 2, 3] : List Nat).map (fun i => 4096 + 365312 * i + 364800) ++ [2514944, 2523904]).map (fun o =>
    s.mem.word (at_ + o))).find? (fun w => w != 0) |>.getD 0

/-- Bytes of the team header up to the late faults (R350). -/
def headerSize : Nat := 2592

/-- Which private parts belong to the image at an address: those of its tag or, where no area of it has one, the newest
whose header it has. -/
def partsIndex (s : State) (at_ : Nat) : Option Nat :=
  let tag := imageTagAt s at_
  if tag != 0 then s.privates.findIdx? (fun p => p.tag == tag)
  else
    let head := s.mem.bytes at_ headerSize
    (s.privates.reverse.findIdx? (fun p => p.header == head)).map (fun i => s.privates.length - 1 - i)

/-- A late fault in an image that stands in memory (R350). One whose count is poisoned takes none: no number comes of
it (R389). -/
def lateInImage (s : State) (at_ : Nat) (t : Fin 4) (detail addr : Word) : State :=
  let n := s.mem.word (at_ + 2848)
  if poisonedAt s (at_ + 2848) then s
  else
    let i := partsIndex s at_
    let s := s.writeHome ((if n.toNat < 16 then
        cellsAt (at_ + 2592 + 16 * n.toNat) (bytesOf 8 detail ++ bytesOf 8 addr) else []) ++
      cellsAt (at_ + 2848) (bytesOf 8 (n + 1)))
    { s with
      privates := s.privates.zipIdx.map (fun p =>
        if i = some p.2 ∧ p.1.late.length < 16 then { p.1 with late := p.1.late ++ [t] } else p.1) }

/-- An engine reports a failure to the A-hart of tandem t of a team: a pending fault where the team is resident, else a
late fault of its header (R393, R394). -/
def faultTo (s : State) (launch epoch team : Nat) (t : Fin 4) (detail addr : Word) : State :=
  let late := fun (k : Team) =>
    if isTeam launch epoch team k then k.addLate { t := t, detail := detail, addr := addr } else k
  match s.cores.find? (fun c => isTeam launch epoch team c.team) with
  | some c =>
    if c.team.status == .resident then addFault s c.num t (fun l => l ++ [pendingOf detail addr])
    else s.setCore { c with team := late c.team }
  | none =>
    match s.cores.find? (fun c => c.runList.any (isTeam launch epoch team)) with
    | some c => s.setCore { c with runList := c.runList.map late }
    | none =>
      if s.launches.any (fun r => r.teams.any (isTeam launch epoch team)) then
        { s with launches := s.launches.map (fun r => { r with teams := r.teams.map late }) }
      else
        match evictedAt s launch epoch team with
        | some a => lateInImage s a t detail addr
        | none => s

/-- `LATE_FAULT` (R393). -/
def execLateFault (launch : LaunchName) (team : Nat) (t : BitVec 2) (detail addr : Word) (s : State) : Out :=
  .next (faultTo s launch.id launch.epoch team t.toFin detail addr)

/-! ## The peer table (R366) -/

/-- Words of peer entry p. -/
def peerWord (s : State) (p i : Nat) : Word := s.mem.word (s.ptab.toNat + 32 * p + 8 * i)

def peerPorts (s : State) (p : Nat) : BitVec 18 := (peerWord s p 2).extractLsb' 12 18
def peerDomain (s : State) (p : Nat) : BitVec 16 := (peerWord s p 2).extractLsb' 48 16

/-- The entry is valid and well formed. -/
def peerOk (s : State) (p : Nat) : Bool :=
  (peerWord s p 2).getLsbD 0 && (peerWord s p 2).extractLsb' 1 11 == 0 && (peerWord s p 2).extractLsb' 30 18 == 0 &&
    peerPorts s p != 0 && peerWord s p 3 == 0 && !poisonedAt s (s.ptab.toNat + 32 * p)

/-- Why requests of a domain cannot go to peer p, if they cannot (R366, R404). -/
def peerCode (s : State) (domain : BitVec 16) (p : Nat) : Option (BitVec 16) :=
  if !peerOk s p then some 0x0502#16
  else if peerPorts s p &&& s.ports == 0 then some 0x0504#16
  else if domain != 0xFFFF#16 && peerDomain s p != domain then some 0x0505#16
  else none

/-- Ports that may carry requests to peer p. -/
def openPorts (s : State) (p : Nat) : List Nat := (List.range 18).filter (fun k => (peerPorts s p &&& s.ports).getLsbD k)

/-- An outbound request passes the table of a port that may carry it (R369). -/
def outboundPasses (s : State) (domain : BitVec 16) (m : Mode) (pa len : Nat) : Bool :=
  (openPorts s (pa / 2 ^ 40)).any (fun k => aclPasses s (2305 + k) domain m pa len)

/-- A refused outbound request joins the log of the first port that might have carried it (R408). -/
def logOutbound (s : State) (domain : BitVec 16) (pa : Nat) : State :=
  match openPorts s (pa / 2 ^ 40) with
  | [] => s
  | k :: _ => logRefusal s (2305 + k) domain pa

/-- The first valid entry that holds an address (R366); a poisoned one names nothing (R389). -/
def peerOf (s : State) (src : BitVec 128) : Option Nat :=
  (List.range 4096).find? (fun p =>
    !poisonedAt s (s.ptab.toNat + 32 * p) && (peerWord s p 2).getLsbD 0 && s.mem.bytes (s.ptab.toNat + 32 * p) 16 ==
      (bytesOf 8 (src.extractLsb' 0 64) ++ bytesOf 8 (src.extractLsb' 64 64)))

/-- The table that refuses an inbound request, and the address: the port's, which asks for one entry over every byte, then
the channels', which see the lines that reach them (R369, R370). -/
def peerRefused (s : State) (domain : BitVec 16) (port : Nat) (m : Mode) (pa len : Nat) : Option (Nat × Nat) :=
  if !aclPasses s (2305 + port) domain m pa len then some (2305 + port, pa)
  else ((span pa len).find? (fun a => !aclPasses s (channelOf a) domain m a 1)).map (fun a => (channelOf a, a))

/-- Payload bytes of a datagram (R364). -/
def maxPayload : Nat := 4096

/-- The peer's command ends with a code (R404, R408). -/
def refuseReply (s : State) (code : BitVec 16) : State := { s with reply := bytesOf 2 (code.setWidth 64), replyPoison := true }

/-- A peer's access to this device's HBM by one datagram: refused with 0x0505 and logged at the table, or performed at
home by `f` (R364, R370, R406, R408). -/
def peerAccess (s : State) (domain : BitVec 16) (port : Nat) (m : Mode) (pa len : Nat) (f : State → State) : State :=
  if 18 ≤ port || hbmSize < pa + len || maxPayload < len then s
  else
    match peerRefused s domain port m pa len with
    | some (target, a) => refuseReply (logRefusal s target domain a) 0x0505
    | none => if heldByGrotto s (span pa len) then askSuspend s (span pa len) else f s

/-- The peer and the direction of a transfer (R368). -/
def xferPeer (s : State) : Nat := s.xpeer.toNat % 4096
def xferFetch (s : State) : Bool := s.xpeer.getLsbD 12

/-- The other end's address of an offset of the block, with the peer's number (R365). -/
def xferFar (s : State) (off : Nat) : Nat := xferPeer s * 2 ^ 40 + (s.xdst.toNat + off) % 2 ^ 40

/-- The block's table checks for `len` bytes at an offset (R368 to R370): the refusal's place in a log, if there is one. The
port's table is asked granule by granule, since how the transport divides the block is its own (R364). -/
def xferRefused (s : State) (off len : Nat) : Option State :=
  let m : Mode := if xferFetch s then .write else .read
  let far : Mode := if xferFetch s then .read else .write
  match ((List.range (ceilDiv len 64)).map (fun i => xferFar s (off + 64 * i))).find? (fun a => !outboundPasses s s.hdom far a 64) with
  | some a => some (logOutbound s s.hdom a)
  | none =>
    ((span (s.xsrc.toNat + off) len).find? (fun a => hbmSize ≤ a || !aclPasses s (channelOf a) s.hdom m a 1)).map
      (fun a => if hbmSize ≤ a then s else logRefusal s (channelOf a) s.hdom a)

/-- Bytes of the block land at home, in any order (R364, R368); only whole granules that have not landed do so, and each
lands once. The transfer ends where there is no way to the peer any longer, or a table refuses them (R404, R406). -/
def xferLand (s : State) (off : Nat) (bytes : List Byte) : State :=
  let at_ := s.xsrc.toNat + off
  let gs := (List.range (bytes.length / 64)).map (fun i => off / 64 + i)
  if s.xstat != 1 || !xferFetch s || off % 64 != 0 || bytes.length % 64 != 0 || bytes.isEmpty || maxPayload < bytes.length ||
      s.xlen.toNat < off + bytes.length || gs.any s.xgot.contains then s
  else
    match peerCode s s.hdom (xferPeer s) with
    | some c => { s with xstat := c.setWidth 64 }
    | none =>
      match xferRefused s off bytes.length with
      | some s => { s with xstat := 0x0505 }
      | none =>
        if heldByGrotto s (span at_ bytes.length) then askSuspend s (span at_ bytes.length)
        else { s.writeHome (cellsAt at_ bytes) with xgot := gs.foldl (fun l g => insertNat g l) s.xgot }

/-- `PEER_DATAGRAM_RECEIVE` (R364, R366, R368, R370, R406, R408): a source that no valid entry names is dropped and
counted; another one's request carries the domain of its entry. -/
def execPeerDatagramReceive (src : BitVec 128) (req : PeerReq) (s : State) : Out :=
  .next (match peerOf s src with
    | none => { s with dropped := s.dropped + 1 }
    | some p =>
      match req with
      | .plain => s
      | .read port pa len => peerAccess s (peerDomain s p) port .read pa len (fun s =>
          if (span pa len).any (poisonedAt s) then refuseReply s 0x0506
          else { s with reply := s.mem.bytes pa len, replyPoison := false })
      | .write port pa data bad => peerAccess s (peerDomain s p) port .write pa data.length (fun s =>
          let s := s.writeHome (cellsAt pa data)
          if bad then s.poisonAt (span pa data.length) else s)
      | .data off bytes => if p = xferPeer s then xferLand s off bytes else s)

/-- Retransmissions of datagram n. -/
def resentTimes (s : State) (n : Nat) : Nat := ((s.resends.find? (fun d => d.1 == n)).map (·.2)).getD 0

/-- Datagram n is resent once more, at most 64 times (R364, R404). -/
def resend (s : State) (n : Nat) : State :=
  if resentTimes s n < 64 then { s with resends := (n, resentTimes s n + 1) :: s.resends.filter (fun d => d.1 != n) }
  else s

/-- `DATAGRAM_RETRANSMIT` (R364): which datagram no peer has acknowledged in time is open. -/
def execDatagramRetransmit (s : State) : Out := .next (resend s (Config.lostDatagram s.ticks))

/-- `PEER_LINK_DOWN` (R406). -/
def execPeerLinkDown (port : Nat) (s : State) : Out :=
  .next { s with ports := s.ports &&& ~~~BitVec.ofNat 18 (2 ^ port) }

/-- `PEER_LINK_UP` (R406). -/
def execPeerLinkUp (port : Nat) (s : State) : Out :=
  .next { s with ports := s.ports ||| BitVec.ofNat 18 (2 ^ port) }

/-! ## Block transfers (R368) -/

/-- `XSTAT` (R368). -/
def execXstat (v : Word) (s : State) : Out :=
  .next (if v != 1 || s.xstat == 1 then s
    else
      match peerCode s s.hdom (xferPeer s) with
      | some c => { s with xstat := c.setWidth 64 }
      | none => { s with xstat := 1, xgot := [] })

/-- Codes that end a block transfer in failure (R404, R406). -/
def xferCodes : List (BitVec 16) := [0x0502#16, 0x0504#16, 0x0505#16, 0x0506#16]

/-- What ends the transfer instead of success: no way to the peer, a refusal at one of the two ends' tables here, or poison
in what it sends (R368, R404, R406). -/
def xferEnd (s : State) : State :=
  match peerCode s s.hdom (xferPeer s) with
  | some c => { s with xstat := c.setWidth 64 }
  | none =>
    if xferFetch s then { s with xstat := 2 }
    else
      match xferRefused s 0 s.xlen.toNat with
      | some s => { s with xstat := 0x0505 }
      | none =>
        if (span s.xsrc.toNat s.xlen.toNat).any (poisonedAt s) then { s with xstat := 0x0506 } else { s with xstat := 2 }

/-- Every granule of a fetch has landed (R368). -/
def allLanded (s : State) : Bool := (List.range (s.xlen.toNat / 64)).all s.xgot.contains

/-- `TRANSFER_COMPLETE` (R368, R406): the transfer is over on both sides, or the peer or the transport reports a code of
failure. -/
def execTransferComplete (ok : Bool) (code : BitVec 16) (s : State) : Out :=
  .next (if s.xstat != 1 then s
    else if !ok then (if xferCodes.contains code then { s with xstat := code.setWidth 64 } else s)
    else if xferFetch s && !allLanded s then s
    else if !xferFetch s && heldByGrotto s (span s.xsrc.toNat s.xlen.toNat) then
      askSuspend s (span s.xsrc.toNat s.xlen.toNat)
    else xferEnd s)

/-! ## The collective engine (R254, R255) -/

def collRank (c : List Word) : Nat := ((rw c 0).extractLsb' 32 16).toNat
def collN (c : List Word) : Nat := ((rw c 0).extractLsb' 16 16).toNat
def collType (c : List Word) : BitVec 4 := (rw c 0).extractLsb' 8 4
def collOp (c : List Word) : Nat := ((rw c 0).extractLsb' 4 4).toNat
def collKind (c : List Word) : Nat := ((rw c 0).extractLsb' 0 4).toNat
def collCount (c : List Word) : Nat := (rw c 1).toNat
def collStat (c : List Word) : Word := rw c 5

/-- A hart whose format is the command's, for the operators of R94. -/
def collForm (c : List Word) : XHart := { XHart.fresh with fmt := collType c, sew := fmtSew (collType c) }
def collBytes (c : List Word) : Nat := sewBits (fmtSew (collType c)) / 8

/-- Issue status (R237, R254). -/
def collIssue (c : List Word) : Nat :=
  if !(clearFrom c 0 48 && (rw c 0).extractLsb' 12 4 == 0 && clearFrom c 1 40 &&
      ([2, 3, 4, 5] : List Nat).all (fun i => clearFrom c i 56) && clearFrom c 6 48 && rw c 7 == 0) ||
      (collType c).toNat < 4 || 11 < (collType c).toNat || 2 < collOp c || 2 < collKind c then 1
  else if collN c = 0 || collN c ≤ collRank c || (collStat c).toNat % 8 != 0 ||
      (collKind c == 2 && collCount c % collN c != 0) then 2
  else 0

/-- `coll` (R254). -/
def execColl (d a : Reg) (sc : BitVec 2) (q r : Bit) (s : State) : Out :=
  issue true false (.coll d a sc q r) s fun s =>
    recordThen s (s.getS a) 8 fun s ws =>
      if collIssue ws != 0 then issueStatus s d (collIssue ws)
      else
        handOver s sc r fun s =>
          let s := nextSerial s
          issueStatus { s with
            colls := s.colls ++ [{ num := s.serial, fin := none, words := ws, ord := ordOf sc q r, root := s.core.team.root,
                                   domain := s.core.team.domain, core := s.core.num, t := s.tnd,
                                   launch := s.core.team.launch, epoch := s.core.team.epoch, team := s.core.team.index }] } d 0

/-- The engine asks on behalf of the launch: hbm and peer pages (R207, R365). -/
def CollCmd.who (c : CollCmd) : Who := { core := c.core, root := c.root, domain := c.domain, spad := 0, user := true }
def collAsk (m : Mode) : Ask := { mode := m, host := false, scratch := false, peer := true, need := .none, acc := 7 }

/-- A failure of a collective: its code, the refused access if it is one, the element, the peer address that a port's
table refused, if one did, and whether a table made the refusal at all: a peer entry's domain makes it otherwise (R366,
R408). -/
structure CollErr where
  code : BitVec 16
  err : Option AccErr
  index : Nat
  far : Option Nat
  table : Bool

/-- The code of a refused access (R404). -/
def collCode (cls : Nat) : BitVec 16 := if cls = 7 then 0x0505#16 else if cls = 11 then 0x0506#16 else 0x0507#16

def collRefused (cls code va index : Nat) : CollErr :=
  { code := collCode cls, err := some ⟨cls, code, BitVec.ofNat 64 va⟩, index := index, far := none, table := true }

/-- A failure that is no refused access. -/
def collPlain (code : BitVec 16) (index : Nat) : CollErr :=
  { code := code, err := none, index := index, far := none, table := false }

/-- The home address of a byte; none for one of a peer's memory, which is reached through the peer's entry. -/
def collByte (s : State) (c : CollCmd) (m : Mode) (va index : Nat) : Except CollErr (Option Nat) :=
  if windowBase ≤ va && va < 2 ^ 56 then .error (collRefused 6 4 va index)
  else if 2 ^ 56 ≤ va then .error (collRefused 6 6 va index)
  else
    match translate s c.who (collAsk m) (BitVec.ofNat 64 va) 1 with
    | .error e => .error (collRefused e.cls e.code va index)
    | .ok p =>
      if p.key < 2 ^ 60 then .ok (some p.key)
      else
        let pa := p.key - 2 ^ 60
        match peerCode s c.domain (pa / 2 ^ 40) with
        | some 0x0505#16 => .error { collRefused 7 0 va index with table := false }
        | some code => .error (collPlain code index)
        | none =>
          if outboundPasses s c.domain m pa 1 then .ok none else .error { collRefused 7 0 va index with far := some pa }

/-- A byte that the engine reads: as an earlier execution of the read has found it, or as it is now (R219). -/
def collSees (s : State) (k : Nat) : Option Byte :=
  match earlyBytes s offCore .collective 0 [k] with
  | some (_, l) => l.head?
  | none => offSees s .collective k

/-- Bytes that the engine reads, each with the one that stands for it where a peer's memory holds it. -/
def collRead (s : State) (c : CollCmd) (size : Nat) : List (Nat × Byte) → Nat → Except CollErr (List Byte)
  | [], _ => .ok []
  | (va, far) :: l, i =>
    match collByte s c .read va (i / size) with
    | .error e => .error e
    | .ok k =>
      match (match k with | some k => collSees s k | none => some far) with
      | none => .error (collRefused 11 (readCode s [k.getD 0]) va (i / size))
      | some b =>
        match collRead s c size l (i + 1) with
        | .error e => .error e
        | .ok bs => .ok (b :: bs)

/-- Addresses of a range with the bytes that stand for it. -/
def withFar (va n : Nat) (far : List Byte) : List (Nat × Byte) := (List.range n).map (fun i => (va + i, far.getD i 0))

/-- Whether the rank list is malformed (R367). -/
def badRanks (rank : Nat) (l : List Word) : Bool :=
  l.zipIdx.any (fun p => 4095 < p.1.toNat || ((p.1 == 0xFFF) != (p.2 == rank)))

/-- What rank j sends. -/
def shareOf (shares : List PeerShare) (j : Nat) : PeerShare := shares.getD j { form := 0, count := 0, same := false, data := [] }

/-- What the engine finds before the exchange: the rank list, the peers it names, its own contribution. Bytes of a peer
page come with the event: those of rank's share, and after the shares the rank list. -/
def collInputs (s : State) (c : CollCmd) (shares : List PeerShare) : Except CollErr (List Byte) :=
  let n := collN c.words
  match collRead s c 8 (withFar (rw c.words 4).toNat (8 * n) (shareOf shares n).data) 0 with
  | .error e => .error e
  | .ok lb =>
    let l := wordsOf n lb
    if badRanks (collRank c.words) l then .error (collPlain 0x0501#16 0)
    else
      match l.zipIdx.findSome? (fun p =>
          if p.2 == collRank c.words then none else (peerCode s c.domain p.1.toNat).map (fun code => (code, p.2))) with
      | some (code, j) =>
        .error { code := code, index := j, far := none, table := false
                 err := if code == 0x0505#16 then some ⟨7, 0, BitVec.ofNat 64 ((rw c.words 4).toNat + 8 * j)⟩ else none }
      | none =>
        collRead s c (collBytes c.words) (withFar (rw c.words 2).toNat (collCount c.words * collBytes c.words)
          (shareOf shares (collRank c.words)).data) 0

/-- A rank's command differs from this one (R404). -/
def mismatched (c : List Word) (p : PeerShare) : Bool :=
  p.form != (rw c 0).extractLsb' 0 12 || p.count != (rw c 1).extractLsb' 0 40 || !p.same

/-- The ranks other than this one have sent what `f` says. -/
def othersAll (c : List Word) (shares : List PeerShare) (f : PeerShare → Bool) : Bool :=
  (List.range (collN c)).all (fun j => j == collRank c || (shares[j]?).any f)
def othersAny (c : List Word) (shares : List PeerShare) (f : PeerShare → Bool) : Bool :=
  (List.range (collN c)).any (fun j => j != collRank c && (shares[j]?).any f)

/-- The contributions in list order, with this rank's own. -/
def contributions (c : List Word) (shares : List PeerShare) (own : List Byte) : List (List Byte) :=
  (List.range (collN c)).map (fun j => if j = collRank c then own else (shareOf shares j).data)

/-- Element i of a contribution. -/
def shareElem (size : Nat) (l : List Byte) (i : Nat) : Word := wordOf ((l.drop (i * size)).take size)

/-- The result of a rank (R255). -/
def collResult (c : List Word) (shares : List (List Byte)) : List Byte :=
  let n := collN c
  let z := collBytes c
  let x := collForm c
  let o := BitVec.ofNat 3 (collOp c)
  let sum := fun (i : Nat) =>
    bytesOf z (treeSum (redIdentity x o) (redApply x o)
      ((List.range n).map (fun j => shareElem z (shares.getD j []) i))).1
  match collKind c with
  | 0 => (List.range (collCount c)).flatMap sum
  | 1 => (List.range n).flatMap (fun j => (List.range (collCount c)).flatMap (fun i =>
      bytesOf z (shareElem z (shares.getD j []) i)))
  | _ => (List.range (collCount c / n)).flatMap (fun i => sum (collRank c * (collCount c / n) + i))

/-- Home addresses of the bytes of recv, from byte i on. -/
def collPlaces (s : State) (c : CollCmd) (size : Nat) : List Nat → Nat → Except CollErr (List (Option Nat))
  | [], _ => .ok []
  | va :: l, i =>
    match collByte s c .write va (i / size) with
    | .error e => .error e
    | .ok k =>
      match collPlaces s c size l (i + 1) with
      | .error e => .error e
      | .ok ks => .ok (k :: ks)

/-- A word that an engine outside the cores writes under its launch: its home address, or that of a peer's memory
(R365, R369). -/
def offPlace (s : State) (w : Who) (q : Ask) (va : Nat) : Except Refused Nat :=
  if va % 8 != 0 then .error ⟨5, 0⟩
  else if windowBase ≤ va && va < 2 ^ 56 then .error ⟨6, 4⟩
  else
    match translate s w q (BitVec.ofNat 64 va) 8 with
    | .error e => .error e
    | .ok p =>
      if p.key < 2 ^ 60 then .ok p.key
      else if (peerCode s w.domain ((p.key - 2 ^ 60) / 2 ^ 40)).isNone && outboundPasses s w.domain .write (p.key - 2 ^ 60) 8 then
        .ok p.key
      else .error ⟨7, 0⟩

/-- The refusal of such a word joins the log of the target, where a table refused it: a peer entry of another domain, or one
that is malformed, is no access table (R366, R369, R408). -/
def noteOff (s : State) (w : Who) (e : Refused) (va : Nat) : State :=
  match leafOf s w va with
  | .error _ => s
  | .ok l =>
    let pa := leafPa l.w0 + (va - l.base)
    if e.cls = 7 && leafKind l.w0 = 3 then
      if (peerCode s w.domain (pa / 2 ^ 40)).isNone then logOutbound s w.domain pa else s
    else noteRefusal s w e.cls (BitVec.ofNat 64 va)

def byColl (e : Entry) : Bool := e.agent == .collective

/-- What a release of the engine sends home: its own entries and, at system scope, those of every agent in the link buffer,
which lies on its path to host memory (R217, R225). -/
def collReleased (scope : BitVec 2) (e : Entry) : Bool := byColl e || (scope == 3#2 && e.loc == .lb)

/-- What the end of a command sends home where no status word is written: its writes, and what its own release asks for
(R230). -/
def collEnded (o : Ord) (e : Entry) : Bool := if o.rel then collReleased o.scope e else byColl e

/-- Words written in turn by the collective engine; the last is a release at the command's scope (R230), at whose point every
entry that it names performs. One that is refused ends the sequence with a fault of the issuing A-hart, and the engine's
release is made all the same (R230, R393). -/
def offWords (s : State) (c : CollCmd) : List (Nat × Word) → State
  | [] => performNow s (collReleased c.ord.scope)
  | (va, v) :: l =>
    match offPlace s c.who (collAsk .write) va with
    | .error e =>
      faultTo (noteOff (performNow s (collEnded c.ord)) c.who e va) c.launch c.epoch c.team c.t (detailWord e.cls e.code 8 (2 ^ 48 - 1)) (BitVec.ofNat 64 va)
    | .ok k => offWords (if k < 2 ^ 60 then enterOff s .collective false (cellsAt k (bytesOf 8 v)) else s) c l

/-- The home addresses of the words that end a command. -/
def endKeys (s : State) (c : CollCmd) : List Nat :=
  ([0, 8, 16] : List Nat).flatMap (fun i =>
    match offPlace s c.who (collAsk .write) ((collStat c.words).toNat + i) with | .ok k => span k 8 | .error _ => [])

/-- The end of the command: the detail word and the address where its code has them, then the status word (R404). It waits
while a home of what it writes is held (R324). -/
def collFinish (s : State) (c : CollCmd) (f : CollEnd) : State :=
  let held := nowHeld s (collReleased c.ord.scope) ++ (if heldByGrotto s (endKeys s c) then endKeys s c else [])
  if held.isEmpty then
    offWords { s with colls := s.colls.drop 1 } c (f.detail ++ [((collStat c.words).toNat, statusWord (rw c.words 6) f.code)])
  else askSuspend s held

/-- The oldest command, its exchange over: no read of it is to come. -/
def setFin (s : State) (c : CollCmd) (f : CollEnd) : State :=
  forgetEarly { s with colls := { c with fin := some f } :: s.colls.drop 1 } offCore [.collective]

/-- The home addresses of the line at `va` that the oldest command, its exchange not over, may read (R216, R255). -/
def collLine (s : State) (va : Nat) : List Nat :=
  match s.colls with
  | [] => []
  | c :: _ =>
    if c.fin.isSome then []
    else (span va 128).filterMap (fun a => match collByte s c .read a 0 with | .ok k => k | .error _ => none)

/-- The engine reads a line before the exchange (R219); nothing comes of one that meets poison or that a row step holds. -/
def collEarly (s : State) (va : Nat) : State :=
  let keys := collLine s va
  if heldByGrotto s keys then askSuspend s keys
  else
    match keys.mapM (fun k => (offSees s .collective k).map (fun b => (k, b))) with
    | none => s
    | some cells =>
      let s := dropEarly s offCore .collective keys
      { s with early := s.early ++ [{ core := offCore, agent := .collective, tick := s.ticks, cells := cells }] }

/-- The detail word of a failure that a rank has only heard of: the status code fixes the class, as far as it goes, and the
engine is this one; code, element and address are open where R404 does not give them. -/
def heardDetail (code : BitVec 16) (free : Word) : Word :=
  let index := free.toNat % 2 ^ 48
  let pick := free.toNat / 2 ^ 48
  if code = 0x0505#16 then detailWord 7 0 8 index
  else if code = 0x0506#16 then detailWord 11 (1 + pick % 4) 8 index
  else if pick % 7 = 0 then detailWord 5 0 8 index
  else detailWord 6 (pick % 7) 8 index

/-- The words of a failure before its status word (R404). -/
def failureWords (s : State) (c : CollCmd) (e : CollErr) : List (Nat × Word) :=
  let stat := (collStat c.words).toNat
  if e.code = 0x0505#16 || e.code = 0x0506#16 || e.code = 0x0507#16 then
    match e.err with
    | some a => [(stat + 8, detailWord a.cls a.code 8 e.index), (stat + 16, a.va)]
    | none =>
      [(stat + 8, heardDetail e.code (Config.collDetail s.ticks)), (stat + 16, Config.collAddr s.ticks)]
  else []

/-- The elements of the contributions, rank and number, from which element i of a rank's result is formed (R255). -/
def resultNeeds (c : List Word) (i : Nat) : List (Nat × Nat) :=
  let n := collN c
  let count := collCount c
  match collKind c with
  | 0 => (List.range n).map (fun j => (j, i))
  | 1 => [(i / max count 1, i % max count 1)]
  | _ => (List.range n).map (fun j => (j, collRank c * (count / n) + i))

/-- Elements of recv that hold their final value after an error, each of them whole and formed from contributions that have
come; granules that received poison carry it (R405). -/
def collPartial (s : State) (c : CollCmd) (shares : List (List Byte)) (poison : Bool) : State :=
  let z := collBytes c.words
  let fin := collResult c.words shares
  let key := fun (i : Nat) =>
    match collByte s c .write ((rw c.words 3).toNat + i) (i / z) with
    | .ok (some k) => some k
    | _ => none
  let done := (List.range (fin.length / max z 1)).filter (fun i =>
    Config.collFinal s.ticks i && (span (i * z) z).all (fun j => (key j).isSome) &&
      (resultNeeds c.words i).all (fun p => (p.2 + 1) * z ≤ (shares.getD p.1 []).length))
  let cells := done.flatMap (fun i => (span (i * z) z).filterMap (fun j => (key j).map (fun k => (k, fin.getD j 0))))
  let hit := (List.range fin.length).filterMap (fun i =>
    (key i).bind (fun k => if poison && Config.collPoison s.ticks (granule k) then some (k, 0#8) else none))
  enterOff (enterOff s .collective false cells) .collective true hit

/-- A command fails (R404, R405); this rank's own contribution is what it reads, none where that fails. The refusal is in the
log of the table that made it (R408). -/
def collFail (s : State) (c : CollCmd) (shares : List PeerShare) (e : CollErr) : State :=
  let own := match collInputs s c shares with
    | .ok own => own
    | .error _ => []
  let f : CollEnd := { code := e.code, detail := failureWords s c e }
  let s := match e.far, e.err with
    | some pa, _ => logOutbound s c.domain pa
    | none, some a => if e.table then noteRefusal s c.who a.cls a.va else s
    | none, none => s
  setFin (collPartial s c (contributions c.words shares own) (e.code == 0x0506#16 && e.err.isNone)) c f

/-- Every home address that the engine reads or may write for a command. -/
def collTouches (s : State) (c : CollCmd) : List Nat :=
  let keys := fun (m : Mode) (va n : Nat) => (List.range n).filterMap (fun i =>
    match collByte s c m (va + i) 0 with | .ok k => k | .error _ => none)
  let n := collCount c.words * collBytes c.words
  keys .read (rw c.words 4).toNat (8 * collN c.words) ++ keys .read (rw c.words 2).toNat n ++
    keys .write (rw c.words 3).toNat (n * collN c.words)

/-- The command runs with the contributions of every rank: its result enters the store buffer. Contributions that have not
all arrived leave it waiting. -/
def collRun (s : State) (c : CollCmd) (shares : List PeerShare) : State :=
  match collInputs s c shares with
  | .error e => collFail s c shares e
  | .ok own =>
    if othersAny c.words shares (mismatched c.words) then
      collFail s c shares (collPlain 0x0503#16 0)
    else if !othersAll c.words shares (fun p => p.data.length == collCount c.words * collBytes c.words) then s
    else
      let fin := collResult c.words (contributions c.words shares own)
      match collPlaces s c (collBytes c.words) (span (rw c.words 3).toNat fin.length) 0 with
      | .error e => collFail s c shares e
      | .ok ks =>
        setFin (enterOff s .collective false ((ks.zip fin).filterMap (fun p => p.1.map (fun k => (k, p.2))))) c { code := 1, detail := [] }

/-- The oldest held command: its end, once the exchange is over, else `k` once no row step of a kernel holds what it
touches (R324). -/
def withColl (s : State) (k : CollCmd → State) : State :=
  match s.colls with
  | [] => s
  | c :: _ =>
    match c.fin with
    | some f => collFinish s c f
    | none => if heldByGrotto s (collTouches s c) then askSuspend s (collTouches s c) else k c

/-- `COLLECTIVE_RUN` (R255): `shares` holds what each rank sends, in list order. The exchange comes in one step, and the
status word in a later one, when every entry of the result performs. -/
def execCollectiveRun (shares : List PeerShare) (s : State) : Out := .next (withColl s fun c => collRun s c shares)

/-- The command in progress fails with a code of R404 that it has heard of; one that has come to its end, or another one,
ignores it (R405). -/
def collHear (s : State) (num : Option Nat) (code : BitVec 16) (shares : List PeerShare) : State :=
  match s.colls with
  | [] => s
  | c :: _ =>
    if c.fin.isSome || num.any (· != c.num) || code.toNat < 0x0501 || 0x0507 < code.toNat then s
    else withColl s fun c => collFail s c shares (collPlain code 0)

/-- `COLLECTIVE_ABORT` (R405) for the command of a number. -/
def execCollectiveAbort (heard : Heard) (shares : List PeerShare) (s : State) : Out :=
  .next (collHear s (some heard.num) heard.code shares)

/-- `PEER_RETRANSMIT_LIMIT` (R404): after 64 retransmissions of a datagram the collective in progress, or the block
transfer, ends with 0x0504. -/
def execPeerRetransmitLimit (lost : Unheard) (shares : List PeerShare) (s : State) : Out :=
  .next (if resentTimes s lost.num < 64 then s
    else
      let s := { s with resends := s.resends.filter (fun d => d.1 != lost.num) }
      if lost.xfer then (if s.xstat == 1 then { s with xstat := 0x0504 } else s) else collHear s none 0x0504#16 shares)

end Sys2Proof.Machine
end

