-- ==== Sys2Proof/Machine/Grotto.lean ====
section
/-! DEFINITION. Grotto: `glaunch` and its checks (R256, R312 to R316, R330), the micro-operations (R317 to R322), sharing,
ends and resumption (R323 to R329, R401, R402) and indexed reduce (R331 to R333, R403). -/

namespace Sys2Proof.Machine

/-! ## Pages that a command pins (R213, R256) -/

/-- What work needs of a page: read, write or both; of the descriptor's own page, only that the A-hart has read it. -/
inductive Perm where
  | desc
  | r
  | w
  | rw
  deriving DecidableEq, Repr

/-- The ask of a pinned page: hbm with grotto = 1, whatever other kind it is (R256). The descriptor names these pages and not
its own, of which R256 asks nothing. -/
def Perm.ask : Perm → Ask
  | .desc => Ask.record
  | .r => { mode := .read, host := true, scratch := true, peer := true, need := .grotto, acc := 0 }
  | .w => { mode := .write, host := true, scratch := true, peer := true, need := .grotto, acc := 1 }
  | .rw => { mode := .atomic, host := true, scratch := true, peer := true, need := .grotto, acc := 1 }

/-- The leaves of a range, page by page: the pins, or the refused address. Marked DESIGN CHOICE: of a range whose later page
is refused, R256 does not say which address counts as the address named; it is the first byte of the refused page. -/
def pinRange (s : State) (q : Ask) : Nat → Nat → Nat → Except (Refused × Nat) (List Pin)
  | 0, _, _ => .ok []
  | k + 1, va, n =>
    if n = 0 then .ok []
    else if windowBase ≤ va then .error (if windowBase + windowSize ≤ va then ⟨6, 6⟩ else ⟨6, 5⟩, va)
    else
      match leafOf s s.who va with
      | .error e => .error (e, va)
      | .ok l =>
        match leafRefusal s.who q l.w0 l.w1 with
        | some e => .error (e, va)
        | none =>
          let m := min n (l.base + l.size - va)
          match pinRange s q k (va + m) (n - m) with
          | .error e => .error e
          | .ok ps =>
            let home := homeKey (leafKind l.w0) (leafPa l.w0 + (va - l.base))
            .ok ({ va := va, len := m, home := home, page := l.base, size := l.size } :: ps)

/-- A range and what the work needs of it. -/
abbrev Part := Nat × Nat × Perm

/-- The pins of several ranges in turn. A descriptor in the window stands on no page. -/
def pinParts (s : State) : List Part → Except (Refused × Nat × Nat) (List (Pin × Perm))
  | [] => .ok []
  | (va, n, m) :: l =>
    match (if m == .desc && windowBase ≤ va then .ok [] else pinRange s m.ask (n / 4096 + 2) va n) with
    | .error (e, at_) => .error (e, m.ask.acc, at_)
    | .ok ps =>
      match pinParts s l with
      | .error e => .error e
      | .ok qs => .ok (ps.map (fun p => (p, m)) ++ qs)

/-- Home address of the first byte of a pinned page. -/
def Pin.pageHome (p : Pin) : Nat := p.home - (p.va - p.page)

/-- The table of a sequencer admits a pinned page, all of it (R369, R401). Marked DESIGN CHOICE: that of the descriptor is
asked as a read, where it lies in the memory of the device. -/
def pinPasses (s : State) (ch : Nat) (p : Pin × Perm) : Bool :=
  let asks := fun (m : Mode) => aclPasses s (1920 + ch) s.core.team.domain m p.1.pageHome p.1.size
  match p.2 with
  | .desc => hbmSize ≤ p.1.home || asks .read
  | .r => asks .read
  | .w => asks .write
  | .rw => asks .read && asks .write

/-- Home address of a pinned byte. -/
def pinned (ps : List Pin) (va : Nat) : Nat :=
  match ps.find? (fun p => p.va ≤ va && va < p.va + p.len) with
  | some p => p.home + (va - p.va)
  | none => 0

def pinnedSpan (ps : List Pin) (va n : Nat) : List Nat := (List.range n).map (fun i => pinned ps (va + i))

/-- Bytes that a sequencer or the adders read through the pins, none where one is poisoned (R221, R231). -/
def pinRead (s : State) (ag : Agent) (ps : List Pin) (va n : Nat) : Option (List Byte) :=
  (pinnedSpan ps va n).mapM (offSees s ag)

/-- A write of an agent through the pins: entries in its store buffer (R220). -/
def pinEnter (s : State) (ag : Agent) (ps : List Pin) (va : Nat) (bytes : List Byte) : State :=
  enterOff s ag false ((pinnedSpan ps va bytes.length).zip bytes)

/-- A releasing write of an agent, all of whose entries have performed: it performs (R218, R225). -/
def pinWrite (s : State) (ps : List Pin) (va : Nat) (bytes : List Byte) : State :=
  s.writeHome ((pinnedSpan ps va bytes.length).zip bytes)

def byAgent (ag : Agent) (e : Entry) : Bool := e.agent == ag

/-! ## The kernel descriptor (R314) -/

def kImage (d : List Word) : Nat := (rw d 0).toNat
def kDwin (d : List Word) : Nat := (rw d 1).toNat
def kTwin (d : List Word) : Nat := (rw d 2).toNat
def kRec (d : List Word) : Nat := (rw d 3).toNat
def kStat (d : List Word) : Nat := (rw d 4).toNat
def kMask (d : List Word) : BitVec 16 := (rw d 5).extractLsb' 48 16
def kStride (d : List Word) : BitVec 16 := (rw d 5).extractLsb' 32 16
def kRows (d : List Word) : Nat := ((rw d 5).extractLsb' 16 16).toNat
def kTrows (d : List Word) : Nat := ((rw d 5).extractLsb' 6 10).toNat
def kGvl (d : List Word) : Nat := ((rw d 5).extractLsb' 0 4).toNat
def kOlen (d : List Word) : Nat := ((rw d 6).extractLsb' 48 16).toNat
def kLc1 (d : List Word) : BitVec 16 := (rw d 6).extractLsb' 32 16
def kLc0 (d : List Word) : BitVec 16 := (rw d 6).extractLsb' 16 16
def kResume (d : List Word) : Bool := (rw d 6).getLsbD 15
def kUlen (d : List Word) : Nat := ((rw d 6).extractLsb' 0 8).toNat
def kTag (d : List Word) : Word := rw d 7
/-- Selected pairs in ascending order, one for each unit. -/
def kPairs (d : List Word) : List Nat := (List.range 16).filter (fun p => (kMask d).getLsbD p)
def kUnits (d : List Word) : Nat := (kPairs d).length

/-- Issue statuses 1 and 2 (R237, R314). -/
def kernelIssue (d : List Word) : Nat :=
  let np := kUnits d
  if !(([0, 1, 2, 3, 4] : List Nat).all (fun i => clearFrom d i 56) && (rw d 5).extractLsb' 4 2 == 0 &&
      (rw d 6).extractLsb' 8 7 == 0 && clearFrom d 7 48) then 1
  else if kImage d % 4 != 0 || kDwin d % 4096 != 0 || kTwin d % 4096 != 0 || kRec d % 64 != 0 || kStat d % 8 != 0 ||
      np == 0 || kRows d == 0 || 32256 < kRows d || 512 < kTrows d || kGvl d == 0 || 8 < kGvl d ||
      (kTwin d == 0) != (kTrows d == 0) || 2 ^ 56 < kImage d + 4 * (kUlen d + 1 + kOlen d) ||
      2 ^ 56 < kDwin d + 4096 * kRows d * np || 2 ^ 56 < kTwin d + 4096 * kTrows d * np ||
      2 ^ 56 < kRec d + 64 + 1024 * np then 2
  else 0

/-- The pages of a kernel whose descriptor lies at `at_`, with their permissions (R256, R315). -/
def kernelParts (at_ : Nat) (d : List Word) : List Part :=
  let np := kUnits d
  [(at_, 64, .desc), (kImage d, 4 * (kUlen d + 1 + kOlen d), .r), (kDwin d, 4096 * kRows d * np, .rw),
    (kTwin d, 4096 * kTrows d * np, .r), (kRec d, 64 + 1024 * np, .rw), (kStat d, 8, .w)]

/-- Ranges and immediates of a micro-word (R315, R318 to R322). -/
def microRange (gvl trows ulen : Nat) (i : Instr) : Bool :=
  i.wf &&
  match i with
  | .grd _ _ g s _ => g.toNat + gvl ≤ 8 && s.toNat + gvl ≤ 8
  | .gwr _ _ g s _ => g.toNat + gvl ≤ 8 && s.toNat + gvl ≤ 8
  | .gadd _ _ _ d a b => d.toNat + gvl ≤ 8 && a.toNat + gvl ≤ 8 && b.toNat + gvl ≤ 8
  | .gsub _ _ _ d a b => d.toNat + gvl ≤ 8 && a.toNat + gvl ≤ 8 && b.toNat + gvl ≤ 8
  | .gmax _ _ _ d a b => d.toNat + gvl ≤ 8 && a.toNat + gvl ≤ 8 && b.toNat + gvl ≤ 8
  | .gtq _ h d a t _ => a.toNat + gvl ≤ 8 && d.toNat + (if h.on then 2 * gvl else gvl) ≤ 8 && t.toNat < trows
  | .gtq2 _ h d a b t _ =>
    a.toNat + gvl ≤ 8 && b.toNat + gvl ≤ 8 && d.toNat + (if h.on then 2 * gvl else gvl) ≤ 8 && t.toNat < trows
  | .gloop _ t => t.toNat ≤ ulen
  | _ => true

/-- A micro-word and its checks. -/
def microOk (gvl trows ulen : Nat) (w : BitVec 32) : Bool :=
  match decodeG w with
  | .instr i => microRange gvl trows ulen i
  | _ => false

def microCode (w : BitVec 32) : Nat := (w.extractLsb' 28 4).toNat
def microTarget (w : BitVec 32) : Nat := (w.extractLsb' 18 8).toNat
def isB (w : BitVec 32) : Bool := microCode w ≤ 9

/-- Costs of a path: B-slice words, transfers, queries (R323). -/
abbrev Cost := Nat × Nat × Nat

def costMax (a b : Cost) : Cost := (max a.1 b.1, max a.2.1 b.2.1, max a.2.2 b.2.2)

def wordCost (gvl : Nat) (w : BitVec 32) : Cost :=
  (if isB w then 1 else 0, if microCode w ≤ 1 then gvl else 0, if microCode w = 6 || microCode w = 7 then 1 else 0)

/-- One round of the greatest cost from each word to the next boundary, given those of the round before. -/
def costRound (ws : List (BitVec 32)) (gvl : Nat) (cost : List Cost) : List Cost :=
  ws.zipIdx.map (fun p =>
    let c := microCode p.1
    if c = 10 || c = 15 then (0, 0, 0)
    else
      let next := cost.getD (p.2 + 1) (0, 0, 0)
      let next := if c = 11 then costMax next (cost.getD (microTarget p.1) (0, 0, 0)) else next
      let own := wordCost gvl p.1
      (min 25 (own.1 + next.1), min 25 (own.2.1 + next.2.1), min 25 (own.2.2 + next.2.2)))

def costRounds (ws : List (BitVec 32)) (gvl : Nat) : Nat → List Cost → List Cost
  | 0, cost => cost
  | k + 1, cost => costRounds ws gvl k (costRound ws gvl cost)

/-- Every path between two row boundaries keeps the budget of R323. After 26 rounds for each word a path that could
grow has passed its limit. -/
def withinBudget (ws : List (BitVec 32)) (gvl : Nat) : Bool :=
  let cost := costRounds ws gvl (26 * ws.length) (List.replicate ws.length (0, 0, 0))
  (cost.zipIdx).all (fun p =>
    !(p.2 == 0 || (match ws[p.2 - 1]? with | some w => microCode w == 10 | none => false)) ||
      (p.1.1 ≤ 24 && p.1.2.1 ≤ 16 && p.1.2.2 ≤ 4))

/-- The image checks of R315. -/
def imageOk (d : List Word) (ws : List (BitVec 32)) : Bool :=
  ws.all (microOk (kGvl d) (kTrows d) (kUlen d)) &&
  (match ws.getLast? with | some w => microCode w == 15 | none => false) &&
  ws.zipIdx.all (fun p =>
    !(microCode p.1 == 11 && microTarget p.1 ≤ p.2) ||
      ((ws.take (p.2 + 1)).drop (microTarget p.1)).any (fun w => microCode w == 10)) &&
  withinBudget ws (kGvl d)

/-- Home addresses of the blocks of a window, row by row. -/
def windowBlocks (ps : List Pin) (base rows np : Nat) : List Nat :=
  (List.range (rows * np)).map (fun i => pinned ps (base + 4096 * i))

/-- The layout rule for one window: rows from row0 on, in [lo, hi), and pairs in order, all in channel ch (R312). -/
def windowOk (l : List Nat) (pairs : List Nat) (ch lo hi : Nat) : Bool :=
  let row0 := rowOf (l.headD 0)
  let np := pairs.length
  l.zipIdx.all (fun p =>
    channelOf p.1 == ch && pairOf p.1 == pairs.getD (p.2 % max np 1) 16 && rowOf p.1 == row0 + p.2 / max np 1 &&
      lo ≤ rowOf p.1 && rowOf p.1 < hi)

/-! ## Invalidations and pins (R212, R213, R328, R333) -/

def invalBase (ws : List Word) : Nat := (rw ws 0).toNat
def invalLen (ws : List Word) : Nat := (rw ws 1).toNat * 4096

/-- Some pinned page of work under a root overlaps the range of an invalidation. -/
def invalPins (ws : List Word) (root : Word) (pins : List Pin) : Bool :=
  root == recRoot ws && pins.any (fun p => meets p.page p.size (invalBase ws) (invalLen ws))

/-- An invalidation that has not completed revokes the pins. -/
def invalidated (s : State) (root : Word) (pins : List Pin) : Bool :=
  s.launches.any (fun r => r.kind == 1 && r.status == .active && invalPins r.words root pins)

/-! ## Sequencers (R316) -/

def seqOf (s : State) (ch : Nat) : Seq :=
  match s.seqs.find? (fun q => q.ch == ch) with
  | some q => q
  | none => { ch := ch, kernels := [], lists := [] }

/-- Puts a sequencer back; one that holds nothing is not listed. -/
def setSeq (s : State) (q : Seq) : State :=
  let rest := s.seqs.filter (fun p => p.ch != q.ch)
  { s with seqs := if q.kernels.isEmpty && q.lists.isEmpty then rest else rest ++ [q] }

/-- Registers of a fresh kernel. -/
def GRegs.fresh (d : List Word) : GRegs where
  gmpc := 0
  growc := 0
  goff := 0
  ocur := 0
  lc0 := kLc0 d
  lc1 := kLc1 d
  units := List.replicate (kUnits d) { g := Vector.replicate 8 0, b := Vector.replicate 4 0 }

/-- Micro-words of an image, read one by one by the scalar agent. -/
def imageThen : Nat → Nat → State → List (BitVec 32) → (State → List (BitVec 32) → Out) → Out
  | 0, _, s, l, k => k s l
  | n + 1, va, s, l, k =>
    readThen s s.scalarAgent Ask.record (BitVec.ofNat 64 va) 4 fun s _ b =>
      imageThen n (va + 4) s (l ++ [BitVec.ofNat 32 (natOf b)]) k

/-- A refused page of a `glaunch`. -/
def pinTrap (s : State) (e : Refused × Nat × Nat) : Out := s.badAccess e.1.cls e.1.code e.2.1 (BitVec.ofNat 64 e.2.2)

/-- A page that the sequencer's table refuses: issue status 5, and the refusal is logged (R369, R401, R408). -/
def pinRefused (s : State) (d : Reg) (ch : Nat) (ps : List (Pin × Perm)) : Out :=
  issueStatus (logRefusal s (1920 + ch) s.core.team.domain
    (((ps.find? (fun p => !pinPasses s ch p)).map (fun p => p.1.pageHome)).getD 0)) d 5

/-- `glaunch` (R256, R314 to R316). -/
def execGlaunch (d a : Reg) (sc : BitVec 2) (q r : Bit) (s : State) : Out :=
  issue true false (.glaunch d a sc q r) s fun s =>
    recordThen s (s.getS a) 8 fun s ws =>
      if kernelIssue ws != 0 then issueStatus s d (kernelIssue ws)
      else
        match pinParts s (kernelParts (s.getS a).toNat ws) with
        | .error e => pinTrap s e
        | .ok ps =>
          imageThen (kUlen ws + 1) (kImage ws) s [] fun s im =>
            let pins := ps.map (·.1)
            let data := windowBlocks pins (kDwin ws) (kRows ws) (kUnits ws)
            let table := windowBlocks pins (kTwin ws) (kTrows ws) (kUnits ws)
            let ch := channelOf (data.headD 0)
            if !imageOk ws im then issueStatus s d 3
            else if !(windowOk data (kPairs ws) ch 0 32256 && windowOk table (kPairs ws) ch 32256 32768) then
              issueStatus s d 4
            else if !ps.all (pinPasses s ch) then pinRefused s d ch ps
            else if 4 ≤ (seqOf s ch).kernels.length then s.stall .engine
            else
              handOver s sc r fun s =>
                let k : Kernel :=
                  { desc := ws, words := im, pins := pins, data := data, table := table, root := s.core.team.root
                    domain := s.core.team.domain, core := s.core.num, t := s.tnd, launch := s.core.team.launch
                    epoch := s.core.team.epoch, team := s.core.team.index, status := .queued, regs := GRegs.fresh ws, kept := GRegs.fresh ws
                    writes := [], inStep := false, suspendReq := false, revokeReq := invalidated s s.core.team.root pins, alerts := 0
                    suspensions := 0, disturbance := 0 }
                let sq := seqOf s ch
                issueStatus (setSeq s { sq with kernels := sq.kernels ++ [k] }) d 0

/-! ## Records and ends (R326, R327) -/

/-- Lanes of an accumulator, or elements of width w of a segment. -/
def segElems (w : Nat) (g : Seg) : List Nat := (List.range (2048 / w)).map (fun i => g.toNat / 2 ^ (i * w) % 2 ^ w)
def segOf (w : Nat) (l : List Nat) : Seg := BitVec.ofNat 2048 (l.foldr (fun v n => v % 2 ^ w + 2 ^ w * n) 0)

/-- The first five words of the record area. -/
def recordWords (k : Kernel) (code : BitVec 16) : List Word :=
  let r := k.regs
  [code ++ (kTag k.desc).extractLsb' 0 48, r.growc ++ r.gmpc ++ 0#8 ++ kMask k.desc, r.goff ++ r.lc1 ++ r.lc0,
    r.ocur ++ 0#24 ++ BitVec.ofNat 8 (kUlen k.desc), k.suspensions ++ k.disturbance]

/-- The record's accumulators, unit by unit. -/
def recordUnits (k : Kernel) : List Byte :=
  k.regs.units.flatMap (fun u => u.b.toList.flatMap (fun b => (segElems 8 b).map (BitVec.ofNat 8)))

/-- The first byte of a pinned range whose write its channel's table refuses (R370). -/
def pinBars (s : State) (ps : List Pin) (domain : BitVec 16) (va n : Nat) : Option Nat :=
  (pinnedSpan ps va n).find? (fun a => !aclPasses s (channelOf a) domain .write a 1)

/-- Writes that end a command, in turn, parts by virtual address, up to one that a table refuses: the virtual and home
addresses of that one (R370, R393). -/
def enterParts (ag : Agent) (ps : List Pin) (domain : BitVec 16) : List (Nat × List Byte) → State → State × Option (Nat × Nat)
  | [], s => (s, none)
  | (va, b) :: l, s =>
    match pinBars s ps domain va b.length with
    | some a => (s, some (va, a))
    | none => enterParts ag ps domain l (pinEnter s ag ps va b)

/-- A refused write of an end, in the table's log: a fault of the issuing A-hart whose detail word names the engine (R393,
R408). -/
def endFault (engine launch epoch team : Nat) (t : Fin 4) (domain : BitVec 16) (at_ : Nat × Nat) (s : State) : State :=
  faultTo (logRefusal s (channelOf at_.2) domain at_.2) launch epoch team t (detailWord 7 0 engine (2 ^ 48 - 1))
    (BitVec.ofNat 64 at_.1)

/-- Removes kernel n of a channel: its pins are released. -/
def dropKernel (s : State) (ch n : Nat) : State :=
  let q := seqOf s ch
  setSeq s { q with kernels := q.kernels.eraseIdx n }

/-- Replaces kernel n of a channel. -/
def setKernel (s : State) (ch n : Nat) (k : Kernel) : State :=
  let q := seqOf s ch
  setSeq s { q with kernels := q.kernels.set n k }

/-- What the entries of an agent that have still to perform wait for: homes that are held, `more` among them (R324). -/
def agentHeld (s : State) (ag : Agent) (more : List Nat) : List Nat :=
  nowHeld s (byAgent ag) ++ (if rowHeld s ag more then more else [])

/-- The last thing of an end, after every write of the agent has performed: `last`, or a request to the row steps in its
way (R225, R324). -/
def atHome (s : State) (ag : Agent) (more : List Nat) (last : State → State) : State :=
  match agentHeld s ag more with
  | [] => last (performNow s (byAgent ag))
  | l => askSuspend s l

/-- The status word of an end, a release, or the fault of one that a table refuses (R326, R333, R393). -/
def endStatus (ps : List Pin) (domain : BitVec 16) (va : Nat) (b : List Byte) (bad : Nat × Nat → State → State) (s : State) :
    State :=
  match pinBars s ps domain va b.length with
  | some a => bad (va, a) s
  | none => pinWrite s ps va b

def Kernel.endFault (k : Kernel) : Nat × Nat → State → State := Machine.endFault 9 k.launch k.epoch k.team k.t k.domain

/-- The end of kernel n of a channel begins: its record (R326, R327). Alerts that it still awaits count: none is lost
(R325). -/
def endKernel (s : State) (ch n : Nat) (code : BitVec 16) (k : Kernel) : State :=
  let d := k.desc
  let k := { k with disturbance := k.disturbance + BitVec.ofNat 32 k.alerts, alerts := 0 }
  match enterParts (.sequencer ch) k.pins k.domain
      (if code = 0x0404#16 then []
        else [(kRec d, (recordWords k code).flatMap (bytesOf 8)), (kRec d + 48, List.replicate 16 0),
              (kRec d + 64, recordUnits k)]) s with
  | (t, none) => setKernel t ch n { k with status := .ending code, writes := [] }
  | (t, some a) => atHome t (.sequencer ch) [] fun s => k.endFault a (dropKernel s ch n)

/-- The end of kernel n: its status word, and its pins are released (R326). -/
def finishKernel (s : State) (ch n : Nat) (code : BitVec 16) (k : Kernel) : State :=
  atHome s (.sequencer ch) (pinnedSpan k.pins (kStat k.desc) 8) fun s =>
    endStatus k.pins k.domain (kStat k.desc) (bytesOf 8 (statusWord (kTag k.desc) code)) k.endFault (dropKernel s ch n)

/-- An end that abandons the row step: the state of the last row boundary (R318, R402). -/
def abandonKernel (s : State) (ch n : Nat) (code : BitVec 16) (k : Kernel) : State :=
  endKernel s ch n code { k with regs := k.kept, writes := [] }

/-- What stands at the last row boundary: S-slice work done beyond it is undone (R324). -/
def Kernel.atBoundary (k : Kernel) : Kernel := { k with regs := k.kept }

/-- A running kernel is always the oldest of its sequencer. -/
def runningKernel (s : State) (ch : Nat) : Option Kernel :=
  match (seqOf s ch).kernels with
  | k :: _ => if k.status == .running then some k else none
  | [] => none

/-- A kernel's registers as a record gives them, the counts beside them (R327). -/
def regsOfRecord (d : List Word) (b : List Byte) : GRegs × BitVec 32 × BitVec 32 :=
  let w := fun (i : Nat) => wordOf ((b.drop (8 * i)).take 8)
  ({ gmpc := (w 1).extractLsb' 24 8
     growc := (w 1).extractLsb' 32 32
     goff := (w 2).extractLsb' 32 32
     ocur := (w 3).extractLsb' 32 32
     lc0 := (w 2).extractLsb' 0 16
     lc1 := (w 2).extractLsb' 16 16
     units := (List.range (kUnits d)).map (fun m =>
       { g := Vector.replicate 8 0
         b := vtab 4 (fun j =>
           segOf 8 (((b.drop (64 + 1024 * m + 256 * j)).take 256).map BitVec.toNat)) }) },
    (w 4).extractLsb' 32 32, (w 4).extractLsb' 0 32)

/-- The record matches the descriptor (R327). -/
def recordFits (d : List Word) (b : List Byte) : Bool :=
  let w := fun (i : Nat) => wordOf ((b.drop (8 * i)).take 8)
  (w 0).extractLsb' 48 16 == 0x0401#16 && (w 0).extractLsb' 0 48 == (kTag d).extractLsb' 0 48 &&
    (w 1).extractLsb' 0 16 == kMask d && ((w 3).extractLsb' 0 8).toNat == kUlen d

/-- `GROTTO_KERNEL_START` (R316, R327). -/
def execGrottoKernelStart (ch : Nat) (s : State) : Out :=
  .next (match (seqOf s ch).kernels with
    | [] => s
    | k :: _ =>
      if k.status != .queued then s
      else if k.revokeReq then endKernel s ch 0 0x0401#16 k
      else if !kResume k.desc then setKernel s ch 0 { k with status := .running }
      else if heldElsewhere s ch (pinnedSpan k.pins (kRec k.desc) (64 + 1024 * kUnits k.desc)) then
        askSuspend s (pinnedSpan k.pins (kRec k.desc) (64 + 1024 * kUnits k.desc))
      else
        match pinRead s (.sequencer ch) k.pins (kRec k.desc) (64 + 1024 * kUnits k.desc) with
        | none => endKernel s ch 0 0x0406#16 k
        | some b =>
          if !recordFits k.desc b then endKernel s ch 0 0x0404#16 k
          else
            let r := regsOfRecord k.desc b
            setKernel s ch 0 { k with status := .running, regs := r.1, kept := r.1, suspensions := r.2.1,
                                      disturbance := r.2.2 })

/-! ## Row boundaries (R317, R324, R325, R328) -/

/-- Segment registers become zero. -/
def GRegs.closed (r : GRegs) : GRegs := { r with units := r.units.map (fun u => { u with g := Vector.replicate 8 0 }) }

/-- The row step's writes reach the array (R402). -/
def commitWrites (s : State) (k : Kernel) : State := k.writes.foldl State.writeHome s

/-- A suspension at a row boundary, which counts, with the alerts serviced then (R324, R325). -/
def Kernel.suspend (k : Kernel) : Kernel :=
  { k with
    status := .suspended, suspendReq := false, suspensions := k.suspensions + 1
    disturbance := k.disturbance + BitVec.ofNat 32 k.alerts, alerts := 0 }

/-- A row boundary after a step: the writes perform, and the kernel goes on, suspends, or ends REVOKED. -/
def rowBoundary (s : State) (ch : Nat) (k : Kernel) : State :=
  let s := commitWrites s k
  let k := { k with regs := k.regs.closed, kept := k.regs.closed, writes := [], inStep := false }
  if k.revokeReq then endKernel (setKernel s ch 0 k.suspend) ch 0 0x0401#16 k.suspend
  else setKernel s ch 0 (if k.suspendReq then k.suspend else k)

/-- `KERNEL_SUSPEND` (R324). -/
def execKernelSuspend (ch : Nat) (s : State) : Out :=
  .next (match runningKernel s ch with
    | some k => if k.inStep then setKernel s ch 0 { k with suspendReq := true } else s
    | none => s)

/-- `KERNEL_RESUME` (R324). -/
def execKernelResume (ch : Nat) (s : State) : Out :=
  .next (match (seqOf s ch).kernels with
    | k :: _ => if k.status == .suspended && !k.revokeReq then setKernel s ch 0 { k with status := .running } else s
    | [] => s)

/-- `REFRESH` (R325). -/
def execRefresh (ch : Nat) (s : State) : Out :=
  .next (match runningKernel s ch with
    | some k => setKernel s ch 0 { k with suspendReq := true }
    | none => s)

/-- `ACTIVATION_COUNT_ALERT` (R325): it counts for the kernel when the counter holds an activation of it. -/
def execActivationCountAlert (ch : Nat) (mine : Bool) (s : State) : Out :=
  .next (match (seqOf s ch).kernels with
    | k :: _ =>
      if k.status == .running then
        setKernel s ch 0 { k with suspendReq := true, alerts := if mine then k.alerts + 1 else k.alerts }
      else if k.status == .suspended && mine then setKernel s ch 0 { k with disturbance := k.disturbance + 1 }
      else s
    | [] => s)

/-! ## Micro-operations -/

/-- A byte that the sequencer in focus reads for a kernel: what the step has written, else what it sees (R221, R329). -/
def rowByte (s : State) (k : Kernel) (a : Nat) : Byte :=
  match k.writes.reverse.findSome? (fun l => (l.find? (fun c => c.1 == a)).map (·.2)) with
  | some b => b
  | none => (offSees s (.sequencer s.gch) a).getD 0

/-- A byte of a row meets poison: its granule is poisoned and the sequencer has not written it (R402). -/
def rowPoison (s : State) (k : Kernel) (a : Nat) : Bool :=
  (offSees s (.sequencer s.gch) a).isNone && !k.writes.any (fun l => l.any (fun c => c.1 == a))

/-- What the sequencer finds when it fetches the next micro-word at home (R317, R329). -/
inductive MicroFetch where
  | word (w : BitVec 32)
  /-- A row step of another kernel holds the bytes (R324). -/
  | held (addrs : List Nat)
  | poison

/-- The word that `gmpc` names, read at home. Marked DESIGN CHOICE: one that the image check of R315 would refuse, since
the image has been written over, runs as it stood at issue; beyond the image, where a record or an image written over may
send a kernel, the pinned pages give the word, or none does and it is open; and one that is no micro-word ends the kernel
as `gend`. -/
def fetchMicro (s : State) (ch : Nat) (k : Kernel) : MicroFetch :=
  let at_ := pinnedSpan k.pins (kImage k.desc + 4 * k.regs.gmpc.toNat) 4
  let issued := k.words.getD k.regs.gmpc.toNat 0xF0000000#32
  let ok := microOk (kGvl k.desc) (kTrows k.desc) (kUlen k.desc)
  if kUlen k.desc + kOlen k.desc < k.regs.gmpc.toNat then
    .word (if ok (Config.strayWord s.ticks) then Config.strayWord s.ticks else issued)
  else if heldElsewhere s ch at_ then .held at_
  else if at_.any (rowPoison s k) then .poison
  else
    let w := BitVec.ofNat 32 (natOf (at_.map (rowByte s k)))
    .word (if ok w then w else issued)

/-- One micro-word of the running kernel of the channel in focus, of the B-slice or the S-slice; `gmpc` goes to the next
word first. The first B-slice word after a boundary opens a row step (R317). A kernel that is to be revoked begins no
further step, and S-slice work beyond the boundary is undone (R324, R328). -/
def micro (bslice : Bool) (s : State) (body : State → Kernel → State) : Out :=
  match runningKernel s s.gch with
  | none => .next s
  | some k =>
    if k.revokeReq && !k.inStep then .next (endKernel s s.gch 0 0x0401#16 k.atBoundary.suspend)
    else .next (body s { k with inStep := k.inStep || bslice, regs := { k.regs with gmpc := k.regs.gmpc + 1 } })

/-- The kernel with its step open, back at the word it could not finish. -/
def retryWord (s : State) (k : Kernel) : State :=
  setKernel s s.gch 0 { k with regs := { k.regs with gmpc := k.regs.gmpc - 1 } }

/-- The kernel ends at the word it is on, its writes performed (R326). `gend` is a row boundary, at which a suspension that
has been asked for counts (R317, R324, R325). -/
def endHere (s : State) (k : Kernel) (code : BitVec 16) (boundary : Bool) : State :=
  let k' := { k with writes := [], regs := { k.regs with gmpc := k.regs.gmpc - 1 } }
  endKernel (setKernel (commitWrites s k) s.gch 0 k') s.gch 0 code (if boundary && k.suspendReq then k'.suspend else k')

/-- Every unit acts on its own registers (R317). -/
def onUnits (s : State) (k : Kernel) (f : Nat → GUnit → GUnit) : State :=
  setKernel s s.gch 0 { k with regs := { k.regs with units := k.regs.units.zipIdx.map (fun p => f p.2 p.1) } }

def GUnit.seg (u : GUnit) (n : Nat) : Seg := u.g[n % 8]'(Nat.mod_lt _ (by decide))
def GUnit.setSeg (u : GUnit) (n : Nat) (v : Seg) : GUnit := { u with g := u.g.set (n % 8) v (Nat.mod_lt _ (by decide)) }
def GUnit.acc (u : GUnit) (n : Nat) : Seg := u.b[n % 4]'(Nat.mod_lt _ (by decide))
def GUnit.setAcc (u : GUnit) (n : Nat) (v : Seg) : GUnit := { u with b := u.b.set (n % 4) v (Nat.mod_lt _ (by decide)) }

/-- Window row of a transfer, exact (R318). -/
def transferRow (k : Kernel) (o : Bit) (p : BitVec 16) : Int :=
  k.regs.growc.toInt + p.toInt + (if o.on then k.regs.goff.toInt else 0)

/-- Home address of segment `seg` of bank X of unit m in a window row. -/
def segAddr (blocks : List Nat) (np row m : Nat) (bank : Bit) (seg : Nat) : Nat :=
  blocks.getD (row * np + m) 0 + 2048 * bank.toNat + 256 * seg

/-- Segments from `seg` on, of a row, into registers from `g` on of unit m. -/
def loadSegs (s : State) (k : Kernel) (row : Nat) (bank : Bit) (g seg m : Nat) (u : GUnit) : GUnit :=
  (List.range (kGvl k.desc)).foldl (fun u i =>
    u.setSeg (g + i) (segOf 8 ((span (segAddr k.data (kUnits k.desc) row m bank (seg + i)) 256).map
      (fun a => (rowByte s k a).toNat)))) u

/-- `grd` (R318). -/
def execGrd (b o : Bit) (g sg : BitVec 3) (p : BitVec 16) (s : State) : Out :=
  micro true s fun s k =>
    let row := transferRow k o p
    if row < 0 || (kRows k.desc : Int) ≤ row then abandonKernel s s.gch 0 0x0402#16 k
    else if (List.range (kUnits k.desc)).any (fun m =>
        (span (segAddr k.data (kUnits k.desc) row.toNat m b sg.toNat) (256 * kGvl k.desc)).any (rowPoison s k)) then
      abandonKernel s s.gch 0 0x0406#16 k
    else onUnits s k (loadSegs s k row.toNat b g.toNat sg.toNat)

/-- `gwr` (R318): the writes wait for the row boundary (R402). -/
def execGwr (b o : Bit) (g sg : BitVec 3) (p : BitVec 16) (s : State) : Out :=
  micro true s fun s k =>
    let row := transferRow k o p
    if row < 0 || (kRows k.desc : Int) ≤ row then abandonKernel s s.gch 0 0x0402#16 k
    else
      let ws := k.regs.units.zipIdx.flatMap (fun u =>
        (List.range (kGvl k.desc)).map (fun i =>
          cellsAt (segAddr k.data (kUnits k.desc) row.toNat u.2 b (sg.toNat + i))
            ((segElems 8 (u.1.seg (g.toNat + i))).map (BitVec.ofNat 8))))
      setKernel s s.gch 0 { k with writes := k.writes ++ ws }

/-- Element width of a code. -/
def laneBits (w : BitVec 2) : Nat := 8 * 2 ^ w.toNat

/-- An element read signed or not. -/
def laneVal (w : Nat) (signed : Bit) (v : Nat) : Int := if signed.on then (BitVec.ofNat w v).toInt else v

/-- A value wrapped to a width. -/
def wrapLane (w : Nat) (v : Int) : Nat := (v % (2 : Int) ^ w).toNat

/-- A lane-wise operation over gvl registers, all sources read first (R319). -/
def laneWise (s : State) (w : BitVec 2) (d a b : BitVec 3) (f : Nat → Nat → Nat) : Out :=
  micro true s fun s k =>
    onUnits s k fun _ u =>
      (List.range (kGvl k.desc)).foldl (fun v i =>
        v.setSeg (d.toNat + i) (segOf (laneBits w)
          (((segElems (laneBits w) (u.seg (a.toNat + i))).zip (segElems (laneBits w) (u.seg (b.toNat + i)))).map
            (fun p => f p.1 p.2)))) u

/-- A sum or difference, saturated or wrapped. -/
def laneSum (w : BitVec 2) (m n : Bit) (v : Int) : Nat :=
  wrapLane (laneBits w) (if m.on then sat n.on (laneBits w) v else v)

/-- `gadd` (R319). -/
def execGadd (w : BitVec 2) (m n : Bit) (d a b : BitVec 3) (s : State) : Out :=
  laneWise s w d a b fun x y => laneSum w m n (laneVal (laneBits w) n x + laneVal (laneBits w) n y)

/-- `gsub` (R319). -/
def execGsub (w : BitVec 2) (m n : Bit) (d a b : BitVec 3) (s : State) : Out :=
  laneWise s w d a b fun x y => laneSum w m n (laneVal (laneBits w) n x - laneVal (laneBits w) n y)

/-- `gmax` (R319): bit 24 selects the minimum. -/
def execGmax (w : BitVec 2) (m n : Bit) (d a b : BitVec 3) (s : State) : Out :=
  laneWise s w d a b fun x y =>
    let less := laneVal (laneBits w) n x ≤ laneVal (laneBits w) n y
    if m.on then (if less then x else y) else (if less then y else x)

/-- Accumulators that a segment of a width spans (R321). -/
def accSpan (w : BitVec 2) : Nat := 4 / 2 ^ w.toNat

/-- `gacc` (R321). -/
def execGacc (w : BitVec 2) (m n : Bit) (g : BitVec 3) (b : BitVec 2) (s : State) : Out :=
  micro true s fun s k =>
    onUnits s k fun _ u =>
      let es := segElems (laneBits w) (u.seg g.toNat)
      (List.range (accSpan w)).foldl (fun v j =>
        v.setAcc (b.toNat + j) (segOf 32 (((segElems 32 (u.acc (b.toNat + j))).zip (es.drop (64 * j))).map (fun p =>
          wrapLane 32 ((if m.on then 0 else (p.1 : Int)) + laneVal (laneBits w) n p.2))))) u

/-- `gnar` (R321). -/
def execGnar (w : BitVec 2) (m n : Bit) (g : BitVec 3) (b : BitVec 2) (s : State) : Out :=
  micro true s fun s k =>
    onUnits s k fun _ u =>
      let lanes := (List.range (accSpan w)).flatMap (fun j => segElems 32 (u.acc (b.toNat + j)))
      u.setSeg g.toNat (segOf (laneBits w) (lanes.map (fun v =>
        laneSum w m n (laneVal 32 n v))))

/-- `gshr` (R321). -/
def execGshr (m : BitVec 2) (n : Bit) (h : Reg) (b c : BitVec 2) (s : State) : Out :=
  micro true s fun s k =>
    onUnits s k fun _ u =>
      (List.range (2 ^ c.toNat)).foldl (fun v j =>
        v.setAcc (b.toNat + j) (segOf 32 ((segElems 32 (u.acc (b.toNat + j))).map (fun x =>
          wrapLane 32 (fixedRound (laneVal 32 n x) h.toNat m))))) u

/-- The bytes of a table of one or two segments (R320). -/
def tableBytes (s : State) (k : Kernel) (m : Nat) (bank h : Bit) (t ts : Nat) : List Nat :=
  (span (segAddr k.table (kUnits k.desc) t m bank ts) (if h.on then 512 else 256)).map (fun a => (rowByte s k a).toNat)

/-- Answers of a table to a string of indices: a byte each, or two. -/
def answers (tab : List Nat) (h : Bit) (is : List Nat) : List Nat :=
  if h.on then is.flatMap (fun i => [tab.getD (2 * i) 0, tab.getD (2 * i + 1) 0]) else is.map (fun i => tab.getD i 0)

/-- A table query with the index strings of each register (R320), all of them taken before any answer is written. -/
def query (s : State) (bank h : Bit) (d : BitVec 3) (t : BitVec 9) (ts : BitVec 3) (idx : GUnit → Nat → List Nat) : Out :=
  micro true s fun s k =>
    if (List.range (kUnits k.desc)).any (fun m =>
        (span (segAddr k.table (kUnits k.desc) t.toNat m bank ts.toNat) (if h.on then 512 else 256)).any (rowPoison s k)) then
      abandonKernel s s.gch 0 0x0406#16 k
    else
      onUnits s k fun m u =>
        let tab := tableBytes s k m bank h t.toNat ts.toNat
        (List.range (kGvl k.desc)).foldl (fun v i =>
          let l := answers tab h (idx u i)
          if h.on then
            (v.setSeg (d.toNat + 2 * i) (segOf 8 (l.take 256))).setSeg (d.toNat + 2 * i + 1) (segOf 8 (l.drop 256))
          else v.setSeg (d.toNat + i) (segOf 8 l)) u

/-- `gtq` (R320). -/
def execGtq (b h : Bit) (d a : BitVec 3) (t : BitVec 9) (ts : BitVec 3) (s : State) : Out :=
  query s b h d t ts fun u i => segElems 8 (u.seg (a.toNat + i))

/-- `gtq2` (R320). -/
def execGtq2 (b h : Bit) (d a c : BitVec 3) (t : BitVec 9) (ts : BitVec 3) (s : State) : Out :=
  query s b h d t ts fun u i =>
    ((segElems 8 (u.seg (a.toNat + i))).zip (segElems 8 (u.seg (c.toNat + i)))).map (fun p =>
      p.1 % 16 * 16 + p.2 % 16)

/-- `grow` (R322). -/
def execGrow (s : State) : Out :=
  micro false s fun s k =>
    rowBoundary s s.gch { k with regs := { k.regs with growc := k.regs.growc + (kStride k.desc).signExtend 32 } }

/-- `gloop` (R322). -/
def execGloop (n : Bit) (t : BitVec 8) (s : State) : Out :=
  micro false s fun s k =>
    let r := k.regs
    setKernel s s.gch 0 { k with
      regs :=
        if n.on then
          (if r.lc1 = 0 then { r with lc1 := kLc1 k.desc } else { r with lc1 := r.lc1 - 1, gmpc := t })
        else (if r.lc0 = 0 then { r with lc0 := kLc0 k.desc } else { r with lc0 := r.lc0 - 1, gmpc := t }) }

/-- `gqin` (R322): the offset is read at home, after the kernel's own writes. -/
def execGqin (s : State) : Out :=
  micro false s fun s k =>
    let at_ := pinnedSpan k.pins (kImage k.desc + 4 * (kUlen k.desc + 1 + k.regs.ocur.toNat)) 4
    if kOlen k.desc ≤ k.regs.ocur.toNat then endHere s k 0x0403#16 false
    else if heldElsewhere s s.gch at_ then askSuspend (retryWord s k) at_
    else if at_.any (rowPoison s k) then abandonKernel s s.gch 0 0x0406#16 k
    else
      setKernel s s.gch 0 { k with
        regs := { k.regs with goff := BitVec.ofNat 32 (natOf (at_.map (rowByte s k))), ocur := k.regs.ocur + 1 } }

/-- `gqout` (R322): every write of the sequencer performs, then the progress word as a release. Writes of an open row step
reach the array at its closing boundary only (R402); no other agent can tell, since the pairs are held till then (R324). -/
def execGqout (s : State) : Out :=
  micro false s fun s k =>
    let at_ := pinnedSpan k.pins (kRec k.desc + 40) 8
    match agentHeld s (.sequencer s.gch) at_ with
    | [] =>
      setKernel (pinWrite (performNow s (byAgent (.sequencer s.gch))) k.pins (kRec k.desc + 40)
          (bytesOf 8 (k.regs.growc.setWidth 64))) s.gch 0
        { k with writes := k.writes.map (fun l => l.filter (fun c => !at_.contains c.1)) }
    | l => askSuspend (retryWord s k) l

/-- `gsync` (R322): words execute one at a time, and later ones see the kernel's own writes (R317); the array takes them at
the closing boundary (R402). -/
def execGsync (s : State) : Out :=
  micro false s fun s k =>
    match agentHeld s (.sequencer s.gch) [] with
    | [] => setKernel (performNow s (byAgent (.sequencer s.gch))) s.gch 0 k
    | l => askSuspend (retryWord s k) l

/-- `gend` (R322): the record names the word itself. -/
def execGend (s : State) : Out := micro false s fun s k => endHere s k 1#16 true

/-! ## Indexed reduce (R330 to R333) -/

def rList (d : List Word) : Nat := (rw d 0).toNat
def rTable (d : List Word) : Nat := (rw d 1).toNat
def rOut (d : List Word) : Nat := (rw d 2).toNat
def rRec (d : List Word) : Nat := (rw d 3).toNat
def rStat (d : List Word) : Nat := (rw d 4).toNat
def rRows (d : List Word) : Nat := ((rw d 5).extractLsb' 36 28).toNat
def rCmds (d : List Word) : Nat := ((rw d 5).extractLsb' 0 32).toNat
def rOuts (d : List Word) : Nat := ((rw d 6).extractLsb' 32 32).toNat
def rElems (d : List Word) : Nat := ((rw d 6).extractLsb' 10 11).toNat
/-- A format of R330 by its code. -/
def rFmt (c : Nat) : Fmt := if c = 9 then .fp32 else if c = 10 then .bf16 else .fp16
def rOfmt (d : List Word) : Nat := ((rw d 6).extractLsb' 4 4).toNat
def rTfmt (d : List Word) : Nat := ((rw d 6).extractLsb' 0 4).toNat
def rSize (c : Nat) : Nat := (rFmt c).width / 8
/-- Bytes of a row, rounded up to 64. -/
def rPitch (d : List Word) (c : Nat) : Nat := (rElems d * rSize c + 63) / 64 * 64

/-- Issue statuses 1 and 2 (R237, R330). -/
def reduceIssue (d : List Word) : Nat :=
  if !(([0, 1, 2, 3, 4] : List Nat).all (fun i => clearFrom d i 56) && (rw d 5).extractLsb' 32 4 == 0 &&
      (rw d 6).extractLsb' 21 11 == 0 && (rw d 6).extractLsb' 8 2 == 0 && clearFrom d 7 48) ||
      !([9, 10, 11] : List Nat).contains (rOfmt d) || !([9, 10, 11] : List Nat).contains (rTfmt d) then 1
  else if rList d % 8 != 0 || rTable d % 64 != 0 || rOut d % 64 != 0 || rRec d % 8 != 0 || rStat d % 8 != 0 ||
      rRows d == 0 || rCmds d == 0 || rOuts d == 0 || rElems d == 0 || 512 < rElems d ||
      1024 < rElems d * rSize (rTfmt d) then 2
  else 0

def reduceParts (d : List Word) : List Part :=
  [(rList d, 8 * rCmds d, .r), (rTable d, rRows d * rPitch d (rTfmt d), .r), (rOut d, rOuts d * rPitch d (rOfmt d), .w),
    (rRec d, 8, .rw), (rStat d, 8, .w)]

/-- Stack of a channel (R17, R310). -/
def stackOf (ch : Nat) : Nat :=
  let d := ch / 48
  let c := ch % 48
  3 * (d / 2) + (if d % 2 = 0 then (if c < 32 then 0 else 1) else (if c < 16 then 1 else 2))

/-- Every channel that a pinned part reaches lies in a stack. -/
def pinStack (st : Nat) (p : Pin) : Bool :=
  (List.range (p.len / 0x10000 + 2)).all (fun i =>
    let a := min (p.home + i * 0x10000) (p.home + p.len - 1)
    stackOf (channelOf a) == st)

/-- `glaunch.red` (R256, R330). -/
def execGlaunchRed (d a : Reg) (sc : BitVec 2) (q r : Bit) (s : State) : Out :=
  issue true false (.glaunchRed d a sc q r) s fun s =>
    recordThen s (s.getS a) 8 fun s ws =>
      if reduceIssue ws != 0 then issueStatus s d (reduceIssue ws)
      else
        match pinParts s (reduceParts ws) with
        | .error e => pinTrap s e
        | .ok ps =>
          let pins := ps.map (·.1)
          let ch := channelOf (pinned pins (rList ws))
          if !pins.all (pinStack (stackOf ch)) then issueStatus s d 4
          else if !ps.all (pinPasses s ch) then pinRefused s d ch ps
          else if 4 ≤ (seqOf s ch).lists.length then s.stall .engine
          else
            handOver s sc r fun s =>
              let l : RedList :=
                { desc := ws, pins := pins, root := s.core.team.root, domain := s.core.team.domain
                  core := s.core.num, t := s.tnd, launch := s.core.team.launch, epoch := s.core.team.epoch
                  team := s.core.team.index, started := false, bag := 0, c := 0, start := 0, acc := []
                  revokeReq := invalidated s s.core.team.root pins, fin := none }
              let sq := seqOf s ch
              issueStatus (setSeq s { sq with lists := sq.lists ++ [l] }) d 0

/-- Accumulators of a new bag: -0.0 (R332). -/
def freshBag (d : List Word) : List (BitVec 32) := List.replicate (rElems d) 0x80000000#32

def setList (s : State) (ch n : Nat) (l : RedList) : State :=
  let q := seqOf s ch
  setSeq s { q with lists := q.lists.set n l }

/-- Removes list n of a channel: its pins are released. -/
def dropList (s : State) (ch n : Nat) : State :=
  let q := seqOf s ch
  setSeq s { q with lists := q.lists.eraseIdx n }

def RedList.endFault (l : RedList) : Nat × Nat → State → State := Machine.endFault 10 l.launch l.epoch l.team l.t l.domain

/-- The end of list n of a channel begins: the cursor where it has started, a plain write (R333). -/
def endList (s : State) (ch n : Nat) (code : BitVec 16) (l : RedList) : State :=
  match enterParts (.adders ch) l.pins l.domain
      (if l.started then [(rRec l.desc, bytesOf 8 (BitVec.ofNat 64 (l.bag * 2 ^ 32 + l.start)))] else []) s with
  | (t, none) => setList t ch n { l with fin := some code }
  | (t, some a) => atHome t (.adders ch) [] fun s => l.endFault a (dropList s ch n)

/-- The end of list n: its status word, and its pins are released (R326, R333). -/
def finishList (s : State) (ch n : Nat) (code : BitVec 16) (l : RedList) : State :=
  atHome s (.adders ch) (pinnedSpan l.pins (rStat l.desc) 8) fun s =>
    endStatus l.pins l.domain (rStat l.desc) (bytesOf 8 (statusWord (rw l.desc 7) code)) l.endFault (dropList s ch n)

/-- What a sequencer or its adders have begun to end goes to its end: the first such kernel, else the first such list. -/
def endMove (s : State) (ch : Nat) : Option State :=
  let q := seqOf s ch
  match q.kernels.zipIdx.findSome? (fun p => match p.1.status with | .ending c => some (p, c) | _ => none) with
  | some ((k, n), c) => some (finishKernel s ch n c k)
  | none => (q.lists.zipIdx.findSome? (fun p => p.1.fin.map (fun c => (p, c)))).map (fun p => finishList s ch p.1.2 p.2 p.1.1)

/-- `REDUCE_LIST_START` (R332): from the cursor. -/
def execReduceListStart (ch : Nat) (s : State) : Out :=
  .next (match (seqOf s ch).lists with
    | [] => s
    | l :: _ =>
      let cur := pinnedSpan l.pins (rRec l.desc) 8
      if l.started || l.fin.isSome then s
      else if l.revokeReq then endList s ch 0 0x0401#16 l
      else if heldByGrotto s cur then askSuspend s cur
      else
        match pinRead s (.adders ch) l.pins (rRec l.desc) 8 with
        | none => endList s ch 0 0x0406#16 l
        | some b =>
          let n := natOf b
          setList s ch 0 { l with started := true, bag := n / 2 ^ 32, c := n % 2 ^ 32, start := n % 2 ^ 32,
                                  acc := freshBag l.desc })

/-- Rows that a command word adds; none when it is malformed (R331). -/
def commandRows (w : Word) : Option (List Nat) :=
  let a := (w.extractLsb' 32 28).toNat
  let b := (w.extractLsb' 4 28).toNat
  if w.extractLsb' 1 3 != 0 then none
  else
    match (w.extractLsb' 60 4).toNat with
    | 0 => if a = 0 ∧ b = 0 then some [] else none
    | 1 => if b = 0 then some [a] else none
    | 2 => some [a, b]
    | _ => none

/-- Adds a row (R332); none where it meets poison. -/
def addRow (s : State) (ch : Nat) (l : RedList) (r : Nat) : Option RedList :=
  let d := l.desc
  let z := rSize (rTfmt d)
  match pinRead s (.adders ch) l.pins (rTable d + r * rPitch d (rTfmt d)) (rElems d * z) with
  | none => none
  | some b =>
    some { l with acc := l.acc.zipIdx.map (fun p =>
      let v := (fpConvert (rFmt (rTfmt d)) .fp32 .rne (wordOf ((b.drop (p.2 * z)).take z))).1
      (fpAdd .fp32 .rne (p.1.setWidth 64) v).1.setWidth 32) }

def addRows (s : State) (ch : Nat) : List Nat → RedList → Option RedList
  | [], l => some l
  | r :: rs, l =>
    match addRow s ch l r with
    | none => none
    | some l => addRows s ch rs l

/-- The output row of a bag. -/
def bagBytes (l : RedList) : List Byte :=
  l.acc.flatMap (fun a =>
    bytesOf (rSize (rOfmt l.desc)) (fpConvert .fp32 (rFmt (rOfmt l.desc)) .rne (a.setWidth 64)).1)

/-- One command word of a started list (R332, R403); the output row of a bag enters the adders' store buffer (R220). -/
def commandStep (s : State) (ch : Nat) (l : RedList) (w : Word) : State :=
  let d := l.desc
  match commandRows w with
  | none => endList s ch 0 0x0405#16 l
  | some rs =>
    let rows := rs.flatMap (fun r => pinnedSpan l.pins (rTable d + r * rPitch d (rTfmt d)) (rElems d * rSize (rTfmt d)))
    if rs.any (fun r => rRows d ≤ r) then endList s ch 0 0x0405#16 l
    else if heldByGrotto s rows then askSuspend s rows
    else
      match addRows s ch rs l with
      | none => endList s ch 0 0x0406#16 l
      | some l =>
        let l := { l with c := l.c + 1 }
        if !w.getLsbD 0 then setList s ch 0 l
        else if rOuts d ≤ l.bag then endList s ch 0 0x0405#16 l
        else
          setList (pinEnter s (.adders ch) l.pins (rOut d + l.bag * rPitch d (rOfmt d)) (bagBytes l)) ch 0
            { l with bag := l.bag + 1, start := l.c, acc := freshBag d }

/-- `REDUCE_COMMAND_WORD` (R332). -/
def execReduceCommandWord (ch : Nat) (s : State) : Out :=
  .next (match (seqOf s ch).lists with
    | [] => s
    | l :: _ =>
      let at_ := pinnedSpan l.pins (rList l.desc + 8 * l.c) 8
      if !l.started || l.fin.isSome then s
      else if l.revokeReq then endList s ch 0 0x0401#16 l
      else if rCmds l.desc ≤ l.c then endList s ch 0 1#16 l
      else if heldByGrotto s at_ then askSuspend s at_
      else
        match pinRead s (.adders ch) l.pins (rList l.desc + 8 * l.c) 8 with
        | none => endList s ch 0 0x0406#16 l
        | some b => commandStep s ch l (wordOf b))

/-! ## Revocation (R213, R328, R333) -/

/-- The first kernel of a channel that may end REVOKED now: queued, suspended or between row steps. -/
def revocable (q : Seq) : Option Nat :=
  q.kernels.findIdx? (fun k => k.revokeReq && !(k.status == .running && k.inStep) &&
    (match k.status with | .ending _ => false | _ => true))

def revokeKernels (ch : Nat) : Nat → State → State
  | 0, s => s
  | n + 1, s =>
    match revocable (seqOf s ch) with
    | none => s
    | some i =>
      match (seqOf s ch).kernels[i]? with
      | none => s
      | some k =>
        revokeKernels ch n (endKernel s ch i 0x0401#16 (if k.status == .running then k.atBoundary.suspend else k))

def revokeLists (ch : Nat) : Nat → State → State
  | 0, s => s
  | n + 1, s =>
    match (seqOf s ch).lists.findIdx? (fun l => l.revokeReq && l.fin.isNone) with
    | none => s
    | some i =>
      match (seqOf s ch).lists[i]? with
      | none => s
      | some l => revokeLists ch n (endList s ch i 0x0401#16 l)

/-- `KERNEL_REVOKE` (R328, R333): the kernels and lists of a channel that an invalidation revokes and that stand at a
boundary end; one in a row step ends at its boundary. -/
def execKernelRevoke (ch : Nat) (s : State) : Out := .next (revokeLists ch 4 (revokeKernels ch 4 s))

end Sys2Proof.Machine
end

