-- ==== Sys2Proof/Machine/Blocks.lean ====
section
/-! DEFINITION. Element blocks (R191 to R201). The lanes of a block run one after the other in ascending order, which
gives every incoming value before its lane starts (R198); a step runs one word of the lane in progress, and a group
commits when its last lane has finished. -/

namespace Sys2Proof.Machine

/-! ## The block image (R191) -/

/-- A vector field of a word names a whole group (R58, R196). -/
def onGroup (x : XHart) (r : Reg) : Bool := r.toNat % max (x.g 1) 1 == 0

/-- The format that a word of an element-capable opcode accepts (R168, R199). -/
def wordFmtOk (x : XHart) (op : Nat) (b : Reg) : Bool :=
  if op ≤ 0x1F then true
  else if op ≤ 0x61 || op == 0x68 then fmtInt x.fmt && x.matched
  else if op ≤ 0x69 then x.matched
  else if op ≤ 0x77 then fmtFp x.fmt && x.matched
  else if op == 0x78 then x.fmt == 9#4 && x.matched
  else if op == 0x79 then cvtPair x.fmt (b.extractLsb' 0 4) && x.matched
  else if op == 0x7E then !fmtInt x.fmt && x.matched
  else !fmtInt x.fmt && x.fmt != 14#4 && x.matched

/-- A word that writes a mask register (R199). -/
def maskWord (op : Nat) : Bool := op == 0x68 || op == 0x77

/-- Check 7 of a word, with `vtype` as it stands at the `vfetch` (R191). -/
def wordOk (x : XHart) (i : Instr) : Bool :=
  match i with
  | .ebr _ a b _ _ => x.fmt != 14#4 && x.matched && onGroup x a && onGroup x b
  | .epred _ a b m _ _ => x.fmt != 14#4 && x.matched && onGroup x a && (m.on || onGroup x b)
  | .eidx _ d _ _ => fmtInt x.fmt && x.matched && onGroup x d
  | .esend _ a => onGroup x a
  | .erecv _ d => onGroup x d
  | .elementWord op d a b c _ m _ _ =>
    let o := op.toNat
    wordFmtOk x o b && (maskWord o || onGroup x d) && onGroup x a &&
      (m.on || o == 0x78 || o == 0x79 || onGroup x b) && onGroup x c && !(maskWord o && 2048 < x.vl.toNat)
  | _ => true

/-- The words of a block, or what the `vfetch` raises: `k` words may still follow the `n` that are read. -/
def readBlock (s : State) (base : Word) : Nat → Nat → List (BitVec 64) → Out ⊕ List (BitVec 64)
  | 0, _, _ => .inl (s.illegal 6)
  | k + 1, n, ws =>
    let va := base + BitVec.ofNat 64 (8 * n)
    match translate s s.who Ask.block va 8 with
    | .error e => .inl (s.badAccess e.cls e.code 4 va)
    | .ok p =>
      if poisonedAt s p.key then .inl (s.badAccess 11 (poisonCode s p.key) 4 va)
      else
        let w := codeUnit s p.key
        let t := { s with ir := (w.extractLsb' 32 32).setWidth 64 }
        match decodeE w with
        | .instr i =>
          if !i.wf then .inl (t.illegal 6)
          else if !wordOk s.x i then .inl (t.illegal 7)
          else if i == .estop then .inr (ws ++ [w])
          else readBlock s base k (n + 1) (ws ++ [w])
        | .reserved _ => .inl (t.illegal 6)
        | _ => .inl (t.illegal 3)

/-- The core keeps the units of a block as it has read them (R107). -/
def keepBlock (s : State) (base : Word) (n : Nat) : State :=
  (List.range n).foldl (fun s j =>
    match translate s s.who Ask.block (base + BitVec.ofNat 64 (8 * j)) 8 with
    | .ok p => keepUnit s p.key
    | .error _ => s) s

/-- The target of a branching word at index n lies outside the block (R191). -/
def strayBranch (len n : Nat) (w : BitVec 64) : Bool :=
  let out := fun (i : BitVec 32) => (n : Int) + i.toInt < 0 || (len : Int) ≤ n + i.toInt
  match decodeE w with
  | .instr (.ebr _ _ _ _ i) => out i
  | .instr (.ejmp _ i) => out i
  | _ => false

/-- The first branching word whose target is not in the block. -/
def strayWord (ws : List (BitVec 64)) : Option (BitVec 64) :=
  (ws.zipIdx.find? (fun p => strayBranch ws.length p.2 p.1)).map (·.1)

/-- Vector registers that a block's words name as destinations (R200). -/
def blockDests (ws : List (BitVec 64)) : List Reg :=
  (ws.filterMap (fun w => match decodeE w with
    | .instr (.erecv _ d) => some d
    | .instr (.eidx _ d _ _) => some d
    | .instr (.elementWord op d _ _ _ _ _ _ _) => if maskWord op.toNat then none else some d
    | _ => none)).eraseDups

/-! ## Lanes (R195, R198) -/

/-- First element past the group of element i. -/
def groupEnd (x : XHart) (i : Nat) : Nat := min ((i / groupElems x.sew + 1) * groupElems x.sew) x.vl.toNat

/-- The next active lane below `hi` starts at the block's first word; an inactive one passes its incoming value on. The
group is finished when none is left. -/
def openLane (x : XHart) (hi : Nat) : Nat → Block → Block
  | 0, b => { b with fin := true }
  | k + 1, b =>
    if hi ≤ b.lane then { b with fin := true }
    else if x.active b.mask b.lane then { b with epc := 0, pred := true, out := none, exc := false, fin := false }
    else openLane x hi k { b with lane := b.lane + 1 }

/-- The lane in progress finishes: its output is fixed, and the next lane starts. -/
def finishLane (x : XHart) (b : Block) : Block :=
  let hi := groupEnd x b.lane
  openLane x hi (hi - b.lane) { b with
    inc := b.out.getD b.inc
    excs := if b.exc then b.excs ||| BitVec.ofNat 2048 (2 ^ b.lane) else b.excs
    lane := b.lane + 1 }

/-- The X-hart's block, replaced. -/
def State.setBlock (s : State) (b : Block) : State := s.setX { s.x with block := some b }

/-- An uncommitted group is discarded: registers as committed, the block carry saved, no flags (R201). A stop at element
0 has no carry to save, and leaves that of an earlier stop, which its own `vfetch` may still resume from. -/
def discardBlock (x : XHart) : XHart :=
  match x.block with
  | none => x
  | some b =>
    if x.vstart = 0 then { x with v := b.v0, k := b.k0, block := none }
    else { x with v := b.v0, k := b.k0, carry := b.carry0, resumed := true, block := none }

/-- The carry-out register of `vfetch` (R192). -/
def carryOut (s : State) (isF : Bool) (d : Reg) (v : Word) : State :=
  if isF then s.setF d (boxed s.x.w v) else s.setS d v

/-- Progress of every register the block writes (R48). -/
def blockProgress (s : State) (ws : List (BitVec 64)) (n : Nat) : State :=
  s.setX ((blockDests ws).foldl (fun x d => setProgress x (s.perWidth x.w) d.toNat (x.g 1) n) s.x)

/-- The `vfetch` is a resumed one: the block carry is saved, and `vstart` is not 0 (R198, R201). -/
def resumesBlock (x : XHart) : Bool := x.resumed && x.vstart != 0

/-- The incoming value of the first element (R198): the saved carry on a resumed `vfetch`, else the seed, which no
element has replaced. -/
def incoming (x : XHart) (seed : Word) : Word :=
  if resumesBlock x then x.carry else BitVec.ofNat 64 (seed.toNat % 2 ^ x.w)

/-- The saved carry has been taken by the resumed `vfetch`: a later one is none. One at `vstart` 0 leaves it. -/
def takeCarry (x : XHart) : XHart := { x with resumed := x.resumed && !resumesBlock x }

/-- `vfetch` (R192, R193): the checks of R191, then the first lane. -/
def execVfetch (d a b : Reg) (k : BitVec 3) (e : Bit) (kx : BitVec 3) (v : BitVec 2) (s : State) : Out :=
  issueV (.vfetch d a b k e kx v) s (fun x => check7 x true [] (maskUsed k e) false []) fun s =>
    let s := s.setX (discardBlock s.x)
    let base := s.getS a
    if base.toNat % 8 != 0 then s.badAccess 5 0 4 base
    else
      match readBlock s base 256 0 [] with
      | .inl o => o
      | .inr ws =>
        match strayWord ws with
        | some w => State.illegal { s with ir := (w.extractLsb' 32 32).setWidth 64 } 6
        | none =>
          let s := keepBlock s base ws.length
          let isF := v == 1#2
          let inc := incoming s.x (if isF then s.getF b else s.getS b)
          let s := s.setX (takeCarry s.x)
          let x := s.x
          if x.vl ≤ x.vstart then (carryOut (nothingToDo s) isF d inc).done
          else
            let lane := x.vstart.toNat
            let hi := groupEnd x lane
            let blk : Block := {
              words := ws, base := base, d := d, isF := isF, mask := k, en := e.on, kx := kx, lane := lane, epc := 0,
              pred := true, inc := inc, out := none, exc := false, excs := 0, fin := false, issued := true, carry0 := inc, v0 := x.v,
              k0 := x.k, flags := 0, sat := false }
            let s := blockProgress s ws lane
            .next (s.setBlock (openLane x hi (hi - lane + 1) blk))

/-- An element group whose lanes have all finished commits (R200); the last one ends the `vfetch`. -/
def commitGroup (s : State) (b : Block) : State :=
  let x := s.x
  let lo := x.vstart.toNat
  let hi := groupEnd x lo
  let x := if b.en then
      (span lo (hi - lo)).foldl (fun x i => x.setMaskBit b.kx i (b.excs.getLsbD i)) x
    else x
  let x := { x with vstart := BitVec.ofNat 17 hi }
  let s := ((s.setX x).raise b.flags).raiseSat b.sat
  let s := blockProgress s b.words hi
  if x.vl.toNat ≤ hi then
    let c := s.perWidth x.w
    let y := (blockDests b.words).foldl (fun y d => zeroTail y c x.w d.toNat (x.g 1) x.vl.toNat) s.x
    (carryOut (s.setX { y with vstart := 0, block := none }) b.isF b.d b.inc).bump 4
  else
    let top := groupEnd s.x hi
    s.setBlock (openLane s.x top (top - hi + 1) { b with
      lane := hi, issued := false, excs := 0, carry0 := b.inc, v0 := s.x.v, k0 := s.x.k, flags := 0, sat := false })

/-- The first tandem of the core whose block has a group to commit, the one in focus before the others. -/
def readyBlock (s : State) : Option (Fin 4) :=
  (s.tnd :: [0, 1, 2, 3]).find? (fun t =>
    match s.core.team.tds[t].x.block with
    | some b => b.fin && b.issued
    | none => false)

/-- The group commit as an event of the core in focus (R200). -/
def execElementGroupCommit (s : State) : Out :=
  match readyBlock s with
  | none => .next s
  | some t =>
    let s := s.onHart t true
    match s.x.block with
    | some b => .next (commitGroup s b)
    | none => .next s

/-! ## Words (R195 to R199) -/

/-- A word of the lane in progress: it acts where its pred bit or the predicate allows it, and `body` gives the state
after it with the block to go on with. A word that is no word of a running block is illegal with cause 3. -/
def inBlock (i : Instr) (p : Bit) (s : State) (body : State → Block → State × Block) : Out :=
  issue false true i s fun s =>
    match s.x.block with
    | none => s.illegal 3
    | some b =>
      if b.fin then .next s
      else if p.on && !b.pred then .next (s.setBlock { b with epc := b.epc + 1 })
      else
        let r := body s b
        .next (r.1.setBlock r.2)

/-- The next word. -/
def Block.step (b : Block) : Block := { b with epc := b.epc + 1 }

/-- A jump by a signed count of words. -/
def Block.go (b : Block) (i : BitVec 32) : Block := { b with epc := ((b.epc : Int) + i.toInt).toNat }

/-- imm32 as source b (R116). -/
def imm32At (w : Nat) (i : BitVec 32) : Word := BitVec.ofNat 64 ((i.signExtend 64).toNat % 2 ^ w)

/-- Source b of a word in the lane. -/
def laneB (s : State) (b : Reg) (m : Bit) (i : BitVec 32) (lane : Nat) : Word :=
  if m.on then imm32At s.x.w i else vElem s b lane

/-- A condition code on two elements (R197): the truth and the flags. -/
def laneCond (x : XHart) (cc : BitVec 2) (a b : Word) : Bool × Flags :=
  match fmtFloat x.fmt with
  | some f =>
    let r := fpCompare f (if cc.getLsbD 1 then 1#2 else 0#2) a b
    (r.1 != cc.getLsbD 0, r.2)
  | none =>
    let u := fmtVal x a
    let w := fmtVal x b
    (match cc.toNat with
      | 0 => u == w
      | 1 => u != w
      | 2 => decide (u < w)
      | _ => decide (w ≤ u), 0)

/-- Flags of a word gather in the block. -/
def Block.note (b : Block) (x : XHart) (fl : Flags) (sat exc : Bool) : Block :=
  { b with flags := b.flags ||| fl, sat := b.sat || sat, exc := b.exc || exc || (fl &&& x.xsel) != 0 }

/-- `ebr` (R197). -/
def execEbr (p : Bit) (a b : Reg) (v : BitVec 2) (i : BitVec 32) (s : State) : Out :=
  inBlock (.ebr p a b v i) p s fun s k =>
    let r := laneCond s.x v (vElem s a k.lane) (vElem s b k.lane)
    let k := k.note s.x r.2 false false
    (s, if r.1 then k.go i else k.step)

/-- `ejmp` (R197). -/
def execEjmp (p : Bit) (i : BitVec 32) (s : State) : Out :=
  inBlock (.ejmp p i) p s fun s k => (s, k.go i)

/-- `esend` (R198): the first one of a lane fixes its output. -/
def execEsend (p : Bit) (a : Reg) (s : State) : Out :=
  inBlock (.esend p a) p s fun s k =>
    (s, { k.step with out := match k.out with
                             | some w => some w
                             | none => some (vElem s a k.lane) })

/-- Writes element `lane` of a vector register. -/
def putLane (s : State) (d : Reg) (lane : Nat) (v : Nat) : State :=
  s.setX (s.x.putN (s.perWidth s.x.w) s.x.w d.toNat lane v)

/-- `erecv` (R198). -/
def execErecv (p : Bit) (d : Reg) (s : State) : Out :=
  inBlock (.erecv p d) p s fun s k => (putLane s d k.lane k.inc.toNat, k.step)

/-- `epred` (R197). -/
def execEpred (p : Bit) (a b : Reg) (m : Bit) (v : BitVec 2) (i : BitVec 32) (s : State) : Out :=
  inBlock (.epred p a b m v i) p s fun s k =>
    let r := laneCond s.x v (vElem s a k.lane) (laneB s b m i k.lane)
    (s, { (k.note s.x r.2 false false).step with pred := if p.on then k.pred && r.1 else r.1 })

/-- `eidx` (R197). -/
def execEidx (p : Bit) (d : Reg) (m : Bit) (i : BitVec 32) (s : State) : Out :=
  inBlock (.eidx p d m i) p s fun s k =>
    (putLane s d k.lane (fit s.x.w ((k.lane : Int) + (if m.on then i.toInt else 0))), k.step)

/-- `ecmt` (R197). -/
def execEcmt (p : Bit) (s : State) : Out :=
  inBlock (.ecmt p) p s fun s k => (s, finishLane s.x k)

/-- `estop` (R197). -/
def execEstop (s : State) : Out :=
  inBlock .estop 0 s fun s k => (s, finishLane s.x k)

/-! ## Element-capable words (R199) -/

/-- The scalar group 0x00 to 0x14 at width w, its signedness that of the opcode. -/
def scalarElem (op w a b : Nat) : ElemRes :=
  let sa := valueAt true w a
  let sb := valueAt true w b
  let n := b % w
  match op with
  | 0x00 => { v := (a + b) % 2 ^ w }
  | 0x01 => { v := fit w (sa - sb) }
  | 0x02 => { v := a &&& b }
  | 0x03 => { v := a ||| b }
  | 0x04 => { v := a ^^^ b }
  | 0x05 => { v := (a <<< n) % 2 ^ w }
  | 0x06 => { v := a >>> n }
  | 0x07 => { v := sraBits w a n }
  | 0x08 => { v := if sa < sb then 1 else 0 }
  | 0x09 => { v := if a < b then 1 else 0 }
  | 0x0A => { v := if sa < sb then a else b }
  | 0x0B => { v := min a b }
  | 0x0C => { v := if sa < sb then b else a }
  | 0x0D => { v := max a b }
  | 0x0E => { v := a * b % 2 ^ w }
  | 0x0F => { v := fit w (sa * sb / 2 ^ w) }
  | 0x10 => { v := a * b / 2 ^ w }
  | 0x11 => divRes true false w sa sb
  | 0x12 => divRes false false w a b
  | 0x13 => divRes true true w sa sb
  | _ => divRes false true w a b

/-- The register form of an immediate opcode 0x15 to 0x1C (R124). -/
def immediateOf (op : Nat) : Nat :=
  match op with
  | 0x15 => 0x00
  | 0x16 => 0x02
  | 0x17 => 0x03
  | 0x18 => 0x04
  | 0x19 => 0x05
  | 0x1A => 0x06
  | 0x1B => 0x07
  | _ => 0x08

/-- `bop` within w bits (R123, R199). -/
def bitElem (w a : Nat) (v : BitVec 2) : Nat :=
  match v.toNat with
  | 0 => leadingZeros w a
  | 1 => trailingZeros w a
  | 2 => popCount w a
  | _ => (BitVec.ofNat w a).reverse.toNat

/-- The vector integer group 0x58 to 0x67 (R170, R171). -/
def vectorElem (x : XHart) (op : Nat) (a b : Word) : ElemRes :=
  let w := x.w
  let sg := fmtSigned x.fmt
  let u := fmtVal x a
  let t := fmtVal x b
  let n := b.toNat % w
  match op with
  | 0x58 => { v := fit w (u + t) }
  | 0x59 => { v := fit w (u - t) }
  | 0x5A => satRes sg w (u + t)
  | 0x5B => satRes sg w (u - t)
  | 0x5C => { v := fit w (u * t) }
  | 0x5D => { v := fit w (u * t / 2 ^ w) }
  | 0x5E => divRes sg false w u t
  | 0x5F => divRes sg true w u t
  | 0x60 => { v := fit w (min u t) }
  | 0x61 => { v := fit w (max u t) }
  | 0x62 => { v := a.toNat &&& b.toNat }
  | 0x63 => { v := a.toNat ||| b.toNat }
  | 0x64 => { v := a.toNat ^^^ b.toNat }
  | 0x65 => { v := (a.toNat <<< n) % 2 ^ w }
  | 0x66 => { v := a.toNat >>> n }
  | _ => { v := sraBits w a.toNat n }

/-- An integer predicate of `vcmp` (R172). -/
def cmpElem (x : XHart) (v : BitVec 2) (a b : Word) : Bool :=
  match v.toNat with
  | 0 => fmtVal x a == fmtVal x b
  | 1 => fmtVal x a != fmtVal x b
  | 2 => decide (fmtVal x a < fmtVal x b)
  | _ => decide (fmtVal x a ≤ fmtVal x b)

/-- The floating-point group (R179 to R183): `rb` is the b field, for the function or the target format. -/
def floatElem (x : XHart) (op : Nat) (v : BitVec 2) (rb : Reg) (a b c : Word) : ElemRes :=
  let f := x.float
  let r := Rnd.ofFrm x.h.frm
  match op with
  | 0x70 => fpRes (fpAdd f r a b)
  | 0x71 => fpRes (fpSub f r a b)
  | 0x72 => fpRes (fpMul f r a b)
  | 0x73 => fpRes (fpDiv f r a b)
  | 0x74 => fpRes (fpFma f r a b c (v == 2#2))
  | 0x75 => fpRes (fpMinMax f false a b)
  | 0x76 => fpRes (fpMinMax f true a b)
  | 0x77 =>
    let t := fpCompare f v a b
    { v := if t.1 then 1 else 0, fl := t.2 }
  | 0x78 => fpRes (sfu (sfuOf rb) a)
  | 0x79 => cvtElem x (rb.extractLsb' 0 4) (if v = 0#2 then r else .rtz) a
  | 0x7E => { v := signElem x v a.toNat b.toNat }
  | _ => { v := classNumber f a }

/-- The result of an element-capable word in one lane (R199). `at_` is the word's address. -/
def wordElem (x : XHart) (op : Nat) (v : BitVec 2) (rb : Reg) (i : BitVec 32) (at_ a b c : Word) : ElemRes :=
  let w := x.w
  if op ≤ 0x14 then scalarElem op w a.toNat b.toNat
  else if op ≤ 0x1C then scalarElem (immediateOf op) w a.toNat b.toNat
  else if op = 0x1D then { v := (imm32At w i).toNat }
  else if op = 0x1E then { v := (at_ + i.signExtend 64).toNat % 2 ^ w }
  else if op = 0x1F then { v := bitElem w a.toNat v }
  else if op ≤ 0x67 then vectorElem x op a b
  else if op = 0x68 then { v := if cmpElem x v a b then 1 else 0 }
  else if op = 0x69 then { v := (if c = 0 then b else a).toNat }
  else floatElem x op v rb a b c

/-- An element-capable word (R199). -/
def execElementWord (op : BitVec 8) (d a b c : Reg) (p m : Bit) (v : BitVec 2) (i : BitVec 32) (s : State) : Out :=
  inBlock (.elementWord op d a b c p m v i) p s fun s k =>
    let o := op.toNat
    let r := wordElem s.x o v b i (k.base + BitVec.ofNat 64 (8 * k.epc)) (vElem s a k.lane) (laneB s b m i k.lane)
      (vElem s c k.lane)
    let k := (k.note s.x r.fl r.sat r.exc).step
    if maskWord o then (s.setX (s.x.setMaskBit (maskOf d) k.lane (r.v != 0)), k) else (putLane s d k.lane r.v, k)

/-! ## `vlid` (R194) -/

/-- `vlid`: the offset is s[b] in variant 1. -/
def execVlid (d b : Reg) (k : BitVec 3) (v : BitVec 2) (s : State) : Out :=
  issueV (.vlid d b k v) s (fun x =>
      check7 x (fmtInt x.fmt && x.matched) [(d, x.g 1)] (k != 0#3) false []) fun s =>
    (vectorOp s d (s.x.g 1) s.x.w k 0 0 (fun i =>
      { v := (i + if v = 1#2 then (s.getS b).toNat else 0) % 2 ^ s.x.w })).done

end Sys2Proof.Machine
end

