-- ==== Sys2Proof/Machine/Matrix.lean ====
section
/-! DEFINITION. The matrix unit and its feed (R90 to R92, R258 to R276). -/

namespace Sys2Proof.Machine

/-! ## Ownership (R259 to R262) -/

def State.mx (s : State) : Matrix := s.core.team.mx
def State.setMx (s : State) (m : Matrix) : State := s.setTeam { s.core.team with mx := m }

/-- The tandem in focus owns the matrix state. -/
def ownsMatrix (s : State) : Bool := s.mx.owner == some s.tnd

/-- v24 to v31 become zero, as a write of every element (R259, R260). -/
def zeroStaging (s : State) : State :=
  s.setX ((span 24 8).foldl (fun x r => { (x.setReg r 0) with
    prog := x.prog.set (r % 32) (BitVec.ofNat 17 (s.perReg x.sew)) (Nat.mod_lt _ (by decide)) }) s.x)

/-- An instruction of the owner alone; another X-hart's is illegal with cause 7 (R261). -/
def ownerOnly (i : Instr) (s : State) (body : State → Out) : Out :=
  issue false true i s fun s => if ownsMatrix s then body s else s.illegal 7

/-- `menter` (R259). -/
def execMenter (d a : Reg) (s : State) : Out :=
  issue false true (.menter d a) s fun s =>
    match (if ownsMatrix s then none else s.mx.owner) with
    | some _ => s.stall .owner
    | none =>
      let s := if ownsMatrix s then s else zeroStaging (s.setMx { Matrix.free with owner := some s.tnd })
      let n := min (max 16 (min (s.getS a).toNat 128)) s.core.mceil
      ((s.setMx { s.mx with mvl := BitVec.ofNat 8 n }).setS d (BitVec.ofNat 64 n)).done

/-- `mexit` (R260): `ldst` names v24, the first of the group it writes (R70). -/
def execMexit (s : State) : Out :=
  ownerOnly .mexit s fun s => (((zeroStaging s).setMx Matrix.free).setLdst 2 24).done

/-- The value of `mstat` (R262). -/
def mstatWord (s : State) : Word :=
  match s.mx.owner with
  | none => 0
  | some t =>
    BitVec.ofNat 64 ((if t = s.tnd then 2 ^ 23 else 0) + 2 ^ 22 + t.val * 2 ^ 20 + s.mx.touch.toNat * 2 ^ 16 +
      s.mx.mkblk.toNat * 2 ^ 8 + s.mx.mvl.toNat)

/-- `mstat` (R262). -/
def execMstat (d : Reg) (s : State) : Out :=
  issue false true (.mstat d) s fun s => (s.setS d (mstatWord s)).done

/-! ## Tiles -/

def Tile.cell (t : Tile) (i j : Nat) : MCell :=
  (t[i % 128]'(Nat.mod_lt _ (by decide)))[j % 128]'(Nat.mod_lt _ (by decide))

/-- A tile with every element rewritten by row and column. -/
def Tile.mapCells (t : Tile) (f : Nat → Nat → MCell → MCell) : Tile :=
  vtab 128 (fun i => vtab 128 (fun j => f i j (t.cell i j)))

def Matrix.tile (m : Matrix) (u : Nat) : Tile := m.tiles[u % 4]'(Nat.mod_lt _ (by decide))
def Matrix.setTile (m : Matrix) (u : Nat) (t : Tile) : Matrix :=
  { m with tiles := m.tiles.set (u % 4) t (Nat.mod_lt _ (by decide)) }

/-- One product added to an element (R91). Infinities of both signs make the NaN flag; the flag bits then read NaN set,
infinity clear, sign set, whatever the order of the products. -/
def addProduct (c : MCell) (p : Int × Bool × Bool × Bool) : MCell :=
  let both := c.nan && !c.inf && c.isign
  { c with
    part := c.part + BitVec.ofInt 48 p.1
    nan := c.nan || p.2.1 || (p.2.2.1 && c.inf && c.isign != p.2.2.2)
    inf := if both then false
      else if p.2.2.1 then !(c.inf && c.isign != p.2.2.2) else c.inf
    isign := if both then true
      else if p.2.2.1 then (if c.inf && c.isign != p.2.2.2 then true else p.2.2.2) else c.isign }

/-- The source formats of `mopa` by code (R263). -/
def mopaNum (f : BitVec 2) (v : Nat) : Num :=
  match f.toNat with
  | 0 => Fmt.e4m3.unpack (BitVec.ofNat 64 v)
  | 1 => Fmt.e5m2.unpack (BitVec.ofNat 64 v)
  | 2 => Fmt.e2m1.unpack (BitVec.ofNat 64 v)
  | _ =>
    let n := (BitVec.ofNat 8 v).toInt
    .fin (n < 0) n.natAbs 0 false

/-- One rank-1 step into tile u: columns by rows (R265). -/
def rankOne (t : Tile) (a b : Nat → Num) : Tile :=
  t.mapCells (fun i j c => addProduct c (productToPartial (a i) (b j)))

/-- The promotion of one element (R92, R266). -/
def promoteCell (sa sw : BitVec 32) (c : MCell) : MCell × Flags :=
  let r := promote (c.acc.setWidth 64) c.part.toInt c.nan c.inf c.isign (sa.setWidth 64) (sw.setWidth 64)
  ({ MCell.zero with acc := r.1.setWidth 32 }, r.2)

/-- kblock_boundary (R266): the state and the flags. -/
def kblockBoundary (m : Matrix) : Matrix × Flags :=
  let r := (List.range 4).foldl (fun (p : Matrix × Flags) u =>
    if m.touch.getLsbD u then
      let sw := m.sw[u % 4]'(Nat.mod_lt _ (by decide))
      let sa := fun (i : Nat) => m.sa[i % 128]'(Nat.mod_lt _ (by decide))
      let t := m.tile u
      let fl := (List.range 128).foldl (fun f i => (List.range 128).foldl (fun f j =>
        f ||| (promoteCell (sa i) sw (t.cell i j)).2) f) p.2
      (p.1.setTile u (t.mapCells (fun i _ c => (promoteCell (sa i) sw c).1)), fl)
    else p) (m, 0)
  ({ r.1 with touch := 0, mkblk := 0 }, r.2)

/-- A boundary made by the instruction at hand, its flags in the X-hart's `fflags`. -/
def boundary (s : State) : State :=
  let r := kblockBoundary s.mx
  (s.setMx r.1).raise r.2

/-! ## `mopa` (R263 to R265) -/

/-- The values of an operand: a head's oldest entry, or a staging register. -/
inductive Operand where
  | values (l : List Nat)
  | missing
  | refused

/-- Values of `n` bytes: bytes, or nibbles for e2m1 (R80, R264). -/
def mopaValues (f : BitVec 2) (byte : Nat → Nat) (n : Nat) : List Nat :=
  if f = 2#2 then (List.range (2 * n)).map (fun j => byte (j / 2) / 16 ^ (j % 2) % 16) else (List.range n).map byte

/-- An operand of `mopa`: the oldest entry of a head, or a staging register (R264). Marked DESIGN CHOICE: R264 names the
elements [0, `vl`) of one register and does not say what a `vl` above its elements supplies; the sequence goes on in the
registers that follow, v0 after v31. -/
def mopaOperand (s : State) (r : Reg) (f : BitVec 2) : Operand :=
  if r.toNat < 4 then
    match readyHead s r.toNat with
    | [] => .missing
    | q :: _ => if q.sew = 0#2 then .values (mopaValues f (getElemN q.data 8) q.count.toNat) else .refused
  else if s.x.sew = 0#2 then .values (mopaValues f (s.x.elemN (s.perWidth 8) 8 r.toNat) s.x.vl.toNat)
  else .refused

/-- The step that takes values t x 128 on, with a boundary when the block is full. -/
def mopaStep (s : State) (d : Reg) (c r : BitVec 2) (a b : List Nat) (t : Nat) : State :=
  let m := s.mx
  let va := fun i => mopaNum c (a.getD (t * 128 + i) 0)
  let vb := fun j => mopaNum r (b.getD (t * 128 + j) 0)
  let m := { m.setTile d.toNat (rankOne (m.tile d.toNat) va vb) with touch := m.touch ||| BitVec.ofNat 4 (2 ^ d.toNat) }
  if m.mkblk = 127#7 then boundary (s.setMx m) else s.setMx { m with mkblk := m.mkblk + 1 }

/-- Pops the heads that supplied the operands, a shared one once. -/
def mopaPop (s : State) (a b : Reg) : State :=
  let s := if a.toNat < 4 then popHead s a.toNat else s
  if b.toNat < 4 && b != a then popHead s b.toNat else s

/-- The operands of a `mopa` and its steps, or how it does not start (R264, R265). -/
def mopaInputs (s : State) (a b : Reg) (c r : BitVec 2) : Out ⊕ (List Nat × List Nat) :=
  match mopaOperand s a c, mopaOperand s b r with
  | .missing, _ => .inl (s.stall .queue)
  | _, .missing => .inl (s.stall .queue)
  | .values va, .values vb =>
    let n := va.length / 128
    if va.length % 128 != 0 || vb.length != va.length || n = 0 || s.mx.mvl.toNat < n then .inl (s.illegal 7)
    else .inr (va, vb)
  | _, _ => .inl (s.illegal 7)

/-- The steps of a `mopa` from `vstart` up to step `hi`. -/
def mopaSteps (s : State) (d : Reg) (c r : BitVec 2) (va vb : List Nat) (hi : Nat) : State :=
  let t := s.x.vstart.toNat / 128
  (span t (hi - t)).foldl (fun s t => mopaStep s d c r va vb t) s

/-- `mopa` (R265). -/
def execMopa (d a b : Reg) (c r : BitVec 2) (s : State) : Out :=
  ownerOnly (.mopa d a b c r) s fun s =>
    match mopaInputs s a b c r with
    | .inl o => o
    | .inr (va, vb) =>
      let s := mopaPop (mopaSteps s d c r va vb (va.length / 128)) a b
      (s.setX { s.x with vstart := 0 }).done

/-- A `mopa` that stops before step `hi`: the steps below it are in the tile, the entries stay, and `vstart` stands at the
step (R265). -/
def stopMopa (d a b : Reg) (c r : BitVec 2) (hi : Nat) (s : State) : State :=
  match mopaInputs s a b c r with
  | .inl _ => s
  | .inr (va, vb) =>
    if hi < va.length / 128 && s.x.vstart.toNat / 128 < hi then
      let t := mopaSteps s d c r va vb hi
      t.setX { t.x with vstart := BitVec.ofNat 17 (128 * hi) }
    else s

/-! ## Scales and clearing (R267, R268) -/

/-- A boundary before an instruction when steps are pending (R266). -/
def settleBlock (s : State) : State := if s.mx.mkblk = 0 then s else boundary s

/-- `mscl.a` (R267). -/
def execMsclA (a : Reg) (s : State) : Out :=
  ownerOnly (.msclA a) s fun s =>
    if !(s.x.sew == 2#2 && s.x.fmt == 9#4) then s.illegal 7
    else
      let s := settleBlock s
      (s.setMx { s.mx with
        sa := vtab 128 (fun i => BitVec.ofNat 32 (s.x.elemN (s.perWidth 32) 32 a.toNat i)) }).done

/-- `mscl.w` (R267). -/
def execMsclW (d b : Reg) (s : State) : Out :=
  ownerOnly (.msclW d b) s fun s =>
    let s := settleBlock s
    (s.setMx { s.mx with sw := s.mx.sw.set (d.toNat % 4) ((s.getF b).setWidth 32) (Nat.mod_lt _ (by decide)) }).done

/-- `mzero` (R268). -/
def execMzero (d : Reg) (v : BitVec 2) (s : State) : Out :=
  ownerOnly (.mzero d v) s fun s =>
    let m := s.mx
    (s.setMx (if v = 1#2 then { m with tiles := Vector.replicate 4 Tile.zero, touch := 0 }
      else { m.setTile d.toNat Tile.zero with touch := m.touch &&& ~~~BitVec.ofNat 4 (2 ^ d.toNat) })).done

/-! ## `mdrain` (R273) -/

/-- Clears the accumulator elements that `.z` has read. -/
def clearDrained (t : Tile) (row0 : Nat) (es : List Nat) : Tile :=
  es.foldl (fun t i =>
    let r := (row0 + i / 128) % 128
    let row := t[r]'(Nat.mod_lt _ (by decide))
    let c := row[i % 128]'(Nat.mod_lt _ (by decide))
    t.set r (row.set (i % 128) { c with acc := 0 } (Nat.mod_lt _ (by decide))) (Nat.mod_lt _ (by decide))) t

/-- `mdrain` (R273). -/
def execMdrain (d a b : Reg) (k : BitVec 3) (e : Bit) (kx : BitVec 3) (v : BitVec 2) (s : State) : Out :=
  ownerOnly (.mdrain d a b k e kx v) s fun s =>
    let row0 := (s.getS b).toNat
    if !(check7 s.x (s.x.fmt == 9#4 && s.x.matched) [(d, s.x.g 1)] (maskUsed k e) false [] &&
        row0 + ceilDiv s.x.vl.toNat 128 ≤ 128) then s.illegal 7
    else
      let s := if s.x.vstart = 0 && s.x.vl != 0 then settleBlock s else s
      let t := s.mx.tile a.toNat
      let es := s.x.elems.filter (s.x.active k)
      let s' := vectorOp s d (s.x.g 1) 32 k e kx (fun i =>
        let w := (t.cell (row0 + i / 128) (i % 128)).acc.setWidth 64
        { v := w.toNat, exc := match Fmt.fp32.unpack w with | .fin _ _ _ _ => false | _ => true })
      (if v = 1#2 then s'.setMx (s'.mx.setTile a.toNat (clearDrained t row0 es)) else s').done

/-! ## The matrix feed (R269 to R271) -/

def feedEntrySteps (ws : List Word) : Nat := ((rw ws 2).extractLsb' 8 8).toNat
def feedHead (ws : List Word) : Nat := ((rw ws 2).extractLsb' 0 2).toNat
def feedStat (ws : List Word) : Word := rw ws 3
def feedTag (ws : List Word) : Word := rw ws 4

/-- Issue status of a feed record (R237, R269). -/
def feedIssue (ws : List Word) : Nat :=
  let w2 := rw ws 2
  let n := feedSteps ws
  let e := feedEntrySteps ws
  if !(clearFrom ws 0 56 && clearFrom ws 1 48 && clearFrom ws 2 16 && w2.extractLsb' 4 4 == 0 && !w2.getLsbD 2 &&
      clearFrom ws 3 56 && clearFrom ws 4 48 && rw ws 5 == 0 && rw ws 6 == 0 && rw ws 7 == 0) then 1
  else if n = 0 || feedFrom ws < windowBase || feedFrom ws % 64 != 0 ||
      windowBase + windowSize < feedFrom ws + (n - 1) * feedPitch ws + feedBytes ws ||
      feedPitch ws % feedBytes ws != 0 || e = 0 || (if w2.getLsbD 3 then 128 else 64) < e ||
      (feedStat ws).toNat % 8 != 0 then 2
  else 0

/-- `mfeed` (R269, R270). -/
def execMfeed (d a : Reg) (sc : BitVec 2) (q r : Bit) (s : State) : Out :=
  issue true false (.mfeed d a sc q r) s fun s =>
    recordThen s (s.getS a) 8 fun s ws =>
      if feedIssue ws != 0 then issueStatus s d (feedIssue ws)
      else if 4 ≤ s.core.team.feeds.length then s.stall .engine
      else
        handOver s sc r fun s =>
          issueStatus (s.setTeam { s.core.team with
            feeds := s.core.team.feeds ++ [{ t := s.tnd, words := ws, ord := ordOf sc q r, step := 0, since := s.ticks,
                                             fault := none }] }) d 0

def setFeed (s : State) (n : Nat) (c : FeedCmd) : State :=
  s.setTeam { s.core.team with feeds := putAt n c s.core.team.feeds }

/-- Reads of whole lines in ascending order, none before `since`: the bytes, and the step of the latest read (R231,
R270). -/
def feedReads : List Nat → Nat → State → Eng (List Byte × Nat)
  | [], since, s => .ok s ([], since)
  | l :: rest, since, s =>
    match engineReadAt s .feed since Ask.engineRead (BitVec.ofNat 64 l) 128 with
    | .wait s => .wait s
    | .bad s e => .bad s e
    | .ok s (b, at_) =>
      match feedReads rest (max since at_) s with
      | .ok s (b', n) => .ok s (b ++ b', n)
      | .wait s => .wait s
      | .bad s e => .bad s e

/-- The bytes of steps in ascending order, and the step of the latest read; on a failure its step (R270). The reads of
two steps need not execute together, so they may see different states of memory (R271). -/
def feedLines (ws : List Word) : List Nat → Nat → State → Eng (List Byte × Nat) × Nat
  | [], since, s => (.ok s ([], since), 0)
  | t :: rest, since, s =>
    let va := feedFrom ws + t * feedPitch ws
    match feedReads ((pieces 3 va (feedBytes ws)).map (fun p => p.1 / 128 * 128)) since s with
    | .wait s => (.wait s, t)
    | .bad s e => (.bad s e, t)
    | .ok s (b, since) =>
      match feedLines ws rest since s with
      | (.ok s (b', since), n) => (.ok s ((b.drop (va % 128)).take (feedBytes ws) ++ b', since), n)
      | r => r

/-- An earlier feed command keeps a later one waiting: commands start in handover order, and the entries of two for one head
do not mix, as the feed's pushes to a head keep their order (R270). -/
def feedWaits (e c : FeedCmd) : Bool :=
  e.fault.isNone && (e.step == 0 || (e.t == c.t && feedHead e.words == feedHead c.words && decide (e.step < feedSteps e.words)))

/-- The next entry of feed command n is read and pushed (R270). -/
def feedMove (s : State) (n : Nat) : State :=
  match s.core.team.feeds[n]? with
  | none => s
  | some c =>
    let steps := feedSteps c.words
    let hi := min (c.step + feedEntrySteps c.words) steps
    let t := s.onHart c.t false
    if steps ≤ c.step || c.fault.isSome || (s.core.team.feeds.take n).any (fun e => feedWaits e c) ||
        headFull t (feedHead c.words) then s
    else
      match feedLines c.words (span c.step (hi - c.step)) c.since s with
      | (.wait s, _) => s
      | (.bad s e, i) => setFeed s n { c with fault := some (failureOf 1 i e) }
      | (.ok s (l, since), _) =>
        let p := pushHead (s.onHart c.t false) (feedHead c.words)
          { data := BitVec.ofNat 65536 (natOf l), count := BitVec.ofNat 17 l.length, sew := 0, fill := false }
        setFeed (p.onHart s.tnd s.xh) n { c with step := hi, since := since }

/-- `MFEED_ENTRY` (R270). -/
def execMfeedEntry (n : Nat) (s : State) : Out := whileResident s fun s => .next (feedMove s n)

/-- `OPERANDS_CONSUMED` (R270): after the last line read, or after a failure, the command reports and ends. -/
def execOperandsConsumed (n : Nat) (s : State) : Out := whileResident s fun s =>
  match s.core.team.feeds[n]? with
  | none => .next s
  | some c =>
    if c.step < feedSteps c.words && c.fault.isNone then .next s
    else
      match concludeCommand s .feed 1 c.t c.ord (feedStat c.words) (feedTag c.words) c.fault with
      | .wait s => .next s
      | .bad s _ => .next s
      | .ok s _ => .next (s.setTeam { s.core.team with feeds := s.core.team.feeds.eraseIdx n })

end Sys2Proof.Machine
end

