-- ==== Sys2Proof/Machine/Parterre.lean ====
section
/-! DEFINITION. Parterre, the clause engine (R277 to R296). -/

namespace Sys2Proof.Machine

/-! ## Banks (R277, R278, R281) -/

def Bank.base (b : Bank) : Nat := (b.w0.extractLsb' 0 56).toNat
def Bank.classes (b : Bank) : Nat := (b.w1.extractLsb' 48 9).toNat
def Bank.clauses (b : Bank) : Nat := (b.w1.extractLsb' 32 13).toNat
def Bank.features (b : Bank) : Nat := (b.w1.extractLsb' 0 17).toNat
def Bank.thrHi (b : Bank) : Nat := (b.w2.extractLsb' 48 16).toNat
def Bank.thrLo (b : Bank) : Nat := (b.w2.extractLsb' 32 16).toNat
def Bank.limit (b : Bank) : Int := (b.w2.extractLsb' 16 15).toNat
def Bank.depth (b : Bank) : Nat := (b.w2.extractLsb' 0 4).toNat
/-- Segments of 1,024 literals. -/
def Bank.segments (b : Bank) : Nat := (2 * b.features + 1023) / 1024
/-- Bytes of the plane region. -/
def Bank.span (b : Bank) : Nat := b.classes * b.clauses * b.segments * b.depth * 128
/-- Address of plane p of segment g of clause (c, j). -/
def Bank.plane (b : Bank) (c j g p : Nat) : Nat :=
  b.base + 128 * ((((c * b.clauses + j) * b.segments) + g) * b.depth + p)

/-- The binding that a descriptor makes. -/
def bankOf (ws : List Word) : Bank := { w0 := rw ws 0, w1 := rw ws 1, w2 := rw ws 2 }

/-- Status of `pbank` (R281). -/
def bankStatus (ws : List Word) : Nat :=
  let b := bankOf ws
  if !(clearFrom ws 0 56 && clearFrom ws 1 57 && b.w1.extractLsb' 45 3 == 0 && b.w1.extractLsb' 17 15 == 0 &&
      !b.w2.getLsbD 31 && b.w2.extractLsb' 4 12 == 0 && (span 3 5).all (fun i => rw ws i == 0)) then 1
  else if b.classes = 0 || 256 < b.classes || b.clauses = 0 || 4096 < b.clauses || b.features = 0 ||
      65536 < b.features || b.thrLo = 0 || b.thrHi != 65536 - b.thrLo || b.limit = 0 || b.depth = 0 || 8 < b.depth ||
      b.base % 128 != 0 || (windowBase ≤ b.base && windowBase + windowSize < b.base + b.span) then 2
  else 0

/-- A descriptor or record of Parterre, 64 bytes on a page of kind hbm or in the window, read by the scalar agent (R237,
R279). -/
def parRecordThen (s : State) (va : Word) (k : State → List Word → Out) : Out :=
  readThen s s.scalarAgent Ask.parRecord va 64 fun s _ l => k s (wordsOf 8 l)

/-- `pbank` (R281). -/
def execPbank (d a : Reg) (sc : BitVec 2) (q r : Bit) (s : State) : Out :=
  issue true false (.pbank d a sc q r) s fun s =>
    parRecordThen s (s.getS a) fun s ws =>
      handOver s sc r fun s =>
        issueStatus (if bankStatus ws = 0 then s.setA { s.a with bank := some (bankOf ws) } else s) d (bankStatus ws)

/-- `pbank.none` (R281). -/
def execPbankNone (d : Reg) (s : State) : Out :=
  issue true false (.pbankNone d) s fun s => issueStatus (s.setA { s.a with bank := none }) d 0

/-! ## Batch records (R282) -/

def batchX (ws : List Word) : Nat := (rw ws 0).toNat
def batchPitch (ws : List Word) : Nat := ((rw ws 1).extractLsb' 32 32).toNat
def batchB (ws : List Word) : Nat := ((rw ws 1).extractLsb' 0 4).toNat
def batchO (ws : List Word) : Nat := (rw ws 2).toNat
def batchS (ws : List Word) : Nat := (rw ws 3).toNat
def batchT (ws : List Word) : Nat := (rw ws 4).toNat
def batchEpoch (ws : List Word) : BitVec 32 := (rw ws 5).extractLsb' 32 32
def batchE (ws : List Word) : Nat := ((rw ws 5).extractLsb' 0 24).toNat
def batchStat (ws : List Word) : Word := rw ws 6
def batchTag (ws : List Word) : Word := rw ws 7

/-- Issue status of a batch record, before the binding is asked for. -/
def batchIssue (ws : List Word) : Nat :=
  if !(([0, 2, 3, 4, 6] : List Nat).all (fun i => clearFrom ws i 56) && (rw ws 1).extractLsb' 4 28 == 0 &&
      (rw ws 5).extractLsb' 24 8 == 0 && clearFrom ws 7 48) then 1
  else if batchB ws = 0 || 8 < batchB ws || batchO ws % 16 != 0 || batchS ws % 2 != 0 || batchT ws % 4 != 0 ||
      (batchStat ws).toNat % 8 != 0 then 2
  else 0

/-! ## Holding commands (R283) -/

/-- A fresh command of the A-hart in focus. -/
def parCmd (s : State) (kind : ParKind) (ws : List Word) (bank : Bank) (head : Reg) (addr : Word) (o : Ord) : ParCmd where
  kind := kind
  t := s.tnd
  words := ws
  bank := bank
  head := head
  addr := addr
  ord := o
  dkey := s.core.team.key
  dsrc := s.core.team.dsrc
  serial := s.serial
  pos := 0
  bits := 0
  roles := none
  outs := []
  second := false
  sel := none
  refused := false
  since := s.ticks
  fault := none

/-- Adds a command at the end, under a new number. -/
def holdPar (s : State) (c : State → ParCmd) : State :=
  let s := nextSerial s
  s.setTeam { s.core.team with pars := s.core.team.pars ++ [c s] }

/-- Replaces the command in progress. -/
def setPar (s : State) (c : ParCmd) : State :=
  s.setTeam { s.core.team with pars := c :: s.core.team.pars.drop 1 }

/-- The command in progress ends, with its draw ports (R295). -/
def dropPar (s : State) : State :=
  match s.core.team.pars with
  | [] => s
  | c :: rest =>
    s.setTeam { s.core.team with
      pars := rest, ports := s.core.team.ports.filter (fun p => !(p.kind < 2 && p.serial == c.serial)) }

/-- A step for the A-hart of another tandem, the focus restored afterwards. -/
def asHart (s : State) (t : Fin 4) (x : Bool) (f : State → Out) : Out :=
  match f (s.onHart t x) with
  | .next r => .next (r.onHart s.tnd s.xh)
  | o => o

/-- Another active port, of a kind that `pfeed` is checked against, names a tag (R295, R386). -/
def feedClash (s : State) (tag : BitVec 32) : Bool :=
  s.core.team.dtg && (activePorts s).any (fun p => 2 ≤ p.kind && p.tag == tag)

/-- The read of a record by the scalar agent faults (R377, R389). -/
def recordFails (s : State) (va : Word) : Bool :=
  va.toNat % 64 != 0 ||
    (match translate s s.who Ask.parRecord va 64 with
      | .error _ => true
      | .ok p =>
        match (readMove s s.core.num s.scalarAgent (span p.key 64)).2 with
        | .poison _ => true
        | _ => false)

/-- `peval` and `pfeed` up to their handover; `clash` is the trap that the handover takes
instead, before a fault of the record (R282, R283, R379, R386). -/
def handBatch (s : State) (d a : Reg) (sc : BitVec 2) (q r : Bit) (kind : ParKind) (clash : State → Option Out)
    (after : State → State) : Out :=
  match (if recordFails s (s.getS a) && s.a.bank.isSome then clash s else none) with
  | some o => o
  | none => parRecordThen s (s.getS a) fun s ws =>
    if batchIssue ws != 0 then issueStatus s d (batchIssue ws)
    else
      match s.a.bank with
      | none => issueStatus s d 3
      | some b =>
        if 8 ≤ s.core.team.pars.length then s.stall .engine
        else
          match clash s with
          | some o => o
          | none => handOver s sc r fun s =>
            issueStatus (after (holdPar s (fun s => parCmd s kind ws b 0 0 (ordOf sc q r)))) d 0

/-- `peval` (R286): variant 0 training, 1 inference. -/
def execPeval (d a : Reg) (sc : BitVec 2) (q r : Bit) (v : BitVec 2) (s : State) : Out :=
  issue true false (.peval d a sc q r v) s fun s =>
    handBatch s d a sc q r (.eval (v == 0#2)) (fun _ => none) (fun s => s)

/-- `pfeed` (R288): its draw ports become active at the handover (R295). -/
def execPfeed (d a : Reg) (sc : BitVec 2) (q r : Bit) (s : State) : Out :=
  issue true false (.pfeed d a sc q r) s fun s =>
    handBatch s d a sc q r .feed
      (fun s => if feedClash s 1 then some (s.trap 9 0 0 0 1) else if feedClash s 2 then some (s.trap 9 1 0 0 2) else none)
      (fun s => s.setTeam { s.core.team with
        ports := activePorts s ++
          [{ kind := 0, tag := 1, t := s.tnd, serial := s.serial, draw := s.core.team.sample },
           { kind := 1, tag := 2, t := s.tnd, serial := s.serial, draw := s.core.team.sample }] })

/-! ## Lines of the agent -/

/-- Whole lines at line addresses, none read before step `since` (R230, R231). -/
def parLines (since : Nat) : List Nat → State → Eng (List (List Byte))
  | [], s => .ok s []
  | l :: rest, s =>
    match engineRead s .parterre since Ask.engineRead (BitVec.ofNat 64 l) 128 with
    | .wait s => .wait s
    | .bad s e => .bad s e
    | .ok s b =>
      match parLines since rest s with
      | .ok s bs => .ok s (b :: bs)
      | r => r

/-- Lines that [va, va + n) touches. -/
def linesTouched (va n : Nat) : List Nat :=
  if n = 0 then [] else (span (va / 128) ((va + n - 1) / 128 - va / 128 + 1)).map (· * 128)

/-- Bytes [va, va + n), read line by line. -/
def parBytes (s : State) (since va n : Nat) : Eng (List Byte) :=
  match parLines since (linesTouched va n) s with
  | .ok s bs => .ok s ((bs.flatten.drop (va % 128)).take n)
  | .wait s => .wait s
  | .bad s e => .bad s e

/-- Where bytes [va, va + n) are written. -/
def parPlace (s : State) (va n : Nat) : Eng (List Nat) :=
  placePieces Ask.engineWrite (pieces (n / 128 + 2) va n) s

/-! ## Clauses (R285) -/

/-- Literal l of a feature pack. -/
def litOf (x l : Nat) : Bool := x.testBit (l / 2) != (l % 2 == 1)

/-- A segment as a number, bit m for position m; padding literals are 0. -/
def segBits (b : Bank) (g : Nat) (f : Nat → Bool) : Nat :=
  (List.range 1024).foldl (fun t m => if 1024 * g + m < 2 * b.features && f (1024 * g + m) then t + 2 ^ m else t) 0

/-- out(e, c, j, mode) from the include planes of the clause, by segment. -/
def clauseOut (b : Bank) (x : Nat) (training : Bool) (planes : List Nat) : Bool :=
  let inc := (planes.zipIdx).map (fun p => (p.1 &&& segBits b p.2 (fun _ => true), segBits b p.2 (litOf x)))
  if inc.all (fun p => p.1 == 0) then training else inc.all (fun p => p.1 &&& p.2 == p.1)

/-- Addresses of the include planes of class c, clause by clause. -/
def includeLines (b : Bank) (c : Nat) : List Nat :=
  (List.range b.clauses).flatMap (fun j => (List.range b.segments).map (fun g => b.plane c j g (b.depth - 1)))

/-- Lists of n from a list. -/
def chunksOf (n : Nat) : Nat → List Nat → List (List Nat)
  | 0, _ => []
  | k + 1, l => l.take n :: chunksOf n k (l.drop n)

/-- Outputs of every clause of class c for example e. -/
def classOuts (s : State) (since : Nat) (b : Bank) (ws : List Word) (e c : Nat) (training : Bool) : Eng (List Bool) :=
  match parBytes s since (batchX ws + e * batchPitch ws) ((b.features + 7) / 8) with
  | .wait s => .wait s
  | .bad s err => .bad s err
  | .ok s xs =>
    match parLines since (includeLines b c) s with
    | .wait s => .wait s
    | .bad s err => .bad s err
    | .ok s ls =>
      .ok s ((chunksOf b.segments b.clauses (ls.map natOf)).map (clauseOut b (natOf xs) training))

/-- csum: even clauses count +1, odd ones -1 (R279). -/
def clauseSum (os : List Bool) : Int :=
  (os.zipIdx).foldl (fun t p => if p.1 then (if p.2 % 2 = 0 then t + 1 else t - 1) else t) 0

/-- Bits as a number, the first lowest. -/
def bitsNat (os : List Bool) : Nat := (os.zipIdx).foldl (fun t p => if p.1 then t + 2 ^ p.2 else t) 0

/-- A value within [-t, t]. -/
def clampTo (t v : Int) : Int := max (-t) (min v t)

/-! ## Ends of commands (R283, R392, R393) -/

/-- The command in progress fails at example e. -/
def failPar (s : State) (c : ParCmd) (e : Nat) (err : AccErr) : State :=
  setPar s { c with fault := some (failureOf 2 e err) }

/-- A command that has done its work, or failed, reports once its writes have performed. -/
def concludePar (s : State) (c : ParCmd) : State :=
  if unperformed s .parterre c.serial then s
  else if c.refused then
    match quietRelease s .parterre c.ord with
    | .wait r => r
    | .bad r _ => r
    | .ok q _ =>
      if batchStat c.words = 0 then dropPar q
      else
        match engineStatus q .parterre c.ord.scope (batchStat c.words) (statusWord (batchTag c.words) 0x0301) with
        | .wait r => heldBack s r
        | .ok r _ => dropPar r
        | .bad r e => dropPar (pendFault r c.t (detailWord e.cls e.code 2 (2 ^ 48 - 1)) e.va)
  else
    match concludeCommand s .parterre 2 c.t c.ord (batchStat c.words) (batchTag c.words) c.fault with
    | .ok s _ => dropPar s
    | .wait s => s
    | .bad s _ => s

/-! ## `peval` (R286) -/

/-- Bytes of the output string of one example. -/
def outputBytes (b : Bank) : Nat := 16 * ((b.classes * b.clauses + 127) / 128)

/-- A pair finishes: its sum, and the output bytes whose pairs have all finished. -/
def writePair (s : State) (p : ParCmd) (e c : Nat) (os : List Bool) : Eng ParCmd :=
  let b := p.bank
  let ws := p.words
  let lo := c * b.clauses / 8
  let bits := p.bits + bitsNat os * 2 ^ (c * b.clauses % 8)
  let last := c + 1 == b.classes
  let hi := if last then outputBytes b else (c + 1) * b.clauses / 8
  let next := { p with pos := p.pos + 1, bits := if last then 0 else bits / 2 ^ (8 * (hi - lo)) }
  let sumN := if batchS ws = 0 then 0 else 2
  let outN := if batchO ws = 0 then 0 else hi - lo
  match parPlace s (batchS ws + 2 * (e * b.classes + c)) sumN with
  | .wait s => .wait s
  | .bad s err => .bad s err
  | .ok s ks =>
    match parPlace s (batchO ws + e * outputBytes b + lo) outN with
    | .wait s => .wait s
    | .bad s err => .bad s err
    | .ok s ko =>
      let s := enterCells s .parterre p.serial false (ks.zip (bytesOf 2 (BitVec.ofInt 64 (clauseSum os))))
      .ok (enterCells s .parterre p.serial false (ko.zip ((List.range outN).map (fun i => BitVec.ofNat 8 (bits / 256 ^ i))))) next

/-- The next pair of `peval`, or its end. -/
def evalMove (s : State) (p : ParCmd) (training : Bool) : State :=
  let n := batchB p.words * p.bank.classes
  if p.fault.isSome || n ≤ p.pos || (batchO p.words = 0 && batchS p.words = 0) then concludePar s p
  else
    let e := p.pos / max p.bank.classes 1
    let c := p.pos % max p.bank.classes 1
    match classOuts s p.since p.bank p.words e c training with
    | .wait s => s
    | .bad s err => failPar s p e err
    | .ok s os =>
      match writePair s p e c os with
      | .wait s => s
      | .bad s err => failPar s p e err
      | .ok s next => setPar s next

/-- `PEVAL_RUN` (R286). -/
def execPevalRun (s : State) : Out := whileResident s fun s =>
  match s.core.team.pars with
  | p :: _ => match p.kind with
    | .eval tr => .next (evalMove s p tr)
    | _ => .next s
  | [] => .next s

/-! ## `pfeed` (R288, R289) -/

/-- The roles that a target record names, or none where it is refused (R283). -/
def rolesOf (classes : Nat) (w : Nat) : Option (List (Nat × Bool)) :=
  let y := w % 65536
  let z := w / 65536
  if classes ≤ y then none
  else if z = 0xFFFF then some [(y, true)]
  else if classes ≤ z || z = y then none
  else some [(y, true), (z, false)]

/-- Every target record of the batch; on a failure its example. -/
def readTargets (since : Nat) (ws : List Word) : List Nat → State → Eng (List Nat) × Nat
  | [], s => (.ok s [], 0)
  | e :: rest, s =>
    match parBytes s since (batchT ws + 4 * e) 4 with
    | .wait s => (.wait s, e)
    | .bad s err => (.bad s err, e)
    | .ok s b =>
      match readTargets since ws rest s with
      | (.ok s l, n) => (.ok s (natOf b :: l), n)
      | r => r

/-- The threshold of a role from the clamped sum. -/
def feedThreshold (t v : Int) (pos : Bool) : Nat := (65536 * (if pos then t - v else t + v) / (2 * t)).toNat

/-- Phase-1 results of the roles of one example. -/
def rolesOuts (since : Nat) (b : Bank) (ws : List Word) (e : Nat) : List (Nat × Bool) → State → Eng (List (Nat × Nat))
  | [], s => .ok s []
  | (c, pos) :: rest, s =>
    match classOuts s since b ws e c true with
    | .wait s => .wait s
    | .bad s err => .bad s err
    | .ok s os =>
      match rolesOuts since b ws e rest s with
      | .ok s l => .ok s ((feedThreshold b.limit (clampTo b.limit (clauseSum os)) pos, bitsNat os) :: l)
      | r => r

/-- The draws of `pfeed`: the counter of R289. -/
def feedCtr (ws : List Word) (e c j low : Nat) : BitVec 96 :=
  batchEpoch ws ++ BitVec.ofNat 24 (batchE ws + e) ++ BitVec.ofNat 8 c ++ BitVec.ofNat 12 j ++ (0 : BitVec 6) ++
    BitVec.ofNat 14 low

/-- A draw with the key and source of the handover: from Ashlar or from the table (R72, R101). -/
def feedDraw (s : State) (p : ParCmd) (stream : BitVec 32) (ctr : BitVec 96) (slot n : Nat) : Eng Nat :=
  if !p.dsrc.getLsbD 63 then .ok s (ashlarDraw p.dkey stream ctr slot).toNat
  else
    let va := drawAddr p.dsrc n
    if va.getLsbD 0 then .bad s ⟨5, 0, va⟩
    else
      match engineRead s .parterre p.since { Ask.engineRead with acc := 6 } va 2 with
      | .ok s l => .ok s (natOf l)
      | .wait s => .wait s
      | .bad s e => .bad s e

/-- Classes that some role names, ascending. -/
def namedClasses (roles : List (List (Nat × Bool))) : List Nat :=
  (roles.flatten.map (·.1)).foldl (fun l c => insertNat c l) []

/-- The role of class c in example e, with its threshold and outputs. -/
def roleAt (p : ParCmd) (e c : Nat) : Option (Bool × Nat × Nat) :=
  (((p.roles.getD []).getD e []).zip (p.outs.getD e [])).findSome? (fun r =>
    if r.1.1 = c then some (r.1.2, r.2.1, r.2.2) else none)

/-- draw_sel of every example whose roles name the class: whether it selects the clause. -/
def selectExamples (p : ParCmd) (c j : Nat) : List Nat → State → Eng (List Bool) × Nat
  | [], s => (.ok s [], 0)
  | e :: rest, s =>
    let go := fun (s : State) (v : Bool) =>
      match selectExamples p c j rest s with
      | (.ok s l, n) => (Eng.ok s (v :: l), n)
      | r => r
    match roleAt p e c with
    | none => go s false
    | some (_, thr, _) =>
      let n := (e * p.bank.classes + c) * p.bank.clauses + j
      match feedDraw s p 1 (feedCtr p.words e c 0 (j / 8)) (j % 8) n with
      | .wait s => (.wait s, e)
      | .bad s err => (.bad s err, e)
      | .ok s d => go s (d < thr)

/-- step(typ, e, c, j, l) of one selected example, for a literal and whether the automaton includes it. -/
def feedStep (s : State) (p : ParCmd) (x : Nat) (e c j l : Nat) (included : Bool) : Eng Int :=
  match roleAt p e c with
  | none => .ok s 0
  | some (pos, _, os) =>
    let o := os.testBit j
    let lit := litOf x l
    if (j % 2 == 0) == pos then
      let n := batchB p.words * p.bank.classes * p.bank.clauses +
        ((e * p.bank.classes + c) * p.bank.clauses + j) * (2 * p.bank.features) + l
      match feedDraw s p 2 (feedCtr p.words e c j (l / 8)) (l % 8) n with
      | .wait s => .wait s
      | .bad s err => .bad s err
      | .ok s d =>
        .ok s (if o && lit then (if d < p.bank.thrHi then 1 else 0) else if d < p.bank.thrLo then -1 else 0)
    else .ok s (if o && !lit && !included then 1 else 0)

/-- The steps of the selected examples summed; on a failure the example. -/
def feedSum (p : ParCmd) (xs : List Nat) (c j l : Nat) (included : Bool) : List Nat → State → Eng Int × Nat
  | [], s => (.ok s 0, 0)
  | e :: rest, s =>
    match feedStep s p (xs.getD e 0) e c j l included with
    | .wait s => (.wait s, e)
    | .bad s err => (.bad s err, e)
    | .ok s v =>
      match feedSum p xs c j l included rest s with
      | (.ok s w, n) => (.ok s (v + w), n)
      | r => r

/-- State of position m from the planes of a segment. -/
def automaton (planes : List Nat) (m : Nat) : Nat :=
  (planes.zipIdx).foldl (fun t p => if p.1.testBit m then t + 2 ^ p.2 else t) 0

/-- The states of a segment after the steps, position by position. -/
def stepSegment (p : ParCmd) (xs : List Nat) (sel : List Nat) (c j g : Nat) (planes : List Nat) :
    List Nat → State → Eng (List Nat) × Nat
  | [], s => (.ok s [], 0)
  | m :: rest, s =>
    let l := 1024 * g + m
    let st := automaton planes m
    let top := 2 ^ p.bank.depth - 1
    let r := if l < 2 * p.bank.features then feedSum p xs c j l (2 ^ (p.bank.depth - 1) ≤ st) sel s
      else (.ok s 0, 0)
    match r with
    | (.wait s, e) => (.wait s, e)
    | (.bad s err, e) => (.bad s err, e)
    | (.ok s v, _) =>
      match stepSegment p xs sel c j g planes rest s with
      | (.ok s t, n) => (.ok s ((max 0 (min ((st : Int) + v) top)).toNat :: t), n)
      | r => r

/-- Plane p of a list of states, as bytes. -/
def planeBytes (states : List Nat) (p : Nat) : List Byte :=
  let w := bitsNat (states.map (fun v => v.testBit p))
  (List.range 128).map (fun i => BitVec.ofNat 8 (w / 256 ^ i))

/-- Writes the planes of a segment, each line whole, one after the other from `va` on. -/
def writePlanes (s : State) (serial va k : Nat) (states : List Nat) : Eng Unit :=
  match placePieces Ask.engineWrite (pieces (k + 1) va (128 * k)) s with
  | .wait s => .wait s
  | .bad s e => .bad s e
  | .ok s keys => .ok (enterCells s .parterre serial false (keys.zip ((List.range k).flatMap (planeBytes states)))) ()

/-- Feature packs of all examples; on a failure the example. -/
def readPacks (since : Nat) (b : Bank) (ws : List Word) : List Nat → State → Eng (List Nat) × Nat
  | [], s => (.ok s [], 0)
  | e :: rest, s =>
    match parBytes s since (batchX ws + e * batchPitch ws) ((b.features + 7) / 8) with
    | .wait s => (.wait s, e)
    | .bad s err => (.bad s err, e)
    | .ok s x =>
      match readPacks since b ws rest s with
      | (.ok s l, n) => (.ok s (natOf x :: l), n)
      | r => r

/-- One segment of phase 2: class c, clause j, segment g of a clause that `sel` selects. -/
def feedSegment (s : State) (p : ParCmd) (sel : List Bool) (c j g : Nat) : State :=
  let es := ((sel.zipIdx).filter (·.1)).map (·.2)
  let at_ := fun (s : State) (e : Nat) (err : AccErr) => failPar s p e err
  match readPacks p.since p.bank p.words (List.range (batchB p.words)) s with
  | (.wait s, _) => s
  | (.bad s err, e) => at_ s e err
  | (.ok s xs, _) =>
    match parLines p.since ((List.range p.bank.depth).map (p.bank.plane c j g)) s with
    | .wait s => s
    | .bad s err => at_ s (es.headD 0) err
    | .ok s ls =>
      match stepSegment p xs es c j g (ls.map natOf) (List.range 1024) s with
      | (.wait s, _) => s
      | (.bad s err, e) => at_ s e err
      | (.ok s states, _) =>
        match writePlanes s p.serial (p.bank.plane c j g 0) p.bank.depth states with
        | .wait s => s
        | .bad s err => at_ s (es.headD 0) err
        | .ok s _ =>
          setPar s { p with pos := p.pos + 1, sel := if g + 1 = p.bank.segments then none else some sel }

/-- Phase 2 goes on by one segment, or by one clause that no example selects. -/
def feedSecond (s : State) (p : ParCmd) : State :=
  let cs := namedClasses (p.roles.getD [])
  let b := p.bank
  let per := b.clauses * b.segments
  if cs.length * per ≤ p.pos then concludePar s p
  else
    let c := cs.getD (p.pos / max per 1) 0
    let j := p.pos / max b.segments 1 % max b.clauses 1
    let g := p.pos % max b.segments 1
    match p.sel with
    | some sel => feedSegment s p sel c j g
    | none =>
      match selectExamples p c j (List.range (batchB p.words)) s with
      | (.wait s, _) => s
      | (.bad s err, e) => failPar s p e err
      | (.ok s sel, _) =>
        if sel.any (fun v => v) then feedSegment s { p with sel := some sel } sel c j g
        else setPar s { p with pos := p.pos + (b.segments - g) }

/-- The next part of `pfeed`: its targets, an example of phase 1, a segment of phase 2, or its end. -/
def feedRunMove (s : State) (p : ParCmd) : State :=
  if p.fault.isSome || p.refused then concludePar s p
  else
    match p.roles with
    | none =>
      match readTargets p.since p.words (List.range (batchB p.words)) s with
      | (.wait s, _) => s
      | (.bad s err, e) => failPar s p e err
      | (.ok s ws, _) =>
        match ws.mapM (rolesOf p.bank.classes) with
        | none => setPar s { p with refused := true }
        | some rs => setPar s { p with roles := some rs }
    | some rs =>
      if p.second then feedSecond s p
      else if batchB p.words ≤ p.pos then setPar s { p with second := true, pos := 0 }
      else
        match rolesOuts p.since p.bank p.words p.pos (rs.getD p.pos []) s with
        | .wait s => s
        | .bad s err => failPar s p p.pos err
        | .ok s l => setPar s { p with pos := p.pos + 1, outs := p.outs ++ [l] }

/-- `PFEED_RUN` (R288). -/
def execPfeedRun (s : State) : Out := whileResident s fun s =>
  match s.core.team.pars with
  | p :: _ => match p.kind with
    | .feed => .next (feedRunMove s p)
    | _ => .next s
  | [] => .next s

/-! ## Commands that their instruction waits for -/

/-- The trap of element i at the instruction, for a failed access of the agent. -/
def parTrap (s : State) (acc i : Nat) (e : AccErr) : Out := elemTrap s e.cls e.code acc i e.va

/-- The instruction completes: the agent makes its own release where rel is 1, the command ends and the hart goes on
(R230). -/
def parDone (p : ParCmd) (s : State) : Out :=
  match quietRelease s .parterre p.ord with
  | .ok s _ => .next (((dropPar s).setVm VMem.idle).bump 4)
  | .wait s => s.stall .word
  | .bad s _ => s.stall .word

/-- A write of the agent meets the operand guard: it does not trap; the command ends there with its release, the line is not
written, and its A-hart has a pending fault (R230, R386, R393). Marked DESIGN CHOICE: the index in the detail word is the
element, for a command that has no example. -/
def parGuard (s : State) (i : Nat) (e : AccErr) : Out :=
  match (match s.core.team.pars with | [] => Eng.ok s () | p :: _ => quietRelease s .parterre p.ord) with
  | .ok s _ => .next (((dropPar (pendFault s s.tnd (detailWord e.cls e.code 2 i) e.va)).setVm VMem.idle).bump 4)
  | .wait s => s.stall .word
  | .bad s _ => s.stall .word

/-- The entry at which an instruction that works by whole entries of width code z stands: the restart index counts element
groups (R159, R284). -/
def entryAt (s : State) (z : BitVec 2) : Nat := s.vm.restart * groupElems z / max (s.perReg z) 1

/-- Entry m is done. -/
def entryDone (s : State) (z : BitVec 2) (m : Nat) : State :=
  s.setVm { s.vm with restart := (m + 1) * s.perReg z / groupElems z }

/-- A write at element i that its place refuses. -/
def parRefused (s : State) (i : Nat) (e : AccErr) : Out := if e.cls = 10 then parGuard s i e else parTrap s 1 i e

/-- The clipped sums at the given places, e x classes + c, for element i of the vote, or the trap. -/
def readSums (p : ParCmd) (i : Nat) : List Nat → State → Step (State × List Int)
  | [], s => .ok (s, [])
  | j :: rest, s =>
    match parBytes s p.since (batchS p.words + 2 * j) 2 with
    | .wait s => .error (s.stall .line)
    | .bad s e => .error (parTrap s 0 i e)
    | .ok s b =>
      match readSums p i rest s with
      | .error o => .error o
      | .ok (s, l) => .ok (s, clampTo p.bank.limit (BitVec.ofNat 16 (natOf b)).toInt :: l)

/-- The class with the largest sum, the lowest on ties. -/
def argMax (l : List Int) : Nat :=
  ((l.zipIdx).foldl (fun (m : Option (Int × Nat)) p => match m with
    | none => some p
    | some q => if q.1 < p.1 then some p else some q) none).map (·.2) |>.getD 0

/-- Elements that the vote pushes: one for each sum, or one for each example. -/
def voteCount (p : ParCmd) (arg : Bool) : Nat := if arg then batchB p.words else batchB p.words * p.bank.classes

/-- The elements named, each from its sums: a clipped sum, or the best class of its example. -/
def voteElems (p : ParCmd) (arg : Bool) : List Nat → State → Step (State × List Nat)
  | [], s => .ok (s, [])
  | i :: rest, s =>
    match readSums p i (if arg then span (i * p.bank.classes) p.bank.classes else [i]) s with
    | .error o => .error o
    | .ok (s, sums) =>
      match voteElems p arg rest s with
      | .error o => .error o
      | .ok (s, l) => .ok (s, (if arg then argMax sums else fit 16 (sums.headD 0)) :: l)

/-- The entries of `pvote` from entry m on, each claimed, read and pushed before the next (R156, R287, R378). -/
def voteEntries (p : ParCmd) (arg : Bool) : Nat → State → Out
  | 0, s => s.pause
  | k + 1, s =>
    let z : BitVec 2 := if arg then 0 else 1
    let c := s.perReg z
    let m := entryAt s z
    let n := voteCount p arg
    if n ≤ m * c then parDone p s
    else
      match claimHead s p.head.toNat with
      | none => s.stall .queue
      | some s =>
        match voteElems p arg (span (m * c) (min ((m + 1) * c) n - m * c)) s with
        | .error o => o
        | .ok (s, es) =>
          let data := (es.zipIdx).foldl (fun r e => setElemN r (sewBits z) e.2 e.1) 0
          voteEntries p arg k (entryDone (fillHead s p.head.toNat data es.length z true) z m)

/-- `pvote` as the agent reaches it (R287). -/
def voteRun (p : ParCmd) (arg : Bool) (s : State) : Out :=
  voteEntries p arg (groupFuel s (ceilDiv (voteCount p arg) (s.perReg (if arg then 0 else 1)) + 1)) s

/-- Groups of the supplied positions of an entry by segment: segment number and steps by position. -/
def stepParts (q : QEntry) (lo hi c : Nat) : List (Nat × List (Nat × Int)) :=
  let is := (span lo (hi - lo)).filter (fun i => i % c < q.supply 8)
  ((is.map (· / 1024)).eraseDups).map (fun g =>
    (g, (is.filter (fun i => i / 1024 == g)).map (fun i => (i % 1024, signedElem 8 (getElem q.data 8 (i % c))))))

/-- New states and places of the segments of an entry. -/
def stepLines (since base k : Nat) : List (Nat × List (Nat × Int)) → State → Step (State × List (List Nat × List Nat))
  | [], s => .ok (s, [])
  | (g, steps) :: rest, s =>
    let va := base + 128 * (g * k)
    let i := 1024 * g + ((steps.head?.map (·.1)).getD 0)
    match parLines since ((List.range k).map (fun b => va + 128 * b)) s with
    | .wait s => .error (s.stall .line)
    | .bad s e => .error (parTrap s 0 i e)
    | .ok s ls =>
      match placePieces Ask.engineWrite (pieces (k + 1) va (128 * k)) s with
      | .wait s => .error (s.stall .line)
      | .bad s e => .error (parRefused s i e)
      | .ok s keys =>
        let planes := ls.map natOf
        let states := (List.range 1024).map (fun m =>
          let v := ((steps.find? (fun p => p.1 == m)).map (·.2)).getD 0
          (max 0 (min ((automaton planes m : Int) + v) (2 ^ k - 1))).toNat)
        match stepLines since base k rest s with
        | .error o => .error o
        | .ok (s, l) => .ok (s, (keys, states) :: l)

/-- The entries of `pstep` in turn. -/
def stepEntries (p : ParCmd) : Nat → State → Out
  | 0, s => s.pause
  | f + 1, s =>
    let n := stripN s
    let c := stripC s
    let m := entryAt s s.a.sew
    let k := p.bank.depth
    if n ≤ m * c then parDone p s
    else
      match headOf s p.head.toNat with
      | [] => s.stall .queue
      | q :: _ =>
        match stepLines p.since p.addr.toNat k (stepParts q (m * c) (min ((m + 1) * c) n) c) s with
        | .error o => o
        | .ok (s, l) =>
          let s := l.foldl (fun s r =>
            enterCells s .parterre p.serial false (r.1.zip ((List.range k).flatMap (planeBytes r.2)))) s
          stepEntries p f (entryDone (popHead s p.head.toNat) s.a.sew m)

/-- The bytes of one entry of `pplane.ld`, line by line from byte i of the access. -/
def planeLines (since base : Nat) : List Nat → State → Step (State × List Byte)
  | [], s => .ok (s, [])
  | i :: rest, s =>
    match engineRead s .parterre since Ask.engineRead (BitVec.ofNat 64 (base + i)) 128 with
    | .wait s => .error (s.stall .line)
    | .bad s e => .error (parTrap s 0 i e)
    | .ok s b =>
      match planeLines since base rest s with
      | .error o => .error o
      | .ok (s, l) => .ok (s, b ++ l)

/-- The entries of `pplane.ld` (R294). -/
def planeLoads (p : ParCmd) : Nat → State → Out
  | 0, s => s.pause
  | f + 1, s =>
    let n := stripN s
    let c := stripC s
    let m := entryAt s s.a.sew
    let hi := min ((m + 1) * c) n
    if n ≤ m * c then parDone p s
    else
      match claimHead s p.head.toNat with
      | none => s.stall .queue
      | some s =>
        match planeLines p.since p.addr.toNat ((span 0 ((hi - m * c) / 128)).map (fun l => m * c + 128 * l)) s with
        | .error o => o
        | .ok (s, b) =>
          planeLoads p f (entryDone (fillHead s p.head.toNat (BitVec.ofNat 65536 (natOf b)) b.length 0 true) s.a.sew m)

/-- The places of the bytes that an entry of `pplane.st` supplies: byte i of the access. -/
def planePlaces (base : Nat) : List (Nat × Nat) → State → Step (State × List Nat)
  | [], s => .ok (s, [])
  | (i, n) :: rest, s =>
    match enginePlace s Ask.engineWrite (BitVec.ofNat 64 (base + i)) n with
    | .wait s => .error (s.stall .line)
    | .bad s e => .error (parRefused s i e)
    | .ok s pl =>
      match planePlaces base rest s with
      | .error o => .error o
      | .ok (s, l) => .ok (s, span pl.key n ++ l)

/-- The entries of `pplane.st` (R294). -/
def planeStores (p : ParCmd) : Nat → State → Out
  | 0, s => s.pause
  | f + 1, s =>
    let n := stripN s
    let c := stripC s
    let m := entryAt s s.a.sew
    if n ≤ m * c then parDone p s
    else
      match headOf s p.head.toNat with
      | [] => s.stall .queue
      | q :: _ =>
        let len := min (q.supply 8) (min ((m + 1) * c) n - m * c)
        match planePlaces p.addr.toNat (pieces (len / 128 + 1) (m * c) len) s with
        | .error o => o
        | .ok (s, keys) =>
          let bytes := (List.range len).map (fun i => BitVec.ofNat 8 (getElemN q.data 8 i))
          let s := enterCells s .parterre p.serial false (keys.zip bytes)
          planeStores p f (entryDone (popHead s p.head.toNat) s.a.sew m)

/-- The work of a command that its instruction waits for, its A-hart in focus. -/
def parWork (p : ParCmd) (s : State) : Out :=
  match p.kind with
  | .vote arg => voteRun p arg s
  | .step => stepEntries p (groupFuel s (ceilDiv (stripN s) (stripC s) + 1)) s
  | .planeLd => planeLoads p (groupFuel s (ceilDiv (stripN s) (stripC s) + 1)) s
  | .planeSt => planeStores p (groupFuel s (ceilDiv (stripN s) (stripC s) + 1)) s
  | _ => .next s

/-- The instruction at the hart: its command works when every earlier one has ended, else the hart waits (R283). -/
def parTurn (s : State) : Out :=
  match s.core.team.pars with
  | [] => .next s
  | p :: _ => if p.t == s.tnd && p.kind.waits then parWork p s else s.stall .engine

/-- Whether the A-hart's instruction has handed its command over already. -/
def parHeld (s : State) : Bool := s.core.team.pars.any (fun c => c.t == s.tnd && c.kind.waits)

/-- Hands the command of a waiting instruction over, once (R283). -/
def parWait (s : State) (sc : BitVec 2) (q r : Bit) (kind : ParKind) (ws : List Word) (bank : Bank) (head : Reg)
    (addr : Word) : Out :=
  if 8 ≤ s.core.team.pars.length then s.stall .engine
  else handOver s sc r fun s => parTurn (holdPar s (fun s => parCmd s kind ws bank head addr (ordOf sc q r)))

/-- `pvote` (R287): variant 0 clipped sums, 1 the best class. -/
def execPvote (d a : Reg) (sc : BitVec 2) (q r : Bit) (v : BitVec 2) (s : State) : Out :=
  issue true false (.pvote d a sc q r v) s fun s =>
    if parHeld s then parTurn s
    else
      parRecordThen s (s.getS a) fun s ws =>
        match s.a.bank with
        | none => s.illegal 7
        | some b =>
          if batchIssue ws != 0 || batchS ws = 0 then s.illegal 7
          else parWait s sc q r (.vote (v == 1#2)) ws b d 0

/-- The binding of a bank that is not needed. -/
def noBank : Bank := { w0 := 0, w1 := 0, w2 := 0 }

/-- `pstep` (R291). -/
def execPstep (a b : Reg) (sc : BitVec 2) (q r : Bit) (s : State) : Out :=
  issue true false (.pstep a b sc q r) s fun s =>
    if parHeld s then parTurn s
    else
      match s.a.bank with
      | none => s.illegal 7
      | some k =>
        if s.a.sew != 0#2 then s.illegal 7
        else if (s.getS a).toNat % 128 != 0 then s.badAccess 5 0 1 (s.getS a)
        else parWait s sc q r .step [] k b (s.getS a)

/-- The checks of `pplane` (R294). -/
def planeThen (s : State) (a : Reg) (acc : Nat) (k : State → Out) : Out :=
  if s.a.sew != 0#2 || stripN s % 128 != 0 then s.illegal 7
  else if (s.getS a).toNat % 128 != 0 then s.badAccess 5 0 acc (s.getS a)
  else k s

/-- `pplane.ld` (R294). -/
def execPplaneLd (d a : Reg) (sc : BitVec 2) (q r : Bit) (s : State) : Out :=
  issue true false (.pplaneLd d a sc q r) s fun s =>
    if parHeld s then parTurn s
    else planeThen s a 0 fun s => parWait s sc q r .planeLd [] noBank d (s.getS a)

/-- `pplane.st` (R294). -/
def execPplaneSt (a b : Reg) (sc : BitVec 2) (q r : Bit) (s : State) : Out :=
  issue true false (.pplaneSt a b sc q r) s fun s =>
    if parHeld s then parTurn s
    else planeThen s a 1 fun s => parWait s sc q r .planeSt [] noBank b (s.getS a)

/-- A pending fault or a waiting completion of the A-hart in focus comes before its instruction goes on (R253, R394). -/
def interrupted (s : State) : Bool := (readyFault s).isSome || userReady s

/-- The agent goes on with the command at its head, if it is of the kinds named, unless its A-hart is about to leave the
instruction, which is then abandoned (R253). -/
def parEvent (s : State) (kinds : ParKind → Bool) : Out := whileResident s fun s =>
  match s.core.team.pars with
  | [] => .next s
  | p :: _ => if kinds p.kind && !interrupted (s.onHart p.t false) then asHart s p.t false (parWork p) else .next s

/-- `PVOTE_RUN` (R287). -/
def execPvoteRun (s : State) : Out := parEvent s (fun k => match k with | .vote _ => true | _ => false)

/-- `PSTEP_RUN` (R291). -/
def execPstepRun (s : State) : Out := parEvent s (fun k => k == .step)

/-- `PPLANE_RUN` (R294). -/
def execPplaneRun (s : State) : Out := parEvent s (fun k => k == .planeLd || k == .planeSt)

/-! ## Draws and the key (R292, R293) -/

/-- The draws of one entry, as elements at sew 16, from what the instruction sampled at issue. -/
def drawElems (smp : DrawSample) (base : Word) (tag : BitVec 32) (c : Nat) : List Nat → State → VReg → (State → VReg → Out) → Out
  | [], s, r, k => k s r
  | j :: rest, s, r, k =>
    let x := base + BitVec.ofNat 64 j
    drawThen s smp Ask.parDraw s.vectorAgent tag ((x >>> 3).setWidth 96) (x.toNat % 8) (x.toNat % 2 ^ 55)
      (fun s cls code va => elemTrap s cls code 6 j va)
      (fun s v => drawElems smp base tag c rest s (setElemN r 16 (j % c) v.toNat) k)

/-- The draw port of the A-hart's `pdraw` ends. -/
def dropDrawPort (s : State) : State :=
  s.setTeam { s.core.team with ports := s.core.team.ports.filter (fun p => !(p.kind == 2 && p.t == s.tnd)) }

/-- What the A-hart's `pdraw` sampled when it issued: its port holds it (R72, R292). -/
def drawSampled (s : State) : DrawSample :=
  match s.core.team.ports.find? (fun p => p.kind == 2 && p.t == s.tnd) with
  | some p => p.draw
  | none => s.core.team.sample

/-- The entries of `pdraw` in turn. -/
def drawEntries (d : Reg) (smp : DrawSample) (base : Word) (tag : BitVec 32) : Nat → State → Out
  | 0, s => s.pause
  | f + 1, s =>
    let n := stripN s
    let c := stripC s
    let m := entryAt s s.a.sew
    if n ≤ m * c then .next (((dropDrawPort s).setVm VMem.idle).bump 4)
    else
      match claimHead s d.toNat with
      | none => s.stall .queue
      | some s =>
        drawElems smp base tag c (span (m * c) (min ((m + 1) * c) n - m * c)) s 0 fun s r =>
          drawEntries d smp base tag f
            (entryDone (fillHead s d.toNat r (min ((m + 1) * c) n - m * c) 1 true) s.a.sew m)

/-- `pdraw` (R292): its port is active from issue to the last push. -/
def execPdraw (d a b : Reg) (s : State) : Out :=
  issue true false (.pdraw d a b) s fun s =>
    let tag := (s.getS a).extractLsb' 0 32
    let mine := s.core.team.ports.any (fun p => p.kind == 2 && p.t == s.tnd)
    if s.a.sew != 1#2 then s.illegal 7
    else if !mine && tagClash s tag then s.trap 9 2 0 0 (tag.setWidth 64)
    else
      let s := if mine then s
        else s.setTeam { s.core.team with
          ports := activePorts s ++
            [{ kind := 2, tag := tag, t := s.tnd, serial := s.serial, draw := s.core.team.sample }] }
      drawEntries d (drawSampled s) (s.getS b) tag (groupFuel s (ceilDiv (stripN s) (stripC s) + 1)) s

/-- `pkey` (R293). -/
def execPkey (a b : Reg) (s : State) : Out :=
  issue true false (.pkey a b) s fun s =>
    (s.setTeam { s.core.team with dkeylo := s.getS a, dkeyhi := s.getS b }).done

/-- Bits of `dsrc` that are not reserved (R71). -/
def dsrcMask : Word := 0x80FFFFFFFFFFFFFF

/-- `pkey.src` (R293). -/
def execPkeySrc (a : Reg) (s : State) : Out :=
  issue true false (.pkeySrc a) s fun s => (s.setTeam { s.core.team with dsrc := s.getS a &&& dsrcMask }).done

/-- `pkey.ep` (R293). -/
def execPkeyEp (a : Reg) (s : State) : Out :=
  issue true false (.pkeyEp a) s fun s => (s.setTeam { s.core.team with repoch := (s.getS a).extractLsb' 0 40 }).done

end Sys2Proof.Machine
end

