-- ==== Sys2Proof/Machine/System.lean ====
section
/-! DEFINITION. Control and system registers (R62 to R76, R139, R376), requested traps, returns and `halt` (R140, R141,
R143). -/

namespace Sys2Proof.Machine

/-! ## The control-register map (R75, R139, R376) -/

/-- The address is listed for the A-hart or the X-hart. -/
def csrListed (x : Bool) (c : Nat) : Bool :=
  let both := c == 0x004 || (0x020 ≤ c && c ≤ 0x022) || c == 0x024 || c == 0x025 || (0x030 ≤ c && c ≤ 0x033) ||
    (0x040 ≤ c && c ≤ 0x050) || c == 0x070 || (0x800 ≤ c && c ≤ 0x806)
  let onX := c ≤ 0x003 || (0x005 ≤ c && c ≤ 0x00B) || (0x010 ≤ c && c ≤ 0x012) || c == 0x060 || c == 0x061
  let onA := c == 0x023 || (0x810 ≤ c && c ≤ 0x812)
  both || (if x then onX else onA)

/-- The registers marked system: `tvec` to `tval2`. -/
def csrSystem (c : Nat) : Bool := 0x801 ≤ c && c ≤ 0x806

/-- `vtype` (R62). -/
def XHart.vtype (x : XHart) : Word :=
  BitVec.ofNat 64 (x.sew.toNat + x.group.toNat * 2 ^ 4 + x.tail.toNat * 2 ^ 7 + x.fmt.toNat * 2 ^ 8)

/-- A write to `vtype`: `fmt` and `tail`; code 15 keeps `fmt` (R62). -/
def XHart.setVtype (x : XHart) (w : Word) : XHart :=
  let f : BitVec 4 := w.extractLsb' 8 4
  { x with fmt := if f = 15#4 then x.fmt else f, tail := w.getLsbD 7 }

/-- A dimension register as a word (R65). -/
def Dim.word (d : Dim) : Word := d.stride ++ d.len.setWidth 32
/-- A word written to a dimension register. Marked DESIGN CHOICE: R65 gives the extent as 0 to 65,536 and does not say
what a larger `len` leaves; its 17 bits stay as written. -/
def Dim.ofWord (w : Word) : Dim := { stride := w.extractLsb' 32 32, len := w.extractLsb' 0 17 }

/-- Fields of `tcause` that are not reserved (R139, R375). -/
def tcauseMask : Word := 0x0000000FFFFF00FF

/-- `mvl` and `mkblk` as this hart reads them (R75, R260). -/
def ownedField (s : State) (v : Word) : Word := if ownsMatrix s then v else 0

/-- Reads a listed register. -/
def csrGet (s : State) (c : Nat) : Word :=
  let h := s.h
  let x := s.x
  let t := s.core.team
  match c with
  | 0x000 => x.vtype
  | 0x001 => x.vl.setWidth 64
  | 0x002 => x.vrows.setWidth 64
  | 0x003 => x.vcols.setWidth 64
  | 0x004 => h.glim.setWidth 64
  | 0x005 => x.vstart.setWidth 64
  | 0x006 => x.fidx[0].setWidth 64
  | 0x007 => x.fidx[1].setWidth 64
  | 0x008 => x.fidx[2].setWidth 64
  | 0x009 => x.vxrm.setWidth 64
  | 0x00A => if x.vxsat then 1 else 0
  | 0x00B => x.xsel.setWidth 64
  | 0x010 => x.dims[0].word
  | 0x011 => x.dims[1].word
  | 0x012 => x.dims[2].word
  | 0x020 => h.frm.setWidth 64
  | 0x021 => h.fflags.setWidth 64
  | 0x022 => if h.iflags then 1 else 0
  | 0x023 => if s.a.xrange then 1 else 0
  | 0x024 => h.ldst.setWidth 64
  | 0x025 => h.strip
  | 0x030 => t.dkeylo
  | 0x031 => t.dkeyhi
  | 0x032 => t.dsrc
  | 0x033 => t.repoch.setWidth 64
  | 0x050 => BitVec.ofNat 64 s.tnd.val
  | 0x060 => ownedField s (s.mx.mvl.setWidth 64)
  | 0x061 => ownedField s (s.mx.mkblk.setWidth 64)
  | 0x070 => s.core.cycle
  | 0x800 => if h.priv = .system then 1 else 0
  | 0x801 => h.tvec
  | 0x802 => h.tpc
  | 0x803 => h.tcause
  | 0x804 => h.tval
  | 0x805 => h.tscratch
  | 0x806 => h.tval2
  | 0x810 => s.a.uvec
  | 0x811 => s.a.upc
  | 0x812 => if s.a.ustat then 1 else 0
  | _ =>
    if c < 0x048 then (t.lcoord[c % 8]'(Nat.mod_lt _ (by decide))).setWidth 64
    else (t.lext[c % 8]'(Nat.mod_lt _ (by decide))).setWidth 64

/-- Writes a listed register by its access code: a write to an RO register is ignored, and one to a W1C register clears
the bits written as 1 (R10, R11, R68, R76). -/
def csrSet (s : State) (c : Nat) (w : Word) : State :=
  let h := s.h
  let x := s.x
  let t := s.core.team
  match c with
  | 0x000 => s.setX (x.setVtype w)
  | 0x005 => s.setX { x with vstart := w.extractLsb' 0 17 }
  | 0x009 => s.setX { x with vxrm := w.extractLsb' 0 2 }
  | 0x00A => s.setX { x with vxsat := x.vxsat && !w.getLsbD 0 }
  | 0x00B => s.setX { x with xsel := w.extractLsb' 0 5 }
  | 0x010 => s.setX { x with dims := x.dims.set 0 (Dim.ofWord w) }
  | 0x011 => s.setX { x with dims := x.dims.set 1 (Dim.ofWord w) }
  | 0x012 => s.setX { x with dims := x.dims.set 2 (Dim.ofWord w) }
  | 0x020 =>
    let f : BitVec 3 := w.extractLsb' 0 3
    s.setH { h with frm := if f ≤ 4#3 then f else h.frm }
  | 0x021 => s.setH { h with fflags := clearOnes h.fflags (w.extractLsb' 0 5) }
  | 0x022 => s.setH { h with iflags := h.iflags && !w.getLsbD 0 }
  | 0x023 => s.setA { s.a with xrange := s.a.xrange && !w.getLsbD 0 }
  | 0x030 => s.setTeam { t with dkeylo := w }
  | 0x031 => s.setTeam { t with dkeyhi := w }
  | 0x032 => s.setTeam { t with dsrc := w &&& dsrcMask }
  | 0x033 => s.setTeam { t with repoch := w.extractLsb' 0 40 }
  | 0x801 => s.setH { h with tvec := w &&& ~~~1#64 }
  | 0x802 => s.setH { h with tpc := w }
  | 0x803 => s.setH { h with tcause := w &&& tcauseMask }
  | 0x804 => s.setH { h with tval := w }
  | 0x805 => s.setH { h with tscratch := w }
  | 0x806 => s.setH { h with tval2 := w }
  | 0x810 => s.setA { s.a with uvec := w }
  | 0x811 => s.setA { s.a with upc := w }
  | _ => s

/-- The checks of a control-register instruction: the address is listed for the hart, then privilege (R76, R139, R379,
R383, R384). -/
def csrThen (i : Instr) (c : BitVec 12) (s : State) (body : State → Out) : Out :=
  issue true true i s fun s =>
    if !csrListed s.xh c.toNat then s.illegal 6
    else if csrSystem c.toNat && s.h.priv == .user then s.trap 2 0 0 0 (c.setWidth 64)
    else body s

/-- `csrr` (R139). -/
def execCsrr (d : Reg) (c : BitVec 12) (s : State) : Out :=
  csrThen (.csrr d c) c s fun s => (s.setS d (csrGet s c.toNat)).done

/-- `csrw` (R139). -/
def execCsrw (a : Reg) (c : BitVec 12) (s : State) : Out :=
  csrThen (.csrw a c) c s fun s => (csrSet s c.toNat (s.getS a)).done

/-- `csrx` (R139): both reads come before both writes. -/
def execCsrx (d a : Reg) (c : BitVec 12) (s : State) : Out :=
  csrThen (.csrx d a c) c s fun s =>
    let t := s.getS a
    let old := csrGet s c.toNat
    (csrSet (s.setS d old) c.toNat t).done

/-! ## Traps, return and stopping (R140, R141, R143) -/

/-- `trap` (R140): the resume address is the next instruction. -/
def execTrap (i : BitVec 13) (s : State) : Out :=
  issue true true (.trap i) s fun s => .next (s.takeTrap (causeWord 3 i.toNat 0) 0 0 (s.pc + 4))

/-- `brk` (R140): the resume address is the instruction itself. -/
def execBrk (i : BitVec 13) (s : State) : Out :=
  issue true true (.brk i) s fun s => .next (s.takeTrap (causeWord 4 i.toNat 0) 0 0 s.pc)

/-- `eret` (R141). -/
def execEret (s : State) : Out :=
  issue true true .eret s fun s =>
    match s.h.priv with
    | .system => .next s.returnTrap
    | .user => if !s.xh && s.a.ustat then .next s.returnUser else s.trap 2 1 0 0 0

/-- `halt` (R143): the hart fetches nothing further. -/
def execHalt (s : State) : Out :=
  issue true true .halt s fun s => .next ((s.bump 4).setH { (s.bump 4).h with halted := true })

end Sys2Proof.Machine
end

