-- ==== Sys2Proof/Machine/Preempt.lean ====
section
/-! DEFINITION. Pre-emption of the team that a core runs (R344, R345), what takes its place (R340, R341, R343), and the
instructions that are pre-emption points of their own: `setvl`, `setvl2` and `yield` (R142, R343). -/

namespace Sys2Proof.Machine

/-! ## Quiescence (R345) -/

/-- Every agent of a team. -/
def teamAgents : List Agent :=
  ([0, 1, 2, 3] : List (Fin 4)).flatMap (fun t => [.scalar t, .vector t]) ++ [.copy, .feed, .parterre, .trellis]

/-- A fault or a pre-emption stops a sweep part-way: the dimension indices of the element at `vstart` (R66, R149). -/
def XHart.stopSweep (x : XHart) : XHart :=
  if x.midway then
    let j := x.sweepIndex x.vstart.toNat
    { x with midway := false, fidx := #v[BitVec.ofNat 17 j.1, BitVec.ofNat 17 j.2.1, BitVec.ofNat 17 j.2.2] }
  else x

/-- The X-hart of tandem t stops where it stands: an uncommitted group of a block is discarded (R201, R345). The element
groups and rank-1 steps that an instruction has taken are in its registers, and `vstart` stands after them (R51, R66); the
pre-emption has waited for the issue opportunities of a whole strip or entry (R168). -/
def stopX (s : State) (t : Fin 4) : State :=
  let s := s.onHart t true
  s.setX { discardBlock s.x.stopSweep with owed := 0 }

/-- Stream fills under way are dropped, and so is a fault that no instruction has met (R153, R395). -/
def dropFills (app : App) : App :=
  { app with streams := app.streams.map (fun st =>
      { st with started := if st.filling then st.started - 1 else st.started, filling := false, fault := none }) }

/-- The A-hart of tandem t takes the first pending fault that it can take (R394). -/
def takeReady (s : State) (t : Fin 4) : State :=
  let s := s.onHart t false
  match readyFault s with
  | some p => s.takePending p
  | none => s

/-- The A-hart of tandem t stops: its stream fills are dropped and the first of its pending faults is taken (R380,
R394). A hart at the handler's entry is held there. -/
def stopA (s : State) (t : Fin 4) : State :=
  let s := s.onHart t false
  takeReady (s.setA { s.a with app := s.a.app.map dropFills, paused := false }) t

/-- Parterre commands at their stop points: the draws that select a clause in progress are read again (R284, R289). -/
def stopPars (s : State) : State :=
  s.setTeam { s.core.team with pars := s.core.team.pars.map (fun p => { p with sel := none }) }

/-- Bytes of the window that a team may use. -/
def spadSize (t : Team) : Nat := t.spad * 65536

/-- Key of byte 0 of a core's scratchpad. -/
def spadKey (g : Nat) : Nat := scratchBase + g * 2 ^ 23

/-- The poison of a scratchpad once it has gone through its image: the 64-byte granules of device memory that hold its
poisoned words are poisoned whole, and so are the words that come back from them (R354, R387, R389). -/
def imagePoison (offsets : List Nat) : List Nat :=
  ((offsets.map (· / 64)).eraseDups).flatMap (fun g => ([0, 16, 32, 48] : List Nat).map (64 * g + ·))

/-- The scratchpad of the team, saved with it (R345, R389). -/
def saveScratch (s : State) : State :=
  let t := s.core.team
  let lo := spadKey s.core.num
  let hi := lo + spadSize t
  s.setTeam { t with
    spadBytes := (s.mem.filter (fun c => lo ≤ c.1 && c.1 < hi)).map (fun c => (c.1 - lo, c.2))
    spadEmpty := s.core.emptyLines
    spadPoison := imagePoison ((s.poison.filter (fun a => lo ≤ a && a < hi)).map (· - lo)) }

/-- Steps 1 to 3 of R345 and the saving of the scratchpad: every hart stops, the engines stand at their stop points, and
each agent releases at system scope; draw ports that have ended are not saved (R284, R295). -/
def quiesce (s : State) : State :=
  let ts : List (Fin 4) := [0, 1, 2, 3]
  let t := s.tnd
  let x := s.xh
  let s := dropWalks (ts.foldl stopX s) (fun w => w.core == s.core.num)
  let s := forgetEarly (releaseMove s s.core.num teamAgents 3) s.core.num teamAgents
  let s := ts.foldl stopA (stopPars s)
  let s := saveScratch (s.setTeam { s.core.team with ports := activePorts s })
  (s.setTeam { s.core.team with status := .stopped }).onHart t x

/-! ## What takes the place of a team (R340, R341, R343) -/

/-- Replaces the record of a launch. -/
def State.setLaunch (s : State) (r : LaunchRec) : State :=
  { s with launches := s.launches.map (fun k => if k.queue == r.queue && k.m == r.m && k.epoch == r.epoch then r else k) }

/-- A team that no core holds any longer. -/
def holdTeam (s : State) (t : Team) : State :=
  match s.launchOf t.launch t.epoch with
  | some r => s.setLaunch { r with teams := r.teams ++ [t] }
  | none => s

/-- The first team of the highest priority, and the others in order. -/
def bestTeam (l : List Team) : Option (Team × List Team) :=
  let top := l.foldl (fun m t => max m t.prio) 0
  match l.findIdx? (fun t => t.prio == top) with
  | none => none
  | some i => (l[i]?).map (fun t => (t, l.eraseIdx i))

/-- A core without a team takes the next of its run list, which then starts or resumes (R343). -/
def fillCore (s : State) : State :=
  if s.core.team.status == .none then
    match bestTeam s.core.runList with
    | none => s
    | some (t, l) => { s with core := { s.core with team := t, runList := l } }
  else s

/-- The team of the core in focus leaves it: to the tail of the run list, or to its launch (R343, R345). -/
def leaveCore (s : State) (tail : Bool) : State :=
  if s.core.team.status == .none then s
  else
    let s := if s.core.team.status == .resident then quiesce s else s
    let t := s.core.team
    let s := { s with core := { s.core with
      team := Team.blank, expired := false, runList := if tail then s.core.runList ++ [t] else s.core.runList } }
    fillCore (if tail then s else holdTeam s t)

/-- What keeps the release of step 3 from performing: the team's own guard and checks do not, once its harts have
stopped. -/
def leaveHeld (s : State) : List Nat :=
  if s.core.team.status == .resident then
    releaseHeld (s.setTeam { s.core.team with status := .stopped }) s.core.num teamAgents 3
  else []

/-- A pre-emption of the team of the core in focus, once its release can perform (R324, R345). -/
def preempt (s : State) (tail : Bool) : State :=
  match leaveHeld s with
  | [] => leaveCore s tail
  | l => askSuspend s l

/-- A team of at least a priority waits in the run list. -/
def waiting (s : State) (prio : Nat) : Bool := s.core.runList.any (fun t => prio ≤ t.prio)

/-! ## `yield`, `setvl` and `setvl2` (R142, R343) -/

/-- `yield` (R142). -/
def execYield (s : State) : Out :=
  issue true true .yield s fun s =>
    if !waiting s s.core.team.prio then s.done
    else
      match leaveHeld s with
      | [] => .next (leaveCore (s.bump 4) true)
      | l => .next (askSuspend s l)

/-- The first strip boundary after the quantum has expired pre-empts before the grant is made (R343). -/
def atBoundary (s : State) (grant : State → Out) : Out :=
  if s.core.expired then .next (preempt s true) else grant s

/-- `setvl` (R39, R144). -/
def execSetvl (d a : Reg) (g e : BitVec 2) (s : State) : Out :=
  issue true true (.setvl d a g e) s fun s =>
    if s.xh then takeGrant s d else atBoundary s (setvlA d a g e)

/-- `setvl2` (R44, R144). -/
def execSetvl2 (d a b : Reg) (e : BitVec 2) (s : State) : Out :=
  issue true true (.setvl2 d a b e) s fun s =>
    if s.xh then takeGrant s d else atBoundary s (setvl2A d a b e)

end Sys2Proof.Machine
end

