-- ==== Sys2Proof/Machine/Image.lean ====
section
/-! DEFINITION. The context image of a team as an evict record writes it and a resume record reads it (R349 to R352, R258,
R389, R425). -/

namespace Sys2Proof.Machine

/-- Bytes at an offset. -/
abbrev Piece := Nat × List Byte

/-- Words one after another. -/
def words (l : List Word) : List Byte := l.flatMap (bytesOf 8)

def word32 (v : BitVec 32) : List Byte := bytesOf 4 (v.setWidth 64)

/-- Bytes of a vector of bits, n of them, least first. -/
def wideBytes {w : Nat} (v : BitVec w) (n : Nat) : List Byte := (List.range n).map (fun i => v.extractLsb' (8 * i) 8)

/-- A number from bytes. -/
def wideOf (w : Nat) (l : List Byte) : BitVec w := BitVec.ofNat w (natOf l)

/-! ## Sizes (R349, R353) -/

/-- Offsets of the tandem slots and of the areas that follow. -/
def slotAt (t : Nat) : Nat := 4096 + 365312 * t
def controlAt : Nat := 1465344
def tilesAt : Nat := 1466368
def parterreAt : Nat := 2514944
def trellisAt : Nat := 2523904
def fullAt : Nat := 2590784

/-- Where the image of team n lies in an area (R353). -/
def imageAt (area spad n : Nat) : Nat := area + 4096 + n * slotSize spad

/-- Bytes that an area for a number of teams takes. -/
def areaSize (spad count : Nat) : Nat := 4096 + count * slotSize spad

/-! ## Writing -/

/-- The extent of a register: the end of its highest element group with a non-zero byte (R352). -/
def extentOf (v : VReg) : Nat :=
  ((List.range 32).reverse.find? (fun j => v.extractLsb' (2048 * j) 2048 != 0)).elim 0 (fun j => 256 * (j + 1))

/-- State code of the header (R350). -/
def stateCode : TeamStatus → Nat
  | .ended => 2
  | .notStarted => 0
  | _ => 1

/-- A held command: its record and its next chunk (R252, R350). -/
def heldBytes (ws : List Word) (next : Nat) : List Byte := words ((List.range 8).map (rw ws) ++ [BitVec.ofNat 64 next])

/-- The team header (R350). -/
def headerPieces (t : Team) : List Piece :=
  [(0, words [BitVec.ofNat 64 (1 + stateCode t.status * 2 ^ 8 + t.det.toNat * 2 ^ 10 + t.port.toNat * 2 ^ 11 +
      t.og.toNat * 2 ^ 12 + t.dtg.toNat * 2 ^ 14),
    BitVec.ofNat 64 (t.launch + (t.tandems - 1) * 2 ^ 32 + t.w * 2 ^ 36)]),
   (16, t.lcoord.toList.flatMap word32 ++ t.lext.toList.flatMap word32),
   (80, words [t.dkeylo, t.dkeyhi, t.dsrc, t.repoch.setWidth 64, t.event.setWidth 64, BitVec.ofNat 64 t.spad]),
   (128, t.copies.flatMap (fun c => heldBytes c.words c.next)),
   (1280, t.feeds.flatMap (fun c => heldBytes c.words c.step)),
   (2592, t.late.flatMap (fun l => words [l.detail, l.addr])),
   (2848, words [t.lateCount])] ++
  (List.range 4).map (fun i =>
    (1568 + 256 * i, (t.tds.toList.getD i Tandem.fresh).a.done.flatMap (fun c => words [c.stat, c.status])))

def privWord : Priv → Word
  | .user => 0
  | .system => 1

def boolWord (b : Bool) : Word := if b then 1 else 0

/-- The A-hart area (R351). -/
def aPieces (a : AHart) : List Piece :=
  let h := a.h
  let b : List Word := match a.bank with
    | some b => [b.w0, b.w1, b.w2]
    | none => []
  [(0, words h.s.toList), (256, words h.f.toList), (512, words a.shadow.toList), (576, words b),
   (640, words [a.ldstAside.setWidth 64, a.n.setWidth 64, BitVec.ofNat 64 (a.sew.toNat + a.group.toNat * 16),
     a.vrows.setWidth 64, a.vcols.setWidth 64, BitVec.ofNat 64 a.vm.restart, h.pc, h.glim.setWidth 64,
     h.frm.setWidth 64, h.fflags.setWidth 64, boolWord h.iflags, boolWord a.xrange, h.ldst.setWidth 64, h.strip,
     privWord h.priv, h.tvec, h.tpc, h.tcause, h.tval, h.tscratch, h.tval2, a.uvec, a.upc, boolWord a.ustat])]

/-- The X-hart area (R351). -/
def xPieces (x : XHart) : List Piece :=
  let h := x.h
  [(0, words h.s.toList), (256, words h.f.toList), (512, x.prog.toList.flatMap (fun p => bytesOf 4 (p.setWidth 64))),
   (640, x.v.toList.flatMap (fun v => bytesOf 2 (BitVec.ofNat 64 (extentOf v)))),
   (704, words ([x.carry, h.pc, x.vtype, x.vl.setWidth 64, x.vrows.setWidth 64, x.vcols.setWidth 64,
     h.glim.setWidth 64, x.vstart.setWidth 64] ++ x.fidx.toList.map (·.setWidth 64) ++
     [x.vxrm.setWidth 64, boolWord x.vxsat, x.xsel.setWidth 64] ++ x.dims.toList.map Dim.word ++
     [h.frm.setWidth 64, h.fflags.setWidth 64, boolWord h.iflags, h.ldst.setWidth 64, h.strip, privWord h.priv, h.tvec,
      h.tpc, h.tcause, h.tval, h.tscratch, h.tval2]))]

def shift (n : Nat) (l : List Piece) : List Piece := l.map (fun p => (n + p.1, p.2))

/-- Entry slots of the queues: two of 8,192 bytes for each of q0 to q5, then q6 and q7 (R351). -/
def queuePieces (td : Tandem) : List Piece :=
  td.q.toList.zipIdx.flatMap (fun p => p.1.zipIdx.map (fun e => (8192 * (2 * p.2 + e.2), wideBytes e.1.data 8192))) ++
  [(98304, words td.q6), (98432, words td.q7)]

/-- A private area: zero where it holds nothing, else the tag and bytes that only the device reads (R425). -/
def privateArea (off len : Nat) (holds : Bool) (tag : Word) : List Piece :=
  if holds then [(off, words [tag] ++ (span (off + 8) (len - 8)).map (Config.privateByte tag.toNat))] else []

/-- The stream area of a tandem slot holds something of what R351 lists for it (R425). -/
def streamHolds (td : Tandem) : Bool :=
  td.a.app.isSome || td.a.vm.used != 0 || td.a.h.halted || td.x.h.halted || !td.gq.isEmpty ||
    td.q.toList.any (fun l => !l.isEmpty) || !td.q6.isEmpty || !td.q7.isEmpty

/-- A tandem slot (R351, R352). -/
def tandemPieces (td : Tandem) (tag : Word) : List Piece :=
  aPieces td.a ++
  td.x.v.toList.zipIdx.map (fun p => (1024 + 8192 * p.2, wideBytes p.1 (extentOf p.1))) ++
  td.x.k.toList.zipIdx.map (fun p => (263168 + 256 * p.2, wideBytes p.1 256)) ++
  shift 265216 (xPieces td.x) ++ shift 266240 (queuePieces td) ++ privateArea 364800 512 (streamHolds td) tag

/-- The matrix control block and the tiles (R73, R258); zero where the state is not owned. -/
def matrixPieces (m : Matrix) : List Piece :=
  match m.owner with
  | none => []
  | some o =>
    [(controlAt, m.sa.toList.flatMap word32 ++ m.sw.toList.flatMap word32 ++
      [m.mvl, m.mkblk.setWidth 8, m.touch.setWidth 8, BitVec.ofNat 8 (128 + o.val)])] ++
    m.tiles.toList.zipIdx.flatMap (fun u => u.1.toList.zipIdx.flatMap (fun r => r.1.toList.zipIdx.map (fun c =>
      (tilesAt + 262144 * u.2 + 2048 * r.2 + 16 * c.2,
        word32 c.1.acc ++ wideBytes c.1.part 6 ++
          [BitVec.ofNat 8 (c.1.nan.toNat + 2 * c.1.inf.toNat + 4 * c.1.isign.toNat)]))))

/-- The full/empty bits: line L in bit L mod 8 of byte L div 8 (R349). -/
def fullBytes (empty : List Nat) : List Byte :=
  (List.range 8192).map (fun b =>
    BitVec.ofNat 8 (((List.range 8).map (fun i => if empty.contains (8 * b + i) then 0 else 2 ^ i)).sum))

/-- The slots of the tandems that the team has. -/
def slotPieces (t : Team) (tag : Word) : List Piece :=
  (t.tds.toList.take t.tandems).zipIdx.flatMap (fun p =>
    shift (slotAt p.2) (tandemPieces p.1 tag))

/-- The image of a team (R349) with the tag of its private parts, and its scratchpad after it. Marked DESIGN CHOICE: the
Parterre block is zero where the Parterre agent and the draw ports hold nothing (R425). -/
def imagePieces (t : Team) (tag : Word) : List Piece :=
  headerPieces t ++
  slotPieces t tag ++
  matrixPieces t.mx ++
  privateArea parterreAt 8960 (!t.pars.isEmpty || !t.ports.isEmpty) tag ++
  privateArea trellisAt 66880 (t.trellis.isSome || t.tds.toList.any (fun td => td.a.grid.isSome)) tag ++
  [(fullAt, fullBytes t.spadEmpty)] ++ t.spadBytes.map (fun c => (imageSize + c.1, [c.2]))

/-- The private parts of a team whose image has a tag and a header (R425). -/
def partsOf (t : Team) (tag : Word) (header : List Byte) : PrivateParts where
  tag := tag
  header := header
  late := t.late.map (·.t)
  pend := t.tds.map (·.a.pend)
  apps := t.tds.map (·.a.app)
  vms := t.tds.map (·.a.vm)
  halts := t.tds.map (fun td => (td.a.h.halted, td.x.h.halted))
  gqs := t.tds.map (·.gq)
  stalls := t.tds.map (·.a.stalled)
  twos := t.tds.map (·.x.two)
  resumes := t.tds.map (·.x.resumed)
  heads := t.tds.map (fun td => td.q.map (fun l => l.map (fun e => (e.count, e.sew, e.fill))))
  scalars := t.tds.map (fun td => (td.q6.length, td.q7.length))
  pars := t.pars
  ports := t.ports
  copies := t.copies
  feeds := t.feeds
  trellis := t.trellis
  grids := t.tds.map (·.a.grid)

/-- The image of team n and its scratchpad written at home, with the poison of the scratchpad (R353, R389). -/
def writeImage (s : State) (area spad n : Nat) (t : Team) : State :=
  let at_ := imageAt area spad n
  let tag := Config.imageTag s.ticks ++ BitVec.ofNat 32 (s.privates.length + 1)
  let len := slotSize spad
  let mem := (s.mem.clear at_ len).writeAll ((imagePieces t tag).flatMap (fun (p : Piece) => cellsAt (at_ + p.1) p.2))
  let s := { s with
    mem := mem
    poison := s.poison.filter (fun a => a < at_ || at_ + len ≤ a)
    privates := s.privates ++ [partsOf t tag (mem.bytes at_ headerSize)] }
  s.poisonAt (t.spadPoison.map (fun o => at_ + imageSize + o))

/-! ## Reading -/

/-- Private parts that hold nothing. -/
def PrivateParts.none : PrivateParts where
  tag := 0
  header := []
  late := []
  pend := Vector.replicate 4 []
  apps := Vector.replicate 4 .none
  vms := Vector.replicate 4 VMem.idle
  halts := Vector.replicate 4 (false, false)
  gqs := Vector.replicate 4 []
  stalls := Vector.replicate 4 .none
  twos := Vector.replicate 4 false
  resumes := Vector.replicate 4 false
  heads := Vector.replicate 4 (Vector.replicate 6 [])
  scalars := Vector.replicate 4 (0, 0)
  pars := []
  ports := []
  copies := []
  feeds := []
  trellis := .none
  grids := Vector.replicate 4 .none

end Sys2Proof.Machine

namespace Sys2Proof.Config

/-- What the private parts of an image hold that another device has written (R425: every device reads the form that
every other writes, and the form is not stated). -/
opaque foreignParts : Word → Machine.PrivateParts

end Sys2Proof.Config

namespace Sys2Proof.Machine

/-- The private parts that a tag names; a zero area holds nothing. -/
def partsAt (s : State) (tag : Word) : PrivateParts :=
  if tag = 0 then PrivateParts.none
  else (s.privates.find? (fun p => p.tag == tag)).getD (Config.foreignParts tag)

/-- What the image at an address means beside what it shows: the commands behind the records of its header, the harts of
its late faults, and the pending faults and stops of its harts. Marked DESIGN CHOICE: the spec gives these no place in the
image; the model keeps them with the private parts, and those of an image of another device are open, but that its block
carries count (R198, R201). -/
def hiddenAt (s : State) (at_ : Nat) : PrivateParts :=
  match partsIndex s at_ with
  | some i => s.privates.getD i PrivateParts.none
  | none =>
    let p := Config.foreignParts (imageTagAt s at_)
    let held := fun (o n : Nat) => (List.range n).filter (fun i => (s.mem.bytes (at_ + o + 72 * i) 72).any (· != 0))
    { p with
      resumes := Vector.replicate 4 true
      copies := (held 128 16).map (fun i => p.copies.getD i default)
      feeds := (held 1280 4).map (fun i => p.feeds.getD i default)
      late := (List.range (min 16 (s.mem.word (at_ + 2848)).toNat)).map (fun i => p.late.getD i 0) }

/-- Where an image lies, for its words and bytes. -/
structure Src where
  mem : Memory
  base : Nat

def Src.word (r : Src) (o : Nat) : Word := r.mem.word (r.base + o)
def Src.bytes (r : Src) (o n : Nat) : List Byte := r.mem.bytes (r.base + o) n
def Src.nat (r : Src) (o n : Nat) : Nat := natOf (r.bytes o n)

/-- The first n words from an offset. -/
def Src.vec (r : Src) (o n : Nat) : Vector Word n := vtab n (fun i => r.word (o + 8 * i))

def privOf (w : Word) : Priv := if w.getLsbD 0 then .system else .user

/-- What both hart areas hold, from the offsets of their registers. -/
def Src.hart (r : Src) (o pc glim frm iflags ldst priv : Nat) (halted : Bool) : Hart where
  s := (r.vec o 32).set 0 0
  f := r.vec (o + 256) 32
  pc := r.word (o + pc) &&& ~~~1#64
  glim := (r.word (o + glim)).extractLsb' 0 7
  strip := r.word (o + ldst + 8)
  frm := (r.word (o + frm)).extractLsb' 0 3
  fflags := (r.word (o + frm + 8)).extractLsb' 0 5
  iflags := (r.word (o + iflags)).getLsbD 0
  ldst := (r.word (o + ldst)).extractLsb' 0 7
  priv := privOf (r.word (o + priv))
  tvec := r.word (o + priv + 8) &&& ~~~1#64
  tpc := r.word (o + priv + 16)
  tcause := r.word (o + priv + 24) &&& tcauseMask
  tval := r.word (o + priv + 32)
  tval2 := r.word (o + priv + 48)
  tscratch := r.word (o + priv + 40)
  halted := halted
  wait := none
  since := 0
  slot := none

/-- The A-hart of a slot at an offset (R351), with its private parts and what the image does not show. -/
def Src.aHart (r : Src) (o i : Nat) (p h : PrivateParts) : AHart where
  h := r.hart o 688 696 704 720 736 752 (p.halts.toList.getD i (false, false)).1
  shadow := r.vec (o + 512) 8
  ustat := (r.word (o + 824)).getLsbD 0
  uvec := r.word (o + 808)
  upc := r.word (o + 816)
  xrange := (r.word (o + 728)).getLsbD 0
  ldstAside := (r.word (o + 640)).extractLsb' 0 7
  n := (r.word (o + 648)).extractLsb' 0 17
  sew := (r.word (o + 656)).extractLsb' 0 2
  group := (r.word (o + 656)).extractLsb' 4 2
  vrows := (r.word (o + 664)).extractLsb' 0 17
  vcols := (r.word (o + 672)).extractLsb' 0 17
  vm := { h.vms.toList.getD i VMem.idle with
    restart := (r.word (o + 680)).toNat, used := (p.vms.toList.getD i VMem.idle).used }
  stalled := h.stalls.toList.getD i none
  paused := false
  bank :=
    if r.word (o + 576) = 0 && r.word (o + 584) = 0 && r.word (o + 592) = 0 then none
    else some { w0 := r.word (o + 576), w1 := r.word (o + 584), w2 := r.word (o + 592) }
  grid := none
  app := p.apps.toList.getD i none
  done := []
  pend := h.pend.toList.getD i []

/-- The X-hart of a slot at an offset (R351, R352). -/
def Src.xHart (r : Src) (o i : Nat) (p h : PrivateParts) : XHart :=
  let q := o + 265216
  { h := r.hart q 712 752 840 856 864 880 (p.halts.toList.getD i (false, false)).2
    v := vtab 32 (fun j => wideOf 65536 (r.bytes (o + 1024 + 8192 * j) (r.nat (q + 640 + 2 * j) 2)))
    prog := vtab 32 (fun j => BitVec.ofNat 17 (r.nat (q + 512 + 4 * j) 4))
    k := vtab 8 (fun j => wideOf 2048 (r.bytes (o + 263168 + 256 * j) 256))
    sew := (r.word (q + 720)).extractLsb' 0 2
    group := (r.word (q + 720)).extractLsb' 4 2
    fmt := (r.word (q + 720)).extractLsb' 8 4
    tail := (r.word (q + 720)).getLsbD 7
    vl := (r.word (q + 728)).extractLsb' 0 17
    vrows := (r.word (q + 736)).extractLsb' 0 17
    vcols := (r.word (q + 744)).extractLsb' 0 17
    two := h.twos.toList.getD i false
    vstart := (r.word (q + 760)).extractLsb' 0 17
    fidx := vtab 3 (fun j => (r.word (q + 768 + 8 * j)).extractLsb' 0 17)
    vxrm := (r.word (q + 792)).extractLsb' 0 2
    vxsat := (r.word (q + 800)).getLsbD 0
    xsel := (r.word (q + 808)).extractLsb' 0 5
    dims := vtab 3 (fun j => Dim.ofWord (r.word (q + 816 + 8 * j)))
    carry := r.word (q + 704)
    resumed := h.resumes.toList.getD i false
    block := none
    decoded := 0
    owed := 0
    midway := false }

/-- A tandem slot, with the waiting completions that the header holds for it. -/
def Src.tandem (r : Src) (i : Nat) (p h : PrivateParts) : Tandem :=
  let o := slotAt i
  let qs := o + 266240
  let done := (List.range 16).map (fun j =>
    ({ stat := r.word (1568 + 256 * i + 16 * j), status := r.word (1576 + 256 * i + 16 * j) } : Completion))
  let n := p.scalars.toList.getD i (0, 0)
  let hs := p.heads.toList.getD i (Vector.replicate 6 [])
  { a := { r.aHart o i p h with done := done.filter (fun c => c.stat != 0) }
    x := r.xHart o i p h
    q := vtab 6 (fun j => (hs.toList.getD j []).zipIdx.map (fun e =>
      { data := wideOf 65536 (r.bytes (qs + 8192 * (2 * j + e.2)) 8192), count := e.1.1, sew := e.1.2.1
        fill := e.1.2.2 }))
    q6 := (List.range n.1).map (fun j => r.word (qs + 98304 + 8 * j))
    q7 := (List.range n.2).map (fun j => r.word (qs + 98432 + 8 * j))
    gq := p.gqs.toList.getD i [] }

/-- The matrix state of an image (R73, R258). -/
def Src.matrix (r : Src) : Matrix :=
  let o := r.nat (controlAt + 531) 1
  if o < 128 then Matrix.free
  else
    { owner := some ⟨o % 4, Nat.mod_lt _ (by decide)⟩
      tiles := vtab 4 (fun u => vtab 128 (fun i => vtab 128 (fun j =>
        let c := tilesAt + 262144 * u + 2048 * i + 16 * j
        let f := r.nat (c + 10) 1
        { acc := BitVec.ofNat 32 (r.nat c 4), part := BitVec.ofNat 48 (r.nat (c + 4) 6)
          nan := f.testBit 0, inf := f.testBit 1, isign := f.testBit 2 })))
      mvl := BitVec.ofNat 8 (r.nat (controlAt + 528) 1)
      mkblk := BitVec.ofNat 7 (r.nat (controlAt + 529) 1)
      sa := vtab 128 (fun i => BitVec.ofNat 32 (r.nat (controlAt + 4 * i) 4))
      sw := vtab 4 (fun i => BitVec.ofNat 32 (r.nat (controlAt + 512 + 4 * i) 4))
      touch := BitVec.ofNat 4 (r.nat (controlAt + 530) 1) }

/-- The team that an image holds (R350, R354); attributes of the launch that the image does not hold are those of
`like`. -/
def readTeam (s : State) (r : Src) (like : Team) : Team :=
  let h := r.word 0
  let g := r.word 8
  let tandems := (g.extractLsb' 32 3).toNat + 1
  let stream := fun (i : Nat) => partsAt s (r.word (slotAt i + 364800))
  let hidden := hiddenAt s r.base
  let par := partsAt s (r.word parterreAt)
  let trel := partsAt s (r.word trellisAt)
  let held := fun (o n i : Nat) => ((List.range 8).map (fun j => r.word (o + n * i + 8 * j)), (r.word (o + n * i + 64)).toNat)
  let coords : Team := { like with
    det := h.getLsbD 10, port := h.getLsbD 11, og := h.extractLsb' 12 2, dtg := h.getLsbD 14
    tandems := tandems, w := (g.extractLsb' 36 4).toNat
    lcoord := vtab 8 (fun i => BitVec.ofNat 32 (r.nat (16 + 4 * i) 4))
    lext := vtab 8 (fun i => BitVec.ofNat 32 (r.nat (48 + 4 * i) 4))
    dkeylo := r.word 80, dkeyhi := r.word 88, dsrc := r.word 96 &&& dsrcMask, repoch := (r.word 104).extractLsb' 0 40
    event := (r.word 112).extractLsb' 0 16, spad := ((r.word 120).extractLsb' 0 8).toNat }
  if h.extractLsb' 8 2 = 0#2 then { coords with status := .notStarted }
  else
    { coords with
      status := if h.extractLsb' 8 2 = 1#2 then .stopped else .ended
      tds := vtab 4 (fun i =>
        if i < tandems then
          let td := r.tandem i (stream i) hidden
          { td with a := { td.a with grid := trel.grids.toList.getD i none } }
        else Tandem.fresh)
      mx := r.matrix
      copies := hidden.copies.zipIdx.map (fun c =>
        { c.1 with words := (held 128 72 c.2).1, next := (held 128 72 c.2).2 })
      feeds := hidden.feeds.zipIdx.map (fun c =>
        { c.1 with words := (held 1280 72 c.2).1, step := (held 1280 72 c.2).2 })
      pars := par.pars
      ports := par.ports
      trellis := trel.trellis
      late := hidden.late.zipIdx.map (fun t =>
        { t := t.1, detail := r.word (2592 + 16 * t.2), addr := r.word (2600 + 16 * t.2) })
      lateCount := r.word 2848
      spadBytes := (List.range (spadSize coords)).filterMap (fun o =>
        let b := r.mem.read (r.base + imageSize + o)
        if b = Memory.blank then none else some (o, b))
      spadEmpty := (List.range 65536).filter (fun l => !(r.mem.read (r.base + fullAt + l / 8)).getLsbD (l % 8))
      spadPoison := (List.range (coords.spad * 4096)).filterMap (fun i =>
        if poisonedAt s (r.base + imageSize + 16 * i) then some (16 * i) else none) }

end Sys2Proof.Machine
end

