-- ==== Sys2Proof/Machine/Records.lean ====
section
/-! DEFINITION. Work queues and the records taken from them (R334 to R339), the words the scheduler writes (R424), the
kernel image (R32, R422) and the launches it makes (R31, R33, R336). -/

namespace Sys2Proof.Machine

/-! ## Queues (R334, R339) -/

def sequences : Nat := 2 ^ 22 - 1

/-- Fields of word 3: the launches of the queue take them (R334). -/
def queueDomain (d3 : Word) : BitVec 16 := d3.extractLsb' 48 16
def queueDies (d3 : Word) : BitVec 8 := d3.extractLsb' 40 8
def queueFirst (d3 : Word) : Nat := (d3.extractLsb' 32 8).toNat
def queueLast (d3 : Word) : Nat := (d3.extractLsb' 24 8).toNat
def queuePrio (d3 : Word) : Nat := (d3.extractLsb' 0 3).toNat

/-- The seq of submission m (R339). -/
def seqOfM (m : Nat) : Nat := m % sequences + 1

/-- The identifier that submission m of a queue must carry (R339). -/
def idOf (queue m : Nat) : Nat := queue * 2 ^ 22 + seqOfM m

/-- Counts on while the next submission has retired. -/
def advanceRetired : Nat → Nat → List Nat → Nat × List Nat
  | 0, r, l => (r, l)
  | k + 1, r, l => if l.contains r then advanceRetired k (r + 1) (eraseNat r l) else (r, l)

/-- A submission retires: the retired sequence follows (R339). -/
def WQueue.retire (q : WQueue) (m : Nat) : WQueue :=
  let l := insertNat m q.retired
  let p := advanceRetired l.length q.r l
  { q with r := p.1, retired := p.2 }

/-- A dependence is met (R339). -/
def depMet (s : State) (d : Nat) : Bool :=
  if d = 0 then true
  else
    let q := s.queueOf (d / 2 ^ 22)
    q.r != 0 && decide ((seqOfM (q.r - 1) + sequences - d % 2 ^ 22) % sequences < 2 ^ 21)

/-! ## Fields of a record (R336, R337) -/

def recId (ws : List Word) : Nat := ((rw ws 5).extractLsb' 0 32).toNat
def recDeps (ws : List Word) : List Nat :=
  [((rw ws 5).extractLsb' 32 32).toNat, ((rw ws 6).extractLsb' 0 32).toNat, ((rw ws 6).extractLsb' 32 32).toNat,
    ((rw ws 7).extractLsb' 0 32).toNat]
def recKind (ws : List Word) : Nat := ((rw ws 7).extractLsb' 32 8).toNat

def recParams (ws : List Word) : Nat := (rw ws 1).toNat
def recImage (ws : List Word) : Nat := (rw ws 0).toNat
/-- Target of a cancel or an evict record. -/
def recTarget (ws : List Word) : Nat := ((rw ws 0).extractLsb' 0 32).toNat

/-- A physical address that R337 allows: device HBM, on a boundary of n. -/
def physicalOk (w : Word) (n : Nat) : Bool := w.toNat < hbmSize && w.toNat % n == 0

/-- The 64-byte checks of a launch record's own fields (R336). -/
def launchFieldsBad (ws : List Word) : Bool :=
  !(clearFrom ws 0 56 && clearFrom ws 1 56 && clearFrom ws 2 52) || (rw ws 2).extractLsb' 0 2 != 0 ||
    (rw ws 2).extractLsb' 4 2 == 3#2 || 128 < recSpad ws || recParams ws % 64 != 0

/-- A record breaks what R336 or R337 states of its fields (R338, code 0x0201). -/
def fieldsBad (ws : List Word) : Bool :=
  !clearFrom ws 7 40 ||
  (match recKind ws with
    | 0 => launchFieldsBad ws
    | 1 => (rw ws 0).toNat % 4096 != 0 || rw ws 2 != recRoot ws || !physicalOk (rw ws 3) 8 || rw ws 4 != 0
    | 2 => !clearFrom ws 0 32 || rw ws 1 != 0 || rw ws 2 != 0 || !physicalOk (rw ws 3) 8 || rw ws 4 != 0
    | 3 => !clearFrom ws 0 32 || !physicalOk (rw ws 1) 4096 || !physicalOk (rw ws 3) 8 || rw ws 4 != 0
    | 4 => !physicalOk (rw ws 0) 4096 || rw ws 1 != 0 || rw ws 2 != recRoot ws || rw ws 3 != 0 || rw ws 4 != 0
    | _ => true)

/-! ## What the scheduler reads and writes through a root (R338, R424) -/

/-- The home address of a byte that a user-level access of the launch would reach, on a page of kind hbm or host. -/
def schedKey (s : State) (root : Word) (write : Bool) (va : Nat) : Option Nat :=
  if windowBase ≤ va then none
  else
    match walkFrom s va 4 root.toNat with
    | .error _ => none
    | .ok l =>
      if l.w0.getLsbD 9 && (if write then l.w0.getLsbD 7 else l.w0.getLsbD 6) && leafKind l.w0 < 2 then
        some (homeKey (leafKind l.w0) (leafPa l.w0 + (va - l.base)))
      else none

/-- Reads n bytes; none where one cannot be read. -/
def schedRead (s : State) (root : Word) (va n : Nat) : Option (List Byte) :=
  (span va n).mapM (fun a =>
    match schedKey s root false a with
    | some k => if poisonedAt s k then none else some (s.mem.read k)
    | none => none)

/-- Writes bytes of one aligned block, as a release at system scope by the scheduler (R424). -/
def schedWrite (s : State) (root : Word) (va : Nat) (bytes : List Byte) : Option State :=
  (schedKey s root true va).map (fun k => s.writeHome (cellsAt k bytes))

/-- Where the outcome of a record is written: the completion word of kinds 0 and 4, else the status word (R337, R338,
R424). -/
def outcomeKey (s : State) (ws : List Word) : Option Nat :=
  match recKind ws with
  | 0 => if recParams ws % 64 = 0 then schedKey s (recRoot ws) true (recParams ws + 56) else none
  | 4 =>
    if physicalOk (rw ws 0) 4096 && !poisonedAt s (rw ws 0).toNat then
      let params := (s.mem.word ((rw ws 0).toNat + 8)).toNat
      if params % 64 = 0 then schedKey s (recRoot ws) true (params + 56) else none
    else none
  | _ => if physicalOk (rw ws 3) 8 then some (rw ws 3).toNat else none

/-- A word that cannot be written is counted (R424). -/
def loseWrite (s : State) (queue : Nat) : State :=
  let q := s.queueOf queue
  s.setQueue { q with lost := if q.lost = 0xFFFFFFFF#32 then q.lost else q.lost + 1 }

/-- Writes the outcome of a record with its identifier as the tag (R237, R337). -/
def writeOutcomeWord (s : State) (r : LaunchRec) (code : BitVec 16) : State :=
  match outcomeKey s r.words with
  | some k => s.writeHome (cellsAt k (bytesOf 8 (statusWord (BitVec.ofNat 64 (recId r.words)) code)))
  | none => loseWrite s r.queue

/-- A record retires (R339). -/
def retireRec (s : State) (r : LaunchRec) (code : BitVec 16) : State :=
  let q := s.queueOf r.queue
  let s := if q.epoch = r.epoch then s.setQueue (q.retire r.m) else s
  s.setLaunch { r with status := .retired, code := code, teams := [] }

/-- A record completes or is refused: it writes its outcome and retires (R338). -/
def finishRec (s : State) (r : LaunchRec) (code : BitVec 16) : State := retireRec (writeOutcomeWord s r code) r code

/-- Every dependence is met, and no earlier record of the queue waits for one of its own queue (R339). -/
def recReady (s : State) (r : LaunchRec) : Bool :=
  r.status == .waiting && s.ready && s.fatal.isNone && (recDeps r.words).all (depMet s) &&
    !s.launches.any (fun k => k.queue == r.queue && k.epoch == r.epoch && decide (k.m < r.m) && k.status == .waiting &&
      (recDeps k.words).any (fun d => d / 2 ^ 22 == k.queue && !depMet s d))

/-- The order of R340 between records of queues: higher priority, lower queue, earlier submission. -/
def before (a b : LaunchRec) : Bool :=
  queuePrio b.d3 < queuePrio a.d3 ||
    (queuePrio a.d3 == queuePrio b.d3 && (a.queue < b.queue ||
      (a.queue == b.queue && (a.epoch < b.epoch || (a.epoch == b.epoch && a.m < b.m)))))

/-- A ready record `k` goes before `r`: a launch before a launch (R340), and of records that cancel or evict one launch the
earlier one of a queue, between queues by R340 (R348). -/
def goesBefore (s : State) (k r : LaunchRec) : Bool :=
  recReady s k &&
    (((r.kind == 0 || r.kind == 4) && (k.kind == 0 || k.kind == 4) && before k r) ||
      ((r.kind == 2 || r.kind == 3) && (k.kind == 2 || k.kind == 3) && recTarget k.words == recTarget r.words &&
        (if k.queue = r.queue then k.epoch < r.epoch || (k.epoch == r.epoch && k.m < r.m) else before k r)))

/-- The waiting record with an identifier, where its kind is right, it is ready and no other goes before it. Marked DESIGN
CHOICE: launches that are ready at one step have become ready together (R340). -/
def readyRec (s : State) (id kind : Nat) : Option LaunchRec :=
  s.launches.find? (fun r =>
    r.id == id && r.kind == kind && recReady s r && !s.launches.any (fun k => goesBefore s k r))

/-! ## The kernel image (R32, R422) -/

/-- What the head of an image says: levels as kind and extent, and the entries of each tandem. -/
structure Head where
  levels : List (Nat × Nat)
  entries : List (Word × Word)

/-- Rank of a kind: spatial-die, spatial-core, temporal (R32). -/
def kindRank (k : Nat) : Nat := 2 - k

/-- The kinds appear in the order of R32. -/
def ranksRise : List Nat → Bool
  | a :: b :: l => a ≤ b && ranksRise (b :: l)
  | _ => true

/-- Product of the spatial extents (R32, R33). -/
def teamCount (levels : List (Nat × Nat)) : Nat := levels.foldl (fun n l => if l.1 = 0 then n else n * l.2) 1

/-- The head of an image from its 256 bytes as words; none where it is refused (R32, R422). -/
def imageHead (ws : List Word) : Option Head :=
  let n := ((rw ws 1).extractLsb' 0 4).toNat
  let t := ((rw ws 1).extractLsb' 8 3).toNat + 1
  let levels := (List.range n).map (fun l => ((rw ws (2 + l)).toNat / 2 ^ 32, (rw ws (2 + l)).toNat % 2 ^ 32))
  if rw ws 0 != 0x4C514B45524E0001 || rw ws 1 &&& ~~~0x70F#64 != 0 || n == 0 || 8 < n || 4 < t ||
      levels.any (fun l => 2 < l.1 || l.2 == 0) || !ranksRise (levels.map (fun l => kindRank l.1)) ||
      2 ^ 32 < teamCount levels ||
      (List.range (8 - n)).any (fun i => rw ws (2 + n + i) != 0) ||
      (List.range (22 - 2 * t)).any (fun i => rw ws (10 + 2 * t + i) != 0) then none
  else some { levels := levels, entries := (List.range t).map (fun i => (rw ws (10 + 2 * i), rw ws (11 + 2 * i))) }

/-- A team's index at each level, from its linear index; level 0 is the most significant (R33, R341). -/
def coordsOf (levels : List (Nat × Nat)) (n : Nat) : List Nat :=
  (levels.foldr (fun l acc =>
    if l.1 = 0 then (acc.1, 0 :: acc.2) else (acc.1 / l.2, acc.1 % l.2 :: acc.2)) (n, ([] : List Nat))).2

/-- A team's linear spatial-die index (R341). -/
def dieIndex (levels : List (Nat × Nat)) (n : Nat) : Nat :=
  (levels.zip (coordsOf levels n)).foldl (fun d p => if p.1.1 = 2 then d * p.1.2 + p.2 else d) 0

/-- The die of R341 for a linear spatial-die index. -/
def dieFor (dies : BitVec 8) (i : Nat) : Nat :=
  let l := (List.range 8).filter dies.getLsbD
  l.getD (i % max l.length 1) 0

/-- Team n of a launch before its first start: attributes, coordinates and draw state (R33, R78, R336, R341). -/
def newTeam (d3 : Word) (id epoch : Nat) (ws : List Word) (h : Head) (det port : Bool) (n : Nat) : Team :=
  { Team.blank with
    status := .notStarted
    launch := id, epoch := epoch, index := n, tandems := h.entries.length, w := if port then 7 else 0, det := det, port := port
    og := (rw ws 2).extractLsb' 4 2, dtg := (rw ws 2).getLsbD 6, spad := recSpad ws
    image := rw ws 0, params := rw ws 1, root := recRoot ws, domain := queueDomain d3, prio := queuePrio d3
    lcoord := vtab 8 (fun l => BitVec.ofNat 32 ((coordsOf h.levels n).getD l 0))
    lext := vtab 8 (fun l => BitVec.ofNat 32 ((h.levels.getD l (0, 0)).2))
    dkeylo := rw ws 3, dkeyhi := rw ws 4
    die := dieFor (queueDies d3) (dieIndex h.levels n), cfirst := queueFirst d3, clast := queueLast d3 }

/-- What the memory-reading checks of a launch find: the head of its image and its parameter words, or the refusal
(R338). -/
def launchReads (s : State) (ws : List Word) : Option (Head × List Word) :=
  match schedRead s (recRoot ws) (recImage ws) 256 with
  | none => none
  | some l =>
    match imageHead (wordsOf 32 l) with
    | none => none
    | some h => (schedRead s (recRoot ws) (recParams ws) 56).map (fun p => (h, wordsOf 7 p))

/-- The launch that a record of kind 0 makes, or the code of its refusal (R338). -/
def makeLaunch (s : State) (r : LaunchRec) : Except (BitVec 16) LaunchRec :=
  match launchReads s r.words with
  | none => .error 0x0202#16
  | some (h, args) =>
    let det := (rw r.words 2).getLsbD 2 || r.d3.getLsbD 4
    let port := (rw r.words 2).getLsbD 3 || r.d3.getLsbD 5
    if det && 1 < h.entries.length then .error 0x0203#16
    else
      let n := teamCount h.levels
      .ok { r with
        status := .active, count := n, args := args, entries := h.entries
        teams := (List.range n).map (newTeam r.d3 r.id r.epoch r.words h det port) }

end Sys2Proof.Machine
end

