-- ==== Sys2Proof/Machine/Sched.lean ====
section
/-! DEFINITION. The scheduler's steps: queues and records (R334 to R339, R362), launches, cancellation, eviction and
resumption (R337, R348, R353, R354), faulted launches (R381, R382, R424) and translation invalidation (R212). -/

namespace Sys2Proof.Machine

/-- A step of the scheduler that writes at these home addresses, once no row step of a kernel holds them (R324). -/
def schedStep (s : State) (keys : List Nat) (k : State → State) : Out :=
  if heldByGrotto s keys then .next (askSuspend s keys) else .next (k s)

/-- Bytes of a word whose place is known. -/
def wordKeys (k : Option Nat) : List Nat := k.elim [] (fun k => span k 8)

/-! ## Queues (R334, R335, R362) -/

/-- Words of descriptor j at home. -/
def descWords (s : State) (j : Nat) : List Word := wordsOf 8 (s.mem.bytes (s.qtab.toNat + 64 * j) 64)

/-- The descriptor has no reserved field set and no field out of range (R334). -/
def descOk (ws : List Word) : Bool :=
  let lg := ((rw ws 0).extractLsb' 0 6).toNat
  let d3 := rw ws 3
  clearFrom ws 0 56 && clearFrom ws 1 56 && !(rw ws 1).getLsbD 1 && clearFrom ws 2 56 && (rw ws 2).extractLsb' 0 3 == 0 &&
    d3.extractLsb' 6 18 == 0 && !d3.getLsbD 3 && ([4, 5, 6, 7] : List Nat).all (fun i => rw ws i == 0) &&
    1 ≤ lg && lg ≤ 20 && queueDies d3 != 0 && queueFirst d3 ≤ queueLast d3 && queueLast d3 ≤ 191

/-- The tail word read afresh, after a write to it: a value that decreases or runs too far ahead is ignored (R335). -/
def readTail (s : State) (q : WQueue) : WQueue :=
  let k := q.key q.tailAt
  let v := (s.mem.word k).toNat
  if poisonedAt s k then q
  else if q.tail ≤ v && v ≤ q.taken + q.size then { q with tail := v, tailDirty := false }
  else { q with tailDirty := false }

/-- `QUEUE_ENABLE` (R334): en has been written from 0 to 1, and the descriptor is read. -/
def execQueueEnable (j : Nat) (s : State) : Out :=
  let q := s.queueOf j
  let ws := descWords s j
  .next (if !s.ready || s.recovery || s.fatal.isSome || 1023 < j || !q.dirty || poisonedAt s (s.qtab.toNat + 64 * j) ||
        !(rw ws 1).getLsbD 0 then s
    else if q.seen && !q.off then s.setQueue { q with dirty := false }
    else if descOk ws then
      s.setQueue (readTail s { q with
        en := true, seen := true, dirty := false, off := false, epoch := q.epoch + 1, d0 := rw ws 0, d1 := rw ws 1, d2 := rw ws 2
        d3 := rw ws 3, taken := 0, tail := 0, retired := [], r := 0 })
    else s.setQueue { q with en := false, seen := true, dirty := false, off := false })

/-- `QUEUE_DISABLE` (R334): en has been written 0, be it that it has been written 1 again since. A poisoned descriptor says
nothing (R389). -/
def execQueueDisable (j : Nat) (s : State) : Out :=
  let q := s.queueOf j
  let on := poisonedAt s (s.qtab.toNat + 64 * j) || (rw (descWords s j) 1).getLsbD 0
  .next (if !q.dirty || (on && !q.off) then s
    else s.setQueue { q with en := false, seen := false, dirty := on, off := false })

/-- `TAIL_WORD_OBSERVE` (R362): `writes` are the host's own writes to host memory up to the snoop, by host physical
address. The tail word is read again after a write to it only: a value that has been ignored stays so until
another is written (R335). -/
def execTailWordObserve (j : Nat) (writes : List (Nat × Byte)) (s : State) : Out :=
  let s := s.writeHome ((writes.filter (fun c => c.1 < hostBase)).map (fun c => (hostBase + c.1, c.2)))
  let s := { s with queues := s.queues.map (fun q =>
    if q.en && q.host && writes.any (fun c => q.tailAt ≤ c.1 && c.1 < q.tailAt + 8) then { q with tailDirty := true } else q) }
  let q := s.queueOf j
  .next (if q.en && q.tailDirty && s.fatal.isNone then s.setQueue (readTail s q) else s)

/-- `RECORD_TAKE` (R335, R338): the next record of the ring, its 64-byte checks and the head word. -/
def execRecordTake (j : Nat) (s : State) : Out :=
  let q := s.queueOf j
  let at_ := q.key (q.ring + 64 * (q.taken % q.size))
  if !s.ready || s.recovery || s.fatal.isSome || !q.en || q.tail ≤ q.taken || poisonedAt s at_ then .next s
  else
    let ws := wordsOf 8 (s.mem.bytes at_ 64)
    let r : LaunchRec :=
      { id := idOf j q.taken, queue := j, m := q.taken, epoch := q.epoch, d3 := q.d3, kind := recKind ws, words := ws
        status := .waiting, code := 0, teams := [], count := 0, args := [], entries := [], started := none, area := none }
    let head := q.key q.headAt
    schedStep s (span head 8 ++ wordKeys (outcomeKey s ws)) fun s =>
      let s := { (s.setQueue { q with taken := q.taken + 1 }) with launches := r :: s.launches }
      let s := s.writeHome (cellsAt head (bytesOf 8 (BitVec.ofNat 64 (q.taken + 1))))
      if recId ws != r.id then finishRec s r 0x0204#16
      else if fieldsBad ws then finishRec s r 0x0201#16
      else s

/-! ## Launches (R31, R33, R336, R338) -/

/-- `LAUNCH` (R336, R338). -/
def execLaunch (id : Nat) (s : State) : Out :=
  match readyRec s id 0 with
  | none => .next s
  | some r =>
    schedStep s (wordKeys (outcomeKey s r.words)) fun s =>
      match makeLaunch s r with
      | .ok r => s.setLaunch r
      | .error code => finishRec s r code

/-! ## Stopping a launch (R344, R345) -/

/-- The team is one of a launch (R334, R339). -/
def ofLaunch (r : LaunchRec) (t : Team) : Bool := t.launch == r.id && t.epoch == r.epoch && t.status != .none

/-- Cores that hold a team of a launch. -/
def coresWith (s : State) (r : LaunchRec) : List Nat :=
  (s.cores.filter (fun c => ofLaunch r c.team || c.runList.any (ofLaunch r))).map (·.num)

/-- Does something with another core in focus. -/
def atCore (s : State) (g : Nat) (f : State → State) : State :=
  if g < 1536 then (f (s.focus g)).focus s.core.num else s

/-- The teams of a launch leave a core. -/
def clearCore (r : LaunchRec) (s : State) : State :=
  let mine := s.core.runList.filter (ofLaunch r)
  let s := { s with core := { s.core with runList := s.core.runList.filter (fun t => !ofLaunch r t) } }
  let s := mine.foldl holdTeam s
  if ofLaunch r s.core.team then leaveCore s false else s

/-- Every team of a launch is pre-empted (R344, R345); what keeps a release from performing, where something does. -/
def stopLaunch (s : State) (r : LaunchRec) : Except (List Nat) State :=
  let gs := coresWith s r
  match gs.flatMap (fun g => let c := s.focus g; if ofLaunch r c.core.team then leaveHeld c else []) with
  | [] => .ok (gs.foldl (fun s g => atCore s g (clearCore r)) s)
  | l => .error l

/-! ## Faulted launches (R381, R382, R424) -/

/-- A trapped hart of a team, as the fault record names it: the step of its trap, team, tandem, hart. -/
structure Trapped where
  team : Nat
  t : Nat
  x : Bool
  h : Hart

/-- The harts of a team that have trapped, in the order of R72. -/
def trappedIn (t : Team) : List Trapped :=
  (t.tds.toList.take t.tandems).zipIdx.flatMap (fun p =>
    (if p.1.a.h.priv == .system then [{ team := t.index, t := p.2, x := false, h := p.1.a.h }] else []) ++
    (if p.1.x.h.priv == .system then [{ team := t.index, t := p.2, x := true, h := p.1.x.h }] else []))

/-- Teams of a launch, wherever they stand. -/
def teamsOf (s : State) (r : LaunchRec) : List Team :=
  s.cores.flatMap (fun c => (c.team :: c.runList).filter (ofLaunch r)) ++
    (match s.launchOf r.id r.epoch with | some r => r.teams | none => [])

/-- The trap that came first (R380, R382). -/
def firstTrap (l : List Trapped) : Option Trapped :=
  l.foldl (fun m t => match m with
    | none => some t
    | some f => if t.h.since < f.h.since then some t else some f) none

/-- The fault record (R382). -/
def faultRecord (f : Trapped) : List Word :=
  [f.h.tcause, f.h.tval, f.h.tval2, f.h.tpc, BitVec.ofNat 64 (f.team + f.t * 2 ^ 32 + f.x.toNat * 2 ^ 34), 0, 0, 0]

/-- A faulting hart in the image: it goes on at `tpc` at user privilege (R381). -/
def Hart.rearm (h : Hart) : Hart := if h.priv = .system then { h with pc := h.tpc &&& ~~~1#64, priv := .user } else h

def Team.rearm (t : Team) : Team :=
  { t with tds := t.tds.map (fun td =>
      { td with a := { td.a with h := td.a.h.rearm }, x := { td.x with h := td.x.h.rearm } }) }

/-- Steps 2 to 4 of R381 on a launch whose teams are stopped. -/
def recordFault (s : State) (r : LaunchRec) (f : Trapped) : State :=
  let w := faultRecord f
  let s := s.setLaunch { r with status := .faulted, teams := r.teams.map Team.rearm }
  let r := { r with status := .faulted, teams := r.teams.map Team.rearm }
  match schedWrite s (recRoot r.words) (recParams r.words + 64) (words w) with
  | some s => writeOutcomeWord (s.setLaunch { r with code := 0x0210#16 }) r 0x0210#16
  | none =>
    let s := { s with kept := { launch := r.id, words := w } :: s.kept }
    writeOutcomeWord (s.setLaunch { r with code := 0x0211#16 }) r 0x0211#16

/-- Addresses that R381 writes. -/
def faultKeys (s : State) (r : LaunchRec) : List Nat :=
  wordKeys (outcomeKey s r.words) ++
    (schedKey s (recRoot r.words) true (recParams r.words + 64)).elim [] (fun k => span k 64)

/-- `LAUNCH_FAULT_STOP` (R381). -/
def execLaunchFaultStop (id : Nat) (s : State) : Out :=
  match s.launches.find? (fun r => r.id == id && r.status == .active && !((teamsOf s r).flatMap trappedIn).isEmpty) with
  | none => .next s
  | some r =>
    schedStep s (faultKeys s r) fun s =>
      match stopLaunch s r with
      | .error l => askSuspend s l
      | .ok s =>
        match s.launchOf r.id r.epoch with
        | none => s
        | some r => (firstTrap (r.teams.flatMap trappedIn)).elim s (recordFault s r)

/-! ## Cancel, evict and resume (R337, R338, R348, R353, R354) -/

/-- A launch that is not over: active, faulted, or waiting for its dependences. An identifier names a submission since its
queue was last enabled (R339). -/
def target (s : State) (id : Nat) : Option LaunchRec :=
  s.launches.find? (fun r => r.id == id && r.epoch == (s.queueOf r.queue).epoch && r.status != .retired &&
    (r.kind == 0 || r.kind == 4))

/-- The target ends with a code, over an earlier one of a faulted launch, and retires; kept fault records go (R381,
R424). -/
def endTarget (s : State) (r : LaunchRec) (code : BitVec 16) : State :=
  finishRec { s with kept := s.kept.filter (fun k => k.launch != r.id) } r code

/-- Where the two outcomes of a cancel or an evict go. -/
def closeKeys (s : State) (r k : LaunchRec) : List Nat :=
  wordKeys (outcomeKey s r.words) ++ wordKeys (outcomeKey s k.words)

/-- `CANCEL` (R337, R381). -/
def execCancel (id : Nat) (s : State) : Out :=
  match readyRec s id 2 with
  | none => .next s
  | some r =>
    match target s (recTarget r.words) with
    | none => schedStep s (wordKeys (outcomeKey s r.words)) fun s => finishRec s r 4#16
    | some k =>
      schedStep s (closeKeys s r k) fun s =>
        match stopLaunch s k with
        | .error l => askSuspend s l
        | .ok s => finishRec (endTarget s ((target s k.id).getD k) 2#16) r 2#16

/-- The images of every team of a stopped launch, and the head of the area (R353). -/
def writeArea (s : State) (k : LaunchRec) (area : Nat) : State :=
  let spad := recSpad k.words
  let s := (List.range k.count).foldl (fun s n =>
    match k.teams.find? (fun t => t.index == n) with
    | some t => writeImage s area spad n t
    | none => s) s
  let head := words ((List.range 8).map (rw k.words) ++ [BitVec.ofNat 64 k.count, BitVec.ofNat 64 (slotSize spad)])
  s.writeHome (cellsAt area head)

/-- The launch that an area holds under a resume record: the record of kind 0 it stands for, with the root, the
identifier and the dependences of the resume record (R353, R354). -/
def resumeWords (s : State) (r : LaunchRec) : List Word :=
  let a := (rw r.words 0).toNat
  let w := fun (i : Nat) => s.mem.word (a + 8 * i)
  [w 0, w 1, (w 2 &&& ~~~rootMask) ||| recRoot r.words, w 3, w 4, rw r.words 5, rw r.words 6,
    (rw r.words 7) &&& 0xFFFFFFFF]

/-- The parts of an area that are read as data are free of poison; the scratchpads carry theirs (R389). -/
def areaPoisoned (s : State) (area spad count : Nat) : Bool :=
  s.poison.any (fun p =>
    (decide (area ≤ p) && decide (p < area + 4096)) ||
      (List.range count).any (fun n => decide (imageAt area spad n ≤ p) && decide (p < imageAt area spad n + imageSize)))

/-- The launch of a resume record, or the code of its refusal (R338, R354). -/
def makeResumed (s : State) (r : LaunchRec) : Except (BitVec 16) LaunchRec :=
  let a := (rw r.words 0).toNat
  let ws := resumeWords s r
  let spad := recSpad ws
  if poisonedAt s a || poisonedAt s (a + 64) || launchFieldsBad ws || ((s.mem.word (a + 56)).extractLsb' 32 32) != 0 ||
      (s.mem.word (a + 72)).toNat != slotSize spad then .error 0x0205#16
  else
    match launchReads s ws with
    | none => .error 0x0202#16
    | some (h, args) =>
      let n := teamCount h.levels
      let src := fun (i : Nat) => ({ mem := s.mem, base := imageAt a spad i } : Src)
      if (s.mem.word (a + 64)).toNat != n || hbmSize < a + areaSize spad n || areaPoisoned s a spad n ||
          (List.range n).any (fun i =>
            (src i).nat 0 1 != 1 || ((src i).word 0).extractLsb' 8 2 == 3#2 ||
              (((src i).word 8).extractLsb' 32 3).toNat + 1 != h.entries.length) then .error 0x0205#16
      else if 1 < h.entries.length && ((rw ws 2).getLsbD 2 || (List.range n).any (fun i => ((src i).word 0).getLsbD 10)) then
        .error 0x0203#16
      else
        .ok { r with
          status := .active, words := ws, count := n, args := args, entries := h.entries
          teams := (List.range n).map (fun i => readTeam s (src i) (newTeam r.d3 r.id r.epoch ws h false false i)) }

/-- `EVICT` (R337, R353, R381). A launch that has not begun is made first, and its teams are written in state 0. -/
def execEvict (id : Nat) (s : State) : Out :=
  match readyRec s id 3 with
  | none => .next s
  | some r =>
    match target s (recTarget r.words) with
    | none => schedStep s (wordKeys (outcomeKey s r.words)) fun s => finishRec s r 4#16
    | some k =>
      let area := (rw r.words 1).toNat
      let room := (rw r.words 2).toNat
      let made := if k.status != .waiting then .ok k else if k.kind = 0 then makeLaunch s k else makeResumed s k
      match made with
      | .error code => schedStep s (closeKeys s r k) fun s => finishRec (finishRec s k code) r 4#16
      | .ok k =>
        let size := areaSize (recSpad k.words) k.count
        if room < size || hbmSize < area + size then
          schedStep s (wordKeys (outcomeKey s r.words)) fun s => finishRec s r 0x0205#16
        else
          schedStep s (closeKeys s r k ++ span area size) fun s =>
            match stopLaunch (s.setLaunch k) k with
            | .error l => askSuspend s l
            | .ok s =>
              let k := (target s k.id).getD k
              finishRec (endTarget (writeArea s k area) { k with area := some area } 3#16) r 3#16

/-- `RESUME` (R354). -/
def execResume (id : Nat) (s : State) : Out :=
  match readyRec s id 4 with
  | none => .next s
  | some r =>
    schedStep s (wordKeys (outcomeKey s r.words)) fun s =>
      match makeResumed s r with
      | .error code => finishRec s r code
      | .ok r =>
        if r.teams.all (fun t => t.status == .ended) then finishRec (s.setLaunch r) r 1#16 else s.setLaunch r

/-! ## Translation invalidation (R212, R213, R328, R333) -/

/-- The leaf is of the root of an invalidation and overlaps its range. -/
def invalHits (ws : List Word) (e : TlbEntry) : Bool :=
  e.root == recRoot ws && decide (e.base < invalBase ws + invalLen ws) && decide (invalBase ws < e.base + e.size)

/-- Cached leaves leave their TLBs; an invalidation in progress whose range one of them overlaps waits for the accesses
made so far (R212). -/
def dropLeaves (s : State) (gone : TlbEntry → Bool) : State :=
  { s with
    tlb := s.tlb.filter (fun e => !gone e)
    launches := s.launches.map (fun r =>
      if r.kind == 1 && r.status == .active && s.tlb.any (fun e => gone e && invalHits r.words e) then
        { r with started := some s.serial }
      else r) }

/-- `TRANSLATION_INVALIDATION` (R212): the leaves go, and kernels and lists that pin a page of the range are told. -/
def execTranslationInvalidation (id : Nat) (s : State) : Out :=
  match readyRec s id 1 with
  | none => .next s
  | some r =>
    let s := s.setLaunch { r with status := .active, started := some s.serial }
    .next { dropLeaves s (invalHits r.words) with
      seqs := s.seqs.map (fun q => { q with
        kernels := q.kernels.map (fun k => if invalPins r.words k.root k.pins then { k with revokeReq := true } else k)
        lists := q.lists.map (fun l => if invalPins r.words l.root l.pins then { l with revokeReq := true } else l) }) }

/-- An access that translated through a leaf of the range has not yet performed, or a kernel or a list still pins a page of
it (R212, items 3 and 4). -/
def invalPending (s : State) (ws : List Word) (n : Nat) : Bool :=
  let cores := (s.cores.filter (fun c => c.team.root == recRoot ws && c.team.status != .none)).map (·.num)
  s.buf.any (fun e => e.serial ≤ n && (cores.contains e.core || (byColl e && s.colls.any (fun c => c.root == recRoot ws)))) ||
    s.cores.any (fun c => c.team.root == recRoot ws && c.team.tds.toList.any (fun td =>
      td.a.app.any (fun app => app.streams.toList.any (·.filling)))) ||
    s.seqs.any (fun q => q.kernels.any (fun k => invalPins ws k.root k.pins) || q.lists.any (fun l => invalPins ws l.root l.pins))

/-- `INVALIDATION_COMPLETE` (R212): leaves that a walk has left in a TLB since leave it, walks of the root in progress are
abandoned, and the accesses made till then have to perform. -/
def execInvalidationComplete (id : Nat) (s : State) : Out :=
  match s.launches.find? (fun r => r.id == id && r.kind == 1 && r.status == .active) with
  | none => .next s
  | some r =>
    if s.tlb.any (invalHits r.words) || s.walks.any (fun q => q.root == recRoot r.words) then
      .next (dropWalks (dropLeaves s (invalHits r.words)) (fun q => q.root == recRoot r.words))
    else if invalPending s r.words (r.started.getD 0) then .next s
    else schedStep s (wordKeys (outcomeKey s r.words)) fun s => finishRec s r 1#16

end Sys2Proof.Machine
end

