-- ==== Sys2Proof/Machine/Cores.lean ====
section
/-! DEFINITION. What happens to the teams of a core: placement (R340 to R342), start and end (R78, R143), resumption
(R354), time slices (R343), pre-emption (R344, R345), ceilings (R22, R23), lane loss (R55, R397 to R399) and the issue
rule of lane groups (R50). -/

namespace Sys2Proof.Machine

/-! ## Placement (R341, R342) -/

/-- Working lane groups that a core needs for a team (R341, R342). -/
def needLanes (t : Team) : Nat := if t.w != 0 then t.w else if t.port then 7 else 1

/-- The core qualifies for the team; one whose matrix unit is retired never does (R341, R399). -/
def fitsCore (c : Core) (t : Team) : Bool := !c.mxOff && needLanes t ≤ workingLanes c

/-- A team that waits for a core. -/
def placeable (t : Team) : Bool := t.status == .notStarted || t.status == .stopped

/-- The least of a list by a measure, the first of several. -/
def leastBy (f : Core → Nat) : List Core → Option Core
  | [] => none
  | c :: l =>
    match leastBy f l with
    | none => some c
    | some d => if f c ≤ f d then some c else some d

/-- A team of higher priority than the one that has the core is in its run list (R340). -/
def outranked (s : State) : Bool := s.core.runList.any (fun t => s.core.team.prio < t.prio)

/-- The resident of a core gives way to a team of higher priority (R340). -/
def giveWay (s : State) : State :=
  if s.core.team.status != .none && outranked s then preempt s true else s

/-- The cores that qualify for a team on its die (R341). -/
def coresFor (s : State) (t : Team) : List Core :=
  ((span (t.die * 192 + t.cfirst) (t.clast + 1 - t.cfirst)).map s.coreOf).filter (fun c => fitsCore c t)

/-- An idle core, and a run list with room (R341). -/
def idleCore (c : Core) : Bool := c.team.status == .none && c.runList.isEmpty
def hasRoom (c : Core) : Bool := decide (c.runList.length < 16)

/-- A team of a launch is placed: on the lowest idle core that qualifies, else on the shortest run list with room
(R341). -/
def placeTeam (s : State) (r : LaunchRec) (t : Team) : State :=
  let gone := s.setLaunch { r with teams := r.teams.filter (fun k => k.index != t.index) }
  match (coresFor s t).find? idleCore with
  | some c => atCore gone c.num (fun s => { s with core := { s.core with team := t } })
  | none =>
    match leastBy (fun c => c.runList.length) ((coresFor s t).filter hasRoom) with
    | none => s
    | some c =>
      atCore gone c.num (fun s => giveWay { s with core := { s.core with runList := s.core.runList ++ [t] } })

/-- A launch that goes before `r` has a team at the die that a core could take (R340, R341). -/
def placedBefore (s : State) (r : LaunchRec) (die : Nat) : Bool :=
  s.launches.any (fun k => k.status == .active && before k r && k.teams.any (fun t =>
    placeable t && t.die == die && (coresFor s t).any (fun c => idleCore c || hasRoom c)))

/-- `TEAM_PLACE` (R340, R341): launches in the order of R340, and the teams of a launch that wait at one die in order of
their numbers. -/
def execTeamPlace (launch team : Nat) (s : State) : Out :=
  .next (match s.launches.find? (fun r => r.id == launch && r.status == .active &&
      r.teams.any (fun t => t.index == team && placeable t)) with
    | none => s
    | some r =>
      match r.teams.find? (fun t => t.index == team && placeable t) with
      | none => s
      | some t =>
        if s.fatal.isSome || r.teams.any (fun k => placeable k && k.die == t.die && k.index < team) ||
            placedBefore s r t.die then s
        else placeTeam s r t)

/-! ## Start, resumption and end (R31, R78, R143, R354) -/

/-- The scratchpad of the core in focus: bytes, poison and empty lines as given by offset (R78, R354). -/
def setScratch (s : State) (t : Team) (bytes : List Host.Cell) (poison empty : List Nat) : State :=
  let lo := spadKey s.core.num
  let s := { s with
    mem := (s.mem.clear lo (spadSize t)).writeAll (bytes.map (fun (c : Host.Cell) => (lo + c.1, c.2)))
    poison := s.poison.filter (fun a => a < lo || lo + spadSize t ≤ a)
    core := { s.core with emptyLines := empty } }
  s.poisonAt (poison.map (lo + ·))

/-- A hart at its entry with the parameter words in s1 to s7 (R31, R78, R422). -/
def startHart (args : List Word) (pc : Word) : Hart :=
  { Hart.fresh with
    s := vtab 32 (fun i => if 1 ≤ i && i ≤ 7 then rw args (i - 1) else 0)
    pc := pc &&& ~~~1#64
    tvec := Config.trapEntry &&& ~~~1#64 }

/-- Tandem i at the start of its team. -/
def startTandem (t : Team) (args : List Word) (entries : List (Word × Word)) (i : Nat) : Tandem :=
  let e := entries.getD i (0, 0)
  { Tandem.fresh with
    a := { AHart.fresh with h := startHart args (t.image + e.1) }
    x := { XHart.fresh with h := startHart args (t.image + e.2) } }

/-- A hart that holds no fetched word (R107, R115). -/
def Hart.unfetched (h : Hart) : Hart := { h with slot := none }

/-- The team becomes resident with a fresh quantum (R343): nothing has been read or fetched for it (R107, R219), and its
X-harts have their instructions still to decode (R50). -/
def reside (s : State) (t : Team) : State :=
  let tds := t.tds.map (fun td => { td with
    a := { td.a with h := td.a.h.unfetched }, x := { td.x with h := td.x.h.unfetched, decoded := s.core.cycle } })
  forgetEarly { s with
    core := { s.core with
      team := { t with status := .resident, tds := tds }, qStart := s.core.cycle, expired := false, code := []
      suspects := [] } } s.core.num teamAgents

/-- A team that starts afresh (R31, R78, R342); the parameter block is read where it can be, else as it stood at the
launch. -/
def startTeam (s : State) (t : Team) : State :=
  match s.launchOf t.launch t.epoch with
  | none => s
  | some r =>
    let args := match schedRead s t.root t.params.toNat 56 with
      | some l => wordsOf 7 l
      | none => r.args
    let w := if t.port then 7 else workingLanes s.core
    let t := { t with
      w := w, dsrc := 0, repoch := 0, event := 0, mx := Matrix.free
      tds := vtab 4 (fun i => if i < t.tandems then startTandem t args r.entries i else Tandem.fresh) }
    reside (setScratch s t [] [] []) t

/-- `TEAM_START` (R31, R78). -/
def execTeamStart (core : Nat) (s : State) : Out :=
  .next (atCore s core fun s =>
    if s.core.team.status == .notStarted && s.fatal.isNone && fitsCore s.core s.core.team then startTeam s s.core.team else s)

/-- Late faults become pending faults of their harts (R393, R394). -/
def takeLate (t : Team) : Team :=
  { t.late.foldl (fun t f =>
      let td := t.tds[f.t]
      { t with tds := t.tds.set f.t { td with a := { td.a with pend := td.a.pend ++ [pendingOf f.detail f.addr] } } }) t with
    late := [], lateCount := 0 }

/-- Numbers that a team's unfinished work carries. -/
def teamSerials (t : Team) : List Nat :=
  t.copies.map (·.serial) ++ t.pars.map (·.serial) ++ t.ports.map (·.serial) ++ (t.trellis.map (·.serial)).toList ++
    t.tds.toList.map (·.a.vm.serial)

/-- `TEAM_RESUME` (R354): scratchpad, image, acquire at system scope; a late fault is taken before the team's first
instruction (R393). -/
def execTeamResume (core : Nat) (s : State) : Out :=
  .next (atCore s core fun s =>
    let t := s.core.team
    if t.status == .stopped && s.fatal.isNone && fitsCore s.core t then
      let s := setScratch s t t.spadBytes t.spadPoison t.spadEmpty
      let s := { s with serial := (teamSerials t).foldl max s.serial }
      let t := takeLate { t with spadBytes := [], spadPoison := [], spadEmpty := [] }
      (([0, 1, 2, 3] : List (Fin 4)).foldl takeReady (reside s t)).onHart s.tnd s.xh
    else s)

/-- Every hart has halted and no command of the team is outstanding (R143). Marked DESIGN CHOICE: a fault that a halted hart
has still to take, or has taken and not returned from, keeps the team from ending. -/
def teamOver (s : State) (t : Team) : Bool :=
  (t.tds.toList.take t.tandems).all (fun td => td.a.h.halted && td.x.h.halted && td.a.pend.isEmpty &&
    td.a.h.priv == .user && td.x.h.priv == .user) &&
  t.copies.isEmpty && t.feeds.isEmpty && t.pars.isEmpty && t.trellis.isNone &&
  !s.colls.any (fun c => isTeam c.launch c.epoch c.team t) &&
  !s.seqs.any (fun q => q.kernels.any (fun k => isTeam k.launch k.epoch k.team t) ||
    q.lists.any (fun l => isTeam l.launch l.epoch l.team t))

/-- What an ended team keeps: queues, grants and matrix state are discarded (R143). The lines that are empty are those of
its core (R349). -/
def endedTeam (t : Team) (empty : List Nat) : Team :=
  { t with
    status := .ended, mx := Matrix.free, ports := [], spadEmpty := empty
    tds := t.tds.map (fun td => { td with q := Vector.replicate 6 [], q6 := [], q7 := [], gq := [] }) }

/-- The last team of a launch has ended: code 1 (R338). -/
def completeLaunch (s : State) (id epoch : Nat) : State :=
  match s.launchOf id epoch with
  | none => s
  | some r =>
    if r.status == .active && r.teams.length == r.count && r.teams.all (fun t => t.status == .ended) then finishRec s r 1#16
    else s

/-- `TEAM_END` (R143): the release of every agent comes first; a fault that it brings about is taken before the end. -/
def execTeamEnd (core : Nat) (s : State) : Out :=
  let c := s.focus core
  let t := c.core.team
  if 1536 ≤ core || t.status != .resident || s.fatal.isSome || !teamOver s t then .next s
  else
    let keys := match s.launchOf t.launch t.epoch with
      | some r => wordKeys (outcomeKey s r.words)
      | none => []
    let held := releaseHeld c core teamAgents 3
    if !held.isEmpty then .next (askSuspend s held)
    else schedStep s keys fun s =>
      atCore s core fun s =>
        let s := dropWalks (forgetEarly (releaseMove s core teamAgents 3) core teamAgents) (fun w => w.core == core)
        let t := s.core.team
        if teamOver s t then
          let s := holdTeam { s with core := { s.core with team := Team.blank, expired := false } }
            (endedTeam t s.core.emptyLines)
          fillCore (completeLaunch s t.launch t.epoch)
        else s

/-! ## Time slices and pre-emption (R343 to R345) -/

/-- Cycles of residence of the team. -/
def residence (c : Core) : Nat := (c.cycle - c.qStart).toNat

/-- `QUANTUM_EXPIRY` (R343). -/
def execQuantumExpiry (core : Nat) (s : State) : Out :=
  .next (atCore s core fun s =>
    if s.core.team.status != .resident || s.core.expired || residence s.core < 2 ^ 20 then s
    else if waiting s s.core.team.prio then { s with core := { s.core with expired := true } }
    else { s with core := { s.core with qStart := s.core.qStart + BitVec.ofNat 64 (2 ^ 20) } })

/-- The quantum expired 2^16 cycles ago and no strip boundary has come (R343). -/
def graceOver (c : Core) : Bool := c.expired && 2 ^ 20 + 2 ^ 16 ≤ residence c

/-- `QUANTUM_GRACE_EXPIRY` (R343). -/
def execQuantumGraceExpiry (core : Nat) (s : State) : Out :=
  .next (atCore s core fun s => if s.core.team.status == .resident && graceOver s.core then preempt s true else s)

/-- `PREEMPTION` (R344, R345) of a team whose grant no longer fits, that a higher priority outranks, or whose grace is
over. Those of `yield`, of a strip boundary and of a record happen in their own steps. -/
def execPreemption (core : Nat) (s : State) : Out :=
  .next (atCore s core fun s =>
    if s.core.team.status == .none then s
    else if !fitsCore s.core s.core.team then preempt s false
    else if outranked s || (s.core.team.status == .resident && graceOver s.core) then preempt s true
    else s)

/-! ## Ceilings, lane loss and the matrix unit (R22, R23, R55, R397 to R399) -/

/-- `CEILING_CHANGE` (R22, R23): values that R22 does not allow are not ones the power manager sets. -/
def execCeilingChange (core v m : Nat) (s : State) : Out :=
  .next (atCore s core fun s =>
    if 1 ≤ v && v ≤ 32 * workingLanes s.core && 16 ≤ m && m ≤ 128 && m % 16 == 0 then
      { s with core := { s.core with vceil := v, mceil := m } }
    else s)

/-- After lanes or the matrix unit are lost: teams for which the core no longer qualifies are placed again (R55, R398,
R399). -/
def settleCore (s : State) : State :=
  let c := s.core
  let s := { s with core := { c with
    vceil := if workingLanes c = 0 then c.vceil else min c.vceil (32 * workingLanes c)
    runList := c.runList.filter (fitsCore c) } }
  let s := (c.runList.filter (fun t => !fitsCore c t)).foldl holdTeam s
  if s.core.team.status != .none && !fitsCore s.core s.core.team then preempt s false else s

/-- A vector instruction, whose element groups lane groups take (R50). -/
def laneInstr (i : Instr) : Bool :=
  match i.form with
  | .slot => 0x54 ≤ (encodeC i).toNat / 2 ^ 24 && (encodeC i).toNat / 2 ^ 24 ≤ 0x87
  | .compact => 11 ≤ (encodeK i).toNat / 2 ^ 11
  | _ => false

/-- The X-hart in focus is at a vector instruction with elements left. -/
def atLanes (s : State) : Bool :=
  decide (s.x.vstart < s.x.vl) &&
    (match (fetchInstr s).2 with
      | .inl i => laneInstr i
      | .inr _ => false)

/-- The X-hart in focus has an element group that a lane group has still to take: one that its instruction still owes, the
next of a block in progress, or the next of a vector instruction (R50). -/
def wantsLanes (s : State) : Bool :=
  decide (0 < s.x.owed) ||
    (match s.x.block with
      | some b => !b.issued
      | none => atLanes s)

/-- The X-hart of tandem t is there and waits for nothing. -/
def runsX (s : State) (t : Fin 4) : Bool :=
  t.val < s.core.team.tandems && !(s.onHart t true).x.h.halted && (s.onHart t true).x.h.wait.isNone

/-- The X-hart of tandem t has an instruction that is ready for an issue opportunity (R50). -/
def readyVector (s : State) (t : Fin 4) : Bool := runsX s t && wantsLanes (s.onHart t true)

/-- The X-hart of tandem t is in an instruction that lane groups work on. -/
def inVector (s : State) (t : Fin 4) : Bool :=
  runsX s t && ((s.onHart t true).x.block.isSome || wantsLanes (s.onHart t true))

/-- The X-hart of tandem t is at a `mopa`. -/
def atMopa (s : State) (t : Fin 4) : Bool :=
  match (fetchInstr (s.onHart t true)).2 with
  | .inl (.mopa _ _ _ _ _) => !(s.onHart t true).x.h.halted && decide (t.val < s.core.team.tandems)
  | _ => false

/-- An instruction of an X-hart that stops at element-group boundaries and goes on from `vstart`: the element-wise ones, and
no whole-strip one (R51, R168), as a `vmv.d` is whose vd overlaps va (R162). -/
def byGroups (x : XHart) : Instr → Bool
  | .vmv d a _ _ _ v => !(v == 1#2 && overlap (d, x.g 1) (a, x.g 1))
  | .vsplat _ _ _ _ => true
  | .vadd _ _ _ _ _ => true
  | .vsub _ _ _ _ _ => true
  | .vsadd _ _ _ _ _ => true
  | .vssub _ _ _ _ _ => true
  | .vmul _ _ _ _ _ => true
  | .vmulh _ _ _ _ _ => true
  | .vdiv _ _ _ _ _ _ _ => true
  | .vrem _ _ _ _ _ _ _ => true
  | .vmin _ _ _ _ _ => true
  | .vmax _ _ _ _ _ => true
  | .vand _ _ _ _ _ => true
  | .vor _ _ _ _ _ => true
  | .vxor _ _ _ _ _ => true
  | .vsll _ _ _ _ _ => true
  | .vsrl _ _ _ _ _ => true
  | .vsra _ _ _ _ _ => true
  | .vcmp _ _ _ _ _ => true
  | .vsel _ _ _ _ _ => true
  | .vpopc _ _ _ v => v == 1#2
  | .vwmac _ _ _ _ _ => true
  | .vnsr _ _ _ _ _ => true
  | .vthrb _ _ _ _ _ => true
  | .vmlog _ _ _ _ _ => true
  | .vfadd _ _ _ _ _ _ _ => true
  | .vfsub _ _ _ _ _ _ _ => true
  | .vfmul _ _ _ _ _ _ _ => true
  | .vfdiv _ _ _ _ _ _ _ => true
  | .vfma _ _ _ _ _ _ _ => true
  | .vfmin _ _ _ _ _ _ _ => true
  | .vfmax _ _ _ _ _ _ _ => true
  | .vfcmp _ _ _ _ _ _ _ => true
  | .vfsfu _ _ _ _ _ _ => true
  | .vfcvt _ _ _ _ _ _ _ => true
  | .vfnar _ _ _ _ _ _ _ => true
  | .vfwid _ _ _ _ _ _ => true
  | .vfq4 _ _ _ _ _ _ _ => true
  | .vfscl _ _ _ _ _ _ _ => true
  | .vfsgn _ _ _ _ _ => true
  | .vfcls _ _ _ => true
  | .vred _ _ _ _ v => v == 1#2
  | .vscan _ _ _ _ _ v => v.getLsbD 0
  | .vgath _ _ _ _ _ _ _ => true
  | .vlid _ _ _ _ => true
  | .mdrain _ _ _ _ _ _ _ => true
  | .kVadd _ _ => true
  | .kVfadd _ _ => true
  | .kVfmul _ _ => true
  | .kVfma _ _ => true
  | .kVmv _ _ => true
  | _ => false

/-- The X-hart of tandem t works by groups or by rank-1 steps: `vstart` tells which it has done (R51, R265). -/
def stepwise (s : State) (t : Fin 4) : Bool :=
  (s.onHart t true).x.block.isSome || atMopa s t ||
    (match (fetchInstr (s.onHart t true)).2 with | .inl i => byGroups (s.onHart t true).x i | .inr _ => false)

/-- Elements, or values, of what a unit checks at a time: 0 to 7 a lane group, 8 the matrix unit (R265, R397). -/
def checkedSize (s : State) (t : Fin 4) (unit : Nat) : Nat :=
  if unit = 8 then 128 else groupElems (s.onHart t true).x.sew

/-- A unit of the core works for the X-hart of tandem t on an element, which is not yet done. -/
def checks (s : State) (t : Fin 4) (unit element : Nat) : Bool :=
  let n := checkedSize s t unit
  s.core.team.status == .resident && decide ((s.onHart t true).x.vstart.toNat / n ≤ element / n) &&
    (if unit = 8 then atMopa s t && !s.core.mxOff
      else unit < 8 && inVector s t && !s.core.laneOff.getLsbD unit && decide (element < (s.onHart t true).x.vl.toNat))

/-- The newest entry of the log for a core, unit and element, marked retired (R397). -/
def markRetired (g unit element : Nat) (l : List LogEntry) : List LogEntry :=
  match l.reverse.findIdx? (fun e => e.core == g && e.unit == unit && e.element == element) with
  | none => l
  | some i => l.modify (l.length - 1 - i) (fun e => { e with retired := true })

/-- A mismatch of a unit of the core in focus on an element group or rank-1 step of tandem t (R397 to R399). The second on
the same retires the unit; of an instruction that works by groups it is one of the group at which the X-hart stands, so that
`vstart` is there, and of any other it may be one of any group. -/
def mismatch (s : State) (t : Fin 4) (unit element : Nat) : State :=
  let n := checkedSize s t unit
  let it : Suspect := { t := t, unit := unit, element := element / n * n }
  if !s.core.suspects.contains it then
    { s with
      log := s.log ++ [{ core := s.core.num, unit := unit, element := it.element, retired := false }]
      core := { s.core with suspects := it :: s.core.suspects } }
  else if stepwise s t && (s.onHart t true).x.vstart.toNat / n != element / n then s
  else
    settleCore { s with
      log := markRetired s.core.num unit it.element s.log
      core := { s.core with
        suspects := s.core.suspects.filter (· != it)
        laneOff := if unit < 8 then s.core.laneOff ||| BitVec.ofNat 8 (2 ^ unit) else s.core.laneOff
        mxOff := s.core.mxOff || unit == 8 } }

/-- `RESIDUE_MISMATCH` (R397). -/
def execResidueMismatch (core unit : Nat) (at_ : Watched) (s : State) : Out :=
  .next (atCore s core fun s =>
    if checks s at_.t.toFin unit at_.element then mismatch s at_.t.toFin unit at_.element else s)

/-- The X-hart of tandem t has moved: groups and steps below where it stands are done, and those of another instruction
are others (R397). -/
def clearSuspects (s : State) (t : Fin 4) (all : Bool) : State :=
  let lo := (s.onHart t true).x.vstart.toNat
  { s with core := { s.core with
    suspects := s.core.suspects.filter (fun e => e.t != t || (!all && decide (lo ≤ e.element))) } }

/-- `LANE_DISABLE_MASK_RELOAD` (R360, R397): through the mailbox; only device reset clears a bit (R55). -/
def execLaneDisableMaskReload (core : Nat) (mask : BitVec 8) (s : State) : Out :=
  .next (if s.recovery then s
    else atCore s core fun s => settleCore { s with core := { s.core with laneOff := s.core.laneOff ||| mask } })

/-! ## The issue rule (R50) -/

/-- The tandem after `last` in cyclic order that a set holds. -/
def nextTandem (last : BitVec 2) (l : List (Fin 4)) : Option (Fin 4) :=
  (([1, 2, 3, 4] : List Nat).map (fun i => (⟨(last.toNat + i) % 4, Nat.mod_lt _ (by decide)⟩ : Fin 4))).find? l.contains

/-- The core cycle in which the instruction of tandem t was decoded. -/
def decodedAt (s : State) (t : Fin 4) : Nat := s.core.team.tds[t].x.decoded.toNat

/-- The tandems of a set with the oldest instruction. -/
def oldest (s : State) (l : List (Fin 4)) : List (Fin 4) := l.filter (fun t => l.all (fun u => decodedAt s t ≤ decodedAt s u))

/-- No other tandem has an instruction that is ready: every opportunity goes to the tandem in focus (R50). -/
def alone (s : State) : Bool := ([0, 1, 2, 3] : List (Fin 4)).all (fun u => u == s.tnd || !readyVector s u)

/-- An issue opportunity has gone to the X-hart in focus, or could go to no other (R50). -/
def mayIssue (s : State) : Bool := s.turn == some (s.core.num, s.tnd) || alone s

/-- `ISSUE_OPPORTUNITY` (R50): a working lane group takes the next element group of the oldest instruction among the tandems
outside its round, ties of age in turn; it is the next move. -/
def execIssueOpportunity (group : BitVec 3) (s : State) : Out :=
  let lg := s.core.groups[group.toFin]
  let ready := ([0, 1, 2, 3] : List (Fin 4)).filter (readyVector s)
  let fresh := ready.filter (fun t => !lg.round.getLsbD t.val)
  let l := oldest s (if fresh.isEmpty then ready else fresh)
  .next (if s.core.team.status != .resident || s.core.laneOff.getLsbD group.toNat then s
    else
      match nextTandem lg.lastTie l with
      | none => s
      | some t =>
        let bit := BitVec.ofNat 4 (2 ^ t.val)
        let lg := {
          round := if fresh.isEmpty then bit else lg.round ||| bit
          lastTie := if 1 < l.length then BitVec.ofNat 2 t.val else lg.lastTie }
        { s with
          core := { s.core with groups := s.core.groups.set group.toFin lg }
          turn := some (s.core.num, t)
          sched := .group s.core.num t :: s.sched })

end Sys2Proof.Machine
end

