-- ==== Sys2Proof/Machine/Events.lean ====
section
/-! DEFINITION. Moves of the abstract memory machine (R209, R210, R219, R222, R223, R388) and the events by which a
waiting hart goes on (R39, R61, R233, R247, R253, R394). -/

namespace Sys2Proof.Machine

/-! ## Memory (R219 to R223) -/

/-- Counters of correctable errors: HBM channels 0 to 383, then the scratchpads (R388, R412). -/
def eccIndex (key : Nat) : Option Nat :=
  match scratchCore? key with
  | some g => some (384 + g)
  | none => if isHost key then none else some (channelOf key)

/-- A counter goes up by one and saturates, counters in rising order (R388). -/
def countEcc (i : Nat) : List (Nat × BitVec 32) → List (Nat × BitVec 32)
  | [] => [(i, 1)]
  | (j, n) :: l =>
    if i < j then (i, 1) :: (j, n) :: l
    else if i = j then (j, if n = 0xFFFFFFFF#32 then n else n + 1) :: l
    else (j, n) :: countEcc i l

/-- What a read finds at a home: nothing, an error that the ECC corrects, or one that poisons the granule (R388), or that is
fatal where it lies in firmware's region (R410); a read of host memory may return poison from the host (R407). -/
def meetEcc (s : State) (key : Nat) (ecc : BitVec 2) : State :=
  match ecc.toNat, eccIndex key with
  | 1, some i => { s with ecc := countEcc i s.ecc }
  | 2, some _ =>
    if inReserved key then raiseFatal s 3 (1536 + key / regionSize) (BitVec.ofNat 64 key)
    else { s.poisonAt [key] with fresh := [granule key] }
  | 2, none => s.poisonAt [key]
  | _, _ => s

/-- The agent that executes a read, what it asks of a page, and whether it reads whole lines (R207, R216, R231); none for a
read by the home alone, a fetch, a held read and the collective engine. -/
def Reader.agent (r : Reader) (t : Fin 4) : Option (Agent × Ask × Bool) :=
  match r with
  | .scalar => some (.scalar t, Ask.load, false)
  | .vector => some (.vector t, Ask.load, false)
  | .copy => some (.copy, Ask.copyRead, true)
  | .feed => some (.feed, Ask.engineRead, true)
  | .parterre => some (.parterre, Ask.engineRead, true)
  | .trellis => some (.trellis, Ask.engineRead, true)
  | .home => none
  | .fetch => none
  | .held => none
  | .record => some (.scalar t, Ask.record, false)
  | .collective => none

/-- Bytes of a read: a line, a record or a descriptor, or what its size code says (R219). -/
def Reader.size (r : Reader) (z : BitVec 2) (line : Bool) : Nat :=
  if line then 128 else if r == .record then 64 * 2 ^ (z.toNat % 2) else 2 ^ z.toNat

/-- A read of an agent executes now, for an instruction or a command that comes to it later (R219). -/
def readEarly (s : State) (ag : Agent) (addrs : List Nat) : State :=
  match freshRead (dropEarly s s.core.num ag addrs) s.core.num ag addrs with
  | (s, .bytes l) => { s with early := s.early ++ [{ core := s.core.num, agent := ag, tick := s.ticks, cells := addrs.zip l }] }
  | (s, _) => s

/-- An element of an entry of a head of tandem t on core g takes a value, if the entry is there (R219). -/
def landElem (s : State) (g : Nat) (t : Fin 4) (head pos width i : Nat) (v : Word) : State :=
  let c := s.coreOf g
  let td := c.team.tds[t]
  let l := td.q[head % 6]'(Nat.mod_lt _ (by decide))
  let q := l.zipIdx.map (fun p => if p.2 = pos then { p.1 with data := setElem p.1.data width i v } else p.1)
  s.setCore { c with
    team := { c.team with tds := c.team.tds.set t { td with q := td.q.set (head % 6) q (Nat.mod_lt _ (by decide)) } } }

/-- Read n of those that the agents of tandem t hold executes once more, and gives its value to where the first has put one
(R219). One that would wait or would trap does not execute again: no later access may have passed it (R377). -/
def readAgain (s : State) (t : Fin 4) (n : Nat) : State :=
  match s.early[n]? with
  | none => s
  | some e =>
    if e.core != s.core.num || !([Agent.scalar t, Agent.vector t].contains e.agent) then s
    else
      match e.dest with
      | none => s
      | some land =>
        match freshRead s e.core e.agent (e.cells.map (·.1)), land with
        | (s, .bytes l), .reg d => onAHart s e.core t (fun a => a.land d (d.form l.length (wordOf l)))
        | (s, .bytes l), .elem h p w i => landElem s e.core t h p w i (wordOf l)
        | (s, _), _ => s

/-- The A-hart of tandem t waits for its Trellis instruction: no later one has issued (R305). -/
def inTrellis (s : State) (t : Fin 4) : Bool := s.core.team.trellis.any (fun c => c.t == t)

/-- A fetch of the unit that holds an address executes now for a hart of tandem t, which may come to it later (R107). -/
def fetchEarly (s : State) (t : Fin 4) (va : Word) (ecc : BitVec 2) : State :=
  match translate s (s.onHart t false).who Ask.fetch va 4 with
  | .error _ => s
  | .ok p =>
    let s := meetEcc s p.key ecc
    if poisonedAt s p.key || s.fatal.isSome then s else keepUnit s (p.key / 8 * 8)

/-- A read that no agent of a core makes for an access to come: at a home address, by the home alone, which brings only what
the home finds; a fetch of a slot; one that an agent still holds; or a line of the collective engine. -/
def executeOther (t : Fin 4) (r : Reader) (va : Word) (ecc : BitVec 2) (s : State) : State :=
  match r with
  | .fetch => if s.core.team.status != .resident || va.toNat % 4 != 0 then s else fetchEarly s t va ecc
  | .held => if s.core.team.status != .resident then s else readAgain s t va.toNat
  | .collective => if va.toNat % 128 != 0 then s else collEarly s va.toNat
  | _ => if va.toNat < 2 ^ 60 then meetEcc s va.toNat ecc else s

/-- `EXECUTE` (R219): an agent of the core in focus executes a read, aligned to its size or the line of an engine, before
its instruction comes to it; `ecc` says what the home finds. The order that R229 and R230 ask for is kept where the read is
taken up. -/
def execExecute (t : BitVec 2) (r : Reader) (va : Word) (z ecc : BitVec 2) (s : State) : Out :=
  let c := s.onHart t.toFin false
  .next (match Reader.agent r t.toFin with
    | none => executeOther t.toFin r va ecc s
    | some (ag, q, line) =>
      let n := Reader.size r z line
      if s.core.team.status != .resident || va.toNat % n != 0 || (!line && inTrellis s t.toFin) then s
      else
        match translate c (if line then c.engWho else c.who) q va n with
        | .error _ => s
        | .ok p =>
          let s := meetEcc s p.key ecc
          if s.fatal.isSome then s else readEarly s ag (span p.key n))

/-- `DRAIN` (R222) of entry n. -/
def execDrain (n : Nat) (s : State) : Out := .next (drainMove s n)

/-- `COMBINE` (R223) of entry n with the next younger one for its location at the same unit. -/
def execCombine (n : Nat) (s : State) : Out := .next (combineMove s n)

/-- The walk ends without a leaf, and its request is refused if it is made in the next step. -/
def walkMiss (s : State) (r : WalkRun) (e : Refused) : State :=
  { s with miss := some { tick := s.ticks, core := r.core, root := r.root, page := r.va / 4096, cls := e.cls, code := e.code } }

/-- The next read of a walk, at home: word 0 of an entry, then word 1, then the next level; none where the walk has ended
(R209, R211). A walk that ends with a leaf leaves it in a TLB of the die, where an older one of the same page may stand
beside it until an invalidation completes (R210, R212). -/
def walkRead (s : State) (r : WalkRun) : State × Option WalkRun :=
  let k := r.left - 1
  let a := entryPa r.va k r.base
  if poisonedAt s a then (walkMiss s r ⟨11, poisonCode s a⟩, none)
  else
    match r.w0 with
    | none =>
      if (s.mem.word a).getLsbD 0 then (s, some { r with w0 := some (s.mem.word a) }) else (walkMiss s r ⟨6, 1⟩, none)
    | some w0 =>
      match entrySays r.va k w0 (s.mem.word (a + 8)) with
      | .error e => (walkMiss s r e, none)
      | .ok (.inr next) => (s, some { r with left := k, base := next, w0 := none })
      | .ok (.inl l) =>
        let e : TlbEntry := { die := dieOf r.core, root := r.root, base := l.base, size := l.size, w0 := l.w0, w1 := l.w1 }
        ({ s with tlb := e :: s.tlb.filter (· != e) }, none)

/-- The walk of a request of the core in focus for an address: the one in progress, or a new one. -/
def walkOf (s : State) (va : Nat) : WalkRun :=
  (s.walks.find? (fun r => r.core == s.core.num && r.root == s.core.team.root && r.va == va)).getD
    { core := s.core.num, root := s.core.team.root, va := va, left := 4, base := s.core.team.root.toNat, w0 := none }

/-- `PAGE_WALK` (R209, R210): the cached leaf that it names leaves its TLB, where a leaf may stay for any time, and a walk
for the team of the core in focus makes its next read; a new one needs a free walker of the die's 192. -/
def execPageWalk (w : Walk) (s : State) : Out :=
  let s := match w.out.bind (fun n => s.tlb[n]?) with
    | some e => dropLeaves s (· == e)
    | none => s
  let r := walkOf s w.va.toNat
  .next (if s.core.team.status != .resident || windowBase ≤ w.va.toNat ||
        (!s.walks.contains r && 192 ≤ (s.walks.filter (fun q => dieOf q.core == dieOf s.core.num)).length) then s
    else
      let p := walkRead s r
      { p.1 with walks := p.2.toList ++ s.walks.filter (· != r) })

/-! ## Harts that wait -/

/-- A hart of the resident team, not halted. -/
def liveHart (s : State) (t : Fin 4) (x : Bool) : Bool :=
  s.core.team.status == .resident && decide (t.val < s.core.team.tandems) && !(s.onHart t x).h.halted

/-- The hart moves next, where it waits as stated; its instruction executes again (R236). -/
def wake (s : State) (t : Fin 4) (x : Bool) (w : Wait) : State :=
  if liveHart s t x && (s.onHart t x).h.wait == some w then { s with sched := .hart s.core.num t x :: s.sched } else s

/-- `GRANT_RECOMPUTE` (R39, R43): a stalled grant is computed afresh. A pending fault or a waiting completion comes first
(R253, R394). -/
def execGrantRecompute (t : BitVec 2) (s : State) : Out :=
  let t := t.toFin
  if !liveHart s t false || interrupted (s.onHart t false) then .next s
  else
    match (s.onHart t false).h.wait with
    | some (.setvl d a g e) => asHart s t false (execSetvl d a g e)
    | some (.setvl2 d a b e) => asHart s t false (execSetvl2 d a b e)
    | _ => .next s

/-- `BARW_RECHECK` (R247): a waiting `barw` reads its record again. -/
def execBarwRecheck (t : BitVec 2) (s : State) : Out :=
  let t := t.toFin
  if !liveHart s t false || interrupted (s.onHart t false) then .next s
  else
    match (s.onHart t false).h.wait with
    | some (.barw d a b sc v) => asHart s t false (execBarw d a b sc v)
    | _ => .next s

/-- `LINE_FULL_WAKE` (R233): the A-hart that waits on a line moves next. -/
def execLineFullWake (t : BitVec 2) (s : State) : Out := .next (wake s t.toFin false .line)

/-- `QUEUE_STALL_RELEASE` (R61): a hart that waits on a queue moves next. -/
def execQueueStallRelease (t : BitVec 2) (x : Bool) (s : State) : Out := .next (wake s t.toFin x .queue)

/-- `USER_INTERRUPT_ENTRY` (R253). -/
def execUserInterruptEntry (t : BitVec 2) (s : State) : Out :=
  let c := s.onHart t.toFin false
  .next (if liveHart s t.toFin false && userReady c && (readyFault c).isNone then (c.enterUser).onHart s.tnd s.xh else s)

/-- `PENDING_FAULT_TAKE` (R394), also by a hart that has halted. -/
def execPendingFaultTake (t : BitVec 2) (s : State) : Out :=
  let c := s.onHart t.toFin false
  .next (if s.core.team.status == .resident && decide (t.toNat < s.core.team.tandems) then
      match readyFault c with
      | some p => (c.takePending p).onHart s.tnd s.xh
      | none => s
    else s)

end Sys2Proof.Machine
end

