-- ==== Sys2Proof/Machine/HostPort.lean ====
section
/-! DEFINITION. The host port and the security controller: management registers (R360, R361), CXL.mem accesses (R359,
R362, R407, R408), links (R407), power and reset (R25 to R27), firmware (R372, R373, R409), the mailbox (R371, R374, R388,
R397, R411, R424) and fatal errors (R410, R411). -/

namespace Sys2Proof.Machine

/-! ## The management block (R360, R361) -/

/-- `devid` (R360). -/
def devid (s : State) : Word :=
  let v : BitVec 16 := if s.recovery then 0 else s.version.extractLsb' 0 16
  (0x1536#32 ++ Config.stepping) ++ v

/-- What a read of a management register returns; other offsets read as zero. -/
def mgmtRead (s : State) (off : BitVec 12) : Word :=
  match off.toNat with
  | 0x000 => devid s
  | 0x008 => devstat s
  | 0x010 => s.qtab
  | 0x018 => s.ptab
  | 0x020 => s.hdom.setWidth 64
  | 0x040 => s.xsrc
  | 0x048 => s.xdst
  | 0x050 => s.xlen
  | 0x058 => s.xpeer
  | 0x060 => s.xstat
  | _ => 0

/-- `QTAB` (R360): a multiple of 64 KiB, ignored while a queue is enabled. Marked DESIGN CHOICE: R360 does not say what a
write of another value leaves; its low bits are cleared and the rest is taken. -/
def execQtab (v : Word) (s : State) : Out :=
  .next (if s.queues.any (·.en) then s else { s with qtab := v &&& ~~~0xFFFF#64 })

/-- `PTAB` (R360): a multiple of 128 KiB, ignored while a collective or a transfer runs. Marked DESIGN CHOICE: of a write
that is no such multiple the low bits are cleared and the rest is taken, as for `QTAB`. -/
def execPtab (v : Word) (s : State) : Out :=
  .next (if !s.colls.isEmpty || s.xstat == 1 then s else { s with ptab := v &&& ~~~0x1FFFF#64 })

/-- `DEVSTAT_EVENT_CLEAR` (R361): W1C. -/
def execDevstatEventClear (v : Word) (s : State) : Out := .next { s with event := s.event && !v.getLsbD 3 }

/-- `MGMT_REGISTER_WRITE` (R11, R360, R368): reserved bits are ignored, and so are RO and unlisted registers. -/
def execMgmtRegisterWrite (off : BitVec 12) (v : Word) (s : State) : Out :=
  .next (match off.toNat with
    | 0x020 => { s with hdom := v.extractLsb' 0 16 }
    | 0x040 => { s with xsrc := v }
    | 0x048 => { s with xdst := v }
    | 0x050 => { s with xlen := v }
    | 0x058 => { s with xpeer := v &&& 0x1FFF }
    | _ => s)

/-! ## CXL.mem (R359, R362, R407, R408) -/

/-- `HDM_RANGE_DECODE` (R359). -/
def execHdmRangeDecode (base : Word) (s : State) : Out := .next { s with hdm := base }

/-- The device physical address of a host access; none outside the range (R359). -/
def hdmAddr (s : State) (addr len : Nat) : Option Nat :=
  if s.hdm.toNat ≤ addr && addr + len ≤ s.hdm.toNat + hbmSize then some (addr - s.hdm.toNat) else none

/-- The first byte of a host access that the table of its channel refuses under `hdom` (R359, R370). -/
def hostRefused (s : State) (m : Mode) (pa len : Nat) : Option Nat :=
  (span pa len).find? (fun a => !aclPasses s (channelOf a) s.hdom m a 1)

def State.answer (s : State) (l : List Byte) : State := { s with reply := l, replyPoison := false }

def poisonReply (s : State) : State := { s with reply := [], replyPoison := true }

/-- `HOST_MEM_READ` (R221, R232, R359, R408, R411): the host's own writes that have yet to perform are seen. -/
def execHostMemRead (addr len : Nat) (s : State) : Out :=
  .next (match hdmAddr s addr len with
    | none => poisonReply s
    | some pa =>
      if s.fatal.isSome then poisonReply s
      else
        match hostRefused s .read pa len with
        | some a => poisonReply (logRefusal s (channelOf a) s.hdom a)
        | none =>
          match freshRead s offCore .host (span pa len) with
          | (s, .bytes l) => s.answer l
          | (s, .poison _) => poisonReply s
          | (s, .wait) => s)

/-- `HOST_MEM_WRITE` (R216, R232, R359, R407, R408, R411): the write enters the host's store buffer, whose entries perform
in turn; with `bad` the data arrives with poison. -/
def execHostMemWrite (addr : Nat) (data : List Byte) (bad : Bool) (s : State) : Out :=
  .next (match hdmAddr s addr data.length with
    | none => poisonReply s
    | some pa =>
      if s.fatal.isSome then poisonReply s
      else
        match hostRefused s .write pa data.length with
        | some a => logRefusal s (channelOf a) s.hdom a
        | none => enterOff s .host bad (cellsAt pa data))

/-! ## Links (R407) -/

/-- `FLIT_REPLAY` (R407). -/
def execFlitReplay (s : State) : Out := .next { s with replays := s.replays + 1 }

/-- `MODULE_RETRAIN_FAIL` (R407): the last module to fail is a fatal error. -/
def execModuleRetrainFail (m : BitVec 2) (s : State) : Out :=
  let s := { s with mods := s.mods &&& ~~~BitVec.ofNat 4 (2 ^ m.toNat) }
  .next (if s.mods = 0 then raiseFatal s 6 1536 0 else s)

/-- `HOST_LINK_DOWN` (R407, R410). -/
def execHostLinkDown (s : State) : Out := .next (raiseFatal { s with mods := 0 } 6 1536 0)

/-- `VIRAL_RECEIVED` (R407, R410). -/
def execViralReceived (s : State) : Out := .next (raiseFatal s 5 1536 0)

/-- `WATCHDOG_EXPIRY` (R410). -/
def execWatchdogExpiry (s : State) : Out := .next (raiseFatal s 7 1536 0)

/-- `FATAL_ERROR` (R410, R411) with one of the listed causes. -/
def execFatalError (cause : BitVec 8) (core : Nat) (detail : Word) (s : State) : Out :=
  .next (if 1 ≤ cause.toNat && cause.toNat ≤ 7 then raiseFatal s cause core detail else s)

/-! ## Power and reset (R25 to R27, R411) -/

/-- The part with everything as reset leaves it but memory, the fuses, the host's own memory and what follows from
images written earlier. -/
def State.restart (s : State) (mem : Memory) (poison : List Nat) (dump powered : Bool) : State :=
  { State.reset with
    sched := s.sched, ticks := s.ticks, born := s.ticks, mem := mem, poison := poison, fused := s.fused
    privates := s.privates, serial := s.serial, dump := dump, powered := powered }

/-- Memory that the loss of device power leaves: the host's own. -/
def State.hostMemory (s : State) : Memory := s.mem.filter (fun c => isHost c.1)

/-- `DEVICE_RESET` (R27, R411): it ends every power-up, and it leaves memory and `devstat.dump`. -/
def execDeviceReset (s : State) : Out := .next (s.restart s.mem s.poison s.dump true)

/-- `POWER_DOWN` (R26). -/
def execPowerDown (s : State) : Out := .next (s.restart s.hostMemory (s.poison.filter isHost) false false)

/-- `THERMAL_TRIP` (R25): no dump is written, and `devstat.dump` keeps its value. -/
def execThermalTrip (s : State) : Out := .next (s.restart s.hostMemory (s.poison.filter isHost) s.dump false)

/-! ## Firmware (R372, R373, R409) -/

/-- A field of n bytes. -/
def field (n : Nat) (l : List Byte) : List Byte := (l ++ List.replicate n 0).take n

/-- A SHAKE256 digest of n bytes. -/
def shake (l : List Byte) (n : Nat) : List Byte := field n (Config.shake256 l n)

/-- A part of an image. -/
def part (image : List Byte) (lo n : Nat) : List Byte := (image.drop lo).take n

/-- Payload length and security version of an image. -/
def payloadLen (image : List Byte) : Nat := natOf (part image 12 4)
def securityVersion (image : List Byte) : BitVec 32 := BitVec.ofNat 32 (natOf (part image 8 4))

/-- Why an image fails the checks of R373, by the reasons of R409; 0 when it passes. -/
def imageReason (s : State) (image : List Byte) : Nat :=
  let l := payloadLen image
  let key := part image 16 1952
  if image.length < 5376 + l then 1
  else if natOf (part image 0 8) != 0x4C51465731353336 || (part image 5277 99).any (· != 0) then 2
  else if shake key 64 != field 64 Config.romDigest then 3
  else if !Config.mlDsaVerify key (part image 0 16 ++ shake (part image 5376 l) 64) (part image 1968 3309) then 4
  else if securityVersion image < s.fused then 5
  else 0

/-- Firmware runs, or the device is in recovery (R373, R409). -/
def loadImage (s : State) (image : List Byte) : State :=
  match imageReason s image with
  | 0 =>
    let v := securityVersion image
    { s with
      ready := true, recovery := false, reason := 0, version := v, firmware := image.take (5376 + payloadLen image)
      fused := if s.fused < v then v else s.fused }
  | n => { signalEvent s with recovery := true, reason := n }

/-- `BOOT_ROM_VERIFY` (R373), once at a power-up. -/
def execBootRomVerify (image : List Byte) (s : State) : Out :=
  .next (if s.ready || s.recovery then s else loadImage s image)

/-- `RECOVERY_IMAGE_LOAD` (R373, R409): an image that fails leaves the device in recovery. -/
def execRecoveryImageLoad (image : List Byte) (s : State) : Out := .next (if s.recovery then loadImage s image else s)

/-! ## The mailbox -/

/-- In recovery the mailbox accepts only a new image (R373). -/
def mailbox (s : State) (f : State → State) : Out := .next (if s.recovery then s else f s)

/-- Targets of access tables (R369). -/
def aclTargets : Nat := 2323

/-- Puts an entry into a table, by rising target and slot. -/
def insertAcl (e : AclEntry) : List AclEntry → List AclEntry
  | [] => [e]
  | x :: l =>
    if e.target < x.target || (e.target == x.target && e.slot < x.slot) then e :: x :: l
    else if e.target == x.target && e.slot == x.slot then e :: l
    else x :: insertAcl e l

/-- The domain that an entry allows, and the bytes that it covers (R369). -/
def AclEntry.domain (e : AclEntry) : BitVec 16 := e.w1.extractLsb' 48 16
def AclEntry.bytes (e : AclEntry) : Nat := (e.w1.extractLsb' 0 40).toNat * 4096
def AclEntry.covers (e : AclEntry) (pa : Nat) : Bool := leafPa e.w0 ≤ pa && decide (pa < leafPa e.w0 + e.bytes)

/-- The cores whose requests stand in a buffered entry: those of every contribution that a combine has merged (R223). -/
def Entry.cores (b : Entry) : List Nat :=
  match b.payload with
  | .atomic _ _ _ _ who => b.core :: who.map (·.core)
  | _ => [b.core]

/-- The entry may have admitted a request that stands in a buffered one; those of the host and the collective engine carry no
domain of a core. -/
def AclEntry.admitted (s : State) (e : AclEntry) (b : Entry) : Bool :=
  b.cores.any (fun g =>
    match aclTarget g b.addr with
    | some (t, pa) => t == e.target && e.covers pa && (g == offCore || (s.coreOf g).team.domain == e.domain)
    | none => false)

/-- The entry may have admitted a kernel or a list that a sequencer still holds (R369). -/
def AclEntry.holdsWork (e : AclEntry) (q : Seq) : Bool :=
  e.target == 1920 + q.ch &&
    (q.kernels.any (fun k => k.domain == e.domain && k.pins.any (fun p => e.covers p.home)) ||
      q.lists.any (fun r => r.domain == e.domain && r.pins.any (fun p => e.covers p.home)))

/-- The entry may have admitted a part of the running transfer, at a channel here or at a peer port (R368, R369). -/
def AclEntry.transfers (s : State) (e : AclEntry) : Bool :=
  s.xstat == 1 && e.domain == s.hdom && (e.target < 384 || 2305 ≤ e.target) &&
    meets (if e.target < 384 then s.xsrc.toNat else xferFar s 0) s.xlen.toNat (leafPa e.w0) e.bytes

/-- A request that an entry admitted has not yet performed at home (R371). -/
def admittedPending (s : State) (e : AclEntry) : Bool :=
  s.buf.any (e.admitted s) || s.seqs.any e.holdsWork || e.transfers s

/-- Fields of an entry that are not reserved (R369). -/
def aclMask0 : Word := 0x000FFFFFFFFFF00F
def aclMask1 : Word := 0xFFFF00FFFFFFFFFF

/-- The mailbox reports on the update of a slot: 1 once every request that a removed entry admitted has performed, else 0,
and then the host asks again by the same request (R371, DESIGN CHOICE). -/
def reportUpdate (s : State) (target slot : Nat) : State :=
  let here := fun (e : AclEntry) => e.target == target && e.slot == slot
  let old := s.aclOld.filter (fun e => !here e || admittedPending s e)
  { s.answer [if old.any here then 0 else 1] with aclOld := old }

/-- `ACCESS_TABLE_UPDATE` (R371), by firmware: one entry changes in a single move. -/
def execAccessTableUpdate (target slot : Nat) (w0 w1 : Word) (s : State) : Out :=
  mailbox s fun s =>
    let new : AclEntry := { target := target, slot := slot, w0 := w0 &&& aclMask0, w1 := w1 &&& aclMask1 }
    if !s.ready || aclTargets ≤ target || 64 ≤ slot then s
    else if s.acl.contains new then reportUpdate s target slot
    else
      reportUpdate { s with
        acl := insertAcl new s.acl
        aclOld := s.aclOld ++ s.acl.filter (fun e => e.target == target && e.slot == slot && e.w0.getLsbD 0) } target slot

/-- Every access table as bytes, in target order, 64 entries each (R374). -/
def aclBytes (s : State) : List Byte :=
  (List.range aclTargets).flatMap (fun t => (List.range 64).flatMap (fun i =>
    match s.acl.find? (fun e => e.target == t && e.slot == i) with
    | some e => words [e.w0, e.w1]
    | none => List.replicate 16 0))

/-- Bytes 0 to 367 of the evidence (R374). -/
def evidence (s : State) (nonce : List Byte) : List Byte :=
  field 32 nonce ++ shake s.firmware 64 ++ bytesOf 8 (s.fused.setWidth 64) ++ shake (aclBytes s) 64 ++ words [devid s] ++
    shake ((List.range 1536).map (fun g => (s.coreOf g).laneOff)) 192

/-- `ATTESTATION_REQUEST` (R374). -/
def execAttestationRequest (nonce : List Byte) (s : State) : Out :=
  mailbox s fun s => s.answer (evidence s nonce ++ field 3309 (Config.identitySign (evidence s nonce)) ++ Config.identityKey)

/-- `ECC_COUNTER_READ_CLEAR` (R388). -/
def execEccCounterReadClear (n : Nat) (s : State) : Out :=
  mailbox s fun s =>
    { s.answer (bytesOf 4 (((s.ecc.find? (fun c => c.1 == n)).map (·.2.setWidth 64)).getD 0)) with
      ecc := s.ecc.filter (fun c => c.1 != n) }

/-- `LOST_WRITE_COUNT_READ_CLEAR` (R424). -/
def execLostWriteCountReadClear (queue : Nat) (s : State) : Out :=
  mailbox s fun s =>
    let s := s.answer (bytesOf 4 ((s.queueOf queue).lost.setWidth 64))
    { s with queues := s.queues.map (fun q => if q.num == queue then { q with lost := 0 } else q) }

/-- `FAULT_RECORD_READ` (R424). -/
def execFaultRecordRead (launch : Nat) (s : State) : Out :=
  mailbox s fun s => s.answer (((s.kept.find? (fun k => k.launch == launch)).map (fun k => words k.words)).getD [])

/-- `ERROR_LOG_READ` (R397): the entries in the form of the dump (R412). -/
def execErrorLogRead (s : State) : Out :=
  mailbox s fun s => s.answer (s.log.flatMap (fun e =>
    (List.range 16).map (Config.logByte e.core e.unit e.element e.retired)))

/-- `DUMP_READ` (R411): 4 KiB of the dump. -/
def execDumpRead (block : Nat) (s : State) : Out :=
  mailbox s fun s =>
    let a := dumpBase + 4096 * block
    if !s.dump || 4096 ≤ block then s.answer []
    else if (span a 4096).any (poisonedAt s) then poisonReply s
    else s.answer (s.mem.bytes a 4096)

/-- `DUMP_CLEAR` (R411). -/
def execDumpClear (s : State) : Out :=
  mailbox s fun s => { s with mem := s.mem.clear dumpBase dumpSize, dump := false }

/-! ## What moves while the part stands still (R25, R411) -/

/-- Steps that a fatal error leaves possible: those of the host, the links, the security controller and power. -/
def movesInFatal : Instr → Bool
  | .hostMemRead _ _ => true
  | .hostMemWrite _ _ _ => true
  | .hdmRangeDecode _ => true
  | .devstatEventClear _ => true
  | .mgmtRegisterWrite _ _ => true
  | .qtab _ => true
  | .ptab _ => true
  | .flitReplay => true
  | .moduleRetrainFail _ => true
  | .hostLinkDown => true
  | .viralReceived => true
  | .watchdogExpiry => true
  | .fatalError _ _ _ => true
  | .deviceReset => true
  | .powerDown => true
  | .thermalTrip => true
  | .bootRomVerify _ => true
  | .recoveryImageLoad _ => true
  | .attestationRequest _ => true
  | .eccCounterReadClear _ => true
  | .lostWriteCountReadClear _ => true
  | .faultRecordRead _ => true
  | .errorLogRead => true
  | .dumpRead _ => true
  | .dumpClear => true
  | .peerLinkDown _ => true
  | .peerLinkUp _ => true
  | .accessTableUpdate _ _ _ _ => true
  | _ => false

end Sys2Proof.Machine
end

