-- ==== Sys2Proof/Machine/Trellis.lean ====
section
/-! DEFINITION. Trellis regions (R297 to R308): the grid descriptor and its binding, `tgload`, `tgscat` and `xconv`. -/

namespace Sys2Proof.Machine

/-! ## The grid descriptor (R297, R298, R300) -/

def Grid.d (g : Grid) : Nat := (g.cfg.extractLsb' 0 4).toNat
def Grid.count (g : Grid) : Nat := (g.cfg.extractLsb' 8 6).toNat
def Grid.f (g : Grid) : Nat := 2 ^ (g.cfg.extractLsb' 16 2).toNat
/-- Bytes of a feature: fp16 or fp32. -/
def Grid.fsz (g : Grid) : Nat := if g.cfg.getLsbD 18 then 4 else 2
def Grid.fmt (g : Grid) : Fmt := if g.cfg.getLsbD 18 then .fp32 else .fp16
def levelRes (e : Word) : Nat := (e.extractLsb' 0 32).toNat
def levelT (e : Word) : Nat := (e.extractLsb' 32 5).toNat
def Grid.res (g : Grid) (l : Nat) : Nat := levelRes (g.levels.getD l 0)
def Grid.slots (g : Grid) (l : Nat) : Nat := 2 ^ levelT (g.levels.getD l 0)
/-- O_l, the first slot of level l. -/
def Grid.first (g : Grid) (l : Nat) : Nat := ((List.range l).map g.slots).sum
def Grid.dense (g : Grid) (l : Nat) : Bool := (g.res l + 1) ^ g.d ≤ g.slots l

/-- Index of feature f of slot h of level l. -/
def Grid.index (g : Grid) (l h f : Nat) : Nat := (g.first l + h) * g.f + f

/-- A range of n bytes touches the window or ends beyond the address space. -/
def badTable (base n : Nat) : Bool :=
  2 ^ 56 < base + n || (base < windowBase + windowSize && windowBase < base + n)

/-- Status of `tgbind` for a header and the level entries that go with it (R300). -/
def gridStatus (ws : List Word) (g : Grid) : Nat :=
  if !(clearFrom ws 0 56 && clearFrom ws 1 56 && clearFrom ws 2 19 && g.cfg.extractLsb' 14 2 == 0 &&
      g.cfg.extractLsb' 4 4 == 0 && (ws.drop 3).all (· == 0) && g.levels.all (fun e => e.toNat < 2 ^ 37)) then 1
  else if g.d = 0 || 8 < g.d || g.count = 0 || 32 < g.count || g.pbase.toNat % 64 != 0 || g.gbase.toNat % 64 != 0 ||
      g.levels.any (fun e => 24 < levelT e || levelRes e == 0) ||
      badTable g.pbase.toNat (g.first g.count * g.f * g.fsz) || badTable g.gbase.toNat (g.first g.count * g.f * 8) then 2
  else 0

/-- Level entries from address `va` on, read one by one. -/
def levelsThen : Nat → Word → State → List Word → (State → List Word → Out) → Out
  | 0, _, s, l, k => k s l
  | n + 1, va, s, l, k =>
    readThen s s.scalarAgent Ask.record va 8 fun s _ b => levelsThen n (va + 8) s (l ++ [wordOf b]) k

/-- `tgbind` (R300): with acq = 1 its reads come after every earlier one (R230). -/
def execTgbind (d a : Reg) (sc : BitVec 2) (q r : Bit) (s : State) : Out :=
  issue true false (.tgbind d a sc q r) s fun s =>
    recordThen (if q.on then forgetEarly s s.core.num [s.scalarAgent] else s) (s.getS a) 8 fun s ws =>
      let n := ((rw ws 2).extractLsb' 8 6).toNat
      levelsThen (if 32 < n then 0 else n) (s.getS a + 64) s [] fun s ls =>
        let g : Grid := { pbase := rw ws 0, gbase := rw ws 1, cfg := rw ws 2, levels := ls }
        handOver s sc r fun s =>
          issueStatus (if gridStatus ws g = 0 then s.setA { s.a with grid := some g } else s) d (gridStatus ws g)

/-- `tgbind.none` (R300). -/
def execTgbindNone (d : Reg) (s : State) : Out :=
  issue true false (.tgbindNone d) s fun s => issueStatus (s.setA { s.a with grid := none }) d 0

/-! ## Corners, weights and slots (R301) -/

def oneWord : Word := 0x3F800000

/-- A coordinate with NaN and what is not above 0 made 0, and what is above 1 made 1. -/
def clampCoord (w : Word) : Num :=
  match Fmt.fp32.unpack w with
  | .fin neg m e st =>
    if neg || m == 0 then .fin false 0 0 false
    else if Num.lt (.fin false 1 0 false) (.fin neg m e st) then .fin false 1 0 false
    else .fin neg m e st
  | .inf neg => if neg then .fin false 0 0 false else .fin false 1 0 false
  | _ => .fin false 0 0 false

/-- The whole part of a non-negative value and its remainder over `cell`, exactly. -/
def floorOf (m : Nat) (e : Int) : Nat := if 0 ≤ e then m * 2 ^ e.toNat else m / 2 ^ (-e).toNat

/-- What `prep` gives for one dimension: the cell, fr and 1 - fr in fp32, and the flags. -/
structure Prep where
  cell : Nat
  fr : Word
  co : Word
  flags : Flags

/-- `prep` for one coordinate at a resolution. -/
def prepOne (res : Nat) (x : Word) : Prep :=
  let sr := match clampCoord x with
    | .fin _ m e st => Fmt.fp32.roundFin .rne false (m * res) e st
    | _ => ((0 : Word), (0 : Flags))
  match Fmt.fp32.unpack sr.1 with
  | .fin _ m e _ =>
    let cell := min (floorOf m e) (res - 1)
    let e' := min e 0
    let fr := (Fmt.fp32.roundFin .rne false (m * 2 ^ (e - e').toNat - cell * 2 ^ (-e').toNat) e' false).1
    let co := fpSub .fp32 .rne oneWord fr
    { cell := cell, fr := fr, co := co.1, flags := sr.2 ||| co.2 }
  | _ => { cell := 0, fr := 0, co := oneWord, flags := 0 }

/-- The weight of corner k, dimension 0 first, with the flags of its roundings. -/
def weightFrom : List Prep → Nat → Word × Flags → Word × Flags
  | [], _, w => w
  | p :: ps, k, w =>
    let r := fpMul .fp32 .rne w.1 (if k % 2 = 1 then p.fr else p.co)
    weightFrom ps (k / 2) (r.1, w.2 ||| r.2)

/-- Multipliers of the hash. -/
def hashMul : List Nat :=
  [0x00000001, 0x8DA6B343, 0xD8163841, 0xCB1AB31F, 0x9A9E4F0B, 0xB7E15163, 0xF1357AEB, 0xA54FF53B]

/-- The slot of corner k at level l. -/
def slotOf (g : Grid) (l : Nat) (ps : List Prep) (k : Nat) : Nat :=
  let c := ps.zipIdx.map (fun p => p.1.cell + k / 2 ^ p.2 % 2)
  if g.dense l then (c.zipIdx.map (fun p => p.1 * (g.res l + 1) ^ p.2)).sum
  else ((c.zip hashMul).foldl (fun h p => h ^^^ (p.1 * p.2 % 2 ^ 32)) 0) % g.slots l

/-- A corner of an element: the element, the slot and the weight. -/
structure Corner where
  i : Nat
  slot : Nat
  weight : Word

/-- The corners of element i at level l in binary order, with the flags of prep and weight. -/
def cornersOf (g : Grid) (coords : List VReg) (l i : Nat) : List Corner × Flags :=
  let ps := coords.map (fun v => prepOne (g.res l) (getElem v 32 i))
  let ws := (List.range (2 ^ g.d)).map (fun k => (k, weightFrom ps k (oneWord, 0)))
  (ws.map (fun p => { i := i, slot := slotOf g l ps p.1, weight := p.2.1 }),
    (ps.map (·.flags)).foldl (· ||| ·) ((ws.map (·.2.2)).foldl (· ||| ·) 0))

/-- The corners of a plane's elements below n. -/
def planeCorners (g : Grid) (coords : List VReg) (l n : Nat) : List Corner × Flags :=
  let cs := (List.range n).map (cornersOf g coords l)
  (cs.flatMap (·.1), (cs.map (·.2)).foldl (· ||| ·) 0)

/-! ## tgload and tgscat (R302 to R307) -/

/-- What the Trellis unit asks of parameter tables and of gradient cells (R298). A page of kind scratch admits atomics, so
that what it lacks is the attribute (R207, R211). -/
def Ask.gridRead : Ask := { mode := .read, host := false, scratch := false, peer := false, need := .parameter, acc := 0 }
def Ask.gridAdd : Ask := { mode := .atomic, host := false, scratch := true, peer := false, need := .gradient, acc := 2 }

def setCursor (s : State) (c : Option TrellisCursor) : State := s.setTeam { s.core.team with trellis := c }

/-- Every corner of a plane is translated and checked before any access of it (R378). -/
def placeCorners (q : Ask) (n : Nat) (addr : Corner → Word) : List Corner → State → Step (List (Corner × Place))
  | [], _ => .ok []
  | c :: cs, s =>
    match translate s s.engWho q (addr c) n with
    | .error e => .error (elemTrap s e.cls e.code q.acc c.i (addr c))
    | .ok p =>
      match placeCorners q n addr cs s with
      | .error o => .error o
      | .ok l => .ok ((c, p) :: l)

/-- A parameter in fp32. Marked DESIGN CHOICE: the widening of an fp16 NaN that signals raises no flag, on which R303 is
silent; an fp32 one is no conversion and reaches the multiply-add as it is (R82). -/
def paramOf (g : Grid) (w : Word) : Word := if g.fsz = 4 then w else (fpConvert .fp16 .fp32 .rne w).1

/-- The element sums of a plane, each corner a line read, none before step `since`: an accumulator for each element, and
flags (R231, R303, R306). -/
def gatherCorners (g : Grid) (since : Nat) (addr : Corner → Word) : List (Corner × Place) → State → VReg → Flags →
    Step (State × VReg × Flags)
  | [], s, v, f => .ok (s, v, f)
  | (c, p) :: l, s, v, f =>
    let line := lineRead p.key g.fsz
    match readSince s s.core.num .trellis since line with
    | (s, .wait, _) => .error (s.stall .line)
    | (s, .poison _, _) => .error (elemTrap s 11 (readCode s line) 0 c.i (addr c))
    | (s, .bytes b, _) =>
      let w := paramOf g (wordOf ((b.drop (p.key - line.headD 0)).take g.fsz))
      let r := fpFma .fp32 .rne c.weight w (getElem v 32 c.i) false
      gatherCorners g since addr l s (setElem v 32 c.i r.1) (f ||| r.2)

/-- A plane of n values -0.0. -/
def minusZeros (n : Nat) : VReg := (List.range n).foldl (fun v i => setElem v 32 i 0x80000000) 0

/-- Plane p of `tgload` for the cursor (R303). -/
def gatherPlane (g : Grid) (c : TrellisCursor) (s : State) : Step (State × VReg × Flags) :=
  let l := c.plane / g.f
  let f := c.plane % g.f
  let n := stripN s
  let cs := planeCorners g c.coords l n
  let addr := fun (k : Corner) => g.pbase + BitVec.ofNat 64 (g.index l k.slot f * g.fsz)
  match placeCorners Ask.gridRead g.fsz addr cs.1 s with
  | .error o => .error o
  | .ok ps => gatherCorners g c.since addr ps s (minusZeros n) cs.2

/-- The contributions of a plane of `tgscat`: one atomic add for each corner, in order (R304). -/
def scatterCorners (addr : Corner → Word) (v : VReg) (serial : Nat) : List (Corner × Place) → State → State
  | [], s => s
  | (c, p) :: l, s =>
    let y := match Num.mul? (Fmt.fp32.unpack c.weight) (Fmt.fp32.unpack (getElem v 32 c.i)) with
      | some y => x64Num y (leafQ p.w1)
      | none => (0, true)
    let who : Contrib :=
      { core := s.core.num, t := s.tnd, serial := serial, elem := c.i, va := addr c, vsca := false, late := true }
    let pay := Payload.atomic .add p.key 8 y.1 [who]
    let s := dropEarly s s.core.num .trellis pay.addrs
    let s : State := { s with
      buf := s.buf ++ [{ loc := .sb s.core.num .trellis, core := s.core.num, agent := .trellis, payload := pay,
                         serial := serial, low := 0, rank := none, bad := false }] }
    scatterCorners addr v serial l (s.raiseRange y.2)

/-- Plane p of `tgscat` for the cursor with gradient plane `v` (R304). -/
def scatterPlane (g : Grid) (c : TrellisCursor) (v : VReg) (s : State) : Step State :=
  let l := c.plane / g.f
  let f := c.plane % g.f
  let cs := planeCorners g c.coords l (stripN s)
  let addr := fun (k : Corner) => g.gbase + BitVec.ofNat 64 (g.index l k.slot f * 8)
  match placeCorners Ask.gridAdd 8 addr cs.1 s with
  | .error o => .error o
  | .ok ps => .ok ((scatterCorners addr v c.serial ps s).raise cs.2)

/-- An entry of n fp32 values (R302). -/
def fitsPlane (s : State) (e : QEntry) : Bool := e.count.toNat == stripN s && e.sew == 2#2

/-- The coordinate planes still to come are popped from q4 (R302). -/
def popCoords : Nat → TrellisCursor → State → Step (State × TrellisCursor)
  | 0, c, s => .ok (s, c)
  | k + 1, c, s =>
    match headOf s 4 with
    | [] => .error (s.stall .queue)
    | e :: _ =>
      if !fitsPlane s e then .error (s.illegal 7)
      else
        let c := { c with coords := c.coords ++ [e.data] }
        popCoords k c (setCursor (popHead s 4) (some c))

/-- The cursor stands at its next plane, which is the restart index (R159, R307). -/
def nextPlane (s : State) (c : TrellisCursor) : State :=
  (setCursor s (some { c with plane := c.plane + 1 })).setVm { s.vm with restart := c.plane + 1 }

/-- The unit is done with the instruction: its own release, then it is free and the restart index is 0 (R159, R230,
R305). -/
def trellisEnd (s : State) (o : Ord) : Out :=
  match quietRelease s .trellis o with
  | .ok s _ => ((setCursor s none).setVm VMem.idle).done
  | .wait s => s.stall .engine
  | .bad s _ => s.stall .engine

/-- No plane is left. -/
def TrellisCursor.over (c : TrellisCursor) : Bool := c.grid.f * c.grid.count ≤ c.plane

/-- At most k planes of `tgload` from the cursor on; a stop lies between two planes (R307). -/
def loadPlanes (d : Reg) (o : Ord) : Nat → TrellisCursor → State → Out
  | 0, c, s => if c.over then trellisEnd s o else s.pause
  | k + 1, c, s =>
    if headFull s d.toNat then s.stall .queue
    else
      match gatherPlane c.grid c s with
      | .error o => o
      | .ok (s, v, f) =>
        let s := pushHead (s.raise f) d.toNat { data := v, count := s.a.n, sew := 2, fill := false }
        loadPlanes d o k { c with plane := c.plane + 1 } (nextPlane s c)

/-- At most k planes of `tgscat` from the cursor on; it completes when every contribution has performed at home (R305,
R307). -/
def scatterPlanes (o : Ord) : Nat → TrellisCursor → State → Out
  | 0, c, s =>
    if !c.over then s.pause
    else if s.buf.any (fun e => e.holds s.core.num c.serial) then s.stall .engine else trellisEnd s o
  | k + 1, c, s =>
    match headOf s 5 with
    | [] => s.stall .queue
    | e :: _ =>
      if !fitsPlane s e then s.illegal 7
      else
        match scatterPlane c.grid c e.data s with
        | .error o => o
        | .ok s =>
          scatterPlanes o k { c with plane := c.plane + 1 } (nextPlane (popHead s 5) c)

/-- The handover: the binding is copied, and no later load of the A-hart has executed (R300, R305). -/
def trellisStart (s : State) (g : Grid) : State × TrellisCursor :=
  let s := nextSerial (forgetEarly s s.core.num [s.scalarAgent, s.vectorAgent])
  (s, { t := s.tnd, grid := g, plane := 0, coords := [], serial := s.serial, since := s.ticks })

/-- The common course of `tgload` and `tgscat` (R302, R305, R306): checks, the unit, coordinate planes, then `run` for
the planes left. -/
def trellisRun (s : State) (sc : BitVec 2) (r : Bit) (run : Nat → TrellisCursor → State → Out) : Out :=
  let go := fun (s : State) (c : TrellisCursor) =>
    match popCoords (c.grid.d - c.coords.length) c (setCursor s (some c)) with
    | .error o => o
    | .ok (s, c) => run (groupFuel s (c.grid.f * c.grid.count - c.plane)) c s
  let mine := s.core.team.trellis.any (fun c => c.t == s.tnd)
  if (s.a.grid.isNone && !mine) || s.a.sew != 2#2 || s.a.group != 0#2 then s.illegal 7
  else if stripN s = 0 then s.done
  else
    match s.core.team.trellis, s.a.grid with
    | some c, _ => if c.t != s.tnd then s.stall .owner else go s c
    | none, some g => handOver s sc r fun s => go (trellisStart s g).1 (trellisStart s g).2
    | none, none => s.illegal 7

/-- `tgload` (R303). -/
def execTgload (d : Reg) (sc : BitVec 2) (q r : Bit) (s : State) : Out :=
  issue true false (.tgload d sc q r) s fun s => trellisRun s sc r (loadPlanes d (ordOf sc q r))

/-- `tgscat` (R304). -/
def execTgscat (sc : BitVec 2) (q r f : Bit) (s : State) : Out :=
  issue true false (.tgscat sc q r f) s fun s => trellisRun s sc r (scatterPlanes (ordOf sc q r))

/-! ## xconv (R308) -/

/-- What `xconv` asks of a cell. -/
def Ask.cell : Ask := { Ask.load with need := .x64 }

/-- What a group of `xconv` has gathered: the entry, flags and range, and the step of the latest read. -/
structure Convs where
  data : VReg
  fl : Flags
  range : Bool
  last : Nat

/-- Converts the elements of one group into the entry being filled, in ascending order (R229, R308). -/
def convElems (f : Fmt) (w c : Nat) (base : Word) : List Nat → State → Convs → Step (State × Convs)
  | [], s, v => .ok (s, v)
  | i :: rest, s, v =>
    let va := base + times i 8
    if va.toNat % 8 != 0 then .error (elemTrap s 5 0 0 i va)
    else
      match translate s s.who Ask.cell va 8 with
      | .error e => .error (elemTrap s e.cls e.code 0 i va)
      | .ok p =>
        let since := if leafHshared p.w1 then v.last else if s.core.team.det then s.vm.lastRead else 0
        match readSince s s.core.num s.vectorAgent since (span p.key 8) with
        | (s, .wait, _) => .error (s.stall .line)
        | (s, .poison _, _) => .error (elemTrap s 11 (readCode s (span p.key 8)) 0 i va)
        | (s, .bytes b, at_) =>
          let r := x64Convert f (wordOf b) (leafQ p.w1)
          convElems f w c base rest s { data := setElem v.data w (i % c) r.1.1, fl := v.fl ||| r.1.2,
                                        range := v.range || r.2, last := max v.last at_ }

/-- The conversion is done. -/
def convEnd (s : State) (acq : Bool) : Out :=
  .next (((if acq then forgetEarly s s.core.num [s.vectorAgent] else s).setVm VMem.idle).bump 4)

/-- Works through at most k element groups from the restart index on, as a load does (R156, R159). -/
def convGroups (f : Fmt) (acq : Bool) (d : Nat) (base : Word) : Nat → State → Out
  | 0, s => s.pause
  | k + 1, s =>
    let n := stripN s
    let c := stripC s
    let e := stripE s
    let g := s.vm.restart
    if n ≤ g * e then convEnd s acq
    else
      match claimHead s d with
      | none => s.stall .queue
      | some s =>
        let hi := min (g * e + e) n
        match convElems f (sewBits s.a.sew) c base (span (g * e) (hi - g * e)) s
            { data := ((filling s d).map (·.data)).getD 0, fl := 0, range := false, last := s.vm.lastRead } with
        | .error o => o
        | .ok (s, v) =>
          let s := ((s.raise v.fl).raiseRange v.range).setVm { s.vm with restart := g + 1, lastRead := v.last }
          convGroups f acq d base k (fillHead s d v.data ((hi - 1) % c + 1) s.a.sew (hi == n || hi % c == 0))

/-- `xconv.v` and `xconv.vd` (R308). -/
def execXconvV (d a : Reg) (sc : BitVec 2) (q v : Bit) (s : State) : Out :=
  issue true false (.xconvV d a sc q v) s fun s =>
    if s.a.sew != (if v.on then 3#2 else 2#2) then s.illegal 7
    else
      let s := acquireVec s q.on
      if stripN s = 0 then s.done
      else
        convGroups (if v.on then .fp64 else .fp32) q.on d.toNat (s.getS a) (groupFuel s (ceilDiv (stripN s) (stripE s) + 1))
          (issueVec s)

/-- `xconv.s` and `xconv.sd` (R308): with acq = 1 the acquire comes before the read. -/
def execXconvS (d a : Reg) (sc : BitVec 2) (q v : Bit) (s : State) : Out :=
  issue true false (.xconvS d a sc q v) s fun s =>
    let acquired := fun (s : State) => if q.on then forgetEarly s s.core.num [s.scalarAgent] else s
    readThen (acquired s) s.scalarAgent Ask.cell (s.getS a) 8 fun s p l =>
      let f := if v.on then Fmt.fp64 else .fp32
      let r := x64Convert f (wordOf l) (leafQ p.w1)
      (((acquired s).setFp d f r.1).raiseRange r.2).done

end Sys2Proof.Machine
end

