-- ==== Sys2Proof/Machine/Dispatch.lean ====
section
/-! DEFINITION. One arm for each instruction, operation and event of the opcode table. -/

namespace Sys2Proof.Machine

/-- What an instruction, an operation or an event does. -/
def exec (i : Instr) (s : State) : Host.Outcome State Fault Refusal :=
  match i with
  | .add d a b => Sys2Proof.Machine.execAdd d a b s
  | .sub d a b => Sys2Proof.Machine.execSub d a b s
  | .and d a b => Sys2Proof.Machine.execAnd d a b s
  | .or d a b => Sys2Proof.Machine.execOr d a b s
  | .xor d a b => Sys2Proof.Machine.execXor d a b s
  | .sll d a b => Sys2Proof.Machine.execSll d a b s
  | .srl d a b => Sys2Proof.Machine.execSrl d a b s
  | .sra d a b => Sys2Proof.Machine.execSra d a b s
  | .slt d a b => Sys2Proof.Machine.execSlt d a b s
  | .sltu d a b => Sys2Proof.Machine.execSltu d a b s
  | .min d a b => Sys2Proof.Machine.execMin d a b s
  | .minu d a b => Sys2Proof.Machine.execMinu d a b s
  | .max d a b => Sys2Proof.Machine.execMax d a b s
  | .maxu d a b => Sys2Proof.Machine.execMaxu d a b s
  | .mul d a b => Sys2Proof.Machine.execMul d a b s
  | .mulh d a b => Sys2Proof.Machine.execMulh d a b s
  | .mulhu d a b => Sys2Proof.Machine.execMulhu d a b s
  | .div d a b => Sys2Proof.Machine.execDiv d a b s
  | .divu d a b => Sys2Proof.Machine.execDivu d a b s
  | .rem d a b => Sys2Proof.Machine.execRem d a b s
  | .remu d a b => Sys2Proof.Machine.execRemu d a b s
  | .addi d a im => Sys2Proof.Machine.execAddi d a im s
  | .andi d a im => Sys2Proof.Machine.execAndi d a im s
  | .ori d a im => Sys2Proof.Machine.execOri d a im s
  | .xori d a im => Sys2Proof.Machine.execXori d a im s
  | .slli d a im => Sys2Proof.Machine.execSlli d a im s
  | .srli d a im => Sys2Proof.Machine.execSrli d a im s
  | .srai d a im => Sys2Proof.Machine.execSrai d a im s
  | .slti d a im => Sys2Proof.Machine.execSlti d a im s
  | .lui d im => Sys2Proof.Machine.execLui d im s
  | .aupc d im => Sys2Proof.Machine.execAupc d im s
  | .bop d a v => Sys2Proof.Machine.execBop d a v s
  | .beq a b o => Sys2Proof.Machine.execBeq a b o s
  | .bne a b o => Sys2Proof.Machine.execBne a b o s
  | .blt a b o => Sys2Proof.Machine.execBlt a b o s
  | .bge a b o => Sys2Proof.Machine.execBge a b o s
  | .bltu a b o => Sys2Proof.Machine.execBltu a b o s
  | .bgeu a b o => Sys2Proof.Machine.execBgeu a b o s
  | .jal d im => Sys2Proof.Machine.execJal d im s
  | .jalr d a im => Sys2Proof.Machine.execJalr d a im s
  | .ld d a z o => Sys2Proof.Machine.execLd d a z o s
  | .ldu d a z o => Sys2Proof.Machine.execLdu d a z o s
  | .st d a z o => Sys2Proof.Machine.execSt d a z o s
  | .fld d a z o => Sys2Proof.Machine.execFld d a z o s
  | .fst d a z o => Sys2Proof.Machine.execFst d a z o s
  | .qpush d a v => Sys2Proof.Machine.execQpush d a v s
  | .qpop d a v => Sys2Proof.Machine.execQpop d a v s
  | .qbr d o v => Sys2Proof.Machine.execQbr d o v s
  | .fadd d a b v => Sys2Proof.Machine.execFadd d a b v s
  | .fsub d a b v => Sys2Proof.Machine.execFsub d a b v s
  | .fmul d a b v => Sys2Proof.Machine.execFmul d a b v s
  | .fdiv d a b v => Sys2Proof.Machine.execFdiv d a b v s
  | .fsqrt d a v => Sys2Proof.Machine.execFsqrt d a v s
  | .fma d a b v => Sys2Proof.Machine.execFma d a b v s
  | .fms d a b v => Sys2Proof.Machine.execFms d a b v s
  | .fmin d a b v => Sys2Proof.Machine.execFmin d a b v s
  | .fmax d a b v => Sys2Proof.Machine.execFmax d a b v s
  | .fcmp d a b v => Sys2Proof.Machine.execFcmp d a b v s
  | .fcvtfi d a v => Sys2Proof.Machine.execFcvtfi d a v s
  | .fcvtif d a v => Sys2Proof.Machine.execFcvtif d a v s
  | .fcvtff d a c t => Sys2Proof.Machine.execFcvtff d a c t s
  | .fmvfx d a v => Sys2Proof.Machine.execFmvfx d a v s
  | .fsgn d a b v => Sys2Proof.Machine.execFsgn d a b v s
  | .fclass d a v => Sys2Proof.Machine.execFclass d a v s
  | .setvl d a g e => Sys2Proof.Machine.execSetvl d a g e s
  | .setvl2 d a b e => Sys2Proof.Machine.execSetvl2 d a b e s
  | .setdim d a b => Sys2Proof.Machine.execSetdim d a b s
  | .settype f t => Sys2Proof.Machine.execSettype f t s
  | .sdecl d a sc q => Sys2Proof.Machine.execSdecl d a sc q s
  | .sdeclEnd d => Sys2Proof.Machine.execSdeclEnd d s
  | .shw a b sc => Sys2Proof.Machine.execShw a b sc s
  | .swait a => Sys2Proof.Machine.execSwait a s
  | .vgrant d => Sys2Proof.Machine.execVgrant d s
  | .vld d a b sc q => Sys2Proof.Machine.execVld d a b sc q s
  | .vlds d a b sc q => Sys2Proof.Machine.execVlds d a b sc q s
  | .vld2 d a b sc q v => Sys2Proof.Machine.execVld2 d a b sc q v s
  | .vldx d a b sc q v => Sys2Proof.Machine.execVldx d a b sc q v s
  | .vldseg d a sc q v => Sys2Proof.Machine.execVldseg d a sc q v s
  | .vst d a b sc r => Sys2Proof.Machine.execVst d a b sc r s
  | .vsts d a b sc r => Sys2Proof.Machine.execVsts d a b sc r s
  | .vst2 d a b sc r v => Sys2Proof.Machine.execVst2 d a b sc r v s
  | .vstx d a b sc r v => Sys2Proof.Machine.execVstx d a b sc r v s
  | .vstseg d a sc r v => Sys2Proof.Machine.execVstseg d a sc r v s
  | .lfe a b sc r v => Sys2Proof.Machine.execLfe a b sc r v s
  | .lwait a b sc q v => Sys2Proof.Machine.execLwait a b sc q v s
  | .vpop d a k => Sys2Proof.Machine.execVpop d a k s
  | .vpush d a k => Sys2Proof.Machine.execVpush d a k s
  | .vmv d a k e x v => Sys2Proof.Machine.execVmv d a k e x v s
  | .vsplat d a k v => Sys2Proof.Machine.execVsplat d a k v s
  | .vadd d a b k v => Sys2Proof.Machine.execVadd d a b k v s
  | .vsub d a b k v => Sys2Proof.Machine.execVsub d a b k v s
  | .vsadd d a b k v => Sys2Proof.Machine.execVsadd d a b k v s
  | .vssub d a b k v => Sys2Proof.Machine.execVssub d a b k v s
  | .vmul d a b k v => Sys2Proof.Machine.execVmul d a b k v s
  | .vmulh d a b k v => Sys2Proof.Machine.execVmulh d a b k v s
  | .vdiv d a b k e x v => Sys2Proof.Machine.execVdiv d a b k e x v s
  | .vrem d a b k e x v => Sys2Proof.Machine.execVrem d a b k e x v s
  | .vmin d a b k v => Sys2Proof.Machine.execVmin d a b k v s
  | .vmax d a b k v => Sys2Proof.Machine.execVmax d a b k v s
  | .vand d a b k v => Sys2Proof.Machine.execVand d a b k v s
  | .vor d a b k v => Sys2Proof.Machine.execVor d a b k v s
  | .vxor d a b k v => Sys2Proof.Machine.execVxor d a b k v s
  | .vsll d a b k v => Sys2Proof.Machine.execVsll d a b k v s
  | .vsrl d a b k v => Sys2Proof.Machine.execVsrl d a b k v s
  | .vsra d a b k v => Sys2Proof.Machine.execVsra d a b k v s
  | .vcmp d a b k p => Sys2Proof.Machine.execVcmp d a b k p s
  | .vsel d a b n v => Sys2Proof.Machine.execVsel d a b n v s
  | .vpopc d a k v => Sys2Proof.Machine.execVpopc d a k v s
  | .vwmac d a b k v => Sys2Proof.Machine.execVwmac d a b k v s
  | .vnsr d a b k v => Sys2Proof.Machine.execVnsr d a b k v s
  | .vthrb d a b k v => Sys2Proof.Machine.execVthrb d a b k v s
  | .vbtr d a v => Sys2Proof.Machine.execVbtr d a v s
  | .vmlog d a b k v => Sys2Proof.Machine.execVmlog d a b k v s
  | .vfadd d a b k e x v => Sys2Proof.Machine.execVfadd d a b k e x v s
  | .vfsub d a b k e x v => Sys2Proof.Machine.execVfsub d a b k e x v s
  | .vfmul d a b k e x v => Sys2Proof.Machine.execVfmul d a b k e x v s
  | .vfdiv d a b k e x v => Sys2Proof.Machine.execVfdiv d a b k e x v s
  | .vfma d a b k e x v => Sys2Proof.Machine.execVfma d a b k e x v s
  | .vfmin d a b k e x v => Sys2Proof.Machine.execVfmin d a b k e x v s
  | .vfmax d a b k e x v => Sys2Proof.Machine.execVfmax d a b k e x v s
  | .vfcmp d a b k e x p => Sys2Proof.Machine.execVfcmp d a b k e x p s
  | .vfsfu d a b k e x => Sys2Proof.Machine.execVfsfu d a b k e x s
  | .vfcvt d a t k e x v => Sys2Proof.Machine.execVfcvt d a t k e x v s
  | .vfnar d a b k e x v => Sys2Proof.Machine.execVfnar d a b k e x v s
  | .vfwid d a k e x v => Sys2Proof.Machine.execVfwid d a k e x v s
  | .vfq4 d a b k e x v => Sys2Proof.Machine.execVfq4 d a b k e x v s
  | .vfscl d a b k e x v => Sys2Proof.Machine.execVfscl d a b k e x v s
  | .vfsgn d a b k v => Sys2Proof.Machine.execVfsgn d a b k v s
  | .vfcls d a k => Sys2Proof.Machine.execVfcls d a k s
  | .vred d a k o v => Sys2Proof.Machine.execVred d a k o v s
  | .vscan d a b k o v => Sys2Proof.Machine.execVscan d a b k o v s
  | .vslide d a b k v => Sys2Proof.Machine.execVslide d a b k v s
  | .vgath d a b k e x v => Sys2Proof.Machine.execVgath d a b k e x v s
  | .vcmpr d a b n => Sys2Proof.Machine.execVcmpr d a b n s
  | .vsmx d a b k v => Sys2Proof.Machine.execVsmx d a b k v s
  | .vfetch d a b k e x v => Sys2Proof.Machine.execVfetch d a b k e x v s
  | .vlid d b k v => Sys2Proof.Machine.execVlid d b k v s
  | .menter d a => Sys2Proof.Machine.execMenter d a s
  | .mexit => Sys2Proof.Machine.execMexit s
  | .mzero d v => Sys2Proof.Machine.execMzero d v s
  | .mopa d a b c r => Sys2Proof.Machine.execMopa d a b c r s
  | .msclA a => Sys2Proof.Machine.execMsclA a s
  | .msclW d b => Sys2Proof.Machine.execMsclW d b s
  | .mdrain d a b k e x v => Sys2Proof.Machine.execMdrain d a b k e x v s
  | .mfeed d a sc q r => Sys2Proof.Machine.execMfeed d a sc q r s
  | .mstat d => Sys2Proof.Machine.execMstat d s
  | .pbank d a sc q r => Sys2Proof.Machine.execPbank d a sc q r s
  | .pbankNone d => Sys2Proof.Machine.execPbankNone d s
  | .peval d a sc q r v => Sys2Proof.Machine.execPeval d a sc q r v s
  | .pvote d a sc q r v => Sys2Proof.Machine.execPvote d a sc q r v s
  | .pfeed d a sc q r => Sys2Proof.Machine.execPfeed d a sc q r s
  | .pstep a b sc q r => Sys2Proof.Machine.execPstep a b sc q r s
  | .pdraw d a b => Sys2Proof.Machine.execPdraw d a b s
  | .pkey a b => Sys2Proof.Machine.execPkey a b s
  | .pkeySrc a => Sys2Proof.Machine.execPkeySrc a s
  | .pkeyEp a => Sys2Proof.Machine.execPkeyEp a s
  | .pplaneLd d a sc q r => Sys2Proof.Machine.execPplaneLd d a sc q r s
  | .pplaneSt a b sc q r => Sys2Proof.Machine.execPplaneSt a b sc q r s
  | .tgbind d a sc q r => Sys2Proof.Machine.execTgbind d a sc q r s
  | .tgbindNone d => Sys2Proof.Machine.execTgbindNone d s
  | .tgload d sc q r => Sys2Proof.Machine.execTgload d sc q r s
  | .tgscat sc q r f => Sys2Proof.Machine.execTgscat sc q r f s
  | .xconvV d a sc q v => Sys2Proof.Machine.execXconvV d a sc q v s
  | .xconvS d a sc q v => Sys2Proof.Machine.execXconvS d a sc q v s
  | .amoadd d a b sc q r f v => Sys2Proof.Machine.execAmoadd d a b sc q r f v s
  | .amoand d a b sc q r f v => Sys2Proof.Machine.execAmoand d a b sc q r f v s
  | .amoor d a b sc q r f v => Sys2Proof.Machine.execAmoor d a b sc q r f v s
  | .amoxor d a b sc q r f v => Sys2Proof.Machine.execAmoxor d a b sc q r f v s
  | .amomm d a b sc q r f u v => Sys2Proof.Machine.execAmomm d a b sc q r f u v s
  | .amoswp d a b sc q r f v => Sys2Proof.Machine.execAmoswp d a b sc q r f v s
  | .amocas d a b sc q r f v => Sys2Proof.Machine.execAmocas d a b sc q r f v s
  | .vsca d a b sc r f v => Sys2Proof.Machine.execVsca d a b sc r f v s
  | .fence sc u => Sys2Proof.Machine.execFence sc u s
  | .ldacq d a sc v => Sys2Proof.Machine.execLdacq d a sc v s
  | .strel a b sc v => Sys2Proof.Machine.execStrel a b sc v s
  | .bar a b sc v => Sys2Proof.Machine.execBar a b sc v s
  | .barw d a b sc v => Sys2Proof.Machine.execBarw d a b sc v s
  | .wfe d a => Sys2Proof.Machine.execWfe d a s
  | .sev a => Sys2Proof.Machine.execSev a s
  | .hwait d a b sc => Sys2Proof.Machine.execHwait d a b sc s
  | .cpy d a sc q r v => Sys2Proof.Machine.execCpy d a sc q r v s
  | .coll d a sc q r => Sys2Proof.Machine.execColl d a sc q r s
  | .glaunch d a sc q r => Sys2Proof.Machine.execGlaunch d a sc q r s
  | .glaunchRed d a sc q r => Sys2Proof.Machine.execGlaunchRed d a sc q r s
  | .gstat d a sc v => Sys2Proof.Machine.execGstat d a sc v s
  | .trap im => Sys2Proof.Machine.execTrap im s
  | .eret => Sys2Proof.Machine.execEret s
  | .csrr d c => Sys2Proof.Machine.execCsrr d c s
  | .csrw a c => Sys2Proof.Machine.execCsrw a c s
  | .csrx d a c => Sys2Proof.Machine.execCsrx d a c s
  | .yield => Sys2Proof.Machine.execYield s
  | .halt => Sys2Proof.Machine.execHalt s
  | .brk im => Sys2Proof.Machine.execBrk im s
  | .ebr p a b v im => Sys2Proof.Machine.execEbr p a b v im s
  | .ejmp p im => Sys2Proof.Machine.execEjmp p im s
  | .esend p a => Sys2Proof.Machine.execEsend p a s
  | .erecv p d => Sys2Proof.Machine.execErecv p d s
  | .epred p a b m v im => Sys2Proof.Machine.execEpred p a b m v im s
  | .eidx p d m im => Sys2Proof.Machine.execEidx p d m im s
  | .ecmt p => Sys2Proof.Machine.execEcmt p s
  | .estop => Sys2Proof.Machine.execEstop s
  | .elementWord op d a b c p m v im => Sys2Proof.Machine.execElementWord op d a b c p m v im s
  | .kNop => Sys2Proof.Machine.execKNop s
  | .kAdd d b => Sys2Proof.Machine.execKAdd d b s
  | .kSub d b => Sys2Proof.Machine.execKSub d b s
  | .kAnd d b => Sys2Proof.Machine.execKAnd d b s
  | .kOr d b => Sys2Proof.Machine.execKOr d b s
  | .kXor d b => Sys2Proof.Machine.execKXor d b s
  | .kSll d b => Sys2Proof.Machine.execKSll d b s
  | .kSrl d b => Sys2Proof.Machine.execKSrl d b s
  | .kAddi d im => Sys2Proof.Machine.execKAddi d im s
  | .kMv d b => Sys2Proof.Machine.execKMv d b s
  | .kBeqz o => Sys2Proof.Machine.execKBeqz o s
  | .kBnez o => Sys2Proof.Machine.execKBnez o s
  | .kVadd d b => Sys2Proof.Machine.execKVadd d b s
  | .kVfadd d b => Sys2Proof.Machine.execKVfadd d b s
  | .kVfmul d b => Sys2Proof.Machine.execKVfmul d b s
  | .kVfma d b => Sys2Proof.Machine.execKVfma d b s
  | .kVmv d b => Sys2Proof.Machine.execKVmv d b s
  | .grd k o g sc p => Sys2Proof.Machine.execGrd k o g sc p s
  | .gwr k o g sc p => Sys2Proof.Machine.execGwr k o g sc p s
  | .gadd w m n d a b => Sys2Proof.Machine.execGadd w m n d a b s
  | .gsub w m n d a b => Sys2Proof.Machine.execGsub w m n d a b s
  | .gmax w m n d a b => Sys2Proof.Machine.execGmax w m n d a b s
  | .gacc w m n g b => Sys2Proof.Machine.execGacc w m n g b s
  | .gtq k h d a t sc => Sys2Proof.Machine.execGtq k h d a t sc s
  | .gtq2 k h d a b t sc => Sys2Proof.Machine.execGtq2 k h d a b t sc s
  | .gshr m n h b c => Sys2Proof.Machine.execGshr m n h b c s
  | .gnar w m n g b => Sys2Proof.Machine.execGnar w m n g b s
  | .grow => Sys2Proof.Machine.execGrow s
  | .gloop n t => Sys2Proof.Machine.execGloop n t s
  | .gqin => Sys2Proof.Machine.execGqin s
  | .gqout => Sys2Proof.Machine.execGqout s
  | .gsync => Sys2Proof.Machine.execGsync s
  | .gend => Sys2Proof.Machine.execGend s
  | .elementGroupCommit => Sys2Proof.Machine.execElementGroupCommit s
  | .pevalRun => Sys2Proof.Machine.execPevalRun s
  | .pvoteRun => Sys2Proof.Machine.execPvoteRun s
  | .pfeedRun => Sys2Proof.Machine.execPfeedRun s
  | .pstepRun => Sys2Proof.Machine.execPstepRun s
  | .pplaneRun => Sys2Proof.Machine.execPplaneRun s
  | .grottoKernelStart ch => Sys2Proof.Machine.execGrottoKernelStart ch s
  | .kernelSuspend ch => Sys2Proof.Machine.execKernelSuspend ch s
  | .kernelResume ch => Sys2Proof.Machine.execKernelResume ch s
  | .refresh ch => Sys2Proof.Machine.execRefresh ch s
  | .activationCountAlert ch mine => Sys2Proof.Machine.execActivationCountAlert ch mine s
  | .kernelRevoke ch => Sys2Proof.Machine.execKernelRevoke ch s
  | .reduceListStart ch => Sys2Proof.Machine.execReduceListStart ch s
  | .reduceCommandWord ch => Sys2Proof.Machine.execReduceCommandWord ch s
  | .execute t r va z ecc => Sys2Proof.Machine.execExecute t r va z ecc s
  | .drain n => Sys2Proof.Machine.execDrain n s
  | .combine n => Sys2Proof.Machine.execCombine n s
  | .pageWalk w => Sys2Proof.Machine.execPageWalk w s
  | .grantRecompute t => Sys2Proof.Machine.execGrantRecompute t s
  | .barwRecheck t => Sys2Proof.Machine.execBarwRecheck t s
  | .lineFullWake t => Sys2Proof.Machine.execLineFullWake t s
  | .queueStallRelease t x => Sys2Proof.Machine.execQueueStallRelease t x s
  | .copyChunk n => Sys2Proof.Machine.execCopyChunk n s
  | .copyComplete n => Sys2Proof.Machine.execCopyComplete n s
  | .streamLineFill t j => Sys2Proof.Machine.execStreamLineFill t j s
  | .mfeedEntry n => Sys2Proof.Machine.execMfeedEntry n s
  | .operandsConsumed n => Sys2Proof.Machine.execOperandsConsumed n s
  | .userInterruptEntry t => Sys2Proof.Machine.execUserInterruptEntry t s
  | .pendingFaultTake t => Sys2Proof.Machine.execPendingFaultTake t s
  | .lateFault launch team t detail addr => Sys2Proof.Machine.execLateFault launch team t detail addr s
  | .launchFaultStop launch => Sys2Proof.Machine.execLaunchFaultStop launch s
  | .collectiveRun shares => Sys2Proof.Machine.execCollectiveRun shares s
  | .collectiveAbort heard shares => Sys2Proof.Machine.execCollectiveAbort heard shares s
  | .peerRetransmitLimit lost shares => Sys2Proof.Machine.execPeerRetransmitLimit lost shares s
  | .peerDatagramReceive src req => Sys2Proof.Machine.execPeerDatagramReceive src req s
  | .peerLinkDown port => Sys2Proof.Machine.execPeerLinkDown port s
  | .xstat v => Sys2Proof.Machine.execXstat v s
  | .transferComplete ok code => Sys2Proof.Machine.execTransferComplete ok code s
  | .qtab v => Sys2Proof.Machine.execQtab v s
  | .ptab v => Sys2Proof.Machine.execPtab v s
  | .devstatEventClear v => Sys2Proof.Machine.execDevstatEventClear v s
  | .mgmtRegisterWrite off v => Sys2Proof.Machine.execMgmtRegisterWrite off v s
  | .hostMemRead addr len => Sys2Proof.Machine.execHostMemRead addr len s
  | .hostMemWrite addr data bad => Sys2Proof.Machine.execHostMemWrite addr data bad s
  | .tailWordObserve queue writes => Sys2Proof.Machine.execTailWordObserve queue writes s
  | .queueEnable queue => Sys2Proof.Machine.execQueueEnable queue s
  | .queueDisable queue => Sys2Proof.Machine.execQueueDisable queue s
  | .recordTake queue => Sys2Proof.Machine.execRecordTake queue s
  | .launch id => Sys2Proof.Machine.execLaunch id s
  | .translationInvalidation id => Sys2Proof.Machine.execTranslationInvalidation id s
  | .invalidationComplete id => Sys2Proof.Machine.execInvalidationComplete id s
  | .cancel id => Sys2Proof.Machine.execCancel id s
  | .evict id => Sys2Proof.Machine.execEvict id s
  | .resume id => Sys2Proof.Machine.execResume id s
  | .teamPlace launch team => Sys2Proof.Machine.execTeamPlace launch team s
  | .teamStart core => Sys2Proof.Machine.execTeamStart core s
  | .teamEnd core => Sys2Proof.Machine.execTeamEnd core s
  | .quantumExpiry core => Sys2Proof.Machine.execQuantumExpiry core s
  | .quantumGraceExpiry core => Sys2Proof.Machine.execQuantumGraceExpiry core s
  | .preemption core => Sys2Proof.Machine.execPreemption core s
  | .teamResume core => Sys2Proof.Machine.execTeamResume core s
  | .ceilingChange core vector matrix => Sys2Proof.Machine.execCeilingChange core vector matrix s
  | .residueMismatch core unit at_ => Sys2Proof.Machine.execResidueMismatch core unit at_ s
  | .deviceReset => Sys2Proof.Machine.execDeviceReset s
  | .bootRomVerify image => Sys2Proof.Machine.execBootRomVerify image s
  | .recoveryImageLoad image => Sys2Proof.Machine.execRecoveryImageLoad image s
  | .thermalTrip => Sys2Proof.Machine.execThermalTrip s
  | .flitReplay => Sys2Proof.Machine.execFlitReplay s
  | .moduleRetrainFail m => Sys2Proof.Machine.execModuleRetrainFail m s
  | .hostLinkDown => Sys2Proof.Machine.execHostLinkDown s
  | .viralReceived => Sys2Proof.Machine.execViralReceived s
  | .watchdogExpiry => Sys2Proof.Machine.execWatchdogExpiry s
  | .fatalError cause core detail => Sys2Proof.Machine.execFatalError cause core detail s
  | .accessTableUpdate target slot w0 w1 => Sys2Proof.Machine.execAccessTableUpdate target slot w0 w1 s
  | .attestationRequest nonce => Sys2Proof.Machine.execAttestationRequest nonce s
  | .eccCounterReadClear n => Sys2Proof.Machine.execEccCounterReadClear n s
  | .lostWriteCountReadClear queue => Sys2Proof.Machine.execLostWriteCountReadClear queue s
  | .faultRecordRead launch => Sys2Proof.Machine.execFaultRecordRead launch s
  | .errorLogRead => Sys2Proof.Machine.execErrorLogRead s
  | .laneDisableMaskReload core mask => Sys2Proof.Machine.execLaneDisableMaskReload core mask s
  | .dumpRead block => Sys2Proof.Machine.execDumpRead block s
  | .dumpClear => Sys2Proof.Machine.execDumpClear s
  | .issueOpportunity group => Sys2Proof.Machine.execIssueOpportunity group s
  | .powerDown => Sys2Proof.Machine.execPowerDown s
  | .hdmRangeDecode base => Sys2Proof.Machine.execHdmRangeDecode base s
  | .datagramRetransmit => Sys2Proof.Machine.execDatagramRetransmit s
  | .peerLinkUp port => Sys2Proof.Machine.execPeerLinkUp port s

end Sys2Proof.Machine
end

