-- ==== Sys2Proof/Machine/Run.lean ====
section
/-! DEFINITION. What a move does: a hart fetches and executes (R28, R104, R105, R394), an X-hart takes one element group of
an instruction (R50, R51), a block in progress runs its next word (R195), a sequencer its next micro-word (R317), an event
acts. -/

namespace Sys2Proof.Machine

/-! ## Time (R27) -/

/-- Core cycles that pass in a core at step n. -/
def cyclesOf (g n : Nat) : Word := BitVec.ofNat 64 (1 + Config.coreCycles g n)

/-- Core cycles pass in every core, in each at its own pace. -/
def passCycles (s : State) : State :=
  { s with
    ticks := s.ticks + 1
    core := { s.core with cycle := s.core.cycle + cyclesOf s.core.num s.ticks }
    others := s.others.map (fun c => { c with cycle := c.cycle + cyclesOf c.num s.ticks }) }

/-! ## Harts (R28, R72, R195, R253, R394) -/

/-- The instruction at the pc of the hart in focus, or the trap of its fetch. -/
def instrMove (s : State) : Out :=
  match fetchInstr s with
  | (s, .inl i) => exec i s
  | (s, .inr e) => fetchTrap s e

/-- The next word of a block in progress, or the commit of a group whose lanes have all finished (R195, R200). -/
def blockMove (b : Block) (s : State) : Out :=
  if b.fin then exec .elementGroupCommit s
  else
    match b.words[b.epc]? with
    | none => .next s
    | some w =>
      match decodeE w with
      | .instr i => exec i s
      | _ => .next s

/-- The hart in focus goes on with an instruction that an earlier move has left part-way. -/
def State.goesOn (s : State) : State := if s.xh || !s.a.paused then s else s.setA { s.a with paused := false }

/-- The instruction may execute before accesses that its hart's agents hold: it is no acquire, release or fence, hands
nothing over and waits for nothing (R219, R226, R228, R230). -/
def overtakes (i : Instr) : Bool :=
  let w := encodeC i
  let op := (fld w 24 8).toNat
  match i.form with
  | .compact => true
  | .slot => decide (op < 0x40) || ((decide (0x48 ≤ op ∧ op ≤ 0x51) || decide (0xA4 ≤ op ∧ op ≤ 0xAB)) && fld w 5 2 == 0#2)
  | _ => false

/-- An instruction that may overtake names a register among its operands: fields d, a and b as its opcode has them, of s
registers only where it has no f registers; a compact one also the register `l` of `ldst` (R57, R108, R113). -/
def names (l : Reg) (i : Instr) (d : RegDest) : Bool :=
  let w := encodeC i
  let op := (fld w 24 8).toNat
  let at_ := fun (n : Nat) => fld w n 5 == d.r
  match i.form with
  | .compact => !d.float && (l == d.r || (encodeK i).extractLsb' 6 5 == d.r || (encodeK i).extractLsb' 1 5 == d.r)
  | _ =>
    if op < 0x15 then !d.float && (at_ 19 || at_ 14 || at_ 9)
    else if op = 0x1D || op = 0x1E || op = 0x26 then !d.float && at_ 19
    else if op < 0x2B then !d.float && (at_ 19 || at_ 14)
    else if op = 0x2B || op = 0x2C then (if d.float then at_ 19 else at_ 14)
    else if op < 0x30 then at_ 19 || at_ 14
    else if op < 0x40 then at_ 19 || at_ 14 || at_ 9
    else if op < 0x52 then !d.float && (at_ 14 || at_ 9)
    else at_ 19 || at_ 14 || at_ 9

/-- Registers whose value the agents of the hart in focus still hold: of reads, and of atomics that have not performed. -/
def owedRegs (s : State) : List RegDest :=
  s.early.filterMap (fun e =>
    match e.dest with
    | some (.reg d) => if e.core == s.core.num && e.agent == s.scalarAgent then some d else none
    | _ => none) ++
  s.buf.flatMap (fun e =>
    match e.payload with
    | .atomic _ _ _ _ who => who.filterMap (fun c => if c.core == s.core.num && c.t == s.tnd then c.ret else none)
    | _ => [])

/-- An agent of the hart in focus holds a read. -/
def holdsRead (s : State) (e : Early) : Bool :=
  e.dest.isSome && e.core == s.core.num && (e.agent == s.scalarAgent || e.agent == s.vectorAgent)

/-- An entry returns a value to the hart in focus. -/
def returnsTo (s : State) (e : Entry) : Bool :=
  match e.payload with
  | .atomic _ _ _ _ who => who.any (fun c => c.core == s.core.num && c.t == s.tnd && c.ret.isSome)
  | _ => false

/-- The instruction at the pc of the hart in focus may pass what its agents hold, or they hold nothing. -/
def passesHeld (s : State) : Bool :=
  (!s.early.any (holdsRead s) && !s.buf.any (returnsTo s)) ||
    (match fetchInstr s with
      | (_, .inl i) => overtakes i && !(owedRegs s).any (names (s.h.ldst.extractLsb' 0 5) i)
      | _ => true)

/-- Everything that the agents of the hart in focus hold has executed, and its atomics have performed. -/
def settleHeld (s : State) : State :=
  performNow { s with early := s.early.filter (fun e => !holdsRead s e) } (returnsTo s)

/-- The A-hart in focus: a pending fault first, then a waiting completion, then its instruction, before which come the held
accesses that it may not pass. -/
def moveA (s : State) : Out :=
  match readyFault s with
  | some p => .next (s.takePending p)
  | none =>
    if s.h.halted then .next s
    else if userReady s then .next s.enterUser
    else if passesHeld s then instrMove s.goesOn
    else
      match nowHeld s (returnsTo s) with
      | [] => instrMove (settleHeld s).goesOn
      | l => (askSuspend s l).stall .word

/-- A lane group has taken the element group of the block in progress (R50). -/
def State.takenGroup (s : State) (b : Block) : State := s.setX { s.x with block := some { b with issued := true } }

/-- The X-hart in focus. -/
def moveX (s : State) : Out :=
  match s.x.block with
  | some b => blockMove b (s.takenGroup b)
  | none => instrMove s

/-- The part stands still: it has no power (R25, R26) or a fatal error is in force (R411). -/
def standsStill (s : State) : Bool := !s.powered || s.fatal.isSome

/-- The X-hart once it has left its instruction: a trap stopped a sweep, and any other end of it leaves no stop (R66). -/
def XHart.sweepOver (x : XHart) (trapped : Bool) : XHart := if trapped then x.stopSweep else { x with midway := false }

/-- Element groups that a move of the X-hart in focus of `s`, which leaves `r`, has taken (R50). -/
def groupsTaken (s r : State) : Nat :=
  let n := groupElems s.x.sew
  if r.x.h.priv != s.x.h.priv || r.fatal.isSome then 0
  else if s.x.block.isSome || r.x.block.isSome then 1
  else (if r.x.h.pc != s.x.h.pc then ceilDiv s.x.vl.toNat n else r.x.vstart.toNat / n) - s.x.vstart.toNat / n

/-- The opportunities of an X-hart that no other tandem competes with enter the rounds of the lane groups that took them.
Marked DESIGN CHOICE: the working ones in ascending order, each of them once. -/
def soloTurns (s r : State) : State :=
  if s.turn.isSome || !wantsLanes s then r
  else
    let m := groupsTaken s r
    let bit := BitVec.ofNat 4 (2 ^ s.tnd.val)
    let took := fun (g : Nat) => !r.core.laneOff.getLsbD g &&
      decide (((List.range g).filter (fun k => !r.core.laneOff.getLsbD k)).length < m)
    { r with core := { r.core with groups := Vector.ofFn (fun (g : Fin 8) =>
        let lg := r.core.groups[g]
        if took g.val then { lg with round := if lg.round.getLsbD s.tnd.val then bit else lg.round ||| bit } else lg) } }

/-- After a move of the X-hart in focus of `s`: the age of its instruction begins anew with its pc (R50), a sweep is over
(R66), and groups that have committed are no longer suspect (R397). -/
def xMoved (s r : State) : State :=
  let moved := r.x.h.pc != s.x.h.pc
  let r := soloTurns s (clearSuspects r r.tnd moved)
  if moved then
    r.setX { r.x.sweepOver (r.x.h.priv != s.x.h.priv) with decoded := if r.x.owed = 0 then r.core.cycle else r.x.decoded }
  else r

/-- One of the opportunities that the X-hart in focus still owes has come; after the last its next instruction is decoded. -/
def payTurn (s : State) (n : Nat) : State :=
  if s.x.owed = 0 then s
  else s.setX { s.x with
    owed := s.x.owed - n, decoded := if s.x.owed ≤ n && s.x.vstart == 0 then s.core.cycle else s.x.decoded }

/-- The X-hart in focus has an element group for a lane group, and an opportunity may go to another tandem first (R50). -/
def waitsTurn (s : State) : Bool := wantsLanes s && !mayIssue s

/-- An X-hart that waits for an opportunity stands still; if it had stalled and would stall no longer, it is ready from now
on. -/
def awaitTurn (s : State) : State :=
  if s.x.h.wait.isNone then s
  else
    match fetchInstr s with
    | (r, .inl i) =>
      match exec i r with
      | .next u => if u.x.h.wait.isSome && u.x.vstart == s.x.vstart then s else s.setH { s.h with wait := none }
      | _ => s
    | _ => s

/-- The hart in focus of `s` stands, after a move that leaves `r`, in an instruction that it has not ended: it stalls, or has
stopped between two groups, or runs a block. -/
def unfinished (s r : State) : Bool :=
  r.h.pc == s.h.pc && r.h.priv == s.h.priv &&
    (r.h.wait.isSome || (if s.xh then r.x.vstart != s.x.vstart || r.x.block.isSome else r.a.paused))

/-- The word that has been fetched serves on for an instruction that has not ended, and for the second half of a slot whose
first half has fallen through to it; any other instruction is fetched afresh (R105, R107, R115). -/
def keepWord (s r : State) : State :=
  if unfinished s r then r
  else
    r.setH { r.h with slot := (r.h.slot).bind (fun p =>
      if isKSlot p.2 && !p.1.getLsbD 1 && p.1 == s.h.pc && r.h.pc == p.1 + 2 then some (p.1 + 2, p.2) else none) }

/-- A move of a hart of core g. One of no resident team does nothing, and neither does an X-hart that has halted, nor a
hart of a team that its core cannot run any longer and that has still to leave it (R55, R143, R399). -/
def hartThen (g : Nat) (t : Fin 4) (x : Bool) (f : State → Out) (s : State) : Out :=
  if standsStill s || 1536 ≤ g then .next s
  else
    let s := (s.focus g).onHart t x
    if s.core.team.status != .resident || s.core.team.tandems ≤ t.val || !fitsCore s.core s.core.team || (x && s.h.halted) then
      .next s
    else if x && waitsTurn s then .next (awaitTurn s)
    else if x && decide (0 < s.x.owed) && s.turn.isSome then .next (payTurn s 1)
    else
      let s := if x then payTurn s s.x.owed else s
      match f s with
      | .next r => .next (keepWord s (if x then xMoved s r else r))
      | o => o

/-- The A-hart of tandem t of core g moves, and takes of its instruction no more than n element groups, entries or planes
(R51, R345). -/
def partMove (g : Nat) (t : Fin 4) (n : Nat) (s : State) : Out :=
  match hartThen g t false moveA { s with limit := some n } with
  | .next r => .next { r with limit := s.limit }
  | o => o

/-- The A-hart of tandem t of core g moves, and its agents hold what its instruction reads and returns (R219). -/
def holdingMove (g : Nat) (t : Fin 4) (s : State) : Out :=
  match hartThen g t false moveA { s with holds := true } with
  | .next r => .next { r with holds := s.holds }
  | o => o

/-- A hart of core g executes. -/
def hartMove (g : Nat) (t : Fin 4) (x : Bool) (s : State) : Out := hartThen g t x (if x then moveX else moveA) s

/-! ## Element groups (R50, R51, R265, R345) -/

/-- The instruction ran to its end: no trap and no stall. -/
def ranThrough (s r : State) : Bool := r.x.h.priv == s.x.h.priv && r.fatal.isNone && r.x.h.wait.isNone

/-- The element groups below `hi` of an instruction: it runs on a strip that ends there. An index of `vgath` still counts
against the whole strip. -/
def shortRun (i : Instr) (s : State) : Out :=
  let x := s.x
  let hi := (x.vstart.toNat / groupElems x.sew + 1) * groupElems x.sew
  let short := s.setX { x with vl := BitVec.ofNat 17 hi, tail := false }
  match i with
  | .vgath d a b k e kx v => .next (gather x.vl.toNat d a b k e kx (v == 1#2) short)
  | _ => exec i short

/-- An instruction that sweeps the dimension registers (R149, R162). -/
def sweeps : Instr → Bool
  | .vmv _ _ _ _ _ v => v == 1#2
  | _ => false

/-- The hart stands at element `hi` of an instruction that has not ended, of which `r` holds the groups below: `vstart` is
there, and `ldst` is as before (R51, R66, R70). -/
def standAt (i : Instr) (s r : State) (hi : Nat) : State :=
  let x := s.x
  r.setX { r.x with
    vl := x.vl, tail := x.tail, vstart := BitVec.ofNat 17 hi, midway := sweeps i
    h := { r.x.h with pc := x.h.pc, ldst := x.h.ldst } }

/-- The next element group of an instruction, or the next rank-1 step of `mopa`, or the next entry of `vpop` and `vpush`;
an instruction that has no more than that, or that does not stop part-way, or that traps or stalls, executes. -/
def groupInstr (i : Instr) (s : State) : Out :=
  let x := s.x
  let n := groupElems x.sew
  let c := s.perReg x.sew
  let m := x.vstart.toNat / max c 1
  match exec i s with
  | .next r =>
    if r.x.h.priv != x.h.priv || r.fatal.isSome then .next r
    else
      match i with
      | .vpop d a k => if (m + 1) * c < x.vl.toNat then popEntries d a k 1 m (s.setH { s.h with wait := none }) else .next r
      | .vpush d a k => if (m + 1) * c < x.vl.toNat then pushEntries d a k 1 m (s.setH { s.h with wait := none }) else .next r
      | .mopa d a b f g =>
        let t := stopMopa d a b f g (x.vstart.toNat / 128 + 1) s
        .next (if ranThrough s r && t.x.vstart != x.vstart then t.setH { t.h with wait := none } else r)
      | _ =>
        if ranThrough s r && byGroups x i && decide ((x.vstart.toNat / n + 1) * n < x.vl.toNat) then
          match shortRun i s with
          | .next t => .next (standAt i s t ((x.vstart.toNat / n + 1) * n))
          | o => o
        else .next r
  | o => o

/-- Element groups of what `groupInstr` takes of an instruction at a time: one of an instruction that works by groups or of a
block, those of an entry of `vpop` and `vpush`, and those of the strip of any other vector instruction. -/
def takenGroups (i : Instr) (s : State) : Nat :=
  let x := s.x
  let n := groupElems x.sew
  let c := max (s.perReg x.sew) 1
  let upTo := fun (hi : Nat) => ceilDiv (min hi x.vl.toNat) n - x.vstart.toNat / n
  match i with
  | .vpop _ _ _ => upTo ((x.vstart.toNat / c + 1) * c)
  | .vpush _ _ _ => upTo ((x.vstart.toNat / c + 1) * c)
  | .vfetch _ _ _ _ _ _ _ => 1
  | _ => if byGroups x i || !laneInstr i then 1 else upTo x.vl.toNat

/-- The X-hart takes what an issue opportunity begins, one element group of it by this opportunity and each other by one more
(R50). -/
def groupTurn (i : Instr) (s : State) : Out :=
  match groupInstr i s with
  | .next r =>
    .next (if s.turn.isSome && ranThrough s r then r.setX { r.x with owed := takenGroups i s - 1 } else r)
  | o => o

/-- The X-hart in focus takes one element group. -/
def moveGroup (s : State) : Out :=
  match s.x.block with
  | some b => blockMove b (s.takenGroup b)
  | none =>
    match fetchInstr s with
    | (s, .inl i) => groupTurn i s
    | (s, .inr e) => fetchTrap s e

/-- An X-hart of core g takes one element group. -/
def groupMove (g : Nat) (t : Fin 4) (s : State) : Out := hartThen g t true moveGroup s

/-! ## Sequencers (R317, R326, R411) -/

/-- What has begun to end in a channel goes to its end, unless a row step is open there (R326, R333), else the kernel that
its sequencer runs takes its next micro-word, read at home (R317, R329). A fatal error lets an open row step run on to its
boundary. -/
def sequencerMove (ch : Nat) (s : State) : Out :=
  let s := { s with gch := ch }
  match (if standsStill s || (runningKernel s ch).any (·.inStep) then none else endMove s ch), runningKernel s ch with
  | some t, _ => .next t
  | none, none => .next s
  | none, some k =>
    if !s.powered || (s.fatal.isSome && !k.inStep) then .next s
    else
      match fetchMicro s ch k with
      | .held l => .next (askSuspend s l)
      | .poison => .next (abandonKernel s ch 0 0x0406#16 k)
      | .word w =>
        match decodeG w with
        | .instr i => exec i s
        | _ => .next s

/-! ## Events -/

/-- The event may happen as the part stands: without power only a reset ends that (R25, R26), and a fatal error leaves
those of the host and the security controller (R411). -/
def mayHappen (s : State) (i : Instr) : Bool :=
  if !s.powered then i == .deviceReset
  else s.fatal.isNone || movesInFatal i

/-- A step of the device that no word names, seen from core g. -/
def eventMove (g : Nat) (i : Instr) (s : State) : Out :=
  if i.form != .event || !mayHappen s i || 1536 ≤ g then .next s
  else exec i (s.focus g)

/-- One move. -/
def moveOf (m : Move) (s : State) : Out :=
  match m with
  | .hart g t x => hartMove g t x s
  | .group g t => groupMove g t s
  | .part g t n => partMove g t n s
  | .holding g t => holdingMove g t s
  | .sequencer ch => sequencerMove ch s
  | .event g i => eventMove g i s

/-- What an `EXECUTE` found uncorrectable counts for the read of the next move only. -/
def keepsFresh : Move → Bool
  | .event _ (.execute _ _ _ _ _) => true
  | _ => false

/-- An issue opportunity is for the next move. -/
def givesTurn : Move → Bool
  | .event _ (.issueOpportunity _) => true
  | _ => false

/-- What a move leaves: the granules found by an earlier `EXECUTE` are plain poison (R375, R388), and an opportunity has been
taken (R50). -/
def afterMove (m : Move) (r : State) : State :=
  { r with fresh := if keepsFresh m then r.fresh else [], turn := if givesTurn m then r.turn else none }

/-- One move. -/
def runMove (m : Move) (s : State) : Out :=
  match moveOf m s with
  | .next r => .next (afterMove m r)
  | o => o

/-- The next choice and the state without it: with none left, the hart in focus. -/
def takeChoice (s : State) : Move × State :=
  match s.sched with
  | m :: l => (m, { s with sched := l })
  | [] => (.hart s.core.num s.tnd s.xh, s)

/-! ## Placing a word where the next step fetches it -/

/-- Virtual and physical address of the page that holds a placed word. -/
def placedPage : Nat := 0x10000

/-- A leaf of kind hbm on die 0 that maps the page to itself and grants all to user and system. -/
def placedLeaf (s : State) : TlbEntry where
  die := dieOf s.core.num
  root := s.core.team.root
  base := placedPage
  size := 4096
  w0 := BitVec.ofNat 64 (placedPage + 0x3C3)
  w1 := 0

/-- Whether the word is one that only an X-hart issues (R112, R114). -/
def needsX (w : BitVec 32) : Bool :=
  if isKSlot w then
    match decodeSlot w false with
    | .instr i => laneInstr i
    | _ => false
  else !opcodeOn (fld w 24 8) false

/-- A core whose every unit works, and which has fetched nothing yet. -/
def placedCore (c : Core) : Core := { c with laneOff := 0, mxOff := false, code := [] }

/-- The team of the core in focus made resident, in no domain that a table could refuse. -/
def placedTeam (t : Team) (n : Fin 4) : Team :=
  { t with
    status := .resident, domain := 0xFFFF#16, tandems := max t.tandems (n.val + 1), w := if t.w = 0 || 8 < t.w then 8 else t.w }

/-- The hart in focus at the placed word, waiting for nothing. -/
def State.atPlaced (s : State) : State :=
  let s := s.setH { s.h with pc := BitVec.ofNat 64 placedPage, halted := false, wait := none, slot := none }
  if s.xh then s.setX { s.x with block := none, owed := 0 } else s.setA { s.a with pend := [], done := [] }

/-- The word in memory, its page mapped, and the hart that can issue it about to move. -/
def placeWord (s : State) (w : BitVec 32) : State :=
  let s := { s with xh := needsX w }
  let s := ({ s with core := placedCore s.core }.setTeam (placedTeam s.core.team s.tnd)).atPlaced
  { s with
    powered := true, fatal := none, limit := none, holds := false, turn := some (s.core.num, s.tnd)
    poison := s.poison.filter (fun a => a != placedPage)
    mem := s.mem.writeAll (cellsAt placedPage (bytesOf 4 (w.setWidth 64)))
    tlb := placedLeaf s :: s.tlb, miss := none
    sched := .hart s.core.num s.tnd s.xh :: s.sched }

end Sys2Proof.Machine
end

