-- ==== Sys2Proof/Machine/Step.lean ====
section
/-! DEFINITION. One step of the part, and the placing of an instruction for the next step. -/

namespace Sys2Proof.Machine

/-- One step: core cycles pass and the next choice moves. A part without power, with no choice left, has stopped. -/
def step (s : State) : Host.Outcome State Fault Refusal :=
  if !s.powered && s.sched.isEmpty then .fault .unpowered
  else
    let c := takeChoice (passCycles s)
    runMove c.1 c.2

/-- The instruction word `w` stands where the next step fetches. Every row of the table with bits is one 32-bit word, so
`nbits` tells nothing more. -/
def State.withFetchWord (s : State) (nbits w : Nat) : State :=
  placeWord s (BitVec.ofNat 32 (w % 2 ^ max nbits 1))

end Sys2Proof.Machine
end

