-- ==== Sys2Proof/Certificates/Slice0/Obligations.lean ====
section
/-! DEFINITION. The statements: what the rules of the spec say the part does, one `Obligations` proposition each. -/

namespace Sys2Proof.Claims

open Sys2Proof.Machine

/-! ## What the statements are made of -/

/-- The instruction completes: s[d] takes a value and the hart goes on `n` bytes further. -/
def WritesS (i : Instr) (s : State) (d : Reg) (v : Word) : Prop := exec i s = .next ((s.setS d v).bump 4)

/-- The same, from the state `t` that the accesses of the instruction have left. -/
def WritesOn (t : State) (i : Instr) (s : State) (d : Reg) (v : Word) : Prop := exec i s = .next ((t.setS d v).bump 4)

/-- The instruction completes: f[d] takes a value of a format, boxed, and flags accumulate. -/
def WritesFp (i : Instr) (s : State) (d : Reg) (f : Fmt) (r : Word × Flags) : Prop :=
  exec i s = .next (((s.setF d (boxed f.width r.1)).raise r.2).bump 4)

/-- The instruction completes as a branch: to a target when the condition holds, else to the next instruction. -/
def Branches (i : Instr) (s : State) (c : Prop) [Decidable c] (target : Word) : Prop :=
  exec i s = .next (if c then s.jump target else s.bump 4)

/-- pc + 2 x offset. -/
def halves {n : Nat} (s : State) (o : BitVec n) : Word := BitVec.ofInt 64 (s.pc.toInt + 2 * o.toInt)

/-- The place and the bytes of a read that meets no refusal, no empty line and no poison, and the state after it. -/
def readable (s : State) (ag : Agent) (q : Ask) (va : Word) (n : Nat) : Option (State × Place × List Byte) :=
  if va.toNat % n = 0 then
    match translate s s.who q va n with
    | .ok p =>
      match readMove s s.core.num ag (span p.key n) with
      | (t, .bytes l) => some (t, p, l)
      | _ => none
    | .error _ => none
  else none

/-- The place of a write that meets no refusal and no operand guard. -/
def writable (s : State) (q : Ask) (va : Word) (n : Nat) : Option Place :=
  if va.toNat % n = 0 then
    match translate s s.who q va n with
    | .ok p => if scratchCore? p.key == some s.core.num && guarded s (span p.key n) then none else some p
    | .error _ => none
  else none

/-- The instruction is refused as illegal with a cause of R119: the hart traps, or at privilege system a fatal error
follows. -/
def Illegal (i : Instr) (s : State) (cause : Nat) : Prop :=
  exec i s = .next (s.takeTrap (causeWord 1 cause 0) 0 s.ir s.pc)

/-- The access at `va` is refused with a class, a code and an access kind, and nothing else of the instruction happens. -/
def Refuses (i : Instr) (s : State) (cls code acc : Nat) (va : Word) : Prop :=
  exec i s = .next ((noteRefusal s s.who cls va).takeTrap (causeWord cls code acc) va va s.pc)

/-- A write at `va` meets the operand guard, and nothing else of the instruction happens (R271, R375). -/
def Guarded (i : Instr) (s : State) (acc : Nat) (va : Word) : Prop :=
  exec i s = .next (s.takeTrap (causeWord 10 0 acc) va (va &&& 0xFFFFFFFFFFFFFF80) s.pc)

/-- The hart stalls: nothing of the instruction has happened. -/
def Stalls (i : Instr) (s : State) (w : Wait) : Prop := exec i s = .next (s.setH { s.h with wait := some w })

/-- t with the hart in focus, and the shadows, put back as they stand in s. -/
def putBack (s t : State) : State := (t.setH s.h).setA { (t.setH s.h).a with shadow := s.a.shadow }

/-- Only s[d], `ldst`, the pc, the stall and, where `flags`, `iflags.idiv` may differ; every byte of memory reads as
before. -/
def FrameS (flags : Bool) (d : Reg) (s t : State) : Prop :=
  (∀ r, r ≠ d → t.getS r = s.getS r) ∧
  t.h = { s.h with
    s := t.h.s, ldst := t.h.ldst, pc := t.h.pc, wait := t.h.wait, iflags := if flags then t.h.iflags else s.h.iflags } ∧
  putBack s t = s ∧ ∀ a, t.mem.read a = s.mem.read a

/-- Only f[d], `ldst`, the pc, the stall and the sticky `fflags` may differ. -/
def FrameF (d : Reg) (s t : State) : Prop :=
  (∀ r, r ≠ d → t.getF r = s.getF r) ∧
  t.h = { s.h with f := t.h.f, ldst := t.h.ldst, pc := t.h.pc, wait := t.h.wait, fflags := t.h.fflags } ∧
  (t.h.fflags &&& s.h.fflags) = s.h.fflags ∧ t.setH s.h = s ∧ ∀ a, t.mem.read a = s.mem.read a

/-- The scalar instructions that write one s register and read none but s registers, with that register. -/
def destS : Instr → Option Reg
  | .add d _ _ | .sub d _ _ | .and d _ _ | .or d _ _ | .xor d _ _ | .sll d _ _ | .srl d _ _ | .sra d _ _
  | .slt d _ _ | .sltu d _ _ | .min d _ _ | .minu d _ _ | .max d _ _ | .maxu d _ _ | .mul d _ _ | .mulh d _ _
  | .mulhu d _ _ | .div d _ _ | .divu d _ _ | .rem d _ _ | .remu d _ _ | .addi d _ _ | .andi d _ _ | .ori d _ _
  | .xori d _ _ | .slti d _ _ | .slli d _ _ | .srli d _ _ | .srai d _ _ | .lui d _ | .aupc d _ | .bop d _ _
  | .jal d _ | .jalr d _ _ | .vgrant d => some d
  | _ => none

/-- Of these, the ones that may set `iflags.idiv`. -/
def divides : Instr → Bool
  | .div _ _ _ | .divu _ _ _ | .rem _ _ _ | .remu _ _ _ => true
  | _ => false

/-- The scalar instructions that write one f register, with that register. -/
def destF : Instr → Option Reg
  | .fadd d _ _ _ | .fsub d _ _ _ | .fmul d _ _ _ | .fdiv d _ _ _ | .fsqrt d _ _ | .fma d _ _ _ | .fms d _ _ _
  | .fmin d _ _ _ | .fmax d _ _ _ | .fsgn d _ _ _ | .fcvtif d _ _ | .fcvtff d _ _ _ => some d
  | _ => none

end Sys2Proof.Claims

open Sys2Proof Sys2Proof.Machine Sys2Proof.Claims

/-! ## Registers and scalar arithmetic -/

/-- R122: division never traps; its two edge cases give the values of the table and set `iflags.idiv` of the issuing
hart, and every other division rounds toward zero and leaves the flag. -/
def Obligations.DivisionEdges : Prop :=
  ∀ (s : State) (d a b : Reg),
    let x := s.getS a
    let y := s.getS b
    let wraps := x.toInt = -2 ^ 63 ∧ y.toInt = -1
    let answer := fun (v : Word) (edge : Bool) =>
      Host.Outcome.next (ρ := Refusal) (φ := Fault)
        (((s.setS d v).setH { (s.setS d v).h with iflags := s.h.iflags || edge }).bump 4)
    exec (.div d a b) s = answer
      (if y.toInt = 0 then 0xFFFFFFFFFFFFFFFF else if wraps then BitVec.ofInt 64 (-2 ^ 63)
        else BitVec.ofInt 64 (x.toInt.tdiv y.toInt)) (y.toInt = 0 || wraps) ∧
    exec (.rem d a b) s = answer
      (if y.toInt = 0 then x else if wraps then 0
        else BitVec.ofInt 64 (x.toInt - y.toInt * x.toInt.tdiv y.toInt)) (y.toInt = 0 || wraps) ∧
    exec (.divu d a b) s = answer
      (if y.toNat = 0 then 0xFFFFFFFFFFFFFFFF else BitVec.ofNat 64 (x.toNat / y.toNat)) (y.toNat = 0) ∧
    exec (.remu d a b) s = answer
      (if y.toNat = 0 then x else BitVec.ofNat 64 (x.toNat - y.toNat * (x.toNat / y.toNat))) (y.toNat = 0)

/-- R123: the words of `bop`, whose field b must be 0, and what it does by its variant. The value that `.clz` writes
is c with exactly c leading zeros, that of `.ctz` likewise from the low end, `.cpop` counts, and `.brev` moves bit i
to bit 63 - i. -/
def Obligations.BitOperations : Prop :=
  ∀ (s : State) (d a b : Reg) (v : BitVec 2),
    let x := s.getS a
    decodeC (0x1F#8 ++ d ++ a ++ 0#5 ++ 0#7 ++ v) = .instr (.bop d a v) ∧
    (b ≠ 0 → decodeC (0x1F#8 ++ d ++ a ++ b ++ 0#7 ++ v) = .reserved 0x1F) ∧
    (∃ c : Nat, c ≤ 64 ∧ WritesS (.bop d a 0) s d (BitVec.ofNat 64 c) ∧
      (∀ j < c, x.getLsbD (63 - j) = false) ∧ (c < 64 → x.getLsbD (63 - c) = true)) ∧
    (∃ c : Nat, c ≤ 64 ∧ WritesS (.bop d a 1) s d (BitVec.ofNat 64 c) ∧
      (∀ j < c, x.getLsbD j = false) ∧ (c < 64 → x.getLsbD c = true)) ∧
    WritesS (.bop d a 2) s d (BitVec.ofNat 64 ((List.range 64).countP (fun j => x.getLsbD j))) ∧
    (∃ v : Word, WritesS (.bop d a 3) s d v ∧ ∀ i < 64, v.getLsbD (63 - i) = x.getLsbD i)

/-- R121: the results of the integer operations that raise no flag, each on s[a] and s[b]. R124 and R125: the
immediate operations and the two that build constants. R126 and R127: a branch goes to pc + 2 x offset when its
condition holds and else falls through; a jump writes pc + 4 and goes to its target, whose bit 0 is cleared; `jalr`
reads s[a] first. -/
def Obligations.ScalarResults : Prop :=
  (∀ (s : State) (d a b : Reg),
     let x := s.getS a
     let y := s.getS b
     WritesS (.add d a b) s d (BitVec.ofNat 64 (x.toNat + y.toNat)) ∧
     WritesS (.sub d a b) s d (BitVec.ofInt 64 (x.toInt - y.toInt)) ∧
     WritesS (.and d a b) s d (x &&& y) ∧
     WritesS (.or d a b) s d (x ||| y) ∧
     WritesS (.xor d a b) s d (x ^^^ y) ∧
     WritesS (.sll d a b) s d (BitVec.ofNat 64 (x.toNat * 2 ^ (y.toNat % 64))) ∧
     WritesS (.srl d a b) s d (BitVec.ofNat 64 (x.toNat / 2 ^ (y.toNat % 64))) ∧
     WritesS (.sra d a b) s d (BitVec.ofInt 64 (x.toInt / 2 ^ (y.toNat % 64))) ∧
     WritesS (.slt d a b) s d (if x.toInt < y.toInt then 1 else 0) ∧
     WritesS (.sltu d a b) s d (if x.toNat < y.toNat then 1 else 0) ∧
     WritesS (.min d a b) s d (BitVec.ofInt 64 (if x.toInt ≤ y.toInt then x.toInt else y.toInt)) ∧
     WritesS (.minu d a b) s d (BitVec.ofNat 64 (if x.toNat ≤ y.toNat then x.toNat else y.toNat)) ∧
     WritesS (.max d a b) s d (BitVec.ofInt 64 (if x.toInt ≤ y.toInt then y.toInt else x.toInt)) ∧
     WritesS (.maxu d a b) s d (BitVec.ofNat 64 (if x.toNat ≤ y.toNat then y.toNat else x.toNat)) ∧
     WritesS (.mul d a b) s d (BitVec.ofInt 64 (x.toInt * y.toInt)) ∧
     WritesS (.mulh d a b) s d (BitVec.ofInt 64 (x.toInt * y.toInt / 2 ^ 64)) ∧
     WritesS (.mulhu d a b) s d (BitVec.ofNat 64 (x.toNat * y.toNat / 2 ^ 64))) ∧
  (∀ (s : State) (d a : Reg) (i : BitVec 14) (n : BitVec 6) (j : BitVec 19),
     let x := s.getS a
     WritesS (.addi d a i) s d (BitVec.ofInt 64 (x.toInt + i.toInt)) ∧
     WritesS (.andi d a i) s d (x &&& BitVec.ofInt 64 i.toInt) ∧
     WritesS (.ori d a i) s d (x ||| BitVec.ofInt 64 i.toInt) ∧
     WritesS (.xori d a i) s d (x ^^^ BitVec.ofInt 64 i.toInt) ∧
     WritesS (.slti d a i) s d (if x.toInt < i.toInt then 1 else 0) ∧
     WritesS (.slli d a n) s d (BitVec.ofNat 64 (x.toNat * 2 ^ n.toNat)) ∧
     WritesS (.srli d a n) s d (BitVec.ofNat 64 (x.toNat / 2 ^ n.toNat)) ∧
     WritesS (.srai d a n) s d (BitVec.ofInt 64 (x.toInt / 2 ^ n.toNat)) ∧
     WritesS (.lui d j) s d (BitVec.ofInt 64 (j.toInt * 2 ^ 13)) ∧
     WritesS (.aupc d j) s d (BitVec.ofInt 64 (s.pc.toInt + j.toInt * 2 ^ 13))) ∧
  (∀ (s : State) (d a b : Reg) (o : BitVec 14) (j : BitVec 19),
     let x := s.getS a
     let y := s.getS b
     Branches (.beq a b o) s (x = y) (halves s o) ∧
     Branches (.bne a b o) s (x ≠ y) (halves s o) ∧
     Branches (.blt a b o) s (x.toInt < y.toInt) (halves s o) ∧
     Branches (.bge a b o) s (y.toInt ≤ x.toInt) (halves s o) ∧
     Branches (.bltu a b o) s (x.toNat < y.toNat) (halves s o) ∧
     Branches (.bgeu a b o) s (y.toNat ≤ x.toNat) (halves s o) ∧
     exec (.jal d j) s = .next ((s.setS d (s.pc + 4)).jump (halves s j)) ∧
     exec (.jalr d a o) s = .next ((s.setS d (s.pc + 4)).jump (BitVec.ofInt 64 (x.toInt + o.toInt))))

/-- R59 and R70: s0 reads as zero, a write to it is discarded, every other s register reads the value written last,
and `ldst` names the register written, s0 included. R105 and R128: what a transfer and a completed word do to the pc,
whose bit 0 stays 0 once it is. -/
def Obligations.ScalarRegisters : Prop :=
  (∀ (s : State) (d r : Reg) (v : Word),
     s.getS 0 = 0 ∧
     (s.setS d v).getS r = (if r = 0 then 0 else if r = d then v else s.getS r) ∧
     (s.setF d v).getF r = (if r = d then v else s.getF r) ∧
     (s.setS d v).getF r = s.getF r ∧ (s.setF d v).getS r = s.getS r ∧
     (s.setS d v).h.ldst = (0#2 ++ d) ∧ (s.setF d v).h.ldst = (1#2 ++ d) ∧
     (s.setS 0 v).setH { (s.setS 0 v).h with ldst := s.h.ldst } = s) ∧
  (∀ (s : State) (t : Word),
     (s.jump t).pc = t &&& 0xFFFFFFFFFFFFFFFE ∧ (s.bump 4).pc = s.pc + 4 ∧ (s.bump 2).pc = s.pc + 2 ∧
     (s.jump t).pc.getLsbD 0 = false ∧ (s.pc.getLsbD 0 = false → (s.bump 4).pc.getLsbD 0 = false) ∧
     (s.jump t).setH s.h = s ∧ (s.bump 4).setH s.h = s)

/-! ## Scalar floating point -/

/-- R135 to R138: each scalar floating-point instruction completes with the result and the flags of the operation its
entry names, under the hart's `frm`; a narrower result has ones above it. R138: the magnitude of a and the sign of b
or its inverse, bit by bit, and one class bit of ten. It rests on choices and inferences of the model: log entry 35.
-/
def Obligations.ScalarFloat : Prop :=
  (∀ (s : State) (d a b : Reg) (w : Bool) (v : BitVec 2) (c t : BitVec 2),
     let m := Rnd.ofFrm s.h.frm
     let k : BitVec 2 := if w then 1 else 0
     let f := if w then Fmt.fp64 else Fmt.fp32
     let x := s.getF a
     let y := s.getF b
     let g := if v.getLsbD 0 then Fmt.fp64 else .fp32
     let r := fpToInt g m (!v.getLsbD 1) 64 x
     WritesFp (.fadd d a b k) s d f (fpAdd f m x y) ∧
     WritesFp (.fsub d a b k) s d f (fpSub f m x y) ∧
     WritesFp (.fmul d a b k) s d f (fpMul f m x y) ∧
     WritesFp (.fdiv d a b k) s d f (fpDiv f m x y) ∧
     WritesFp (.fsqrt d a k) s d f (fpSqrt f m x) ∧
     WritesFp (.fma d a b k) s d f (fpFma f m x y (s.getF d) false) ∧
     WritesFp (.fms d a b k) s d f (fpFma f m x y (s.getF d) true) ∧
     WritesFp (.fmin d a b k) s d f (fpMinMax f false x y) ∧
     WritesFp (.fmax d a b k) s d f (fpMinMax f true x y) ∧
     exec (.fcmp d a b v) s = .next (((s.setS d (if (fpCompare .fp64 v x y).1 then 1 else 0)).raise
       (fpCompare .fp64 v x y).2).bump 4) ∧
     exec (.fcvtfi d a v) s = .next (((s.setS d (BitVec.ofInt 64 r.1)).raise r.2).bump 4) ∧
     WritesFp (.fcvtif d a v) s d g
       (intToFp g m (if v.getLsbD 1 then ((s.getS a).toNat : Int) else (s.getS a).toInt)) ∧
     (c ≠ t → WritesFp (.fcvtff d a c t) s d (cvtFmt t) (fpConvert (cvtFmt c) (cvtFmt t) m x)) ∧
     (c = t → Illegal (.fcvtff d a c t) s 6) ∧
     exec (.fmvfx d a 0) s = .next ((s.setS d x).bump 4) ∧
     exec (.fmvfx d a 1) s = .next ((s.setF d (s.getS a)).bump 4) ∧
     exec (.fsgn d a b v) s = .next ((s.setF d (boxed (if v.getLsbD 1 then 64 else 32)
       (copySign (if v.getLsbD 1 then .fp64 else .fp32) (v.getLsbD 0) x y))).bump 4) ∧
     WritesS (.fclass d a k) s d (classMask f x)) ∧
  (∀ (inv : Bool) (x y : Word) (f : Fmt), f = .fp32 ∨ f = .fp64 →
     (∀ i < f.width - 1, (copySign f inv x y).getLsbD i = x.getLsbD i) ∧
     (copySign f inv x y).getLsbD (f.width - 1) = (y.getLsbD (f.width - 1) != inv) ∧
     ∃ k : Nat, k < 10 ∧ classMask f x = BitVec.ofNat 64 (2 ^ k))

/-- R59, R68, R70, R121, R122, R127, R135, R137, R138 and R147: the frames of the integer instructions (R121), of
division (R122), of `jal` and `jalr` (R127), of `vgrant` (R147) and of the instructions that write one f register
(R135, R137, R138): every other register, every flag that the instruction does not name (R68) and every byte of memory
stay. -/
def Obligations.ScalarFrame : Prop :=
  (∀ (i : Instr) (d : Reg) (s t : State), destS i = some d → exec i s = .next t → FrameS (divides i) d s t) ∧
  (∀ (i : Instr) (d : Reg) (s t : State), destF i = some d → i.wf = true → exec i s = .next t → FrameF d s t)

/-! ## Queues, grants and strips -/

/-- R132 to R134 and R61: a push to a head that is not full adds one entry at its end, a pop from one that is not
empty removes the oldest, and `qbr` branches on it; a head of the other direction is illegal, and a full or an empty
head stalls with nothing done. -/
def Obligations.ScalarQueues : Prop :=
  ∀ (s : State) (d a : Reg) (o : BitVec 10) (w : Word) (l : List Word),
    let outgoing := if s.xh then s.td.q7 else s.td.q6
    let incoming := if s.xh then s.td.q6 else s.td.q7
    let withOut := fun (q : List Word) =>
      s.setTd (if s.xh then { s.td with q7 := q } else { s.td with q6 := q })
    let withIn := fun (q : List Word) =>
      s.setTd (if s.xh then { s.td with q6 := q } else { s.td with q7 := q })
    let outName : Reg := if s.xh then 7 else 6
    let inName : Reg := if s.xh then 6 else 7
    (outgoing.length < 16 →
      exec (.qpush outName a 0) s = .next ((withOut (outgoing ++ [s.getS a])).bump 4) ∧
      exec (.qpush outName a 1) s = .next ((withOut (outgoing ++ [s.getF a])).bump 4) ∧
      exec (.qpush outName a 2) s = .next ((withOut (outgoing ++ [if s.getS a ≠ 0 then 1 else 0])).bump 4)) ∧
    (outgoing.length = 16 → ∀ v : BitVec 2, v ≠ 3 → Stalls (.qpush outName a v) s .queue) ∧
    (incoming = w :: l →
      exec (.qpop d inName 0) s = .next (((withIn l).setS d w).bump 4) ∧
      exec (.qpop d inName 1) s = .next (((withIn l).setF d w).bump 4) ∧
      exec (.qbr inName o 0) s = .next (if w ≠ 0 then (withIn l).jump (halves s o) else (withIn l).bump 4) ∧
      exec (.qbr inName o 1) s = .next (if w = 0 then (withIn l).jump (halves s o) else (withIn l).bump 4)) ∧
    (incoming = [] → ∀ v : BitVec 2, v.toNat < 2 →
      Stalls (.qpop d inName v) s .queue ∧ Stalls (.qbr inName o v) s .queue) ∧
    (∀ h : Reg, h ≠ outName → Illegal (.qpush h a 0) s 6) ∧
    (∀ h : Reg, h ≠ inName → Illegal (.qpop d h 0) s 6 ∧ Illegal (.qbr h o 0) s 6)

namespace Sys2Proof.Claims

/-- Limiter 5's word where the application is chained (R40): the state after the acquiring read, which executes at the
evaluation (R43), and the word. None where the read meets a refusal, an empty line or poison. -/
def highWater (s : State) : Option (State × Option Word) :=
  match s.a.app with
  | none => some (s, none)
  | some app =>
    if app.hw = 0 then some (s, none)
    else
      match readable (forgetEarly s s.core.num [s.scalarAgent]) s.scalarAgent Ask.load app.hw 8 with
      | some (t, _, l) =>
        some (forgetEarly (forgetEarly t t.core.num [t.scalarAgent]) t.core.num [t.vectorAgent], some (wordOf l))
      | none => none

/-- No home holds up a releasing store at a place (R271, R324). -/
def releasable (s : State) (p : Place) (sc : BitVec 2) (n : Nat) : Prop :=
  enterHeld s s.core.num s.scalarAgent (effScope s.core.num p sc) (span p.key n) = [] ∧
  releaseHeld s s.core.num [s.scalarAgent] (effScope s.core.num p sc) = []

/-- A releasing store at a place: the release, then the store at its own S point (R225, R244). -/
def releasing (s : State) (p : Place) (sc : BitVec 2) (bytes : List Byte) : State :=
  let r := releaseMove s s.core.num [s.scalarAgent] (effScope s.core.num p sc)
  enterAt (nextSerial r) r.core.num r.scalarAgent (effScope r.core.num p sc) (.bytes (cellsAt p.key bytes))

/-- The state in which a grant of the A-hart has been made (R42, R45, R47, R145, R146). -/
def granted (s : State) (gr : Grant) (d : Reg) : State :=
  let s := s.setTd { s.td with gq := s.td.gq ++ [gr], q := s.td.q.map (fun l => l.filter (fun e => !e.fill)) }
  let s := s.setA { s.a with
    n := gr.n, sew := gr.sew, group := gr.group, vrows := gr.rows, vcols := gr.cols, vm := VMem.idle
    stalled := if s.a.stalled = some s.pc then none else s.a.stalled
    app := s.a.app.map (fun app => { app with p := app.p + gr.n.toNat })
    h := { s.a.h with glim := gr.mask, strip := s.a.h.strip + (if gr.n = 0 then 0 else 1) } }
  (s.setS d ((if gr.two then gr.rows else gr.n).setWidth 64)).bump 4

/-- The state in which the X-hart has taken the oldest entry of the grant queue (R45, R47). -/
def taken (s : State) (gr : Grant) (rest : List Grant) (d : Reg) : State :=
  let s := s.setTd { s.td with gq := rest }
  let s := s.setX { s.x with
    vl := gr.n, vrows := gr.rows, vcols := gr.cols, two := gr.two, sew := gr.sew, group := gr.group
    h := { s.x.h with glim := gr.mask, strip := s.x.h.strip + (if gr.n = 0 then 0 else 1) } }
  (s.setS d ((if gr.two then gr.rows else gr.n).setWidth 64)).bump 4

end Sys2Proof.Claims

/-- R39, R44, R45 and R144: with room in the grant queue and no expired quantum, the A-hart's grant instructions make
the grant that the limiters allow; the X-hart's take the oldest entry as it is; an empty queue stalls the X-hart. R39:
a grant exceeds no limiter that is present, is a whole number of element groups unless it is the whole of the
remaining length, and is 0 only where nothing remains. It rests on choices and inferences of the model: log entries 40
and 71. -/
def Obligations.Grants : Prop :=
  (∀ (s t : State) (d a b : Reg) (g e : BitVec 2) (h : Option Word) (raw n : Nat) (m : BitVec 7) (gr : Grant)
       (rest : List Grant),
     (s.xh = false → s.core.expired = false → t.td.gq.length < 8 →
       (highWater s = some (t, h) → grant1 t (t.getS a).toNat g e h = (raw, some (n, m)) →
         exec (.setvl d a g e) s = .next (granted t
           { two := false, n := BitVec.ofNat 17 n, rows := 1, cols := BitVec.ofNat 17 n, sew := e, group := g, mask := m } d)) ∧
       (highWater s = some (t, h) → grant1 t (t.getS a).toNat g e h = (raw, none) → streamFaultAt t raw = none →
         exec (.setvl d a g e) s = .next ((t.setA { t.a with stalled := some t.pc }).setH
           { t.h with wait := some (.setvl d a g e) })) ∧
       (s.td.gq.length < 8 → (s.getS b).toNat = 0 →
         exec (.setvl2 d a b e) s = .next (granted s
           { two := true, n := 0, rows := 0, cols := 0, sew := e, group := 0,
             mask := if s.a.stalled = some s.pc then 96 else 32 } d)) ∧
       (s.td.gq.length < 8 → s.a.stalled ≠ some s.pc → (s.getS b).toNat ≠ 0 →
         (s.maxvl e 0 < (s.getS b).toNat ∨ s.core.team.port = true ∧ 28 * groupElems e < (s.getS b).toNat) →
         exec (.setvl2 d a b e) s = .next (granted s
           { two := true, n := 0, rows := 0, cols := 0, sew := e, group := 0,
             mask := (if s.maxvl e 0 < (s.getS b).toNat then 1 else 0) |||
               (if s.core.team.port = true ∧ 28 * groupElems e < (s.getS b).toNat then 2 else 0) } d)) ∧
       ((s.getS b).toNat ≠ 0 → (s.getS b).toNat ≤ s.maxvl e 0 →
         (s.core.team.port = true → (s.getS b).toNat ≤ 28 * groupElems e) →
         highWater s = some (t, h) → grant2 t (s.getS a).toNat (s.getS b).toNat e h = (raw, some (n, m)) →
         exec (.setvl2 d a b e) s = .next (granted t
           { two := true, n := BitVec.ofNat 17 (n * (s.getS b).toNat), rows := BitVec.ofNat 17 n,
             cols := BitVec.ofNat 17 (s.getS b).toNat, sew := e, group := 0, mask := m } d))) ∧
     (s.xh = true → s.td.gq = gr :: rest →
       exec (.setvl d a g e) s = .next (taken s gr rest d) ∧ exec (.setvl2 d a b e) s = .next (taken s gr rest d)) ∧
     (s.xh = true → s.td.gq = [] →
       Stalls (.setvl d a g e) s .queue ∧ Stalls (.setvl2 d a b e) s .queue) ∧
     WritesS (.vgrant d) s d (s.h.glim.setWidth 64)) ∧
  (∀ (s : State) (rem : Nat) (g e : BitVec 2) (h : Option Word) (raw n : Nat) (m : BitVec 7),
     grant1 s rem g e h = (raw, some (n, m)) →
       (∀ p ∈ limiters s e g h (remaining s rem), n ≤ p.2) ∧ n ≤ rem ∧ n ≤ s.maxvl e g ∧
       (n % groupElems e = 0 ∨ n = remaining s rem) ∧ (n = 0 → remaining s rem = 0) ∧
       (∀ app, s.a.app = some app → app.p ≤ app.n → app.p + n ≤ app.n))

/-- R150, R151, R154 and R155: `sdecl` reads its record, ends the current application once no fill is under way and
declares the record's or, with a status that is not 0, none; `sdecl.end` declares none; `shw` stores s[b] as a
release; `swait` ends when the X-hart is at most s[a] strips behind. R62, R148 and R149: `settype` writes `fmt` and
`tail` and leaves sew and group, code 15 keeping `fmt`; `setdim` writes one dimension register, its length clipped at
65,536. It rests on choices and inferences of the model: log entries 27, 77 and 103. -/
def Obligations.Applications : Prop :=
  (∀ (s t : State) (d a b : Reg) (sc : BitVec 2) (q : Bit) (p : Place) (l : List Byte), s.xh = false →
     (readable s s.scalarAgent Ask.record (s.getS a) 128 = some (t, p, l) → fillsPending t = false →
       exec (.sdecl d a sc q) s = .next
         (((t.setA { t.a with app := if declStatus (wordsOf 16 l) = 0 then some (appOf (wordsOf 16 l) sc
              (if q = 1 then some (t.serial, t.ticks) else none)) else none }).setS d
           (BitVec.ofNat 64 (declStatus (wordsOf 16 l)))).bump 4)) ∧
     (readable s s.scalarAgent Ask.record (s.getS a) 128 = some (t, p, l) → fillsPending t = true →
       exec (.sdecl d a sc q) s = .next (t.setH { t.h with wait := some .engine })) ∧
     (fillsPending s = false → exec (.sdeclEnd d) s = .next (((s.setA { s.a with app := none }).setS d 0).bump 4)) ∧
     (fillsPending s = true → Stalls (.sdeclEnd d) s .engine) ∧
     (writable s Ask.store (s.getS a) 8 = some p →
       releasable s p sc 8 →
       exec (.shw a b sc) s = .next ((releasing s p sc (bytesOf 8 (s.getS b))).bump 4)) ∧
     ((s.a.h.strip - s.x.h.strip).toNat ≤ (s.getS a).toNat → exec (.swait a) s = .next (s.bump 4)) ∧
     ((s.getS a).toNat < (s.a.h.strip - s.x.h.strip).toNat → Stalls (.swait a) s .word)) ∧
  (∀ (s : State) (d a b : Reg) (f : BitVec 4) (t : Bit), s.xh = true →
     exec (.settype f t) s = .next ((s.setX { s.x with fmt := if f = 15 then s.x.fmt else f, tail := t == 1 }).bump 4) ∧
     (∀ j : Fin 3, d.toNat = j.val → ∃ u, exec (.setdim d a b) s = .next u ∧
       u = (s.setX { s.x with dims := u.x.dims }).bump 4 ∧
       u.x.dims[j].len.toNat = min (s.getS a).toNat 65536 ∧ u.x.dims[j].stride = (s.getS b).setWidth 32 ∧
       ∀ k : Fin 3, k ≠ j → u.x.dims[k] = s.x.dims[k]) ∧
     (3 ≤ d.toNat → Illegal (.setdim d a b) s 6))

/-! ## Traps, returns and control registers -/

/-- R140, R375 and R376: at privilege user a trap saves class, code and access kind in `tcause`, the two values, and
the resume address in `tpc`, enters privilege system and goes on at `tvec`; the other hart, every general register and
every byte of memory stay. R361, R380 and R411: a trap at privilege system is a fatal error of cause 1 with the resume
address as its detail; the first one stops the part with the event and dump bits of `devstat` set, `devstat.event`
counting one more message to the host also where it is set already (log entry 81), and a later one is counted. R410
and R413: where a cause with a higher number came first and both fell in one cycle, which is a free value, cause 1 is
the first cause. It rests on choices and inferences of the model: log entries 34, 65 and 81. -/
def Obligations.TrapEntry : Prop :=
  (∀ (s : State) (cls code acc : Nat) (v w p : Word), cls < 256 → code < 65536 → acc < 16 → s.h.priv = .user →
     let t := s.takeTrap (causeWord cls code acc) v w p
     t.h = { s.h with
       tcause := t.h.tcause, tval := v, tval2 := w, tpc := p, pc := s.h.tvec, priv := .system, wait := none,
       since := t.h.since } ∧
     (t.h.tcause.extractLsb' 0 8).toNat = cls ∧ (t.h.tcause.extractLsb' 16 16).toNat = code ∧
     (t.h.tcause.extractLsb' 32 4).toNat = acc ∧ t.h.tcause &&& ~~~tcauseMask = 0 ∧
     (∀ r, t.getS r = s.getS r) ∧ (∀ r, t.getF r = s.getF r) ∧
     (if s.xh then t.a = s.a else t.x = s.x) ∧ (∀ k : Fin 4, k ≠ s.tnd → t.core.team.tds[k] = s.core.team.tds[k]) ∧
     (∀ a, t.mem.read a = s.mem.read a) ∧ t.buf = s.buf ∧ t.fatal = s.fatal) ∧
  (∀ (s : State) (c v w p : Word), s.h.priv = .system →
     let t := s.takeTrap c v w p
     (s.fatal = none → t.fatal = some { first := 1, further := 0, core := s.core.num, detail := p } ∧ t.dump = true ∧
       t.event = true ∧ t.msis = s.msis + 1 ∧
       (s.core.num < 1536 → (∀ c ∈ s.others, c.num < 1536) → (∀ e ∈ s.ecc, e.1 < 2048) →
         (∀ r ∈ s.refusals, r.target < 4096) →
         ∀ a, (a < dumpBase ∨ dumpBase + dumpSize ≤ a) → t.mem.read a = s.mem.read a)) ∧
     (∀ f, s.fatal = some f →
       let more := BitVec.ofNat 16 (min (f.further.toNat + 1) 0xFFFF)
       t.fatal = some (if 1 < f.first.toNat ∧ Config.sameCycle s.ticks = true then
           { first := 1, further := more, core := s.core.num, detail := p }
         else { f with further := more })) ∧
     t.core = s.core ∧ t.others = s.others)

namespace Sys2Proof.Claims

/-- What a control register reads as after a write of `w`, from what it read as before: by its fields and access code
(R62, R65 to R71, R139, R376); one that is read-only keeps its value. -/
def readBack (c : Nat) (old w : Word) : Word :=
  match c with
  | 0x000 =>
    if w.extractLsb' 8 4 = 15#4 then (old &&& ~~~0x80) ||| (w &&& 0x80) else (old &&& ~~~0xF80) ||| (w &&& 0xF80)
  | 0x005 => w &&& 0x1FFFF
  | 0x009 => w &&& 3
  | 0x00B => w &&& 0x1F
  | 0x010 | 0x011 | 0x012 => w &&& 0xFFFFFFFF0001FFFF
  | 0x020 => if (w &&& 7).toNat ≤ 4 then w &&& 7 else old
  | 0x00A | 0x021 | 0x022 | 0x023 => old &&& ~~~w
  | 0x030 | 0x031 | 0x802 | 0x804 | 0x805 | 0x806 | 0x810 | 0x811 => w
  | 0x032 => w &&& 0x80FFFFFFFFFFFFFF
  | 0x033 => w &&& 0xFFFFFFFFFF
  | 0x801 => w &&& ~~~1
  | 0x803 => w &&& 0xFFFFF00FF
  | _ => old

end Sys2Proof.Claims

/-- R75, R139 and R376: at privilege system every listed register reads as its field; each of the three instructions
completes and `csrx` reads before it writes. R76 and R383: an address that is not listed for the hart is illegal with
cause 6, and the registers of the other kind of hart are not listed. R62, R65 to R71, R75, R139 and R376: what every
listed register reads as after a write to it. R67: a write of 0 to 4 to `frm` sets it and one of 5, 6 or 7 leaves it;
every write of `vxrm` sets it. R68: a write to a sticky register clears the bits written as 1 and sets none, and a
flag that an operation raises stays until then. It rests on choices and inferences of the model: log entry 72. -/
def Obligations.ControlRegisters : Prop :=
  (∀ (s : State) (d a : Reg) (c : BitVec 12), csrListed s.xh c.toNat = true → (csrSystem c.toNat = true → s.h.priv = .system) →
     exec (.csrr d c) s = .next ((s.setS d (csrGet s c.toNat)).bump 4) ∧
     exec (.csrw a c) s = .next ((csrSet s c.toNat (s.getS a)).bump 4) ∧
     exec (.csrx d a c) s = .next ((csrSet (s.setS d (csrGet s c.toNat)) c.toNat (s.getS a)).bump 4)) ∧
  (∀ (s : State) (d a : Reg) (c : BitVec 12),
     (csrListed s.xh c.toNat = false →
       Illegal (.csrr d c) s 6 ∧ Illegal (.csrw a c) s 6 ∧ Illegal (.csrx d a c) s 6) ∧
     ((c.toNat = 0x023 ∨ (0x810 ≤ c.toNat ∧ c.toNat ≤ 0x812)) → csrListed true c.toNat = false) ∧
     ((c.toNat ≤ 3 ∨ (5 ≤ c.toNat ∧ c.toNat ≤ 0x12) ∨ c.toNat = 0x60 ∨ c.toNat = 0x61) → csrListed false c.toNat = false) ∧
     (0x812 < c.toNat → csrListed s.xh c.toNat = false)) ∧
  (∀ (s : State) (w : Word) (c : Nat), csrListed s.xh c = true →
     csrGet (csrSet s c w) c = readBack c (csrGet s c) w) ∧
  (∀ (s : State) (a : Reg),
     let w := s.getS a
     let f := (w.extractLsb' 0 3).toNat
     Rnd.ofFrm 0 = .rne ∧ Rnd.ofFrm 1 = .rtz ∧ Rnd.ofFrm 2 = .rdn ∧ Rnd.ofFrm 3 = .rup ∧ Rnd.ofFrm 4 = .rmm ∧
     (∀ k : BitVec 3, ∀ delta, Rnd.ofFrm k ≠ .sr delta) ∧
     exec (.csrw a 0x020) s =
       .next ((s.setH { s.h with frm := if f ≤ 4 then BitVec.ofNat 3 f else s.h.frm }).bump 4) ∧
     (s.xh = true → exec (.csrw a 0x009) s = .next ((s.setX { s.x with vxrm := w.extractLsb' 0 2 }).bump 4)) ∧
     (s.xh = false → Illegal (.csrw a 0x009) s 6)) ∧
  (∀ (s : State) (a : Reg) (f : Flags) (b : Bool),
     let w := s.getS a
     exec (.csrw a 0x021) s = .next ((s.setH { s.h with fflags := s.h.fflags &&& ~~~(w.extractLsb' 0 5) }).bump 4) ∧
     exec (.csrw a 0x022) s = .next ((s.setH { s.h with iflags := s.h.iflags && !w.getLsbD 0 }).bump 4) ∧
     (s.xh = true → exec (.csrw a 0x00A) s = .next ((s.setX { s.x with vxsat := s.x.vxsat && !w.getLsbD 0 }).bump 4)) ∧
     (s.xh = false → exec (.csrw a 0x023) s = .next ((s.setA { s.a with xrange := s.a.xrange && !w.getLsbD 0 }).bump 4)) ∧
     (s.raise f).h.fflags = s.h.fflags ||| f ∧ (s.raiseIdiv b).h.iflags = (s.h.iflags || b) ∧
     (s.raiseSat b).x.vxsat = (s.x.vxsat || b) ∧ (s.raiseRange b).a.xrange = (s.a.xrange || b))

/-- R384, and R139, R140 and R141 where they say the same: a system register at privilege user, `eret` with no handler
to return from, `trap #i` and `brk #i` are reported with the class and code of the table. R141: the word of `eret`,
all of whose fields must be 0, and what it does by the context it is executed in. R376: `tval2`, at address 0x806 of
both harts, is 0 at team start, reads and takes all 64 bits at privilege system, and raises a privilege fault at
privilege user. -/
def Obligations.TrapsAndReturns : Prop :=
  (∀ (s : State) (d a : Reg) (c : BitVec 12) (i : BitVec 13), s.h.priv = .user →
     (0x801 ≤ c.toNat → c.toNat ≤ 0x806 →
       exec (.csrr d c) s = .next (s.takeTrap (causeWord 2 0 0) 0 (c.setWidth 64) s.pc) ∧
       exec (.csrw a c) s = .next (s.takeTrap (causeWord 2 0 0) 0 (c.setWidth 64) s.pc) ∧
       exec (.csrx d a c) s = .next (s.takeTrap (causeWord 2 0 0) 0 (c.setWidth 64) s.pc)) ∧
     ((s.xh = true ∨ s.a.ustat = false) → exec .eret s = .next (s.takeTrap (causeWord 2 1 0) 0 0 s.pc)) ∧
     exec (.trap i) s = .next (s.takeTrap (causeWord 3 i.toNat 0) 0 0 (s.pc + 4)) ∧
     exec (.brk i) s = .next (s.takeTrap (causeWord 4 i.toNat 0) 0 0 s.pc)) ∧
  (∀ (s : State) (fields : BitVec 24),
     decodeC (0xB9#8 ++ 0#24) = .instr .eret ∧ (fields ≠ 0 → decodeC (0xB9#8 ++ fields) = .reserved 0xB9) ∧
     (s.h.priv = .system →
       exec .eret s = .next (s.setH { s.h with pc := s.h.tpc &&& 0xFFFFFFFFFFFFFFFE, priv := .user, wait := none })) ∧
     (s.h.priv = .user → s.xh = false → s.a.ustat = true → ∃ t, exec .eret s = .next t ∧
       t.pc = s.a.upc &&& 0xFFFFFFFFFFFFFFFE ∧ t.a.ustat = false ∧ (∀ r, t.getS r = if r = 0 then 0 else s.a.h.s[r.toFin]) ∧
       t.h.ldst = s.a.ldstAside ∧
       t = s.setA { s.a with ustat := false, h := { s.a.h with pc := t.pc, ldst := t.h.ldst, wait := none } }) ∧
     (s.h.priv = .user → (s.xh = true ∨ s.a.ustat = false) →
       exec .eret s = .next (s.takeTrap (causeWord 2 1 0) 0 0 s.pc))) ∧
  (AHart.fresh.h.tval2 = 0 ∧ XHart.fresh.h.tval2 = 0 ∧
   ∀ (s : State) (d a : Reg),
     (s.h.priv = .system →
       exec (.csrr d 0x806) s = .next ((s.setS d s.h.tval2).bump 4) ∧
       exec (.csrw a 0x806) s = .next ((s.setH { s.h with tval2 := s.getS a }).bump 4)) ∧
     (s.h.priv = .user →
       exec (.csrr d 0x806) s = .next (s.takeTrap (causeWord 2 0 0) 0 0x806 s.pc) ∧
       exec (.csrw a 0x806) s = .next (s.takeTrap (causeWord 2 0 0) 0 0x806 s.pc) ∧
       exec (.csrx d a 0x806) s = .next (s.takeTrap (causeWord 2 0 0) 0 0x806 s.pc)))

/-! ## Loads and stores -/

namespace Sys2Proof.Claims

/-- Effective address (R129): s[a] plus the signed offset, modulo 2^64. -/
def ea (s : State) (a : Reg) (o : BitVec 12) : Word := BitVec.ofInt 64 ((s.getS a).toInt + o.toInt)

/-- The bytes as a signed and as an unsigned number (R104, R129). -/
def signedOf (n : Nat) (l : List Byte) : Word := BitVec.ofInt 64 (BitVec.ofNat (8 * n) (natOf l)).toInt
def unsignedOf (l : List Byte) : Word := BitVec.ofNat 64 (natOf l)

/-- A read meets no poison at an address: a buffer supplies the byte without any, or home holds it unpoisoned (R389,
R407). -/
def clean (s : State) (core : Nat) (ag : Agent) (a : Nat) : Prop :=
  badByte s core ag a = false ∧ (visibleByte s core ag a ≠ none ∨ poisonedAt s a = false)

/-- The byte an agent sees at an address (R221): from the first buffer of its path that holds one, else from home. -/
def seen (s : State) (core : Nat) (ag : Agent) (a : Nat) : Byte := (visibleByte s core ag a).getD (s.mem.read a)

/-- A load's state where the move has its agent go on holding the read of `n` bytes at `key` into `d` (R219). -/
def kept (s t : State) (key n : Nat) (d : RegDest) : State :=
  if s.holds then
    { t with early := t.early ++ [{ core := s.core.num, agent := .scalar s.tnd, tick := s.ticks
                                    cells := (span key n).map (fun a => (a, 0)), dest := some (.reg d) }] }
  else t

/-- The register of the hart in focus that s[d] names, a shadow while the user-level handler runs (R57). -/
def regS (s : State) (d : Reg) (signed : Bool) : RegDest :=
  { float := false, signed := signed, shadow := !s.xh && s.a.ustat && decide (24 ≤ d.toNat), r := d }
def regF (d : Reg) : RegDest := { float := true, signed := false, shadow := false, r := d }

/-- The state after a scalar store has executed: its one entry is the youngest of the agent's store buffer (R220). -/
def stored (s : State) (key : Nat) (bytes : List Byte) : State :=
  { s with
    serial := s.serial + 1
    early := s.early.filter (fun e => !(e.core == s.core.num && e.agent == .scalar s.tnd &&
      e.cells.any (fun c => ((cellsAt key bytes).map (·.1)).contains c.1)))
    buf := s.buf ++ [{ loc := .sb s.core.num (.scalar s.tnd), core := s.core.num, agent := .scalar s.tnd,
                       payload := .bytes (cellsAt key bytes), serial := s.serial + 1
                       low := 0, rank := none, bad := false }] }

end Sys2Proof.Claims

/-- R129: a scalar load of a readable location completes with the bytes extended as its entry says. R219: in a move
that has its agent hold the read, the read stays among those that may execute again. The frame of the scalar loads:
the destination, `ldst`, the pc and the stall apart, the hart keeps every register and flag, and the X-hart
everything; with no nibble entry in the buffers, every byte of memory and every entry stay. It rests on choices and
inferences of the model: log entry 4. -/
def Obligations.ScalarLoads : Prop :=
  (∀ (s t : State) (d a : Reg) (z : BitVec 2) (o : BitVec 12) (p : Place) (l : List Byte), s.xh = false →
     readable s s.scalarAgent Ask.load (ea s a o) (2 ^ z.toNat) = some (t, p, l) →
     let n := 2 ^ z.toNat
     exec (.ld d a z o) s = .next ((kept s (t.setS d (signedOf n l)) p.key n (regS s d true)).bump 4) ∧
     (z ≠ 3 → exec (.ldu d a z o) s = .next ((kept s (t.setS d (unsignedOf l)) p.key n (regS s d false)).bump 4)) ∧
     (z = 2 → exec (.fld d a z o) s = .next ((kept s (t.setF d (0xFFFFFFFF00000000 ||| unsignedOf l)) p.key n (regF d)).bump 4)) ∧
     (z = 3 → exec (.fld d a z o) s = .next ((kept s (t.setF d (unsignedOf l)) p.key n (regF d)).bump 4))) ∧
  (∀ (s t u : State) (i : Instr) (d a : Reg) (z : BitVec 2) (o : BitVec 12) (p : Place) (l : List Byte), s.xh = false →
     readable s s.scalarAgent Ask.load (ea s a o) (2 ^ z.toNat) = some (t, p, l) →
     (i = .ld d a z o ∨ i = .ldu d a z o ∧ z ≠ 3 ∨ i = .fld d a z o ∧ 2 ≤ z.toNat) → exec i s = .next u →
     (∀ r, r ≠ d ∨ i = .fld d a z o → u.getS r = s.getS r) ∧ (∀ r, r ≠ d ∨ i ≠ .fld d a z o → u.getF r = s.getF r) ∧
     u.h = { s.h with s := u.h.s, f := u.h.f, ldst := u.h.ldst, pc := s.pc + 4, wait := none } ∧ u.x = s.x ∧
     ((∀ e ∈ s.buf, ∀ c, e.payload ≠ .nibbles c) →
       (∀ x, u.mem.read x = s.mem.read x) ∧ u.buf = s.buf ∧ u.others = s.others ∧
       (putBack s u).core = s.core))

/-- R129 and R220: a scalar store to a writable location completes as one entry of the low bytes of its register. The
frame of `st` and `fst`: home memory and every register stay; the storing agent sees the stored bytes at the address
the effective address translates to, and every agent sees every other byte as before. -/
def Obligations.ScalarStores : Prop :=
  (∀ (s : State) (d a : Reg) (z : BitVec 2) (o : BitVec 12) (p : Place), s.xh = false →
     writable s Ask.store (ea s a o) (2 ^ z.toNat) = some p →
     exec (.st d a z o) s = .next ((stored s p.key (bytesOf (2 ^ z.toNat) (s.getS d))).bump 4) ∧
     (2 ≤ z.toNat →
       exec (.fst d a z o) s = .next ((stored s p.key (bytesOf (2 ^ z.toNat) (s.getF d))).bump 4))) ∧
  (∀ (s t : State) (i : Instr) (d a : Reg) (z : BitVec 2) (o : BitVec 12) (p : Place) (v : Word), s.xh = false →
     (i = .st d a z o ∧ v = s.getS d ∨ i = .fst d a z o ∧ 2 ≤ z.toNat ∧ v = s.getF d) →
     writable s Ask.store (ea s a o) (2 ^ z.toNat) = some p → exec i s = .next t →
     (∀ x, t.mem.read x = s.mem.read x) ∧ t.core = (s.bump 4).core ∧ t.others = s.others ∧
     (∀ k, k < 2 ^ z.toNat → seen t s.core.num s.scalarAgent (p.key + k) = (v >>> (8 * k)).setWidth 8) ∧
     (∀ core ag x, (x < p.key ∨ p.key + 2 ^ z.toNat ≤ x) → seen t core ag x = seen s core ag x) ∧
     (∀ core ag x, (core ≠ s.core.num ∨ ag ≠ s.scalarAgent) → seen t core ag x = seen s core ag x))

/-- R219 to R221: with nothing executed early, no nibble entry on its path, every line full and no row step holding
the bytes, a read takes each byte as the agent sees it, in one move that changes nothing; poison that the home holds
or that an entry carries is met instead. R222 and R387: an entry of bytes that performs at home changes exactly its
bytes, and clears the poison of exactly the granules it covers. It rests on choices and inferences of the model: log
entries 4, 21 and 25. -/
def Obligations.MemorySeen : Prop :=
  (∀ (s : State) (core : Nat) (ag : Agent) (addrs : List Nat),
     s.early = [] → (∀ e ∈ s.buf, ∀ c, e.payload ≠ .nibbles c) → (∀ a ∈ addrs, lineFull s a = true) →
     heldByGrotto s addrs = false →
     ((∀ a ∈ addrs, clean s core ag a) →
       readMove s core ag addrs = (s, .bytes (addrs.map (seen s core ag)))) ∧
     (∀ i, (∃ h : i < addrs.length, ¬ clean s core ag addrs[i] ∧ ∀ j, (hj : j < i) → clean s core ag addrs[j]) →
       readMove s core ag addrs = (s, .poison i))) ∧
  (∀ (s : State) (key : Nat) (l : List Byte) (t : State), t = perform s (.bytes (cellsAt key l)) →
     (s.mem.wf = true → ∀ k, (h : k < l.length) → t.mem.read (key + k) = l[k]) ∧
     (∀ x, (x < key ∨ key + l.length ≤ x) → t.mem.read x = s.mem.read x) ∧
     (∀ g, g ∈ t.poison ↔ g ∈ s.poison ∧ ¬ (granule g = g ∧ key ≤ g ∧ g + granuleSize g ≤ key + l.length)) ∧
     t.core = s.core ∧ t.buf = s.buf)

namespace Sys2Proof.Claims

/-- The entry of a walk at level j: what the pointers of the levels before it lead to, none where one of them is poisoned,
not valid, a leaf or malformed (R202, R209). -/
def walkEntry (s : State) (root va : Nat) : Nat → Option Nat
  | 0 => some (root + 16 * (va / 2 ^ 45 % 2048))
  | j + 1 =>
    match walkEntry s root va j with
    | none => none
    | some a =>
      let w0 := s.mem.word a
      if poisonedAt s a = false ∧ w0.getLsbD 0 = true ∧ w0.getLsbD 1 = false ∧ malformedTable w0 (s.mem.word (a + 8)) = false then
        some (leafPa w0 + 16 * (va / 2 ^ (34 - 11 * j) % 2048))
      else none

/-- No TLB of a die holds a leaf of an address. -/
def uncached (s : State) (w : Who) (a : Nat) : Prop :=
  ∀ e ∈ s.tlb, ¬ (e.die = dieOf w.core ∧ e.root = w.root ∧ e.base ≤ a ∧ a < e.base + e.size)

/-- The kind of a page admits an access (R207). -/
def kindAdmits (q : Ask) (kind : Nat) : Prop :=
  kind = 0 ∨ kind = 1 ∧ q.host = true ∨ kind = 2 ∧ q.scratch = true ∨ kind = 3 ∧ q.peer = true

/-- The attributes of a page admit the use asked of it (R211). -/
def attrAdmits (need : Need) (w1 : Word) : Prop :=
  match need with
  | .none => True
  | .x64 => leafFmt w1 = 6
  | .notX64 => leafFmt w1 ≠ 6
  | .parameter => leafTrellis w1 = 1
  | .gradient => leafTrellis w1 = 2
  | .grotto => leafGrotto w1 = true

end Sys2Proof.Claims

/-- R77, R130, R205 to R207 and R211: the order of the checks on an address, and what each refusal is reported as: an
entry of the walk that is not valid (cause 1) or malformed (2), a permission (3), a kind (4) or an attribute (5) that
is lacking; an access to the window goes to the core's own scratchpad. R130, R375 and R408: a scalar access that is
misaligned, or that translation or an access table refuses, raises the fault and has no other effect, but that the
refusal of a table joins the log of its target (log entry 64); so does a store that the operand guard of a team with
og = 2 or 3 keeps out, whose second value is the guarded line's address. It rests on choices and inferences of the
model: log entries 21, 22, 24, 28, 64, 91, 96 and 97. -/
def Obligations.RefusedAccesses : Prop :=
  (∀ (s : State) (w : Who) (q : Ask) (va : Word) (len : Nat) (l : Leaf),
     let a := va.toNat
     let perm := match q.mode with
       | .read => l.w0.getLsbD 6
       | .write => l.w0.getLsbD 7
       | .atomic => l.w0.getLsbD 6 && l.w0.getLsbD 7
       | .exec => l.w0.getLsbD 8
     (2 ^ 56 ≤ a → translate s w q va len = .error ⟨6, 6⟩) ∧
     (windowBase + windowSize ≤ a → a < 2 ^ 56 → translate s w q va len = .error ⟨6, 6⟩) ∧
     (windowBase ≤ a → a < windowBase + windowSize → q.mode ≠ .exec → q.need = .none →
       (a - windowBase + len ≤ w.spad * 65536 → ∃ p, translate s w q va len = .ok p ∧ p.window = true ∧
         p.key = scratchBase + w.core * 2 ^ 23 + (a - windowBase)) ∧
       (w.spad * 65536 < a - windowBase + len → translate s w q va len = .error ⟨6, 1⟩)) ∧
     (windowBase ≤ a → a < windowBase + windowSize → q.mode ≠ .exec → q.need ≠ .none → q.need ≠ .notX64 →
       translate s w q va len = .error ⟨6, 5⟩) ∧
     (a < windowBase → uncached s w a → missOf s w a = none → ∀ j e, j < 4 → walkEntry s w.root.toNat a j = some e → poisonedAt s e = false →
       let w0 := s.mem.word e
       let w1 := s.mem.word (e + 8)
       (w0.getLsbD 0 = false → translate s w q va len = .error ⟨6, 1⟩) ∧
       (w0.getLsbD 0 = true → w0.getLsbD 1 = true → malformedLeaf j w0 w1 = true → translate s w q va len = .error ⟨6, 2⟩) ∧
       (w0.getLsbD 0 = true → w0.getLsbD 1 = false → malformedTable w0 w1 = true →
         translate s w q va len = .error ⟨6, 2⟩)) ∧
     (windowBase ≤ a → a < windowBase + windowSize → q.mode = .exec → translate s w q va len = .error ⟨6, 3⟩) ∧
     (a < windowBase → leafOf s w a = .ok l → (perm = false ∨ w.user = true ∧ l.w0.getLsbD 9 = false) →
       translate s w q va len = .error ⟨6, 3⟩) ∧
     (a < windowBase → leafOf s w a = .ok l → perm = true → (w.user = true → l.w0.getLsbD 9 = true) →
       (¬ kindAdmits q (leafKind l.w0) → translate s w q va len = .error ⟨6, 4⟩) ∧
       (kindAdmits q (leafKind l.w0) → ¬ attrAdmits q.need l.w1 → translate s w q va len = .error ⟨6, 5⟩)) ∧
     (a < windowBase → leafOf s w a = .ok l → perm = true → (w.user = true → l.w0.getLsbD 9 = true) →
       leafKind l.w0 = 0 → q.need = .none →
       let key := leafPa l.w0 + (a - l.base)
       key < hostBase →
       (aclPasses s (channelOf key) w.domain q.mode key len = true →
         translate s w q va len = .ok { key := key, window := false, w0 := l.w0, w1 := l.w1 }) ∧
       (aclPasses s (channelOf key) w.domain q.mode key len = false →
         translate s w q va len = .error ⟨7, 0⟩))) ∧
  (∀ (s : State) (d a : Reg) (z : BitVec 2) (o : BitVec 12) (e : Refused) (p : Place), s.xh = false →
     let va := ea s a o
     let n := 2 ^ z.toNat
     (va.toNat % n ≠ 0 →
       Refuses (.ld d a z o) s 5 0 0 va ∧ Refuses (.st d a z o) s 5 0 1 va ∧
       (z ≠ 3 → Refuses (.ldu d a z o) s 5 0 0 va) ∧
       (2 ≤ z.toNat → Refuses (.fld d a z o) s 5 0 0 va ∧ Refuses (.fst d a z o) s 5 0 1 va)) ∧
     (va.toNat % n = 0 → translate s s.who Ask.load va n = .error e →
       Refuses (.ld d a z o) s e.cls e.code 0 va ∧ (z ≠ 3 → Refuses (.ldu d a z o) s e.cls e.code 0 va) ∧
       (2 ≤ z.toNat → Refuses (.fld d a z o) s e.cls e.code 0 va)) ∧
     (va.toNat % n = 0 → translate s s.who Ask.store va n = .error e →
       Refuses (.st d a z o) s e.cls e.code 1 va ∧ (2 ≤ z.toNat → Refuses (.fst d a z o) s e.cls e.code 1 va)) ∧
     (va.toNat % n = 0 → translate s s.who Ask.store va n = .ok p → scratchCore? p.key = some s.core.num →
       guarded s (span p.key n) = true → s.core.team.og ≠ 1 →
       Guarded (.st d a z o) s 1 va ∧ (2 ≤ z.toNat → Guarded (.fst d a z o) s 1 va)))

/-! ## Atomics -/

namespace Sys2Proof.Claims

/-- The place of an atomic that passes every check of R379 for it. -/
def atomicAllowed (s : State) (n : Nat) (need : Need) (float : Bool) (va : Word) : Option Place :=
  if va.toNat % (if float = true ∧ leafFmt (pageAttr s s.who va) = 6 then 8 else n) = 0 then
    match translate s s.who { Ask.atomic with need := need } va n with
    | .ok p =>
      if (float = true ∧ s.core.team.det = true ∧ isX64 p = false) ∨
          (scratchCore? p.key = some s.core.num ∧ guarded s (span p.key n) = true) then none
      else some p
    | .error _ => none
  else none

/-- The state after the release that an atomic with rel = 1 makes; nothing for one without (R240). -/
def releasedFor (s : State) (r : Bit) (p : Place) (sc : BitVec 2) : State :=
  if r = 1 then releaseMove s s.core.num [s.scalarAgent] (effScope s.core.num p sc) else s

/-- The release may be made: no home that it would perform at is held (R271, R324). -/
def releaseFree (s : State) (r : Bit) (p : Place) (sc : BitVec 2) : Prop :=
  r = 1 → releaseHeld s s.core.num [s.scalarAgent] (effScope s.core.num p sc) = []

/-- A releasing atomic that returns nothing may perform at its home, if that is its S point (R225). -/
def entryFree (s : State) (r : Bit) (p : Place) (sc : BitVec 2) (n : Nat) : Prop :=
  r = 1 → enterHeld s s.core.num s.scalarAgent (effScope s.core.num p sc) (span p.key n) = []

/-- The state in which an atomic has become an entry, whose old value goes to `ret` when it performs (R223, R240). -/
def atomicEntered (s : State) (op : AtomicOp) (p : Place) (n : Nat) (b va : Word) (r : Bit) (sc : BitVec 2)
    (ret : Option RegDest) : State :=
  let u := releasedFor s r p sc
  let c : Contrib := { core := u.core.num, t := u.tnd, serial := u.serial + 1, elem := 0, va := va, vsca := false, late := false, ret := ret }
  let pay := Payload.atomic op p.key n b [c]
  if r = 1 then enterAt (nextSerial u) u.core.num u.scalarAgent (effScope s.core.num p sc) pay
  else enter (nextSerial u) u.core.num u.scalarAgent pay

/-- The state at whose home the atomic that returns its old value performs: everything that it may not pass has (R223). -/
def atomicTurn (s : State) (p : Place) (n : Nat) (r : Bit) (sc : BitVec 2) : State :=
  let u := releasedFor s r p sc
  performNow (dropEarly u u.core.num u.scalarAgent (span p.key n)) (onPath u.core.num u.scalarAgent (span p.key n))

/-- The state after it has performed there, an acquiring one having been made (R226, R240). -/
def atomicDone (u : State) (op : AtomicOp) (p : Place) (n : Nat) (b : Word) (q : Bit) : State :=
  let t := u.writeHome (cellsAt p.key (bytesOf n (op.apply n (wordOf (u.mem.bytes p.key n)) b)))
  if q = 1 then forgetEarly t t.core.num [t.scalarAgent] else t

/-- What the statement says of an integer atomic: an entry when nothing is returned or when its agent holds it, else the
operation at home and the old value in s[d]. -/
def IntegerAtomic (i : Instr) (s : State) (op : AtomicOp) (unsigned : Bool) (wide : Bool) (d a b : Reg) (sc : BitVec 2)
    (q r : Bit) : Prop :=
  let n := if wide then 8 else 4
  ∀ p, atomicAllowed s n (if wide then .none else .notX64) false (s.getS a) = some p → releaseFree s r p sc →
    (d = 0 → q = 0 → entryFree s r p sc n →
      exec i s = .next ((atomicEntered s op p n (s.getS b) (s.getS a) r sc none).bump 4)) ∧
    (d ≠ 0 → q = 0 → s.holds = true → entryFree s r p sc n →
      exec i s = .next (((atomicEntered s op p n (s.getS b) (s.getS a) r sc (some (regS s d (!unsigned || wide)))).setLdst 0 d).bump 4)) ∧
    (¬ (d = 0 ∧ q = 0) → s.holds = false ∨ d = 0 ∨ q = 1 → atomicHeld (releasedFor s r p sc) (span p.key n) = [] →
      let u := atomicTurn s p n r sc
      poisonedAt u p.key = false →
      let old := wordOf (u.mem.bytes p.key n)
      let t := atomicDone u op p n (s.getS b) q
      exec i s = .next ((if d = 0 then t else
        t.setS d (if wide then old else if unsigned then old else BitVec.ofInt 64 (BitVec.ofNat 32 old.toNat).toInt)).bump 4))

/-- The same for `amoadd.f` and `amoadd.fd`, outside and on pages of x64 cells (R239). -/
def FloatAtomic (i : Instr) (s : State) (wide : Bool) (d a b : Reg) (sc : BitVec 2) (q r : Bit) : Prop :=
  let n0 := if wide then 8 else 4
  ∀ p, atomicAllowed s n0 .none true (s.getS a) = some p → releaseFree s r p sc →
    let c := x64Contrib (if wide then .fp64 else .fp32) (s.getF b) (leafQ p.w1)
    let n := if isX64 p then 8 else n0
    let op := if isX64 p then AtomicOp.add else .fadd
    let x := if isX64 p then c.1 else s.getF b
    let range := if isX64 p then c.2 else false
    (d = 0 → q = 0 → entryFree s r p sc n →
      exec i s = .next (((atomicEntered s op p n x (s.getS a) r sc none).raiseRange range).bump 4)) ∧
    (d ≠ 0 → q = 0 → s.holds = true → entryFree s r p sc n →
      exec i s = .next ((((atomicEntered s op p n x (s.getS a) r sc (some (regF d))).setLdst 1 d).raiseRange range).bump 4)) ∧
    (¬ (d = 0 ∧ q = 0) → s.holds = false ∨ d = 0 ∨ q = 1 → atomicHeld (releasedFor s r p sc) (span p.key n) = [] →
      let u := atomicTurn s p n r sc
      poisonedAt u p.key = false →
      let old := wordOf (u.mem.bytes p.key n)
      let t := atomicDone u op p n x q
      exec i s = .next (((if d = 0 then t else
        t.setF d (if n = 8 then old else old ||| 0xFFFFFFFF00000000)).raiseRange range).bump 4))

end Sys2Proof.Claims

/-- R238 to R240: the atomics complete as an entry or, when they return their old value and are not held, at home.
R238: the new value of each operation on 4 and on 8 bytes, integer arithmetic wrapping. It rests on choices and
inferences of the model: log entries 4, 25, 26, 27 and 99. -/
def Obligations.Atomics : Prop :=
  (∀ (s : State) (d a b : Reg) (sc : BitVec 2) (q r f v : Bit), s.xh = false →
     let wide := v == 1
     IntegerAtomic (.amoadd d a b sc q r f (if wide then 1 else 0)) s .add false wide d a b sc q r ∧
     FloatAtomic (.amoadd d a b sc q r f (if wide then 3 else 2)) s wide d a b sc q r ∧
     IntegerAtomic (.amoand d a b sc q r f v) s .and false wide d a b sc q r ∧
     IntegerAtomic (.amoor d a b sc q r f v) s .or false wide d a b sc q r ∧
     IntegerAtomic (.amoxor d a b sc q r f v) s .xor false wide d a b sc q r ∧
     IntegerAtomic (.amomm d a b sc q r f 0 v) s .min false wide d a b sc q r ∧
     IntegerAtomic (.amomm d a b sc q r f 1 v) s .max false wide d a b sc q r ∧
     IntegerAtomic (.amomm d a b sc q r f 2 v) s .minu true wide d a b sc q r ∧
     IntegerAtomic (.amomm d a b sc q r f 3 v) s .maxu true wide d a b sc q r ∧
     IntegerAtomic (.amoswp d a b sc q r f v) s .swap false wide d a b sc q r ∧
     IntegerAtomic (.amocas d a b sc q r f v) s (.cas (s.getS d)) false wide d a b sc q r) ∧
  (∀ (old b c : Word) (wide : Bool),
     let n := if wide then 8 else 4
     let m := 2 ^ (8 * n)
     let sg := fun (x : Word) => (BitVec.ofNat (8 * n) x.toNat).toInt
     let val := fun (op : AtomicOp) => (op.apply n old b).toNat
     val .add = (old.toNat + b.toNat) % m ∧ val .and = (old.toNat % m &&& b.toNat % m) ∧
     val .or = (old.toNat % m ||| b.toNat % m) ∧ val .xor = (old.toNat % m ^^^ b.toNat % m) ∧
     val .min = (if sg old ≤ sg b then old.toNat % m else b.toNat % m) ∧
     val .max = (if sg old ≤ sg b then b.toNat % m else old.toNat % m) ∧
     val .minu = min (old.toNat % m) (b.toNat % m) ∧ val .maxu = max (old.toNat % m) (b.toNat % m) ∧
     val .swap = b.toNat % m ∧
     val (.cas c) = (if old.toNat % m = c.toNat % m then b.toNat % m else old.toNat % m))

/-! ## Ordering, barriers, events and waits -/

namespace Sys2Proof.Claims

/-- An acquiring read of the scalar agent (R226): the state after it and its bytes. -/
def acquired (s : State) (va : Word) (n : Nat) : Option (State × List Byte) :=
  match readable s s.scalarAgent Ask.load va n with
  | some (t, _, l) => some (forgetEarly t t.core.num [t.scalarAgent], l)
  | none => none

/-- The least of the words at a list of addresses and of `lo`, each by an acquiring read (R247). -/
def leastPhase : List Word → State → Word → Option (State × Word)
  | [], s, lo => some (s, lo)
  | va :: l, s, lo =>
    match acquired s va 8 with
    | some (t, w) => leastPhase l t (if lo.toNat ≤ (wordOf w).toNat then lo else wordOf w)
    | none => none

/-- Addresses of the phase words of a barrier of P parties (R245). -/
def phaseWords (va : Word) (parties : Nat) : List Word :=
  (List.range parties).map (fun j => va + BitVec.ofNat 64 (8 + 8 * j))

end Sys2Proof.Claims

/-- R225, R228, R243, R244 and R246: a fence drains the earlier agents' paths and forgets what the later agents read
early; `ldacq` is an acquiring load; `strel` and `bar` store as a release. R247, R248, R250 and R257: each wait ends
when its condition holds and writes what its entry names, and else stalls; `sev` sets event bits. R248 and R249: both
kinds of hart set event bits with `sev`; `wfe` takes and clears those of its mask that no hart before it in the order
of R72 waits for, stalls while there are none, and completes at once with an empty mask. R142 and R143: `yield` with
no team of its priority or a higher one waiting only goes on; `halt` stops the fetching of its hart. It rests on
choices and inferences of the model: log entry 27. -/
def Obligations.OrderingAndWaiting : Prop :=
  (∀ (s t : State) (d a b : Reg) (sc : BitVec 2) (l : List Byte) (p : Place), s.xh = false →
     let sv := [Agent.scalar s.tnd]
     let vv := [Agent.vector s.tnd]
     let fenced := fun (u : BitVec 2) (early late : List Agent) =>
       releaseHeld s s.core.num early sc = [] → ∃ r, r = releaseMove s s.core.num early sc ∧
         exec (.fence sc u) s = .next ((forgetEarly r r.core.num late).bump 4)
     fenced 0 (sv ++ vv) (sv ++ vv) ∧ fenced 1 sv vv ∧ fenced 2 vv sv ∧ fenced 3 vv vv ∧
     (acquired s (s.getS a) 8 = some (t, l) → WritesOn t (.ldacq d a sc 0) s d (unsignedOf l)) ∧
     (acquired s (s.getS a) 4 = some (t, l) →
       WritesOn t (.ldacq d a sc 1) s d (signedOf 4 l) ∧ WritesOn t (.ldacq d a sc 2) s d (unsignedOf l)) ∧
     (writable s Ask.store (s.getS a) 8 = some p →
       releasable s p sc 8 →
       exec (.strel a b sc 0) s = .next ((releasing s p sc (bytesOf 8 (s.getS b))).bump 4) ∧
       exec (.bar a 0 sc 0) s = .next ((releasing s p sc (bytesOf 8 s.a.h.strip)).bump 4) ∧
       exec (.bar a b sc 1) s = .next ((releasing s p sc (bytesOf 8 (s.getS b))).bump 4)) ∧
     (writable s Ask.store (s.getS a) 4 = some p →
       releasable s p sc 4 →
       exec (.strel a b sc 1) s = .next ((releasing s p sc (bytesOf 4 (s.getS b))).bump 4))) ∧
  (∀ (s t u : State) (d a b : Reg) (sc : BitVec 2) (v : Bit) (l : List Byte) (lo : Word), s.xh = false →
     let hdr := wordOf l
     let parties := (hdr.extractLsb' 0 11).toNat
     let good := hdr.extractLsb' 11 53 = 0 ∧ parties ≠ 0 ∧ parties ≤ 1024
     let target := fun (r : State) => if v = 1 then r.getS b else BitVec.ofNat 64 (r.a.h.strip.toNat - (r.getS b).toNat)
     (acquired s (s.getS a) 8 = some (t, l) → ¬ good → WritesOn t (.barw d a b sc v) s d 0xFFFFFFFFFFFFFFFF) ∧
     (acquired s (s.getS a) 8 = some (t, l) → good →
       leastPhase (phaseWords (t.getS a) parties) t 0xFFFFFFFFFFFFFFFF = some (u, lo) →
       ((target u).toNat ≤ lo.toNat ∧ (v = 1 ∨ (target u).toNat ≤ u.x.h.strip.toNat) →
         WritesOn u (.barw d a b sc v) s d lo) ∧
       (¬ ((target u).toNat ≤ lo.toNat ∧ (v = 1 ∨ (target u).toNat ≤ u.x.h.strip.toNat)) →
         exec (.barw d a b sc v) s = .next (u.setH { u.h with wait := some (.barw d a b sc v) }))) ∧
     (acquired s (s.getS a) 8 = some (t, l) →
       ((t.getS b).toNat ≤ (wordOf l).toNat → WritesOn t (.hwait d a b sc) s d (wordOf l)) ∧
       ((wordOf l).toNat < (t.getS b).toNat →
         exec (.hwait d a b sc) s = .next (t.setH { t.h with wait := some .word })) ∧
       WritesOn t (.gstat d a sc 0) s d (wordOf l) ∧
       ((wordOf l).extractLsb' 0 16 ≠ 0 → WritesOn t (.gstat d a sc 1) s d (wordOf l)) ∧
       ((wordOf l).extractLsb' 0 16 = 0 →
         exec (.gstat d a sc 1) s = .next (t.setH { t.h with wait := some .word })))) ∧
  (∀ (s : State) (d a : Reg),
     let m : BitVec 16 := (s.getS a).extractLsb' 0 16
     let e := s.core.team.event
     let hit := e &&& m &&& ~~~earlierWaits s
     exec (.sev a) s = .next ((s.setTeam { s.core.team with event := e ||| m }).bump 4) ∧
     (m = 0 → exec (.wfe d a) s = .next ((s.setS d 0).bump 4)) ∧
     (hit ≠ 0 → exec (.wfe d a) s =
       .next (((s.setTeam { s.core.team with event := e &&& ~~~hit }).setS d (hit.setWidth 64)).bump 4)) ∧
     (m ≠ 0 → hit = 0 → Stalls (.wfe d a) s (.event m)) ∧
     (s.tnd = 0 → s.xh = false → earlierWaits s = 0) ∧
     ((∀ k : Fin 4, s.core.team.tds[k].a.h.wait = none ∧ s.core.team.tds[k].x.h.wait = none) → earlierWaits s = 0)) ∧
  (∀ (s : State),
     (waiting s s.core.team.prio = false → exec .yield s = .next (s.bump 4)) ∧
     (∃ t, exec .halt s = .next t ∧ t.h = { s.h with pc := s.pc + 4, wait := none, halted := true } ∧ t.setH s.h = s) ∧
     (∀ g t x, s.core.num = g → s.tnd = t → s.xh = x → s.h.halted = true → readyFault s = none →
       ∃ u, hartMove g t x s = .next u ∧ u.h = { s.h with slot := u.h.slot } ∧ u.setH s.h = s))
/-! ## Vector instructions -/

namespace Sys2Proof.Claims

/-- An instruction of the X-hart that passes check 7 completes in a state; one that does not is illegal with cause 7. -/
def VectorRuns (i : Instr) (s : State) (ok : XHart → Bool) (t : State) : Prop :=
  (ok s.x = true → exec i s = .next (t.bump 4)) ∧ (ok s.x = false → Illegal i s 7)

/-- The low w bits of an integer, as a number. -/
def low (w : Nat) (v : Int) : Nat := (v % 2 ^ w).toNat

/-- An element result that only has a value, and one that also raises flags. -/
def plain (v : Nat) : ElemRes := { v := v }
def flagged (r : Word × Flags) : ElemRes := { v := r.1.toNat, fl := r.2 }

/-- A value clamped to the range of a w-bit number, saturation noted (R85). -/
def clamped (signed : Bool) (w : Nat) (v : Int) : ElemRes :=
  let lo : Int := if signed then -2 ^ (w - 1) else 0
  let hi : Int := if signed then 2 ^ (w - 1) - 1 else 2 ^ w - 1
  let r := if v < lo then lo else if hi < v then hi else v
  { v := low w r, sat := r != v }

/-- The division of one element with the edge values of R171. -/
def divided (signed remainder : Bool) (w : Nat) (a b : Int) : ElemRes :=
  if b = 0 then { v := low w (if remainder then a else -1), exc := true }
  else if signed = true ∧ a = -2 ^ (w - 1) ∧ b = -1 then { v := low w (if remainder then 0 else a), exc := true }
  else { v := low w (if remainder then a - b * a.tdiv b else a.tdiv b) }

/-- Elements of the strip of the X-hart, and the number that fit one register at width w. -/
def inStrip (s : State) (i : Nat) : Prop := s.x.vstart.toNat ≤ i ∧ i < s.x.vl.toNat

/-- The strip fits the destination group: the group is aligned within v0 to v31, at most 8 lane groups issue, and the
strip has no more elements than the group holds (R36, R58). -/
def fits (s : State) (d : Reg) (g w : Nat) : Prop :=
  w ∈ [8, 16, 32, 64, 128, 256] ∧ 0 < s.core.team.w ∧ s.core.team.w ≤ 8 ∧ d.toNat + g ≤ 32 ∧
  s.x.vl.toNat ≤ s.perWidth w * g

/-- Element i of the group at d, at width w. -/
def element (s : State) (w : Nat) (d : Reg) (i : Nat) : Nat := s.x.elemN (s.perWidth w) w d.toNat i

/-- What an element-wise instruction leaves (R66, R70, R167): each active element of the strip takes its result, the other
elements of the strip and those before it stay, the tail is zeroed or stays, and nothing but the destination group, the
exception mask, the sticky flags, `ldst`, `vstart` and the progress indices changes. -/
structure ElementWise (s t : State) (d : Reg) (g w : Nat) (k : BitVec 3) (e : Bit) (kx : BitVec 3)
    (op : Nat → ElemRes) : Prop where
  active : ∀ i, inStrip s i → s.x.active k i = true → element t w d i = (op i).v % 2 ^ w
  inactive : ∀ i, inStrip s i → s.x.active k i = false → element t w d i = element s w d i
  before : ∀ i, i < s.x.vstart.toNat → element t w d i = element s w d i
  tail : ∀ i, s.x.vl.toNat ≤ i → i < s.perWidth w * g →
    element t w d i = if s.x.tail && !s.x.two then 0 else element s w d i
  registers : ∀ r : Fin 32, (r.val < d.toNat ∨ d.toNat + g ≤ r.val) → t.x.v[r] = s.x.v[r]
  exception : ∀ i, inStrip s i → e = 1 → t.x.maskBit kx i = (s.x.active k i && (op i).bit s.x.xsel)
  masks : ∀ (m : BitVec 3) (i : Nat), (e = 0 ∨ m ≠ kx ∨ ¬ inStrip s i) → t.x.maskBit m i = s.x.maskBit m i
  flags : ∀ j, t.x.h.fflags.getLsbD j = (s.x.h.fflags.getLsbD j ||
    s.x.elems.any (fun i => s.x.active k i && (op i).fl.getLsbD j))
  sat : t.x.vxsat = (s.x.vxsat || s.x.elems.any (fun i => s.x.active k i && (op i).sat))
  hart : t.x.h = { s.x.h with ldst := 2#2 ++ d, fflags := t.x.h.fflags }
  rest : t = s.setX { s.x with
    h := t.x.h, v := t.x.v, k := t.x.k, prog := t.x.prog, vxsat := t.x.vxsat, vstart := 0 }

/-- The same for an instruction that writes a mask register; `ldst` stays. -/
structure MaskWise (s t : State) (d : BitVec 3) (k : BitVec 3) (e : Bit) (kx : BitVec 3) (op : Nat → ElemRes) :
    Prop where
  active : ∀ i, inStrip s i → s.x.active k i = true → (e = 0 ∨ d ≠ kx) → t.x.maskBit d i = ((op i).v != 0)
  inactive : ∀ i, inStrip s i → s.x.active k i = false → (e = 0 ∨ d ≠ kx) → t.x.maskBit d i = s.x.maskBit d i
  exception : ∀ i, inStrip s i → e = 1 → t.x.maskBit kx i = (s.x.active k i && (op i).bit s.x.xsel)
  masks : ∀ (m : BitVec 3) (i : Nat), (m ≠ d ∧ (e = 0 ∨ m ≠ kx) ∨ ¬ inStrip s i) → t.x.maskBit m i = s.x.maskBit m i
  flags : ∀ j, t.x.h.fflags.getLsbD j = (s.x.h.fflags.getLsbD j ||
    s.x.elems.any (fun i => s.x.active k i && (op i).fl.getLsbD j))
  hart : t.x.h = { s.x.h with fflags := t.x.h.fflags }
  rest : t = s.setX { s.x with h := t.x.h, k := t.x.k, vstart := 0 }

/-- The instructions that only an X-hart issues, and those that only an A-hart does (R112). -/
def xOnly : Instr → Bool
  | .setdim _ _ _ | .settype _ _ | .vpop _ _ _ | .vpush _ _ _ | .vmv _ _ _ _ _ _ | .vsplat _ _ _ _
  | .vadd _ _ _ _ _ | .vsub _ _ _ _ _ | .vsadd _ _ _ _ _ | .vssub _ _ _ _ _ | .vmul _ _ _ _ _ | .vmulh _ _ _ _ _
  | .vdiv _ _ _ _ _ _ _ | .vrem _ _ _ _ _ _ _ | .vmin _ _ _ _ _ | .vmax _ _ _ _ _ | .vand _ _ _ _ _
  | .vor _ _ _ _ _ | .vxor _ _ _ _ _ | .vsll _ _ _ _ _ | .vsrl _ _ _ _ _ | .vsra _ _ _ _ _ | .vcmp _ _ _ _ _
  | .vsel _ _ _ _ _ | .vpopc _ _ _ _ | .vwmac _ _ _ _ _ | .vnsr _ _ _ _ _ | .vthrb _ _ _ _ _ | .vbtr _ _ _
  | .vmlog _ _ _ _ _ | .vfadd _ _ _ _ _ _ _ | .vfsub _ _ _ _ _ _ _ | .vfmul _ _ _ _ _ _ _ | .vfdiv _ _ _ _ _ _ _
  | .vfma _ _ _ _ _ _ _ | .vfmin _ _ _ _ _ _ _ | .vfmax _ _ _ _ _ _ _ | .vfcmp _ _ _ _ _ _ _ | .vfsfu _ _ _ _ _ _
  | .vfcvt _ _ _ _ _ _ _ | .vfnar _ _ _ _ _ _ _ | .vfwid _ _ _ _ _ _ | .vfq4 _ _ _ _ _ _ _ | .vfscl _ _ _ _ _ _ _
  | .vfsgn _ _ _ _ _ | .vfcls _ _ _ | .vred _ _ _ _ _ | .vscan _ _ _ _ _ _ | .vslide _ _ _ _ _ | .vgath _ _ _ _ _ _ _
  | .vcmpr _ _ _ _ | .vsmx _ _ _ _ _ | .vfetch _ _ _ _ _ _ _ | .vlid _ _ _ _ | .menter _ _ | .mexit | .mzero _ _
  | .mopa _ _ _ _ _ | .msclA _ | .msclW _ _ | .mdrain _ _ _ _ _ _ _ | .mstat _ => true
  | _ => false
def aOnly : Instr → Bool
  | .ld _ _ _ _ | .ldu _ _ _ _ | .st _ _ _ _ | .fld _ _ _ _ | .fst _ _ _ _ | .sdecl _ _ _ _ | .sdeclEnd _
  | .shw _ _ _ | .swait _ | .vld _ _ _ _ _ | .vlds _ _ _ _ _ | .vld2 _ _ _ _ _ _ | .vldx _ _ _ _ _ _
  | .vldseg _ _ _ _ _ | .vst _ _ _ _ _ | .vsts _ _ _ _ _ | .vst2 _ _ _ _ _ _ | .vstx _ _ _ _ _ _
  | .vstseg _ _ _ _ _ | .lfe _ _ _ _ _ | .lwait _ _ _ _ _ | .mfeed _ _ _ _ _ | .pbank _ _ _ _ _ | .pbankNone _
  | .peval _ _ _ _ _ _ | .pvote _ _ _ _ _ _ | .pfeed _ _ _ _ _ | .pstep _ _ _ _ _ | .pdraw _ _ _ | .pkey _ _
  | .pkeySrc _ | .pkeyEp _ | .pplaneLd _ _ _ _ _ | .pplaneSt _ _ _ _ _ | .tgbind _ _ _ _ _ | .tgbindNone _
  | .tgload _ _ _ _ | .tgscat _ _ _ _ | .xconvV _ _ _ _ _ | .xconvS _ _ _ _ _ | .amoadd _ _ _ _ _ _ _ _
  | .amoand _ _ _ _ _ _ _ _ | .amoor _ _ _ _ _ _ _ _ | .amoxor _ _ _ _ _ _ _ _ | .amomm _ _ _ _ _ _ _ _ _
  | .amoswp _ _ _ _ _ _ _ _ | .amocas _ _ _ _ _ _ _ _ | .vsca _ _ _ _ _ _ _ | .fence _ _ | .ldacq _ _ _ _
  | .strel _ _ _ _ | .bar _ _ _ _ | .barw _ _ _ _ _ | .hwait _ _ _ _ | .cpy _ _ _ _ _ _ | .coll _ _ _ _ _
  | .glaunch _ _ _ _ _ | .glaunchRed _ _ _ _ _ | .gstat _ _ _ _ => true
  | _ => false

end Sys2Proof.Claims

/-- R66, R70 and R167: the element-wise rule, for every operation, width, mask and destination group; a strip with
nothing at or past `vstart` only clears `vstart`. R66, R69 and R167: the same for instructions that write a mask
register. It rests on choices and inferences of the model: log entries 3, 36, 88 and 95. -/
def Obligations.ElementRules : Prop :=
  (∀ (s : State) (d : Reg) (g w : Nat) (k : BitVec 3) (e : Bit) (kx : BitVec 3) (op : Nat → ElemRes), s.xh = true →
     (s.x.vl ≤ s.x.vstart → vectorOp s d g w k e kx op = s.setX { s.x with vstart := 0 }) ∧
     (s.x.vstart < s.x.vl → fits s d g w → s.x.vl.toNat ≤ 2048 ∨ e = 0 →
       ElementWise s (vectorOp s d g w k e kx op) d g w k e kx op)) ∧
  (∀ (s : State) (d k : BitVec 3) (e : Bit) (kx : BitVec 3) (op : Nat → ElemRes), s.xh = true →
     (s.x.vl ≤ s.x.vstart → maskOp s d k e kx op = s.setX { s.x with vstart := 0 }) ∧
     (s.x.vstart < s.x.vl → s.x.vl.toNat ≤ 2048 → MaskWise s (maskOp s d k e kx op) d k e kx op))

/-- R112, R119 and R383: an instruction of the X-hart alone is illegal with cause 4 on an A-hart, and one of the
A-hart alone on an X-hart; the check comes before those of the fields. -/
def Obligations.WrongHart : Prop :=
  ∀ (i : Instr) (s : State),
    (xOnly i = true → s.xh = false → Illegal i s 4) ∧ (aOnly i = true → s.xh = true → Illegal i s 4)

/-- R61 and R162: `vpop` fills its destination from the oldest entries of its head, one for each register of the
strip, an entry giving zeros for what it does not supply; with too few entries it keeps `vstart` at the first element
it lacks and stalls; an entry that still fills is none yet. `vpush` appends one entry for each register of the strip,
its active elements packed. It rests on choices and inferences of the model: log entries 3 and 95. -/
def Obligations.VectorQueues : Prop :=
  ∀ (s : State) (d a : Reg) (k : BitVec 3), s.xh = true →
    let x := s.x
    let w := sewBits x.sew
    let g := groupCount x.group
    let c := s.perReg x.sew
    let first := x.vstart.toNat / c
    let need := ceilDiv x.vl.toNat c - first
    let old := (headOf s a.toNat).takeWhile (fun q => !q.fill)
    let out := headOf s d.toNat
    (check7 x true [(d, g)] (k != 0) false [] = true → a.toNat < 4 →
      (x.vl ≤ x.vstart → exec (.vpop d a k) s = .next ((s.setX { x with vstart := 0 }).bump 4)) ∧
      (x.vstart < x.vl → fits s d g w → need ≤ old.length →
        ∃ t : State, exec (.vpop d a k) s = .next (t.bump 4) ∧ headOf t a.toNat = (headOf s a.toNat).drop need ∧
          (∀ e ∈ s.early, e.dest = none → e ∈ t.early) ∧ (∀ e ∈ t.early, ∃ f ∈ s.early, e = { f with dest := e.dest }) ∧
          ElementWise { s with early := t.early } (setHead t a.toNat (headOf s a.toNat)) d g w k 0 0 (fun i =>
            match old[i / c - first]? with
            | some q => plain (if i % c < q.count.toNat * sewBits q.sew / w then getElemN q.data w (i % c) else 0)
            | none => plain 0)) ∧
      (x.vstart < x.vl → fits s d g w → old.length < need →
        ∃ t : State, exec (.vpop d a k) s = .next t ∧ t.h.wait = some .queue ∧ t.pc = s.pc ∧
          headOf t a.toNat = (headOf s a.toNat).drop old.length ∧
          t.x.vstart.toNat = max ((first + old.length) * c) x.vstart.toNat)) ∧
    (check7 x true [(a, g)] (k != 0) false [] = true → d.toNat = 4 ∨ d.toNat = 5 →
      (x.vl ≤ x.vstart → exec (.vpush d a k) s = .next ((s.setX { x with vstart := 0 }).bump 4)) ∧
      (x.vstart < x.vl → fits s a g w → out.length + need ≤ 2 →
        ∃ new : List QEntry, new.length = need ∧
          exec (.vpush d a k) s = .next ((setHead (s.setX { x with vstart := 0 }) d.toNat (out ++ new)).bump 4) ∧
          ∀ j, (h : j < new.length) →
            let act := x.elems.filter (fun i => i / c = first + j && x.active k i)
            new[j].sew = x.sew ∧ new[j].fill = false ∧ new[j].count.toNat = act.length ∧
            ∀ n, (hn : n < act.length) → getElemN new[j].data w n = element s w a act[n]) ∧
      (x.vstart < x.vl → fits s a g w → 2 ≤ out.length →
        exec (.vpush d a k) s = .next (s.setH { s.h with wait := some .queue })))

/-- R172 and R174: comparisons and the logic of masks write a mask register; `vpopc.m` and `vpopc.ff` write how many
active elements a mask names, and the first of them or all ones. It rests on choices and inferences of the model: log
entries 3 and 95. -/
def Obligations.VectorMasks : Prop :=
  ∀ (s : State) (d a b : Reg) (k : BitVec 3), s.xh = true → d.toNat < 8 →
    let A := fun i => fmtVal s.x (vElem s a i)
    let B := fun i => fmtVal s.x (vElem s b i)
    let M := fun (r : Reg) (i : Nat) => s.x.k[r.toNat % 8].getLsbD i
    let compares := fun (p : BitVec 2) (c : Nat → Bool) =>
      VectorRuns (.vcmp d a b k p) s
        (fun x => check7 x (fmtInt x.fmt && x.matched) [(a, x.g 1), (b, x.g 1)] true false [])
        (maskOp s (d.setWidth 3) k 0 0 (fun i => plain (c i).toNat))
    let joins := fun (p : BitVec 2) (c : Nat → Bool) =>
      VectorRuns (.vmlog d a b k p) s (fun x => check7 x x.matched [] true false [])
        (maskOp s (d.setWidth 3) k 0 0 (fun i => plain (c i).toNat))
    let hits := (List.range s.x.vl.toNat).filter (fun i => s.x.active k i && M a i)
    let counts := fun x : XHart => check7 x x.matched [] true true []
    compares 0 (fun i => A i = B i) ∧ compares 1 (fun i => A i ≠ B i) ∧ compares 2 (fun i => A i < B i) ∧
    compares 3 (fun i => A i ≤ B i) ∧
    (a.toNat < 8 → b.toNat < 8 →
      joins 0 (fun i => M a i && M b i) ∧ joins 1 (fun i => M a i || M b i) ∧ joins 2 (fun i => M a i != M b i) ∧
      joins 3 (fun i => M a i && !M b i)) ∧
    (a.toNat < 8 → ∀ r : Reg,
      VectorRuns (.vpopc r a k 0) s counts ((s.setX { s.x with vstart := 0 }).setS r (BitVec.ofNat 64 hits.length)) ∧
      VectorRuns (.vpopc r a k 2) s counts ((s.setX { s.x with vstart := 0 }).setS r
        (match hits.head? with
          | none => 0xFFFFFFFFFFFFFFFF
          | some i => BitVec.ofNat 64 i)))

/-- R162 and R170: moves, and the integer instructions on elements of sew bits, read by the signedness of `fmt`. R162,
R170, R173, R174 and R178: moves, bit operations, shifts, selection and bit counts. R85, R175 and R176: the widening
multiply-accumulate and the narrowing shift, both saturating. R85 and R67: the four roundings of a fixed-point shift
by d bits: half up, half to even, down, and to odd. It rests on choices and inferences of the model: log entries 3,
39, 88 and 95. -/
def Obligations.VectorIntegers : Prop :=
  (∀ (s : State) (d a b : Reg) (k : BitVec 3) (e : Bit) (kx : BitVec 3) (v : BitVec 2), s.xh = true → v ≠ 3 →
     let x := s.x
     let w := sewBits x.sew
     let g := groupCount x.group
     let sg := fmtSigned x.fmt
     let A := fun i => fmtVal x (vElem s a i)
     let B := fun i => fmtVal x (bInt s v b i)
     let elementwise := fun (i : Instr) (ok : XHart → Bool) (op : Nat → ElemRes) =>
       VectorRuns i s ok (vectorOp s d g w k 0 0 op)
     elementwise (.vadd d a b k v) (intOk d a b k 0 v) (fun i => plain (low w (A i + B i))) ∧
     elementwise (.vsub d a b k v) (intOk d a b k 0 v) (fun i => plain (low w (A i - B i))) ∧
     elementwise (.vsadd d a b k v) (intOk d a b k 0 v) (fun i => clamped sg w (A i + B i)) ∧
     elementwise (.vssub d a b k v) (intOk d a b k 0 v) (fun i => clamped sg w (A i - B i)) ∧
     elementwise (.vmul d a b k v) (intOk d a b k 0 v) (fun i => plain (low w (A i * B i))) ∧
     elementwise (.vmulh d a b k v) (intOk d a b k 0 v) (fun i => plain (low w (A i * B i / 2 ^ w))) ∧
     elementwise (.vmin d a b k v) (intOk d a b k 0 v) (fun i => plain (low w (if A i ≤ B i then A i else B i))) ∧
     elementwise (.vmax d a b k v) (intOk d a b k 0 v) (fun i => plain (low w (if A i ≤ B i then B i else A i))) ∧
     (maskDestOk e kx = true →
       VectorRuns (.vdiv d a b k e kx v) s (intOk d a b k e v)
         (vectorOp s d g w k e kx (fun i => divided sg false w (A i) (B i))) ∧
       VectorRuns (.vrem d a b k e kx v) s (intOk d a b k e v)
         (vectorOp s d g w k e kx (fun i => divided sg true w (A i) (B i))))) ∧
  (∀ (s : State) (d a b : Reg) (k n : BitVec 3) (e : Bit) (kx : BitVec 3) (v : BitVec 2), s.xh = true → v ≠ 3 →
     let x := s.x
     let w := sewBits x.sew
     let g := groupCount x.group
     let A := fun i => (vElem s a i).toNat
     let B := fun i => (bInt s v b i).toNat
     let N := fun i => (if v = 2 then b.toNat else B i) % w
     let elementwise := fun (i : Instr) (ok : XHart → Bool) (op : Nat → ElemRes) =>
       VectorRuns i s ok (vectorOp s d g w k 0 0 op)
     elementwise (.vand d a b k v) (anyOk d a b k v) (fun i => plain (A i &&& B i)) ∧
     elementwise (.vor d a b k v) (anyOk d a b k v) (fun i => plain (A i ||| B i)) ∧
     elementwise (.vxor d a b k v) (anyOk d a b k v) (fun i => plain (A i ^^^ B i)) ∧
     elementwise (.vsll d a b k v) (anyOk d a b k v) (fun i => plain (A i * 2 ^ N i)) ∧
     elementwise (.vsrl d a b k v) (anyOk d a b k v) (fun i => plain (A i / 2 ^ N i)) ∧
     elementwise (.vsra d a b k v) (anyOk d a b k v) (fun i => plain (low w (signedElem w (vElem s a i) / 2 ^ N i))) ∧
     VectorRuns (.vsel d a b n v) s (anyOk d a b n v)
       (vectorOp s d g w 0 0 0 (fun i => plain (if n = 0 ∨ x.maskBit n i = true then A i else B i))) ∧
     VectorRuns (.vmv d a k 0 0 0) s (moveOk d a k 0 false) (vectorOp s d g w k 0 0 (fun i => plain (A i))) ∧
     (maskDestOk e kx = true →
       VectorRuns (.vmv d a k e kx 1) s (moveOk d a k e true)
         (vectorOp s d g w k e kx (fun i =>
           let j := x.sweep i
           if 0 ≤ j ∧ j < s.perWidth w * g then plain (A j.toNat) else { v := 0, exc := true }))) ∧
     VectorRuns (.vsplat d a k 0) s (fun x => check7 x true [(d, x.g 1)] (k != 0) false [])
       (vectorOp s d g w k 0 0 (fun _ => plain (s.getS a).toNat)) ∧
     VectorRuns (.vsplat d a k 1) s (fun x => check7 x true [(d, x.g 1)] (k != 0) false [])
       (vectorOp s d g w k 0 0 (fun _ => plain (s.getF a).toNat)) ∧
     VectorRuns (.vpopc d a k 1) s (fun x => check7 x x.matched [(d, x.g 1), (a, x.g 1)] (k != 0) false [])
       (vectorOp s d g w k 0 0 (fun i => plain ((List.range w).countP (fun j => (A i).testBit j))))) ∧
  (∀ (s : State) (d a b : Reg) (k : BitVec 3) (four imm : Bool), s.xh = true →
     let v : BitVec 2 := (if four then 2 else 0) + (if imm then 1 else 0)
     let m := if four then 4 else 2
     let x := s.x
     let w := sewBits x.sew
     let ww := m * w
     let sg := fmtSigned x.fmt
     let wideVal := fun (r : Reg) (i : Nat) => valueAt sg ww (element s ww r i)
     let others := fun (x : XHart) => if imm then ([] : List Group) else [(b, x.g 1)]
     VectorRuns (.vwmac d a b k v) s
       (fun x => check7 x (fmtInt x.fmt && x.matched) ([(d, x.g m), (a, x.g 1)] ++ others x) (k != 0) false
         (((d, x.g m), (a, x.g 1)) :: (others x).map (fun g => ((d, x.g m), g))))
       (vectorOp s d (m * groupCount x.group) ww k 0 0 (fun i =>
         clamped sg ww (wideVal d i + fmtVal x (vElem s a i) * fmtVal x (bInt s (if imm then 1 else 0) b i)))) ∧
     VectorRuns (.vnsr d a b k v) s
       (fun x => check7 x (fmtInt x.fmt && x.matched) ([(d, x.g 1), (a, x.g m)] ++ others x) (k != 0) false
         (((d, x.g 1), (a, x.g m)) :: (others x).map (fun g => ((a, x.g m), g))))
       (vectorOp s d (groupCount x.group) w k 0 0 (fun i =>
         clamped sg w (fixedRound (wideVal a i) ((if imm then b.toNat else (vElem s b i).toNat) % ww) x.vxrm)))) ∧
  (∀ (v : Int) (d : Nat),
     (∀ m, fixedRound v 0 m = v) ∧
     (0 < d →
       let q := v / 2 ^ d
       let low := v % 2 ^ d
       let half : Int := 2 ^ (d - 1)
       fixedRound v d 0 = (v + half) / 2 ^ d ∧
       fixedRound v d 1 = (if low < half then q else if half < low then q + 1 else if q % 2 = 0 then q else q + 1) ∧
       fixedRound v d 2 = q ∧
       fixedRound v d 3 = (if low = 0 then q else if q % 2 = 0 then q + 1 else q)))

/-- R177 and R178: `vthrb` writes one bit for each element above its threshold, packed from bit 0 of one register, and
zeros up to a whole byte; `vbtr` transposes between elements and planes of bits. It rests on choices and inferences of
the model: log entries 3, 76, 88 and 95. -/
def Obligations.ClauseBits : Prop :=
  ∀ (s : State) (d a b : Reg) (k : BitVec 3) (v : BitVec 2), s.xh = true → v.toNat < 2 →
    let x := s.x
    let w := sewBits x.sew
    let g := groupCount x.group
    let n := x.vl.toNat
    (check7 x (x.matched && x.fmt != 14) ([(a, x.g 1)] ++ (if v = 0 then [(b, x.g 1)] else [])) (k != 0) false [] = true →
      x.vstart < x.vl → ∃ t : State, exec (.vthrb d a b k v) s = .next (t.bump 4) ∧
        (∀ i, x.vstart.toNat ≤ i → i < 8 * ceilDiv n 8 → i < 65536 →
          (t.x.reg d.toNat).getLsbD i = (decide (i < n) && x.active k i && aboveThreshold s a b v i)) ∧
        (∀ i, (i < x.vstart.toNat ∨ 8 * ceilDiv n 8 ≤ i) → (t.x.reg d.toNat).getLsbD i = (x.reg d.toNat).getLsbD i) ∧
        (∀ r : Fin 32, r.val ≠ d.toNat → t.x.v[r] = x.v[r]) ∧
        t = s.setX { x with v := t.x.v, prog := t.x.prog, vstart := 0, h := { x.h with ldst := 2#2 ++ d } }) ∧
    (check7 x x.matched [(d, x.g 1), (a, x.g 1)] false true [((d, x.g 1), (a, x.g 1))] = true → 0 < n → fits s d g w →
      fits s a g w →
      (∃ t : State, exec (.vbtr d a 1) s = .next (t.bump 4) ∧ ElementWise s t d g w 0 0 0 (fun i =>
        plain ((List.range w).foldl (fun m p =>
          m + (if (element s 8 a (p * (16 * ceilDiv n 128) + i / 8)).testBit (i % 8) then 2 ^ p else 0)) 0))) ∧
      (∃ t : State, exec (.vbtr d a 0) s = .next (t.bump 4) ∧
        (w * (16 * ceilDiv n 128) ≤ s.perWidth 8 * g → ∀ p i, p < w → i < 128 * ceilDiv n 128 →
          (element t 8 d (p * (16 * ceilDiv n 128) + i / 8)).testBit (i % 8) =
            (decide (i < n) && (vElem s a i).getLsbD p)) ∧
        (∀ r : Fin 32, (r.val < d.toNat ∨ d.toNat + g ≤ r.val) → t.x.v[r] = x.v[r]) ∧
        t = s.setX { x with v := t.x.v, prog := t.x.prog, vstart := 0, h := { x.h with ldst := 2#2 ++ d } }))

/-- R179 to R182: the floating-point instructions on elements, each with the flags of its operation. It rests on
choices and inferences of the model: log entries 3, 35, 88 and 95. -/
def Obligations.VectorFloat : Prop :=
  ∀ (s : State) (d a b : Reg) (k : BitVec 3) (e : Bit) (kx : BitVec 3) (v : BitVec 2), s.xh = true →
    maskDestOk e kx = true →
    let x := s.x
    let w := sewBits x.sew
    let g := groupCount x.group
    let f := x.float
    let m := Rnd.ofFrm x.h.frm
    let A := fun i => vElem s a i
    let B := fun i => bFloat s v b i
    let runs := fun (i : Instr) (op : Nat → Word × Flags) =>
      VectorRuns i s (fpOk d a b k e v) (vectorOp s d g w k e kx (fun j => flagged (op j)))
    (v.toNat < 2 →
      runs (.vfadd d a b k e kx v) (fun i => fpAdd f m (A i) (B i)) ∧
      runs (.vfsub d a b k e kx v) (fun i => fpSub f m (A i) (B i)) ∧
      runs (.vfmul d a b k e kx v) (fun i => fpMul f m (A i) (B i)) ∧
      runs (.vfdiv d a b k e kx v) (fun i => fpDiv f m (A i) (B i)) ∧
      runs (.vfmin d a b k e kx v) (fun i => fpMinMax f false (A i) (B i)) ∧
      runs (.vfmax d a b k e kx v) (fun i => fpMinMax f true (A i) (B i))) ∧
    runs (.vfma d a b k e kx v) (fun i => fpFma f m (A i) (B i) (vElem s d i) (v.getLsbD 1)) ∧
    (d.toNat < 8 → VectorRuns (.vfcmp d a b k e kx v) s
      (fun x => check7 x (fmtFp x.fmt && x.matched) [(a, x.g 1), (b, x.g 1)] true false [])
      (maskOp s (d.setWidth 3) k e kx (fun i =>
        { v := (fpCompare f v (A i) (vElem s b i)).1.toNat, fl := (fpCompare f v (A i) (vElem s b i)).2 }))) ∧
    (b.toNat ≤ 4 → VectorRuns (.vfsfu d a b k e kx) s
      (fun x => check7 x (x.fmt == 9 && x.matched) [(d, x.g 1), (a, x.g 1)] (maskUsed k e) false [])
      (vectorOp s d g w k e kx (fun i =>
        flagged (sfu (([.sqrt, .rcp, .rsqrt, .exp2, .log2] : List Sfu).getD b.toNat .log2) (A i))))) ∧
    (v ≠ 3 → VectorRuns (.vfsgn d a b k v) s
      (fun x => check7 x (!fmtInt x.fmt && x.matched) [(d, x.g 1), (a, x.g 1), (b, x.g 1)] (k != 0) false [])
      (vectorOp s d g w k 0 0 (fun i => plain (signElem x v (A i).toNat (vElem s b i).toNat)))) ∧
    VectorRuns (.vfcls d a k) s
      (fun x => check7 x (!fmtInt x.fmt && x.fmt != 14 && x.matched) [(d, x.g 1), (a, x.g 1)] (k != 0) false [])
      (vectorOp s d g w k 0 0 (fun i => plain (classNumber f (A i))))

/-- R183 to R186: conversions between formats of one width, to half and to twice the width, to packed e2m1, and block
scaling. It rests on choices and inferences of the model: log entries 3, 35, 74, 88 and 95. -/
def Obligations.VectorConversions : Prop :=
  ∀ (s : State) (d a b : Reg) (t : BitVec 4) (k : BitVec 3) (e : Bit) (kx : BitVec 3) (bf sr : Bool), s.xh = true →
    maskDestOk e kx = true →
    let x := s.x
    let w := sewBits x.sew
    let g := groupCount x.group
    let m := Rnd.ofFrm x.h.frm
    let draws := fun (x : XHart) => if sr then [((b, drawGroup x) : Group)] else []
    let rnd := fun (j : Nat) => if sr then Rnd.sr (BitVec.ofNat 16 (element s 16 b j)) else m
    (t.toNat ≤ 13 →
      VectorRuns (.vfcvt d a t k e kx (if sr then 1 else 0)) s
        (fun x => check7 x (cvtPair x.fmt t && x.matched) [(d, x.g 1), (a, x.g 1)] (maskUsed k e) false [])
        (vectorOp s d g w k e kx (fun i => cvtElem x t (if sr then .rtz else m) (vElem s a i)))) ∧
    ((sr = true ∨ b = 0) →
      VectorRuns (.vfnar d a b k e kx ((if bf then 2 else 0) + (if sr then 1 else 0))) s
        (fun x => check7 x (9 ≤ x.fmt.toNat && x.fmt.toNat ≤ 13 && x.matched && (!bf || 12 ≤ x.fmt.toNat))
          ([(d, x.g 1), (a, x.g 2)] ++ draws x) (maskUsed k e) false
          (((d, x.g 1), (a, x.g 2)) :: (draws x).map (fun g => ((a, x.g 2), g)) ++
            (if sr && x.sew == 0 then [((d, x.g 1), (b, x.g 2))] else [])))
        (vectorOp s d g w k e kx (fun i =>
          flagged (fpConvert (narrowSource x.fmt bf) x.float (rnd i) (BitVec.ofNat 64 (element s (2 * w) a i)))))) ∧
    (x.fmt ≠ 14 → VectorRuns (.vfwid d a k e kx (if bf then 1 else 0)) s
      (fun x => check7 x (9 ≤ x.fmt.toNat && x.matched && (!bf || x.fmt == 12 || x.fmt == 13))
        [(d, x.g 2), (a, x.g 1)] (maskUsed k e) false [((d, x.g 2), (a, x.g 1))])
      (vectorOp s d (2 * g) (2 * w) k e kx (fun i =>
        plain (fpConvert x.float (widenTarget x.fmt bf) .rne (vElem s a i)).1.toNat))) ∧
    (x.fmt = 14 → VectorRuns (.vfwid d a k e kx 0) s
      (fun x => check7 x x.matched [(d, x.g 2), (a, x.g 1)] (maskUsed k e) false [((d, x.g 2), (a, x.g 1))])
      (widenNibbles s d a k e kx)) ∧
    ((sr = true ∨ b = 0) → VectorRuns (.vfq4 d a b k e kx (if sr then 1 else 0)) s
      (fun x => check7 x (x.fmt == 14 && x.matched && x.group == 0) ([(d, 1), (a, 8)] ++ (if sr then [(b, 4)] else []))
        (maskUsed k e) false (((d, 1), (a, 8)) :: (if sr then [((a, 8), (b, 4)), ((d, 1), (b, 4))] else [])))
      (vectorOp s d 1 8 k e kx (fun i =>
        let val := fun (j : Nat) => fpConvert .fp32 .e2m1 (rnd j) (BitVec.ofNat 64 (element s 32 a j))
        { v := (val (2 * i)).1.toNat + 16 * (val (2 * i + 1)).1.toNat,
          fl := (val (2 * i)).2 ||| (val (2 * i + 1)).2 }))) ∧
    (∀ v : BitVec 2, check7 x (x.fmt == 9 && x.matched) [(d, x.g 1), (a, x.g 1)] (maskUsed k e) false
        [((d, x.g 1), (a, x.g 1)), ((d, x.g 1), (b, 1))] = true → x.vstart < x.vl →
      let code := fun (j : Nat) => if v = 3 then getElemN (x.reg b.toNat) 8 j else sclCode s a k v j
      let values := vectorOp s d g w k e kx (fun i =>
        if code (i / 32) = 255 then
          { v := 0x7FC00000, fl := if (Fmt.fp32.unpack (vElem s a i)).isSNaN then 16 else 0 }
        else flagged (scaled (vElem s a i) (if v = 3 then (code (i / 32) : Int) - 127 else 127 - (code (i / 32) : Int))))
      ∃ u : State, exec (.vfscl d a b k e kx v) s = .next (u.bump 4) ∧
        (∀ j, j < ceilDiv x.vl.toNat 32 → v ≠ 3 →
          getElemN (u.x.reg b.toNat) 8 j = if j < x.vstart.toNat / 32 then getElemN (x.reg b.toNat) 8 j else code j) ∧
        (v = 3 → u = values) ∧
        (v ≠ 3 → ∀ r : Fin 32, r.val ≠ b.toNat → u.x.v[r] = values.x.v[r] ∧ u.x.prog[r] = values.x.prog[r]) ∧
        u.x.k = values.x.k ∧ u.x.h = values.x.h ∧ u.x.vstart = 0)

/-- R94, R187 and R188: `vred` writes element 0 of one register, and `vscan` one element for each of the strip, by the
tree over the leaves, an inactive element standing for the identity; the carry forms push every element on the stack
in vb and give each active one what the stack comes to after its own push, or before it. R94: the tree combines
neighbours level by level: its value over n leaves padded to a power of two is that of its two halves combined, and of
one leaf the leaf. It rests on choices and inferences of the model: log entries 3, 38 and 95. -/
def Obligations.ReductionsAndScans : Prop :=
  (∀ (s : State) (d a b : Reg) (k o : BitVec 3), s.xh = true → o.toNat ≤ 5 →
     let x := s.x
     let w := sewBits x.sew
     let g := groupCount x.group
     let leaves := fun (n : Nat) => (List.range n).map (fun i => if x.active k i then vElem s a i else redIdentity x o)
     let tree := fun (n : Nat) => treeSum (redIdentity x o) (redApply x o) (leaves n)
     (check7 x (redFmtOk x o) [(d, x.g 1), (a, x.g 1)] (k != 0) true [] = true → x.vstart < x.vl →
       ∃ t : State, exec (.vred d a k o 0) s = .next (t.bump 4) ∧
         t.x.reg d.toNat = setElem (x.reg d.toNat) w 0 (tree x.vl.toNat).1 ∧
         (∀ r : Fin 32, r.val ≠ d.toNat → t.x.v[r] = x.v[r]) ∧
         t.x.h.fflags = x.h.fflags ||| (tree x.vl.toNat).2 ∧ t.x.h.ldst = 2#2 ++ d) ∧
     (check7 x (redFmtOk x o) [(d, 1), (a, x.g 1)] (k != 0) false [((d, 1), (a, x.g 1))] = true → x.vstart < x.vl →
       ∃ t : State, exec (.vred d a k o 1) s = .next (t.bump 4) ∧
         t.x.reg d.toNat = (x.elems.foldl (fun p i =>
           ((carryPush x o p.1 (leaf s a k o i)).1, p.2 ||| (carryPush x o p.1 (leaf s a k o i)).2))
           (x.reg d.toNat, (0 : Flags))).1 ∧
         (∀ r : Fin 32, r.val ≠ d.toNat → t.x.v[r] = x.v[r])) ∧
     (check7 x (redFmtOk x o) [(d, x.g 1), (a, 1)] (k != 0) true [] = true → x.vstart < x.vl →
       ∃ t : State, exec (.vred d a k o 2) s = .next (t.bump 4) ∧
         t.x.reg d.toNat = setElem (x.reg d.toNat) w 0 (carryFinal x o (x.reg a.toNat)).1 ∧
         (∀ r : Fin 32, r.val ≠ d.toNat → t.x.v[r] = x.v[r])) ∧
     (∀ ex : Bool, VectorRuns (.vscan d a 0 k o (if ex then 2 else 0)) s
       (fun x => check7 x (redFmtOk x o) [(d, x.g 1), (a, x.g 1)] (k != 0) true [((d, x.g 1), (a, x.g 1))])
       (vectorOp s d g w k 0 0 (fun i => flagged (tree (if ex then i else i + 1))))) ∧
     (∀ ex : Bool, check7 x (redFmtOk x o) [(d, x.g 1), (a, x.g 1), (b, 1)] (k != 0) false
         [((d, x.g 1), (a, x.g 1)), ((d, x.g 1), (b, 1))] = true → x.vstart < x.vl →
       ∃ t : State, exec (.vscan d a b k o (if ex then 3 else 1)) s = .next (t.bump 4) ∧
         let push := fun (st : VReg) (i : Nat) => (carryPush x o st (leaf s a k o i)).1
         let before := fun (i : Nat) => (x.elems.filter (fun j => j < i)).foldl push (x.reg b.toNat)
         t.x.reg b.toNat = x.elems.foldl push (x.reg b.toNat) ∧
         (fits s d g w →
           (∀ i, x.vstart.toNat ≤ i → i < x.vl.toNat → x.active k i = true →
             element t w d i = (carryFinal x o (if ex then before i else push (before i) i)).1.toNat % 2 ^ w) ∧
           (∀ i, i < x.vl.toNat → (i < x.vstart.toNat ∨ x.active k i = false) → element t w d i = element s w d i)) ∧
         t.x.h.ldst = 2#2 ++ d ∧ t.x.vstart = 0)) ∧
  (∀ (ident : Word) (f : Word → Word → Word × Flags) (k : Nat) (l r : List Word) (v : Word),
     (treeSum ident f [v]).1 = v ∧ (treeSum ident f []).1 = ident ∧
     (l.length = 2 ^ k → r.length = 2 ^ k →
       (treeSum ident f (l ++ r)).1 = (f (treeSum ident f l).1 (treeSum ident f r).1).1) ∧
     (2 ^ k < l.length → l.length < 2 ^ (k + 1) →
       (treeSum ident f l).1 = (treeSum ident f (l ++ List.replicate (2 ^ (k + 1) - l.length) ident)).1))

/-- R97 and R190: `vsmx.e` writes the exponentials of the active elements and, in f[b] and f[b + 1], the running
maximum and sum; `vsmx.c` writes one correction for each block. With `vl` = 0 neither writes an element; both set
`ldst`, and `vsmx.e` writes its running values back. It rests on choices and inferences of the model: log entries 3,
76, 88 and 90. -/
def Obligations.StripSoftmax : Prop :=
  ∀ (s : State) (d a b : Reg) (k : BitVec 3) (v : BitVec 2), s.xh = true → v.toNat < 2 → b.toNat ≤ 30 →
    let x := s.x
    let wide := x.g (32 / sewBits x.sew)
    let dest := if v = 0 then wide else 1
    let n := ceilDiv x.vl.toNat (groupElems x.sew)
    let bs := smxBlocks s a k (groupElems x.sew) n 0 ((s.getF b).setWidth 32 |>.setWidth 64)
      ((s.getF (b + 1)).setWidth 32 |>.setWidth 64)
    check7 x (9 ≤ x.fmt.toNat && x.fmt.toNat ≤ 11 && x.matched) [(d, dest), (a, x.g 1)] (k != 0) true
        [((d, dest), (a, x.g 1))] = true →
      (x.vl ≤ x.vstart → ∃ t : State, exec (.vsmx d a b k v) s = .next (t.bump 4) ∧ t.x.h.ldst = 2#2 ++ d ∧
        t.x.v = x.v ∧ t.x.prog = x.prog ∧ t.x.h.fflags = x.h.fflags ∧
        ∀ r, t.getF r = if v = 0 ∧ (r = b ∨ r = b + 1) then boxed 32 ((s.getF r).setWidth 32 |>.setWidth 64) else s.getF r) ∧
      (x.vstart < x.vl → (v = 0 → fits s d dest 32) →
      (v = 1 → 0 < s.core.team.w ∧ s.core.team.w ≤ 8 ∧ n ≤ s.perWidth 32) →
      ∃ t : State, exec (.vsmx d a b k v) s = .next (t.bump 4) ∧
        t.x.h.ldst = 2#2 ++ d ∧ t.x.h.fflags = x.h.fflags ||| bs.foldl (fun f t => f ||| t.fl) 0 ∧
        (v = 0 → (∀ i, i < x.vl.toNat → x.active k i = true →
            element t 32 d i = (((bs.flatMap SmxBlock.e)[i]?).getD 0).toNat % 2 ^ 32) ∧
          (∀ r, t.getF r = match bs.getLast? with
            | none => s.getF r
            | some l => if r = b + 1 then boxed 32 l.sum else if r = b then boxed 32 l.m else s.getF r)) ∧
        (v = 1 → (∀ j, (h : j < bs.length) → element t 32 d j = (bs[j].c).toNat % 2 ^ 32) ∧ (∀ r, t.getF r = s.getF r)))
/-! ## Vector memory -/

namespace Sys2Proof.Claims

/-- The next element group of a load read into the slots it has claimed, and its entries pushed once complete (R156,
R157); none where a head is full, indices are short or an element stops. -/
def groupLoaded (l : VLoad) (s : State) : Option State :=
  match claimAll l.d l.f (freeIndices s l.idx) with
  | (_, false) => none
  | (t, true) =>
    let lo := t.vm.restart * stripE t
    let hi := min (lo + stripE t) (stripN t)
    let xs := match l.idx with
      | some b => indices t b
      | none => List.replicate (stripE t) 0
    if xs.length < hi - lo then none
    else
      let items := ((span lo (hi - lo)).zip xs).flatMap (fun p => (List.range l.f).map (fun f => (p.1, f, p.2)))
      match loadElems l (sewBits t.a.sew) (stripC t) (stripBytes t) items t (heldReads t l) with
      | .error _ => none
      | .ok (u, v) =>
        let u := keepReads u l v ((hi - 1) % stripC u + 1) (hi = stripN u ∨ hi % stripC u = 0)
        let u := u.setVm { u.vm with restart := t.vm.restart + 1, lastRead := v.last }
        let u := match l.idx with
          | some b => useIndices u b (hi - t.vm.restart * stripE u)
          | none => u
        some (match l.ring with
          | some (j, _) => markSeen u j (items.flatMap (fun p => span (l.at p.1 p.2.1 p.2.2).toNat (stripBytes u)))
          | none => u)

/-- All groups of the strip from the restart index on. -/
def allLoaded (l : VLoad) : Nat → State → Option State
  | 0, s => if stripN s ≤ s.vm.restart * stripE s then some s else none
  | k + 1, s => if stripN s ≤ s.vm.restart * stripE s then some s else (groupLoaded l s).bind (allLoaded l k)

/-- A vector load that has not issued makes its acquire (R156, R226). -/
def vecAcquired (s : State) (acq : Bool) : State :=
  if acq = true ∧ s.vm.serial = 0 then forgetEarly s s.core.num [s.vectorAgent] else s

/-- A vector memory instruction that has not issued takes a number and samples the draw state (R72, R229). -/
def issued (s : State) : State :=
  if s.vm.serial = 0 then
    (nextSerial s).setVm { s.vm with serial := s.serial + 1, draw := s.core.team.sample }
  else s

/-- What is said of a vector load: on an empty strip it only acquires; a load that has a slot for its miss entry and whose
elements all can be read completes, taken whole. -/
def Loads (i : Instr) (s : State) (l : VLoad) : Prop :=
  let b := vecAcquired s l.acq
  (stripN b = 0 → exec i s = .next (b.bump 4)) ∧
  (stripN b ≠ 0 → ∀ t u, (if l.acq = true then claimHead (issued b) (l.d + l.f) else some (issued b)) = some t →
    s.limit = none → allLoaded l (ceilDiv (stripN t) (stripE t)) t = some u → exec i s = .next (finishLoad u l))

/-- The next element group of a store checked, converted and entered; one with an element on a page that rounds
stochastically opens the store-path port (R158, R220, R295). -/
def groupStored (st : VStore) (h : Nat) (r : State) : Option State :=
  let s := freeIndices r st.idx
  let per := ceilDiv (stripN r) (stripE r)
  let f := r.vm.restart / per
  let lo := r.vm.restart % per * stripE r
  let hi := min (lo + stripE r) (stripN r)
  let c := stripC r
  let w := sewBits s.a.sew
  match headOf s st.d with
  | [] => none
  | q :: _ =>
    let is := (span lo (hi - lo)).filter (fun i => i % c < q.supply w)
    let xs := match st.idx with
      | some b => indices s b
      | none => List.replicate (stripE r) 0
    if xs.length < is.length then none
    else
      let items := (is.zip xs).map (fun p => (p.1, st.addr2 p.1 f p.2 h, getElem q.data w (p.1 % c)))
      match openFor s (items.map (fun p => p.2.1)) with
      | none => none
      | some p =>
        match storeElems items p with
        | .error _ => none
        | .ok (t, ws, fl, xr) =>
          let t := ((enterGroup t ws).raise fl).raiseRange xr
          let t := match st.idx with
            | some b => useIndices t b is.length
            | none => t
          let t := t.setVm { t.vm with restart := r.vm.restart + 1 }
          some (if hi = stripN r ∨ hi % c = 0 then popHead t st.d else t)

/-- All groups of all fields from the restart index on. -/
def allStored (st : VStore) (h : Nat) : Nat → State → Option State
  | 0, s => if st.f * ceilDiv (stripN s) (stripE s) ≤ s.vm.restart then some s else none
  | k + 1, s =>
    if st.f * ceilDiv (stripN s) (stripE s) ≤ s.vm.restart then some s
    else (groupStored st h s).bind (allStored st h k)

/-- A vector store that has not issued makes its release (R156, R225). -/
def releasedVec (s : State) (sc : BitVec 2) (r : Bit) : State :=
  if r = 1 ∧ s.vm.serial = 0 then releaseMove s s.core.num [s.vectorAgent] sc else s

/-- No home holds up the release of a vector store. -/
def freeVec (s : State) (sc : BitVec 2) (r : Bit) : Prop :=
  r = 1 → s.vm.serial = 0 → releaseHeld s s.core.num [s.vectorAgent] sc = []

/-- The state after the last group of a store or scatter-add: its index entry goes and nothing is kept (R157, R159). -/
def storeDone (idx : Option Nat) (s : State) : State :=
  ((match idx with
    | some b => dropLeftover s b
    | none => s).setVm VMem.idle).bump 4

/-- What is said of a vector store: on an empty strip it only releases; where its base has no leaf, where an element at hand
lies on a page that rounds stochastically and the tag is taken, and then where its base is refused, it traps at issue; one
whose elements all can be stored completes, taken whole. -/
def Stores (i : Instr) (s : State) (st : VStore) (sc : BitVec 2) (r : Bit) : Prop :=
  freeVec s sc r →
  let b := releasedVec s sc r
  (stripN b = 0 → exec i s = .next (b.bump 4)) ∧
  (stripN b ≠ 0 →
    let t := issued b
    (∀ o, baseHalves t st = .error o → exec i s = o) ∧
    ∀ h, baseHalves t st = .ok h →
      let stochastic := ∃ a2 ∈ issueAddrs t st h,
        2 ≤ t.a.sew.toNat ∧ leafSrnd (pageAttr t t.who (BitVec.ofInt 64 (a2 / 2))) = 2
      (stochastic → openStorePort t = none → exec i s = t.trap 9 3 0 0 3) ∧
      ∀ p, (stochastic ∧ openStorePort t = some p ∨ ¬ stochastic ∧ p = t) →
        (∀ o, baseFault p st h = some o → exec i s = o) ∧
        (baseFault p st h = none → s.limit = none → ∀ u,
          allStored st h (st.f * ceilDiv (stripN p) (stripE p)) p = some u → exec i s = .next (storeDone st.idx u)))

/-- Elements of a scatter-add that have passed their checks enter, one atomic entry for each (R242). -/
def entered (s : State) (ps : List Add) : State :=
  (ps.foldl (fun s p => enterVec s p.elem p.rank p.payload) s).raiseRange (ps.any (·.range))

/-- The next element group of a scatter-add checked and entered; in a deterministic team its elements wait in the
instruction's record (R242, R379). -/
def groupScattered (float : Bool) (d b : Nat) (base : Word) (m : Int) (r : State) : Option State :=
  let s := freeIndices r (some b)
  match headOf s d with
  | [] => none
  | q :: _ =>
    match scaItems s q b base m r.vm.restart with
    | none => none
    | some items =>
      match scaElems s float items with
      | .error _ => none
      | .ok ps =>
        let t := if s.core.team.det = true then s.setVm { s.vm with sca := s.vm.sca ++ items } else entered s ps
        let t := useIndices t b items.length
        let t := t.setVm { t.vm with restart := r.vm.restart + 1 }
        let hi := min (r.vm.restart * stripE t + stripE t) (stripN t)
        some (if hi = stripN t ∨ hi % stripC t = 0 then popHead t d else t)

def allScattered (float : Bool) (d b : Nat) (base : Word) (m : Int) : Nat → State → Option State
  | 0, s => if stripN s ≤ s.vm.restart * stripE s then some s else none
  | k + 1, s =>
    if stripN s ≤ s.vm.restart * stripE s then some s
    else (groupScattered float d b base m s).bind (allScattered float d b base m k)

end Sys2Proof.Claims

/-- R156, R157 and R224: each vector load completes where its elements can be read, at the addresses of its entry:
unit steps, a stride, rows and columns or their transposition, indices, or fields. R130, R157, R221, R224 and R229:
what one element of a load gives: the bytes of its address, or a miss where it acquires at a scope at which its line
is not eligible; a misaligned, refused or poisoned element traps with its number in `tval`. A read executed early
counts only if it came no earlier than the last read it must follow: the instruction's last one on a host-shared page,
that of the groups before in a deterministic team. It rests on choices and inferences of the model: log entries 3, 4,
29, 69 and 78. -/
def Obligations.VectorLoads : Prop :=
  (∀ (s : State) (d a b : Reg) (sc : BitVec 2) (q : Bit) (v : BitVec 2), s.xh = false → d.toNat < 4 →
     (q = 1 → d.toNat + 1 < 4) →
     let base := s.getS a
     let size := sewBits s.a.sew / 8
     let at_ := fun (n : Nat) => BitVec.ofNat 64 n
     let row := fun i => if s.a.vcols.toNat = 0 then 0 else i / s.a.vcols.toNat
     let col := fun i => if s.a.vcols.toNat = 0 then i else i % s.a.vcols.toNat
     let load := fun (f : Nat) (r : Option (Nat × Stream)) (x : Option Nat) (addr : Nat → Nat → Int → Word) =>
       ({ d := d.toNat, f := f, acq := q == 1, scope := sc, ring := r, idx := x, addr := addr } : VLoad)
     Loads (.vld d a b sc q) s (load 1 (ringAt s (base + s.getS b)) none
       (fun i _ _ => base + s.getS b + at_ (i * size))) ∧
     Loads (.vlds d a b sc q) s (load 1 (ringAt s base) none (fun i _ _ => base + at_ i * s.getS b)) ∧
     Loads (.vld2 d a b sc q 0) s (load 1 (ringAt s base) none
       (fun i _ _ => base + at_ (row i) * s.getS b + at_ (col i * size))) ∧
     Loads (.vld2 d a b sc q 1) s (load 1 (ringAt s base) none
       (fun i _ _ => base + at_ (col i) * s.getS b + at_ (row i * size))) ∧
     (b.toNat = 4 ∨ b.toNat = 5 →
       Loads (.vldx d a b sc q 0) s (load 1 (ringAt s base) (some b.toNat) (fun _ _ x => base + BitVec.ofInt 64 x)) ∧
       Loads (.vldx d a b sc q 1) s (load 1 (ringAt s base) (some b.toNat)
         (fun _ _ x => base + BitVec.ofInt 64 (x * size)))) ∧
     (v ≠ 0 → d.toNat + v.toNat < 4 → (q = 1 → d.toNat + v.toNat + 1 < 4) →
       Loads (.vldseg d a sc q v) s (load (v.toNat + 1) (ringAt s base) none
         (fun i f _ => base + at_ ((i * (v.toNat + 1) + f) * size))))) ∧
  (∀ (s t : State) (l : VLoad) (i n last k : Nat) (va : Word) (p : Place) (e : Refused) (bytes : List Byte),
     (va.toNat % n ≠ 0 → loadElem s l i n last va = .error (elemTrap s 5 0 0 i va)) ∧
     (va.toNat % n = 0 → translate s s.who Ask.load va n = .error e →
       loadElem s l i n last va = .error (elemTrap s e.cls e.code 0 i va)) ∧
     (va.toNat % n = 0 → translate s s.who Ask.load va n = .ok p →
       let since := if leafHshared p.w1 = true then last else if s.core.team.det = true then s.vm.lastRead else 0
       let read := readSince s s.core.num s.vectorAgent since (span p.key n)
       (l.acq = true → leafSync p.w1 = true → eligible s.core.num p l.scope = false →
         loadElem s l i n last va = .ok (s, none, 0)) ∧
       ((l.acq = false ∨ leafSync p.w1 = false ∨ eligible s.core.num p l.scope = true) →
         (read = (t, .bytes bytes, k) → loadElem s l i n last va = .ok (t, some (unsignedOf bytes), k)) ∧
         (∀ j, read = (t, .poison j, k) →
           loadElem s l i n last va = .error (elemTrap t 11 (readCode t (span p.key n)) 0 i va))) ∧
       (since ≤ read.2.2 ∨ read.2.2 = s.ticks)) ∧
     (∀ cls code acc, s.h.priv = .user → ∃ u, elemTrap s cls code acc i va = .next u ∧ u.h.tval = BitVec.ofNat 64 i ∧
       u.h.tval2 = va ∧ u.h.tpc = s.pc ∧ u.h.priv = .system))

/-- R158, R159, R220, R225, R295 and R386: each vector store completes where its elements can be stored, at the
addresses of its entry, which count by the storage size of the base page except for a stride and an unscaled index;
one whose draw tag another port holds traps at issue (class 9, code 3). R220: the entries that an element group of a
store makes: home memory and every register stay, the older entries stand as they were, and a new one writes only
bytes that some element of the group writes, all within one line. R242: `vsca` completes, one atomic add for each
element, where every element passes its checks; on an empty strip it only releases, and a floating-point one on
elements of 8 or 16 bits is illegal with cause 7. An address s[a] without a leaf, or refused, is a fault of element 0.
In a deterministic team an element that fails a check stops it before any element performs: those that have passed
wait in the instruction's record, and enter together at its end. It rests on choices and inferences of the model: log
entries 3, 27, 28, 29, 30, 69, 75, 79, 89, 98 and 104. -/
def Obligations.VectorStores : Prop :=
  (∀ (s : State) (d a b : Reg) (sc : BitVec 2) (r : Bit) (v : BitVec 2), s.xh = false → d.toNat = 4 ∨ d.toNat = 5 →
     let base := s.getS a
     let row := fun i => if s.a.vcols.toNat = 0 then 0 else i / s.a.vcols.toNat
     let col := fun i => if s.a.vcols.toNat = 0 then i else i % s.a.vcols.toNat
     let step := fun (w : Word) (i h : Nat) => 2 * (w.toNat : Int) + i * h
     let store := fun (f : Nat) (x : Option Nat) (b : Word) (scaled : Bool) (addr2 : Nat → Nat → Int → Nat → Int) =>
       ({ d := d.toNat, f := f, idx := x, base := b, scaled := scaled, addr2 := addr2 } : VStore)
     Stores (.vst d a b sc r) s (store 1 none (base + s.getS b) true (fun i _ _ h => step (base + s.getS b) i h)) sc r ∧
     Stores (.vsts d a b sc r) s (store 1 none base false
       (fun i _ _ _ => 2 * ((base + BitVec.ofNat 64 i * s.getS b).toNat : Int))) sc r ∧
     Stores (.vst2 d a b sc r 0) s (store 1 none base true
       (fun i _ _ h => step (base + BitVec.ofNat 64 (row i) * s.getS b) (col i) h)) sc r ∧
     Stores (.vst2 d a b sc r 1) s (store 1 none base true
       (fun i _ _ h => step (base + BitVec.ofNat 64 (col i) * s.getS b) (row i) h)) sc r ∧
     (b.toNat = 4 ∨ b.toNat = 5 → b ≠ d →
       Stores (.vstx d a b sc r 0) s (store 1 (some b.toNat) base false (fun _ _ x _ => 2 * ((base.toNat : Int) + x))) sc r ∧
       Stores (.vstx d a b sc r 1) s (store 1 (some b.toNat) base true
         (fun _ _ x h => 2 * (base.toNat : Int) + x * h)) sc r) ∧
     (v ≠ 0 → Stores (.vstseg d a sc r v) s (store (v.toNat + 1) none base true
       (fun i f _ h => step base (i * (v.toNat + 1) + f) h)) sc r)) ∧
  (∀ (s : State) (ws : List Wr),
     let t := enterGroup s ws
     let touched := fun (w : Wr) (x : Nat) => match w.out with
       | .bytes l => w.key ≤ x ∧ x < w.key + l.length
       | .nibble _ => x = w.key
     (∀ x, t.mem.read x = s.mem.read x) ∧ t.core = s.core ∧ t.others = s.others ∧ t.poison = s.poison ∧
     ∃ new, t.buf = s.buf ++ new ∧ ∀ e ∈ new, e.loc = .sb s.core.num s.vectorAgent ∧
       (∀ x ∈ e.payload.addrs, ∃ w ∈ ws, touched w x) ∧ ∃ line, ∀ x ∈ e.payload.addrs, x / 128 = line) ∧
  (∀ (s : State) (d a b : Reg) (sc : BitVec 2) (r f v : Bit), s.xh = false → d.toNat = 4 ∨ d.toNat = 5 →
     b.toNat = 4 ∨ b.toNat = 5 → b ≠ d →
     (v = 1 → s.a.sew.toNat < 2 → Illegal (.vsca d a b sc r f v) s 7) ∧
     ((v = 0 ∨ 2 ≤ s.a.sew.toNat) → freeVec s sc r →
       let q := releasedVec s sc r
       let t := issued q
       let k := ceilDiv (stripN t) (stripE t)
       (stripN q = 0 → exec (.vsca d a b sc r f v) s = .next (q.bump 4)) ∧
       (stripN q ≠ 0 → (∀ o, scaScale t (t.getS a) = .error o → exec (.vsca d a b sc r f v) s = o) ∧
       ∀ m, scaScale t (t.getS a) = .ok m →
         let base := scaBaseFault t (v == 1) d.toNat b.toNat (t.getS a) m
         let dry := scaDry (v == 1) d.toNat b.toNat (t.getS a) m (k + 1) t
         (∀ o, base = some o → exec (.vsca d a b sc r f v) s = o) ∧
         (∀ o, base = none → t.core.team.det = true → dry = some o → exec (.vsca d a b sc r f v) s = o t) ∧
         (∀ u ps, base = none → (t.core.team.det = true → dry = none) → s.limit = none →
           allScattered (v == 1) d.toNat b.toNat (t.getS a) m k t = some u → scaElems u (v == 1) u.vm.sca = .ok ps →
           exec (.vsca d a b sc r f v) s = .next (storeDone (some b.toNat) (entered u ps))))))

/-- R161, R233 and R336: `lfe` completes and marks its lines of the core's own scratchpad empty or, after its release,
full; `lwait` completes when all of its lines are full, or empty, and else stalls; no read that the vector agent
executed early on them is left; no lines end both at once. Before any line is touched, both forms of both refuse a
misaligned range (class 5), one that leaves the window (class 6, code 6) and one that passes the launch's part of it
(class 6, code 1). It rests on choices and inferences of the model: log entries 24, 27 and 80. -/
def Obligations.FullEmptyLines : Prop :=
  ∀ (s : State) (a b : Reg) (sc : BitVec 2) (r : Bit), s.xh = false →
    let n := (s.getS b).toNat
    let off := (s.getS a).toNat - windowBase
    let lines := span (off / 128) n
    let inside := (s.getS a).toNat % 128 = 0 ∧ windowBase ≤ (s.getS a).toNat ∧ off + 128 * n ≤ 0x800000 ∧
      off + 128 * n ≤ s.core.team.spad * 65536
    let bytes := fun (t : State) => lines.flatMap (fun l => span (scratchBase + t.core.num * 2 ^ 23 + 128 * l) 128)
    let fresh := fun (t : State) => dropEarly t t.core.num t.vectorAgent (bytes t)
    let marked := fun (t : State) (full : Bool) => lines.foldl (fun t l => markLine t t.core.num l full) (fresh t)
    let refused := fun (cls code : Nat) =>
      Refuses (.lfe a b 0 0 0) s cls code 1 (s.getS a) ∧ Refuses (.lfe a b sc r 1) s cls code 1 (s.getS a) ∧
      Refuses (.lwait a b sc r 0) s cls code 0 (s.getS a) ∧ Refuses (.lwait a b 0 0 1) s cls code 0 (s.getS a)
    (n = 0 → exec (.lfe a b 0 0 0) s = .next (s.bump 4) ∧ exec (.lfe a b sc r 1) s = .next (s.bump 4) ∧
      exec (.lwait a b sc r 0) s = .next (s.bump 4) ∧ exec (.lwait a b 0 0 1) s = .next (s.bump 4)) ∧
    (n ≠ 0 → inside →
      exec (.lfe a b 0 0 0) s = .next ((marked s false).bump 4) ∧
      (r = 0 → exec (.lfe a b sc r 1) s = .next ((marked s true).bump 4)) ∧
      (r = 1 → releaseHeld s s.core.num [s.vectorAgent] sc = [] →
        exec (.lfe a b sc r 1) s = .next ((marked (releaseMove s s.core.num [s.vectorAgent] sc) true).bump 4)) ∧
      ((∀ l ∈ lines, l ∉ s.core.emptyLines) → exec (.lwait a b sc r 0) s =
        .next ((if r = 1 then forgetEarly s s.core.num [s.vectorAgent] else fresh s).bump 4)) ∧
      ((∀ l ∈ lines, l ∈ s.core.emptyLines) → exec (.lwait a b 0 0 1) s = .next ((fresh s).bump 4)) ∧
      ((∃ l ∈ lines, l ∈ s.core.emptyLines) → Stalls (.lwait a b sc r 0) s .line) ∧
      ((∃ l ∈ lines, l ∉ s.core.emptyLines) → Stalls (.lwait a b 0 0 1) s .line)) ∧
    (n ≠ 0 → (s.getS a).toNat % 128 ≠ 0 → refused 5 0) ∧
    (n ≠ 0 → (s.getS a).toNat % 128 = 0 →
      ((s.getS a).toNat < windowBase ∨ 0x800000 < off + 128 * n → refused 6 6) ∧
      (windowBase ≤ (s.getS a).toNat → off + 128 * n ≤ 0x800000 → s.core.team.spad * 65536 < off + 128 * n →
        refused 6 1)) ∧
    (∀ l full, (markLine s s.core.num l full).core.emptyLines.contains l = !full ∧
      ∀ k, k ≠ l → (markLine s s.core.num l full).core.emptyLines.contains k = s.core.emptyLines.contains k)

/-! ## Element blocks -/

namespace Sys2Proof.Claims

/-- What is said of a word of the lane in progress: it is passed over where its pred bit and the predicate say so, and else
leaves a state and a block. -/
def Lane (i : Instr) (p : Bit) (s : State) (b : Block) (t : State) (c : Block) : Prop :=
  exec i s = .next (if p = 1 ∧ b.pred = false then s.setX { s.x with block := some { b with epc := b.epc + 1 } }
    else t.setX { t.x with block := some c })

/-- Flags and exceptions of a word gather in the block (R192, R200). -/
def noted (b : Block) (x : XHart) (fl : Flags) (sat exc : Bool) : Block :=
  { b with flags := b.flags ||| fl, sat := b.sat || sat, exc := b.exc || exc || (fl &&& x.xsel) != 0 }

end Sys2Proof.Claims

/-- R195 to R199: what each word does in the lane in progress. R198: a lane that finishes gives its output, or what
came in where it sent none, to the next active lane of its group, which starts at the block's first word. It rests on
choices and inferences of the model: log entry 37. -/
def Obligations.BlockWords : Prop :=
  (∀ (s : State) (k : Block) (p m : Bit) (a b c d : Reg) (v : BitVec 2) (i : BitVec 32) (op : BitVec 8), s.xh = true →
     s.x.block = some k → k.fin = false →
     let x := s.x
     let w := sewBits x.sew
     let A := vElem s a k.lane
     let B := vElem s b k.lane
     let I : Word := BitVec.ofNat 64 (i.toInt % 2 ^ w).toNat
     let next := { k with epc := k.epc + 1 }
     let there : Block := { k with epc := ((k.epc : Int) + i.toInt).toNat }
     let put := fun (n : Nat) => s.setX (x.putN (s.perWidth w) w d.toNat k.lane n)
     let test := laneCond x v A B
     Lane (.ebr p a b v i) p s k s (noted (if test.1 then there else next) x test.2 false false) ∧
     Lane (.ejmp p i) p s k s there ∧
     Lane (.esend p a) p s k s { next with out := some (k.out.getD A) } ∧
     Lane (.erecv p d) p s k (put k.inc.toNat) next ∧
     Lane (.ecmt p) p s k s (finishLane x k) ∧ Lane .estop 0 s k s (finishLane x k) ∧
     (immOk b m i = true →
       let t := laneCond x v A (if m = 1 then I else B)
       Lane (.epred p a b m v i) p s k s
         (noted { next with pred := if p = 1 then k.pred && t.1 else t.1 } x t.2 false false)) ∧
     ((m = 1 ∨ i = 0) →
       Lane (.eidx p d m i) p s k (put (low w ((k.lane : Int) + (if m = 1 then i.toInt else 0)))) next) ∧
     (elementWordOk op d a b c m v i = true →
       let r := wordElem x op.toNat v b i (k.base + BitVec.ofNat 64 (8 * k.epc)) A (if m = 1 then I else B)
         (vElem s c k.lane)
       Lane (.elementWord op d a b c p m v i) p s k
         (if op = 0x68 ∨ op = 0x77 then s.setX (x.setMaskBit (d.setWidth 3) k.lane (r.v != 0)) else put r.v)
         (noted next x r.fl r.sat r.exc))) ∧
  (∀ (x : XHart) (b : Block),
     let hi := groupEnd x b.lane
     let c := finishLane x b
     let active := fun j => b.lane < j ∧ j < hi ∧ x.active b.mask j = true
     c.inc = b.out.getD b.inc ∧ c.words = b.words ∧ c.carry0 = b.carry0 ∧
     ((∃ j, active j) → c.fin = false ∧ active c.lane ∧ (∀ j, active j → c.lane ≤ j) ∧ c.epc = 0 ∧ c.pred = true ∧
       c.out = none ∧ c.exc = false) ∧
     ((¬ ∃ j, active j) → c.fin = true))

/-- R191 to R193 and R201: `vfetch` with a sound block opens the lane of its first active element at or past `vstart`,
with the carry-in as incoming value (R198: the saved block carry on a resumed `vfetch`, one with a stopped group whose
`vstart` is not 0, else the seed), or, when the strip has nothing left, only writes the carry-out. R192, R200 and
R201: a finished group commits: its exception bits, flags and saturation reach the hart and `vstart` moves past it;
the last one writes the carry-out and goes on after the `vfetch`. It rests on choices and inferences of the model: log
entry 37. -/
def Obligations.BlockGroups : Prop :=
  (∀ (s t : State) (d a b : Reg) (k : BitVec 3) (e : Bit) (kx : BitVec 3) (isF : Bool) (ws : List (BitVec 64)),
     s.xh = true → maskDestOk e kx = true → t = s.setX (discardBlock s.x) →
     check7 s.x true [] (maskUsed k e) false [] = true → (t.getS a).toNat % 8 = 0 →
     readBlock t (t.getS a) 256 0 [] = .inr ws → strayWord ws = none →
     let i := Instr.vfetch d a b k e kx (if isF then 1 else 0)
     let inc := if t.x.resumed = true ∧ t.x.vstart ≠ 0 then t.x.carry
       else BitVec.ofNat 64 ((if isF then t.getF b else t.getS b).toNat % 2 ^ sewBits t.x.sew)
     let kept := keepBlock t (t.getS a) ws.length
     let lo := t.x.vstart.toNat
     let active := fun j => lo ≤ j ∧ j < groupEnd t.x lo ∧ t.x.active k j = true
     (t.x.vl ≤ t.x.vstart → exec i s =
       .next ((carryOut (kept.setX { kept.x with vstart := 0, resumed := t.x.resumed && t.x.vstart == 0 }) isF d inc).bump 4)) ∧
     (t.x.vstart < t.x.vl → ∃ u c, exec i s = .next u ∧ u.x.block = some c ∧ u.x.resumed = (t.x.resumed && t.x.vstart == 0) ∧
       u.pc = s.pc ∧ c.words = ws ∧ c.issued = true ∧
       c.base = t.getS a ∧ c.inc = inc ∧ c.carry0 = inc ∧ c.mask = k ∧ c.v0 = t.x.v ∧ c.k0 = t.x.k ∧ u.x.v = t.x.v ∧
       u.x.k = t.x.k ∧
       ((∃ j, active j) → c.fin = false ∧ active c.lane ∧ (∀ j, active j → c.lane ≤ j) ∧ c.epc = 0 ∧ c.pred = true ∧
         c.out = none) ∧
       ((¬ ∃ j, active j) → c.fin = true))) ∧
  (∀ (s : State) (b : Block), s.xh = true → s.x.block = some b → b.fin = true → b.issued = true → s.x.vl.toNat ≤ 65536 →
     let lo := s.x.vstart.toNat
     let hi := groupEnd s.x lo
     ∃ t, exec .elementGroupCommit s = .next t ∧
       t.x.h.fflags = s.x.h.fflags ||| b.flags ∧ t.x.vxsat = (s.x.vxsat || b.sat) ∧
       (b.en = true → hi ≤ 2048 → ∀ i, lo ≤ i → i < hi → t.x.maskBit b.kx i = b.excs.getLsbD i) ∧
       (∀ (m : BitVec 3) (i : Nat), (b.en = false ∨ m ≠ b.kx ∨ i < lo ∨ hi ≤ i) → hi ≤ 2048 → t.x.maskBit m i = s.x.maskBit m i) ∧
       (hi < s.x.vl.toNat → t.x.vstart.toNat = hi ∧ t.x.v = s.x.v ∧ t.pc = s.pc ∧
         ∃ c, t.x.block = some c ∧ c.carry0 = b.inc ∧ c.inc = b.inc ∧ c.v0 = s.x.v ∧ c.words = b.words ∧ c.flags = 0 ∧ c.issued = false) ∧
       (s.x.vl.toNat ≤ hi → t.x.vstart = 0 ∧ t.x.block = none ∧ t.pc = s.pc + 4 ∧
         (if b.isF then t.getF b.d = boxed (sewBits s.x.sew) b.inc else b.d ≠ 0 → t.getS b.d = b.inc)))

/-- R189: slides, gathers and compression. R194: `vlid` numbers the elements from 0, or from s[b]. It rests on choices
and inferences of the model: log entries 3, 36, 88 and 95. -/
def Obligations.Permutes : Prop :=
  (∀ (s : State) (d a b : Reg) (k : BitVec 3) (e : Bit) (kx : BitVec 3), s.xh = true →
     let x := s.x
     let w := sewBits x.sew
     let g := groupCount x.group
     let A := fun i => (vElem s a i).toNat
     let apart := fun (x : XHart) => [((d, x.g 1), ((a, x.g 1) : Group))]
     (∀ imm : Bool,
       let o := if imm then b.toNat else (s.getS b).toNat
       let ok := fun (x : XHart) => check7 x true [(d, x.g 1), (a, x.g 1)] (k != 0) true (apart x)
       VectorRuns (.vslide d a b k (if imm then 2 else 0)) s ok
         (vectorOp s d g w k 0 0 (fun i => plain (if i + o < x.vl.toNat then A (i + o) else 0))) ∧
       VectorRuns (.vslide d a b k (if imm then 3 else 1)) s ok
         (vectorOp s d g w k 0 0 (fun i => plain (if o ≤ i then A (i - o) else (vElem s d i).toNat)))) ∧
     (maskDestOk e kx = true → ∀ wide : Bool,
       let n := fun i => if wide then element s 16 b i else (vElem s b i).toNat
       VectorRuns (.vgath d a b k e kx (if wide then 1 else 0)) s
         (fun x => check7 x (!wide || x.sew == 0) [(d, x.g 1), (a, x.g 1), (b, x.g (if wide then 2 else 1))]
           (maskUsed k e) false ([((d, x.g 1), (a, x.g 1)), ((d, x.g 1), (b, x.g (if wide then 2 else 1)))] ++
             (if wide then [((a, x.g 1), (b, x.g 2))] else [])))
         (vectorOp s d g w k e kx (fun i =>
           if n i < x.vl.toNat then plain (A (n i)) else { v := 0, exc := true }))) ∧
     (check7 x true [(d, x.g 1), (a, x.g 1)] (k != 0) true (apart x) = true → 0 < x.vl.toNat → fits s d g w →
       let act := (List.range x.vl.toNat).filter (x.active k)
       ∃ t : State, exec (.vcmpr d a b k) s = .next (t.bump 4) ∧
         (∀ j, (h : j < act.length) → element t w d j = A act[j]) ∧
         (∀ j, act.length ≤ j → j < x.vl.toNat → element t w d j = if x.tail then 0 else element s w d j) ∧
         (∀ r : Reg, t.getS r = if r = 0 then 0 else if r = b then BitVec.ofNat 64 act.length else s.getS r) ∧
         t.x.h.ldst = 2#2 ++ d ∧ t.x.vstart = 0)) ∧
  (∀ (s : State) (d b : Reg) (k : BitVec 3), s.xh = true →
     let w := sewBits s.x.sew
     let ok := fun x : XHart => check7 x (fmtInt x.fmt && x.matched) [(d, x.g 1)] (k != 0) false []
     VectorRuns (.vlid d 0 k 0) s ok (vectorOp s d (groupCount s.x.group) w k 0 0 (fun i => plain (i % 2 ^ w))) ∧
     VectorRuns (.vlid d b k 1) s ok
       (vectorOp s d (groupCount s.x.group) w k 0 0 (fun i => plain ((i + (s.getS b).toNat) % 2 ^ w))))

/-! ## Compact instructions -/

/-- R113 to R115 and R383: a compact whose first source class agrees with `ldst` does what the instruction of R114
does with the register last written, and goes on two bytes further; another class, or a src field that must be 0 and
is not, is illegal with cause 5, and a vector one on an A-hart with cause 4. -/
def Obligations.CompactForms : Prop :=
  ∀ (s : State) (d b : Reg) (o : BitVec 10),
    let l : Reg := s.h.ldst.setWidth 5
    let cls : BitVec 2 := (s.h.ldst >>> 5).setWidth 2
    let as := fun (k i : Instr) => ∃ u : State, exec k s = .next (u.bump 2) ∧ exec i s = .next (u.bump 4)
    let branch := fun (i : Instr) (c : Bool) => exec i s = .next (if c then s.jump (halves s o) else s.bump 2)
    exec .kNop s = .next (s.bump 2) ∧
    (cls = 0 →
      (¬ (d = 0 ∧ b = 0) → as (.kAdd d b) (.add d l b)) ∧ as (.kSub d b) (.sub d l b) ∧ as (.kAnd d b) (.and d l b) ∧
      as (.kOr d b) (.or d l b) ∧ as (.kXor d b) (.xor d l b) ∧ as (.kSll d b) (.sll d l b) ∧
      as (.kSrl d b) (.srl d l b) ∧ as (.kAddi d b) (.addi d l (b.signExtend 14)) ∧ as (.kMv d 0) (.add d l 0) ∧
      branch (.kBeqz o) (s.getS l = 0) ∧ branch (.kBnez o) (s.getS l ≠ 0)) ∧
    (s.xh = true → cls = 2 →
      (intOk d l b 0 0 0 s.x = true → as (.kVadd d b) (.vadd d l b 0 0)) ∧
      (fpOk d l b 0 0 0 s.x = true → as (.kVfadd d b) (.vfadd d l b 0 0 0 0) ∧ as (.kVfmul d b) (.vfmul d l b 0 0 0 0) ∧
        as (.kVfma d b) (.vfma d l b 0 0 0 0)) ∧
      (moveOk d l 0 0 false s.x = true → as (.kVmv d 0) (.vmv d l 0 0 0 0))) ∧
    (cls ≠ 0 → (¬ (d = 0 ∧ b = 0) → Illegal (.kAdd d b) s 5) ∧ Illegal (.kSub d b) s 5 ∧ Illegal (.kAnd d b) s 5 ∧
      Illegal (.kOr d b) s 5 ∧ Illegal (.kXor d b) s 5 ∧ Illegal (.kSll d b) s 5 ∧ Illegal (.kSrl d b) s 5 ∧
      Illegal (.kAddi d b) s 5 ∧ Illegal (.kBeqz o) s 5 ∧ Illegal (.kBnez o) s 5) ∧
    (cls ≠ 0 ∨ b ≠ 0 → Illegal (.kMv d b) s 5) ∧
    (s.xh = true → (cls ≠ 2 → Illegal (.kVadd d b) s 5 ∧ Illegal (.kVfadd d b) s 5 ∧ Illegal (.kVfmul d b) s 5 ∧
      Illegal (.kVfma d b) s 5) ∧ (cls ≠ 2 ∨ b ≠ 0 → Illegal (.kVmv d b) s 5)) ∧
    (s.xh = false → Illegal (.kVadd d b) s 4 ∧ Illegal (.kVfadd d b) s 4 ∧ Illegal (.kVfmul d b) s 4 ∧
      Illegal (.kVfma d b) s 4 ∧ Illegal (.kVmv d b) s 4)
/-! ## The matrix unit -/

namespace Sys2Proof.Claims

/-- v24 to v31 zero, every element of them written; the other registers and all else as before (R259, R260). -/
def Staged (s t : State) : Prop :=
  (∀ r : Fin 32, t.x.v[r] = if 24 ≤ r.val then 0 else s.x.v[r]) ∧
  t = s.setX { s.x with v := t.x.v, prog := t.x.prog }

/-- The matrix state as a multiplication of steps still pending leaves it: a k-block boundary where there are any (R266). -/
def settled (s : State) : State := if s.mx.mkblk = 0 then s else boundary s

/-- Operands of `mopa` (R264): the values of a head's oldest entry, or of a staging register, in two nibbles to a byte for
e2m1. -/
def mopaSource (s : State) (r : Reg) (f : BitVec 2) : Option (List Nat) :=
  let values := fun (byte : Nat → Nat) (n : Nat) =>
    if f = 2 then (List.range (2 * n)).map (fun j => byte (j / 2) / 16 ^ (j % 2) % 16) else (List.range n).map byte
  if r.toNat < 4 then
    match (headOf s r.toNat).takeWhile (fun q => !q.fill) with
    | q :: _ => if q.sew = 0 then some (values (getElemN q.data 8) q.count.toNat) else none
    | [] => none
  else if s.x.sew = 0 then some (values (element s 8 r) s.x.vl.toNat)
  else none

/-- The heads that supplied the operands lose an entry each, a shared one once (R265). -/
def mopaTaken (s : State) (a b : Reg) : State :=
  let t := if a.toNat < 4 then popHead s a.toNat else s
  if b.toNat < 4 ∧ b ≠ a then popHead t b.toNat else t

end Sys2Proof.Claims

/-- R259 to R262: a free or an owned matrix state is entered, another tandem's stalls; `mexit` leaves it to no one;
`mstat` tells its owner, its touched tiles, its steps and its length; an instruction of the owner alone is illegal
with cause 7 on another X-hart. R92, R266 to R268: what a k-block boundary does to each element of a touched tile, and
the instructions that set scales and clear tiles; `mscl` makes a boundary first where steps are pending. It rests on
choices and inferences of the model: log entries 43 and 76. -/
def Obligations.MatrixState : Prop :=
  (∀ (s : State) (d a b : Reg) (k : BitVec 3) (e : Bit) (kx : BitVec 3), s.xh = true →
     let n := min (max 16 (min (s.getS a).toNat 128)) s.core.mceil
     let own := s.mx.owner = some s.tnd
     (s.mx.owner = none → ∃ t, Staged s t ∧ exec (.menter d a) s =
       .next (((t.setMx { Matrix.free with owner := some s.tnd, mvl := BitVec.ofNat 8 n }).setS d (BitVec.ofNat 64 n)).bump 4)) ∧
     (own → exec (.menter d a) s =
       .next (((s.setMx { s.mx with mvl := BitVec.ofNat 8 n }).setS d (BitVec.ofNat 64 n)).bump 4)) ∧
     (s.mx.owner ≠ none → ¬ own → Stalls (.menter d a) s .owner) ∧
     (own → ∃ t, Staged s t ∧ exec .mexit s = .next (((t.setMx Matrix.free).setLdst 2 24).bump 4)) ∧
     (∀ w : Word, (s.mx.owner = none → w = 0) →
       (∀ t, s.mx.owner = some t → w = BitVec.ofNat 64 ((if t = s.tnd then 2 ^ 23 else 0) + 2 ^ 22 + t.val * 2 ^ 20 +
         s.mx.touch.toNat * 2 ^ 16 + s.mx.mkblk.toNat * 2 ^ 8 + s.mx.mvl.toNat)) → WritesS (.mstat d) s d w) ∧
     (¬ own → Illegal .mexit s 7 ∧ Illegal (.msclA a) s 7 ∧ (d.toNat < 4 → Illegal (.mzero d 0) s 7 ∧ Illegal (.msclW d b) s 7) ∧
       (a.toNat < 4 → maskDestOk e kx = true → Illegal (.mdrain d a b k e kx 0) s 7))) ∧
  (∀ (s : State) (d a b : Reg), s.xh = true →
     let m := (boundary s).mx
     (∀ u i j, u < 4 → i < 128 → j < 128 → (m.tile u).cell i j =
       if s.mx.touch.getLsbD u then (promoteCell s.mx.sa[i]! s.mx.sw[u]! ((s.mx.tile u).cell i j)).1
       else (s.mx.tile u).cell i j) ∧
     m = { s.mx with tiles := m.tiles, touch := 0, mkblk := 0 } ∧
     (s.mx.owner = some s.tnd →
       (s.x.sew = 2 → s.x.fmt = 9 → exec (.msclA a) s = .next (((settled s).setMx { (settled s).mx with
         sa := Vector.ofFn (fun i : Fin 128 => BitVec.ofNat 32 (element s 32 a i.val)) }).bump 4)) ∧
       ((s.x.sew ≠ 2 ∨ s.x.fmt ≠ 9) → Illegal (.msclA a) s 7) ∧
       (∀ u : Fin 4, d.toNat = u.val →
         exec (.msclW d b) s = .next (((settled s).setMx { (settled s).mx with
           sw := (settled s).mx.sw.set u ((s.getF b).setWidth 32) }).bump 4) ∧
         ∃ t, exec (.mzero d 0) s = .next ((s.setMx t).bump 4) ∧
           t = { s.mx with tiles := s.mx.tiles.set u Tile.zero, touch := t.touch } ∧
           ∀ v : Fin 4, t.touch.getLsbD v.val = (s.mx.touch.getLsbD v.val && v != u)) ∧
       exec (.mzero 0 1) s = .next ((s.setMx { s.mx with tiles := Vector.replicate 4 Tile.zero, touch := 0 }).bump 4)))

/-- R263 to R265 and R273: `mopa` takes its operands step by step, each step adding the product of row and column
value to every element of its tile and the 128th making a boundary; `mdrain` writes the accumulators of the rows from
s[b] on, `.z` clearing those that it read. It rests on choices and inferences of the model: log entries 43, 76 and 88.
-/
def Obligations.MatrixProducts : Prop :=
  ∀ (s : State) (d a b : Reg) (c r : BitVec 2) (k : BitVec 3) (e : Bit) (kx : BitVec 3) (va vb : List Nat), s.xh = true →
    s.mx.owner = some s.tnd →
    (d.toNat < 4 → (a.toNat < 4 ∨ 24 ≤ a.toNat) → (b.toNat < 4 ∨ 24 ≤ b.toNat) → (c = 3 ↔ r = 3) →
      (mopaSource s a c = some va → mopaSource s b r = some vb → va.length % 128 = 0 → vb.length = va.length →
        va.length ≠ 0 → va.length / 128 ≤ s.mx.mvl.toNat →
        let t := s.x.vstart.toNat / 128
        let u := (span t (va.length / 128 - t)).foldl (fun s t => mopaStep s d c r va vb t) s
        exec (.mopa d a b c r) s = .next (((mopaTaken u a b).setX { (mopaTaken u a b).x with vstart := 0 }).bump 4)) ∧
      ((a.toNat < 4 ∧ readyHead s a.toNat = [] ∨ b.toNat < 4 ∧ readyHead s b.toNat = []) → Stalls (.mopa d a b c r) s .queue) ∧
      (∀ t, s.mx.mkblk.toNat < 127 → ∃ m, mopaStep s d c r va vb t = s.setMx m ∧
        m = { s.mx with tiles := m.tiles, touch := s.mx.touch ||| BitVec.ofNat 4 (2 ^ d.toNat), mkblk := s.mx.mkblk + 1 } ∧
        (∀ u, u < 4 → u ≠ d.toNat → m.tile u = s.mx.tile u) ∧
        ∀ i j, i < 128 → j < 128 → (m.tile d.toNat).cell i j = addProduct ((s.mx.tile d.toNat).cell i j)
          (productToPartial (mopaNum c (va.getD (t * 128 + i) 0)) (mopaNum r (vb.getD (t * 128 + j) 0))))) ∧
    (a.toNat < 4 → maskDestOk e kx = true →
      check7 s.x (s.x.fmt == 9 && s.x.matched) [(d, s.x.g 1)] (maskUsed k e) false [] = true →
      (s.getS b).toNat + ceilDiv s.x.vl.toNat 128 ≤ 128 →
      let row := fun i => (s.getS b).toNat + i / 128
      let u := if s.x.vstart = 0 ∧ s.x.vl ≠ 0 then settled s else s
      let acc := fun i => ((u.mx.tile a.toNat).cell (row i) (i % 128)).acc
      let v := vectorOp u d (s.x.g 1) 32 k e kx
        (fun i => { v := (acc i).toNat, exc := (acc i).extractLsb' 23 8 == 255 })
      exec (.mdrain d a b k e kx 0) s = .next (v.bump 4) ∧
      ∃ m, exec (.mdrain d a b k e kx 1) s = .next ((v.setMx m).bump 4) ∧ m = { u.mx with tiles := m.tiles } ∧
        (∀ j, j < 4 → j ≠ a.toNat → m.tile j = u.mx.tile j) ∧
        (∀ i, inStrip s i → s.x.active k i = true → (m.tile a.toNat).cell (row i) (i % 128) =
          { (u.mx.tile a.toNat).cell (row i) (i % 128) with acc := 0 }) ∧
        (∀ p q, p < 128 → q < 128 → (∀ i, inStrip s i → s.x.active k i = true → p = row i → q ≠ i % 128) →
          (m.tile a.toNat).cell p q = (u.mx.tile a.toNat).cell p q))
/-! ## Handing commands over -/

namespace Sys2Proof.Claims

/-- A command record of eight words read by the scalar agent (R230): the state after, and the words. -/
def recordRead (q : Ask) (s : State) (a : Reg) : Option (State × List Word) :=
  match readable s s.scalarAgent q (s.getS a) 64 with
  | some (t, _, l) => some (t, wordsOf 8 l)
  | none => none

/-- The release of a handover with rel = 1 is free of held homes, and the state after it (R230). -/
def handoverFree (t : State) (sc : BitVec 2) (r : Bit) : Prop :=
  r = 1 → releaseHeld t t.core.num [t.scalarAgent, t.vectorAgent] sc = []
def handedOver (t : State) (sc : BitVec 2) (r : Bit) : State :=
  if r = 1 then releaseMove t t.core.num [t.scalarAgent, t.vectorAgent] sc else t

/-- What is said of an instruction that has read its record (R237): a status that is not 0 is written and nothing else
happens; a full engine stalls it; else the command is held, after the release, and s[d] takes 0. -/
def HandsOver (i : Instr) (s t : State) (d : Reg) (sc : BitVec 2) (r : Bit) (status : Nat) (full : Bool)
    (held : State → State) : Prop :=
  (status ≠ 0 → exec i s = .next ((t.setS d (BitVec.ofNat 64 status)).bump 4)) ∧
  (status = 0 → full = true → exec i s = .next (t.setH { t.h with wait := some .engine })) ∧
  (status = 0 → full = false → handoverFree t sc r →
    exec i s = .next (((held (handedOver t sc r)).setS d 0).bump 4))

/-- The ordering fields of a command (R230). -/
def orders (sc : BitVec 2) (q r : Bit) : Ord := { scope := sc, acq := q == 1, rel := r == 1 }

/-- The state in which a copy command stands last, under a new number (R251). -/
def copyHeld (s : State) (v : BitVec 2) (ws : List Word) (o : Ord) : State :=
  let t := nextSerial s
  t.setTeam { t.core.team with copies := t.core.team.copies ++ [{
    kind := v, t := t.tnd, words := ws, ord := o, next := 0, serial := t.serial, since := t.ticks, fault := none }] }

/-- The state in which a Parterre command stands last, under a new number, with the key and the source of draws of its
handover (R283, R289). -/
def parHeldAs (s : State) (kind : ParKind) (ws : List Word) (bank : Bank) (head : Reg) (addr : Word) (o : Ord) : State :=
  let t := nextSerial s
  let c : ParCmd :=
    { kind := kind, t := t.tnd, words := ws, bank := bank, head := head, addr := addr, ord := o,
      dkey := t.core.team.dkeyhi ++ t.core.team.dkeylo, dsrc := t.core.team.dsrc, serial := t.serial, pos := 0, bits := 0,
      roles := none, outs := [], second := false, sel := none, refused := false, since := t.ticks, fault := none }
  t.setTeam { t.core.team with pars := t.core.team.pars ++ [c] }

/-- What a consumer of draws samples when it issues (R72). -/
def sampled (s : State) : DrawSample :=
  { key := s.core.team.dkeyhi ++ s.core.team.dkeylo, src := s.core.team.dsrc, epoch := s.core.team.repoch }

/-- The draw ports of a `pfeed` become active (R295). -/
def portsOpened (s : State) : State :=
  s.setTeam { s.core.team with
    ports := activePorts s ++ [{ kind := 0, tag := 1, t := s.tnd, serial := s.serial, draw := sampled s },
      { kind := 1, tag := 2, t := s.tnd, serial := s.serial, draw := sampled s }] }

/-- The A-hart's earlier reads have executed where a `tgbind` acquires (R230). -/
def scalarAcquired (s : State) (q : Bit) : State := if q = 1 then forgetEarly s s.core.num [s.scalarAgent] else s

/-- Words of n bytes from an address on, each read by the scalar agent. -/
def recordItems (size : Nat) : Nat → Word → State → Option (State × List (List Byte))
  | 0, _, s => some (s, [])
  | n + 1, va, s =>
    match readable s s.scalarAgent Ask.record va size with
    | some (t, _, l) => (recordItems size n (va + BitVec.ofNat 64 size) t).map (fun p => (p.1, l :: p.2))
    | none => none

end Sys2Proof.Claims

/-- R230, R237, R251, R254, R269, R279, R281, R282, R288, R295 and R300: the instructions that hand a command to an
engine of the core or to the collective engine, and those that bind a bank or a grid, once their records can be read;
a `pfeed` whose tags are taken traps at its handover, also where its record would fault. It rests on choices and
inferences of the model: log entries 27, 33, 45, 46, 93 and 100. -/
def Obligations.EngineHandovers : Prop :=
  ∀ (s t : State) (d a : Reg) (sc : BitVec 2) (q r : Bit) (v : BitVec 2) (ws : List Word), s.xh = false →
    let o := orders sc q r
    let team := t.core.team
    (recordRead Ask.record s a = some (t, ws) →
      (v ≠ 3 → HandsOver (.cpy d a sc q r v) s t d sc r (copyIssue v ws) (16 ≤ team.copies.length) (fun u =>
        if copyLen ws = 0 then completeCopy (copyHeld u v ws o) u.core.team.copies.length else copyHeld u v ws o)) ∧
      HandsOver (.mfeed d a sc q r) s t d sc r (feedIssue ws) (4 ≤ team.feeds.length) (fun u =>
        u.setTeam { u.core.team with
          feeds := u.core.team.feeds ++ [{ t := u.tnd, words := ws, ord := o, step := 0, since := u.ticks, fault := none }] }) ∧
      HandsOver (.coll d a sc q r) s t d sc r (collIssue ws) false (fun u =>
        let u := nextSerial u
        { u with
          colls := u.colls ++ [
            { num := u.serial, fin := none, words := ws, ord := o, root := u.core.team.root, domain := u.core.team.domain,
              core := u.core.num, t := u.tnd, launch := u.core.team.launch, epoch := u.core.team.epoch,
              team := u.core.team.index }] })) ∧
    (recordRead Ask.parRecord s a = some (t, ws) →
      (v.toNat < 2 → ∀ b, t.a.bank = some b →
        HandsOver (.peval d a sc q r v) s t d sc r (batchIssue ws) (8 ≤ team.pars.length)
          (fun u => parHeldAs u (.eval (v == 0)) ws b 0 0 o)) ∧
      (v.toNat < 2 → t.a.bank = none →
        HandsOver (.peval d a sc q r v) s t d sc r (if batchIssue ws = 0 then 3 else batchIssue ws) false id) ∧
      (∀ b, t.a.bank = some b →
        (feedClash t 1 = false → feedClash t 2 = false →
          HandsOver (.pfeed d a sc q r) s t d sc r (batchIssue ws) (8 ≤ team.pars.length)
            (fun u => portsOpened (parHeldAs u .feed ws b 0 0 o))) ∧
        (batchIssue ws = 0 → team.pars.length < 8 →
          (feedClash t 1 = true → exec (.pfeed d a sc q r) s = t.trap 9 0 0 0 1) ∧
          (feedClash t 1 = false → feedClash t 2 = true → exec (.pfeed d a sc q r) s = t.trap 9 1 0 0 2))) ∧
      (t.a.bank = none →
        HandsOver (.pfeed d a sc q r) s t d sc r (if batchIssue ws = 0 then 3 else batchIssue ws) false id) ∧
      (handoverFree t sc r →
        let u := handedOver t sc r
        exec (.pbank d a sc q r) s = .next (((if bankStatus ws = 0 then u.setA { u.a with bank := some (bankOf ws) } else u).setS d
          (BitVec.ofNat 64 (bankStatus ws))).bump 4))) ∧
    (recordRead Ask.record (scalarAcquired s q) a = some (t, ws) →
      ∀ w ls, let n := ((ws.getD 2 0).extractLsb' 8 6).toNat
        recordItems 8 (if 32 < n then 0 else n) (t.getS a + 64) t = some (w, ls) → handoverFree w sc r →
        let u := handedOver w sc r
        let g : Grid := { pbase := ws.getD 0 0, gbase := ws.getD 1 0, cfg := ws.getD 2 0, levels := ls.map wordOf }
        exec (.tgbind d a sc q r) s = .next (((if gridStatus ws g = 0 then u.setA { u.a with grid := some g } else u).setS d
          (BitVec.ofNat 64 (gridStatus ws g))).bump 4)) ∧
    (s.a.bank ≠ none → ((s.getS a).toNat % 64 ≠ 0 ∨ ∃ e, translate s s.who Ask.parRecord (s.getS a) 64 = .error e) →
      (feedClash s 1 = true → exec (.pfeed d a sc q r) s = s.trap 9 0 0 0 1) ∧
      (feedClash s 1 = false → feedClash s 2 = true → exec (.pfeed d a sc q r) s = s.trap 9 1 0 0 2)) ∧
    exec (.pbankNone d) s = .next (((s.setA { s.a with bank := none }).setS d 0).bump 4) ∧
    exec (.tgbindNone d) s = .next (((s.setA { s.a with grid := none }).setS d 0).bump 4)

/-- R256, R314 to R316, R330, R369, R401 and R408: `glaunch` and `glaunch.red` pin their pages, check record, image,
layout and access tables in this order, the refusal of a table joining its log (log entry 64), and hand the kernel or
the list to the sequencer of the channel that holds its first row or word. It rests on choices and inferences of the
model: log entries 27, 48, 64, 84 and 102. -/
def Obligations.GrottoHandovers : Prop :=
  ∀ (s t : State) (d a : Reg) (sc : BitVec 2) (q r : Bit) (ws : List Word) (ps : List (Pin × Perm)), s.xh = false →
    recordRead Ask.record s a = some (t, ws) →
    let pins := ps.map (·.1)
    let said := fun (i : Instr) (u : State) (n : Nat) => exec i s = .next ((u.setS d (BitVec.ofNat 64 n)).bump 4)
    (kernelIssue ws ≠ 0 → said (.glaunch d a sc q r) t (kernelIssue ws)) ∧
    (reduceIssue ws ≠ 0 → said (.glaunchRed d a sc q r) t (reduceIssue ws)) ∧
    (kernelIssue ws = 0 → pinParts t (kernelParts (t.getS a).toNat ws) = .ok ps → ∀ u im,
      recordItems 4 (kUlen ws + 1) (BitVec.ofNat 64 (kImage ws)) t = some (u, im) →
      let words := im.map (fun l => BitVec.ofNat 32 (natOf l))
      let data := windowBlocks pins (kDwin ws) (kRows ws) (kUnits ws)
      let table := windowBlocks pins (kTwin ws) (kTrows ws) (kUnits ws)
      let ch := channelOf (data.headD 0)
      let laid := windowOk data (kPairs ws) ch 0 32256 && windowOk table (kPairs ws) ch 32256 32768
      (imageOk ws words = false → said (.glaunch d a sc q r) u 3) ∧
      (imageOk ws words = true → laid = false → said (.glaunch d a sc q r) u 4) ∧
      (imageOk ws words = true → laid = true → ps.all (pinPasses u ch) = false →
        ∃ p ∈ ps, pinPasses u ch p = false ∧
          said (.glaunch d a sc q r) (logRefusal u (1920 + ch) u.core.team.domain p.1.pageHome) 5) ∧
      (imageOk ws words = true → laid = true → ps.all (pinPasses u ch) = true →
        HandsOver (.glaunch d a sc q r) s u d sc r 0 (4 ≤ (seqOf u ch).kernels.length) (fun u =>
          setSeq u { seqOf u ch with kernels := (seqOf u ch).kernels ++ [
            { desc := ws, words := words, pins := pins, data := data, table := table, root := u.core.team.root,
              domain := u.core.team.domain, core := u.core.num, t := u.tnd, launch := u.core.team.launch,
              epoch := u.core.team.epoch, team := u.core.team.index, status := .queued, regs := GRegs.fresh ws, kept := GRegs.fresh ws, writes := [],
              inStep := false, suspendReq := false,
              revokeReq := invalidated u u.core.team.root pins, alerts := 0, suspensions := 0, disturbance := 0 }] }))) ∧
    (reduceIssue ws = 0 → pinParts t (reduceParts ws) = .ok ps →
      let ch := channelOf (pinned pins (rList ws))
      let within := pins.all (pinStack (stackOf ch))
      (within = false → said (.glaunchRed d a sc q r) t 4) ∧
      (within = true → ps.all (pinPasses t ch) = false →
        ∃ p ∈ ps, pinPasses t ch p = false ∧
          said (.glaunchRed d a sc q r) (logRefusal t (1920 + ch) t.core.team.domain p.1.pageHome) 5) ∧
      (within = true → ps.all (pinPasses t ch) = true →
        HandsOver (.glaunchRed d a sc q r) s t d sc r 0 (4 ≤ (seqOf t ch).lists.length) (fun u =>
          setSeq u { seqOf u ch with lists := (seqOf u ch).lists ++ [
            { desc := ws, pins := pins, root := u.core.team.root, domain := u.core.team.domain, core := u.core.num,
              t := u.tnd, launch := u.core.team.launch, epoch := u.core.team.epoch, team := u.core.team.index,
              started := false, bag := 0, c := 0, start := 0, acc := [],
              revokeReq := invalidated u u.core.team.root pins, fin := none }] })))

/-! ## Parterre and Trellis -/

namespace Sys2Proof.Claims

/-- n entries one after another, where each can be handled. -/
def times (f : State → Option State) : Nat → State → Option State
  | 0, s => some s
  | n + 1, s => (f s).bind (times f n)

/-- The entry of width code z at which the restart index, which counts element groups, stands (R159, R284). -/
def entryOf (s : State) (z : BitVec 2) : Nat := s.vm.restart * groupElems z / s.perReg z

/-- The restart index moved past that entry. -/
def pastEntry (s : State) (z : BitVec 2) (m : Nat) : State :=
  s.setVm { s.vm with restart := (m + 1) * s.perReg z / groupElems z }

/-- Entries of the strip that are left from the restart index on. -/
def entriesLeft (s : State) : Nat := ceilDiv (stripN s) (stripC s) - entryOf s s.a.sew

/-- First element of the entry at the restart index, and its last, exclusive. -/
def entryStart (s : State) : Nat := entryOf s s.a.sew * stripC s
def entryEnd (s : State) : Nat := min ((entryOf s s.a.sew + 1) * stripC s) (stripN s)

/-- `pplane.ld`, one entry: its slot is claimed, its lines are read, and it is pushed (R156, R294). -/
def planeLoaded (p : ParCmd) (s : State) : Option State :=
  let lo := entryStart s
  match claimHead s p.head.toNat with
  | none => none
  | some u =>
    match planeLines p.since p.addr.toNat ((span 0 ((entryEnd s - lo) / 128)).map (fun l => lo + 128 * l)) u with
    | .ok (t, l) => some (pastEntry (fillHead t p.head.toNat (BitVec.ofNat 65536 (natOf l)) l.length 0 true) s.a.sew
        (entryOf s s.a.sew))
    | .error _ => none

/-- `pplane.st`, one entry: the bytes that it supplies, placed and entered (R294). -/
def planeStored (p : ParCmd) (s : State) : Option State :=
  let lo := entryStart s
  match headOf s p.head.toNat with
  | [] => none
  | q :: _ =>
    let n := min (q.supply 8) (entryEnd s - lo)
    match planePlaces p.addr.toNat (pieces (n / 128 + 1) lo n) s with
    | .ok (t, keys) => some (pastEntry (popHead (enterCells t .parterre p.serial false
        (keys.zip ((List.range n).map (fun i => BitVec.ofNat 8 (getElemN q.data 8 i))))) p.head.toNat) s.a.sew
          (entryOf s s.a.sew))
    | .error _ => none

/-- `pstep`, one entry: the automata of its segments take their steps (R291). -/
def planeStepped (p : ParCmd) (s : State) : Option State :=
  let k := p.bank.depth
  match headOf s p.head.toNat with
  | [] => none
  | q :: _ =>
    match stepLines p.since p.addr.toNat k (stepParts q (entryStart s) (entryEnd s) (stripC s)) s with
    | .ok (t, l) => some (pastEntry (popHead (l.foldl (fun t r => enterCells t .parterre p.serial false
        (r.1.zip ((List.range k).flatMap (planeBytes r.2)))) t) p.head.toNat) s.a.sew (entryOf s s.a.sew))
    | .error _ => none

/-- `pvote`, one entry of up to C elements: its slot is claimed, its sums are read, and it is pushed (R156, R287). -/
def votePushed (p : ParCmd) (best : Bool) (s : State) : Option State :=
  let z : BitVec 2 := if best then 0 else 1
  let n := if best then batchB p.words else batchB p.words * p.bank.classes
  let m := entryOf s z
  let lo := m * s.perReg z
  match claimHead s p.head.toNat with
  | none => none
  | some u =>
    match voteElems p best (span lo (min ((m + 1) * s.perReg z) n - lo)) u with
    | .ok (t, es) => some (pastEntry (fillHead t p.head.toNat
        (es.zipIdx.foldl (fun r p => setElemN r (sewBits z) p.2 p.1) 0) es.length z true) z m)
    | .error _ => none

/-- The instruction whose command is at its turn completes: the agent makes its release, the command ends and nothing is
kept (R230, R283). -/
def parEnded (p : ParCmd) (s : State) : Option State :=
  match quietRelease s .parterre p.ord with
  | .ok t _ => some (((dropPar t).setVm VMem.idle).bump 4)
  | _ => none

/-- The whole work of the command at its turn, its A-hart in focus, where no access of it is refused or waits. -/
def worked (p : ParCmd) (s : State) : Option State :=
  (match p.kind with
  | .planeLd => times (planeLoaded p) (entriesLeft s) s
  | .planeSt => times (planeStored p) (entriesLeft s) s
  | .step => times (planeStepped p) (entriesLeft s) s
  | .vote best =>
    let n := if best then batchB p.words else batchB p.words * p.bank.classes
    let z : BitVec 2 := if best then 0 else 1
    times (votePushed p best) (ceilDiv n (s.perReg z) - entryOf s z) s
  | _ => none).bind (parEnded p)

/-- What is said of an instruction that hands a command over and waits for it: with no other command held it works at once,
taken whole; behind another one it stalls; held already and at its turn it works. -/
def Serves (i : Instr) (s t : State) (sc : BitVec 2) (q r : Bit) (kind : ParKind) (ws : List Word) (bank : Bank) (head : Reg)
    (addr : Word) : Prop :=
  handoverFree t sc r → t.core.team.pars.length < 8 →
    let b := parHeldAs (handedOver t sc r) kind ws bank head addr (orders sc q r)
    (t.core.team.pars = [] → s.limit = none → ∀ p u, b.core.team.pars = [p] → worked p b = some u → exec i s = .next u) ∧
    (∀ p l, t.core.team.pars = p :: l → exec i s = .next (b.setH { b.h with wait := some .engine }))

/-- A draw by the vector agent from what its consumer sampled: from Ashlar, or from the table that it reads (R71, R72,
R101). -/
def drawn (s : State) (d : DrawSample) (tag : BitVec 32) (x : Word) : Option (State × BitVec 16) :=
  if d.src.getLsbD 63 = false then some (s, ashlarDraw d.key tag ((x >>> 3).setWidth 96) (x.toNat % 8))
  else
    match readable s s.vectorAgent Ask.parDraw (drawAddr d.src (x.toNat % 2 ^ 55)) 2 with
    | some (t, _, l) => some (t, BitVec.ofNat 16 (natOf l))
    | none => none

/-- Draws of elements in turn, put into a register of 16-bit elements. -/
def drawnAll (base : Word) (d : DrawSample) (tag : BitVec 32) (c : Nat) : List Nat → State → VReg → Option (State × VReg)
  | [], s, r => some (s, r)
  | j :: l, s, r => (drawn s d tag (base + BitVec.ofNat 64 j)).bind (fun p =>
      drawnAll base d tag c l p.1 (setElemN r 16 (j % c) p.2.toNat))

/-- `pdraw`, one entry (R292). -/
def drawPushed (d : Reg) (base : Word) (smp : DrawSample) (tag : BitVec 32) (s : State) : Option State :=
  let lo := entryStart s
  (claimHead s d.toNat).bind (fun u => (drawnAll base smp tag (stripC s) (span lo (entryEnd s - lo)) u 0).map (fun p =>
    pastEntry (fillHead p.1 d.toNat p.2 (entryEnd s - lo) 1 true) s.a.sew (entryOf s s.a.sew)))

end Sys2Proof.Claims

/-- R283, R287, R291 to R295: `pvote`, `pstep`, `pplane` and `pdraw` complete where their heads have room or entries
and their accesses pass; `pkey` sets the draw state. R279, R284 and R285: the output of a clause: every included
literal must be 1; of an empty clause it is that of the mode; csum counts outputs of even clauses up and of odd ones
down. It rests on choices and inferences of the model: log entries 3, 27, 44, 89 and 92. -/
def Obligations.ParterreInstructions : Prop :=
  (∀ (s : State) (d a b h : Reg) (sc : BitVec 2) (q r : Bit) (v : BitVec 2), s.xh = false → stripC s ≠ 0 →
     h.toNat = 4 ∨ h.toNat = 5 → d.toNat < 4 → v.toNat < 2 →
     let fresh := ∀ c ∈ s.core.team.pars, c.t = s.tnd → c.kind.waits = false
     (fresh →
       (∀ t ws k, recordRead Ask.parRecord s a = some (t, ws) → t.a.bank = some k → batchIssue ws = 0 → batchS ws ≠ 0 →
         (∀ z, t.perReg z ≠ 0) → Serves (.pvote d a sc q r v) s t sc q r (.vote (v == 1)) ws k d 0) ∧
       (∀ k, s.a.bank = some k → s.a.sew = 0 → (s.getS a).toNat % 128 = 0 →
         Serves (.pstep a h sc q r) s s sc q r .step [] k h (s.getS a)) ∧
       (s.a.bank = none → Illegal (.pstep a h sc q r) s 7) ∧
       (s.a.sew = 0 → stripN s % 128 = 0 → (s.getS a).toNat % 128 = 0 →
         Serves (.pplaneLd d a sc q r) s s sc q r .planeLd [] { w0 := 0, w1 := 0, w2 := 0 } d (s.getS a) ∧
         Serves (.pplaneSt a h sc q r) s s sc q r .planeSt [] { w0 := 0, w1 := 0, w2 := 0 } h (s.getS a)) ∧
       ((s.a.sew ≠ 0 ∨ stripN s % 128 ≠ 0) → Illegal (.pplaneLd d a sc q r) s 7 ∧ Illegal (.pplaneSt a h sc q r) s 7)) ∧
     (∀ p l, s.core.team.pars = p :: l → p.t = s.tnd → p.kind.waits = true → (∀ z, s.perReg z ≠ 0) → s.limit = none →
       ∀ u, worked p s = some u →
       exec (.pvote d a sc q r v) s = .next u ∧ exec (.pstep a h sc q r) s = .next u ∧
       exec (.pplaneLd d a sc q r) s = .next u ∧ exec (.pplaneSt a h sc q r) s = .next u) ∧
     (s.a.sew = 1 →
       let tag : BitVec 32 := (s.getS a).setWidth 32
       let mine := s.core.team.ports.any (fun p => p.kind == 2 && p.t == s.tnd)
       let smp := match s.core.team.ports.find? (fun p => p.kind == 2 && p.t == s.tnd) with
         | some p => p.draw
         | none => sampled s
       let open_ := if mine then s
         else s.setTeam { s.core.team with
           ports := activePorts s ++ [{ kind := 2, tag := tag, t := s.tnd, serial := s.serial, draw := sampled s }] }
       (mine = false → tagClash s tag = true →
         exec (.pdraw d a b) s = .next (s.takeTrap (causeWord 9 2 0) 0 (tag.setWidth 64) s.pc)) ∧
       ((mine = true ∨ tagClash s tag = false) → s.limit = none → ∀ u, times (drawPushed d (s.getS b) smp tag) (entriesLeft open_) open_ = some u →
         exec (.pdraw d a b) s = .next (((u.setTeam { u.core.team with
           ports := u.core.team.ports.filter (fun p => !(p.kind == 2 && p.t == u.tnd)) }).setVm VMem.idle).bump 4))) ∧
     exec (.pkey a b) s = .next ((s.setTeam { s.core.team with dkeylo := s.getS a, dkeyhi := s.getS b }).bump 4) ∧
     exec (.pkeySrc a) s = .next ((s.setTeam { s.core.team with dsrc := s.getS a &&& 0x80FFFFFFFFFFFFFF }).bump 4) ∧
     exec (.pkeyEp a) s = .next ((s.setTeam { s.core.team with repoch := (s.getS a).setWidth 40 }).bump 4)) ∧
  (∀ (b : Bank) (x : Nat) (training : Bool) (planes : List Nat) (os : List Bool), planes.length = b.segments →
     let included := fun l => (planes.getD (l / 1024) 0).testBit (l % 1024)
     let literal := fun l => if l % 2 = 0 then x.testBit (l / 2) else !x.testBit (l / 2)
     let n := 2 * b.features
     ((∀ l < n, included l = false) → clauseOut b x training planes = training) ∧
     ((∃ l < n, included l = true) →
       (clauseOut b x training planes = true ↔ ∀ l < n, included l = true → literal l = true)) ∧
     clauseSum os = ((List.range os.length).countP (fun j => j % 2 == 0 && os.getD j false) : Int) -
       ((List.range os.length).countP (fun j => j % 2 == 1 && os.getD j false) : Int))

namespace Sys2Proof.Claims

/-- The Trellis unit at work for the A-hart: its cursor, and the state in which it has begun: after the release of a
handover where the instruction makes it now, with the binding copied and no read executed early left (R300, R302, R305). -/
def unitBegun (s : State) (sc : BitVec 2) (r : Bit) : Option (State × TrellisCursor) :=
  match s.core.team.trellis, s.a.grid with
  | some c, _ => if c.t = s.tnd then some (s, c) else none
  | none, some g =>
    let t := nextSerial (forgetEarly (handedOver s sc r) s.core.num [s.scalarAgent, s.vectorAgent])
    some (t, { t := t.tnd, grid := g, plane := 0, coords := [], serial := t.serial, since := t.ticks })
  | none, none => none

/-- The cursor goes to the next plane, which is the restart index too (R307). -/
def planeDone (s : State) (c : TrellisCursor) : State :=
  (setCursor s (some { c with plane := c.plane + 1 })).setVm { s.vm with restart := c.plane + 1 }

/-- `tgload`, one plane (R303). -/
def planeGathered (d : Reg) (s : State) : Option State :=
  match s.core.team.trellis with
  | none => none
  | some c =>
    if headFull s d.toNat then none
    else
      match gatherPlane c.grid c s with
      | .ok (t, v, f) =>
        some (planeDone (pushHead (t.raise f) d.toNat { data := v, count := t.a.n, sew := 2, fill := false }) c)
      | .error _ => none

/-- `tgscat`, one plane (R304). -/
def planeScattered (s : State) : Option State :=
  match s.core.team.trellis, headOf s 5 with
  | some c, e :: _ =>
    if e.count.toNat = stripN s ∧ e.sew = 2 then
      match scatterPlane c.grid c e.data s with
      | .ok t => some (planeDone (popHead t 5) c)
      | .error _ => none
    else none
  | _, _ => none

/-- What the two instructions share: where they go on, are illegal, or wait; else `work` on the planes that are left. An
instruction in progress needs no binding any more: it goes on with the one it copied (R300). -/
def Planes (i : Instr) (s : State) (sc : BitVec 2) (q r : Bit) (work : State → Option State) (whole : State → Prop) : Prop :=
  let mine := ∃ c, s.core.team.trellis = some c ∧ c.t = s.tnd
  (s.a.grid = none → ¬ mine → Illegal i s 7) ∧
  ((s.a.sew ≠ 2 ∨ s.a.group ≠ 0) → Illegal i s 7) ∧
  ((s.a.grid ≠ none ∨ mine) → s.a.sew = 2 → s.a.group = 0 →
    (stripN s = 0 → exec i s = .next (s.bump 4)) ∧
    (stripN s ≠ 0 →
      (∀ c, s.core.team.trellis = some c → c.t ≠ s.tnd → Stalls i s .owner) ∧
      ((s.core.team.trellis = none → handoverFree s sc r) → s.limit = none → ∀ b c t c' u w, unitBegun s sc r = some (b, c) →
        popCoords (c.grid.d - c.coords.length) c (setCursor b (some c)) = .ok (t, c') →
        times work (c.grid.f * c.grid.count - c.plane) t = some u → whole u →
        quietRelease u .trellis (orders sc q r) = .ok w () →
        exec i s = .next (((setCursor w none).setVm VMem.idle).bump 4))))

/-- `xconv` on one element group, into the slot it has claimed (R156, R308). -/
def groupConverted (f : Fmt) (d : Reg) (base : Word) (s : State) : Option State :=
  let lo := s.vm.restart * stripE s
  let hi := min (lo + stripE s) (stripN s)
  match claimHead s d.toNat with
  | none => none
  | some t =>
    let held := ((filling t d.toNat).map (·.data)).getD 0
    match convElems f (sewBits s.a.sew) (stripC s) base (span lo (hi - lo)) t
        { data := held, fl := 0, range := false, last := t.vm.lastRead } with
    | .ok (u, v) =>
      let u := ((u.raise v.fl).raiseRange v.range).setVm { u.vm with restart := s.vm.restart + 1, lastRead := v.last }
      some (fillHead u d.toNat v.data ((hi - 1) % stripC s + 1) u.a.sew (hi = stripN s ∨ hi % stripC s = 0))
    | .error _ => none

end Sys2Proof.Claims

/-- R302 to R305 and R308: `tgload` and `tgscat` complete plane by plane with the bound grid, `tgscat` once every
contribution has performed; `xconv` converts x64 cells, one at s[a] or one for each element. It rests on choices and
inferences of the model: log entries 3, 27, 45, 76 and 92. -/
def Obligations.TrellisInstructions : Prop :=
  ∀ (s : State) (d a : Reg) (sc : BitVec 2) (q r f v : Bit), s.xh = false → d.toNat < 4 →
    let fmt := if v = 1 then Fmt.fp64 else .fp32
    Planes (.tgload d sc q r) s sc q r (planeGathered d) (fun _ => True) ∧
    Planes (.tgscat sc q r f) s sc q r planeScattered
      (fun u => ∀ c, u.core.team.trellis = some c → ∀ e ∈ u.buf, e.holds u.core.num c.serial = false) ∧
    (s.a.sew ≠ (if v = 1 then 3 else 2) → Illegal (.xconvV d a sc q v) s 7) ∧
    (s.a.sew = (if v = 1 then 3 else 2) →
      let b := vecAcquired s (q == 1)
      let end_ := fun (u : State) => if q = 1 then forgetEarly u u.core.num [u.vectorAgent] else u
      (stripN b = 0 → exec (.xconvV d a sc q v) s = .next (b.bump 4)) ∧
      (stripN b ≠ 0 → stripC b ≠ 0 → s.limit = none →
        ∀ u, times (groupConverted fmt d (s.getS a)) (ceilDiv (stripN b) (stripE b) - b.vm.restart) (issued b) = some u →
          exec (.xconvV d a sc q v) s = .next (((end_ u).setVm VMem.idle).bump 4))) ∧
    (∀ t p l, readable (scalarAcquired s q) s.scalarAgent Ask.cell (s.getS a) 8 = some (t, p, l) →
      let u := scalarAcquired t q
      let c := x64Convert fmt (wordOf l) (leafQ p.w1)
      exec (.xconvS d a sc q v) s =
        .next ((((u.setF d (boxed fmt.width c.1.1)).raise c.1.2).raiseRange c.2).bump 4))
/-! ## Grotto -/

namespace Sys2Proof.Claims

/-- The kernel that runs on the channel in focus and may begin or go on with a row step (R316, R328). -/
def runs (s : State) (k : Kernel) : Prop := runningKernel s s.gch = some k ∧ (k.revokeReq = true → k.inStep = true)

/-- That kernel with `gmpc` at the next word, as an S-slice word finds it; a B-slice word opens a row step as well (R317). -/
def advanced (k : Kernel) : Kernel := { k with regs := { k.regs with gmpc := k.regs.gmpc + 1 } }
def stepped (k : Kernel) : Kernel := { advanced k with inStep := true }

/-- Lane j of width w of a segment, as a number and by its signedness. -/
def lane (w : Nat) (g : Seg) (j : Nat) : Nat := g.toNat / 2 ^ (j * w) % 2 ^ w
def laneInt (w : Nat) (signed : Bit) (v : Nat) : Int := if signed = 1 ∧ 2 ^ (w - 1) ≤ v then (v : Int) - 2 ^ w else v

/-- A value clamped to the range of w bits, or wrapped to it. -/
def laneFit (w : Nat) (saturate signed : Bit) (v : Int) : Nat :=
  if saturate = 1 then (clamped (signed == 1) w v).v else low w v

/-- Each unit's registers go from the first of a pair to the second: what a micro-operation does to them, by unit number. -/
def OnUnits (i : Instr) (s : State) (k : Kernel) (rel : Nat → GUnit → GUnit → Prop) : Prop :=
  ∃ us, exec i s = .next (setKernel s s.gch 0
      { stepped k with regs := { (stepped k).regs with units := us } }) ∧ us.length = k.regs.units.length ∧
    ∀ m, (h : m < k.regs.units.length) → (h' : m < us.length) → rel m k.regs.units[m] us[m]

/-- Segment registers from d on take lanes; the other registers stay. -/
def SegsFrom (d n w : Nat) (u v : GUnit) (val : Nat → Nat → Nat) : Prop :=
  v.b = u.b ∧ (∀ r, r < 8 → (r < d ∨ d + n ≤ r) → v.seg r = u.seg r) ∧
  ∀ i j, i < n → j < 2048 / w → lane w (v.seg (d + i)) j = val i j

/-- Accumulators from b on take lanes; the other registers stay. -/
def AccsFrom (b n : Nat) (u v : GUnit) (val : Nat → Nat → Nat) : Prop :=
  v.g = u.g ∧ (∀ r, r < 4 → (r < b ∨ b + n ≤ r) → v.acc r = u.acc r) ∧
  ∀ i j, i < n → j < 64 → lane 32 (v.acc (b + i)) j = val i j

/-- Home address of a segment of a window row's block of unit m (R309, R312). -/
def segmentAt (blocks : List Nat) (units row m : Nat) (bank : Bit) (seg : Nat) : Nat :=
  blocks.getD (row * units + m) 0 + 2048 * bank.toNat + 256 * seg

/-- Registers at a row boundary: every segment register zero (R324). -/
def atBoundary (r : GRegs) : GRegs := { r with units := r.units.map (fun u => { u with g := Vector.replicate 8 0 }) }

/-- The writes of a row step reach the array in order (R402). -/
def committed (s : State) (k : Kernel) : State := k.writes.foldl State.writeHome s

/-- No row step of any kernel is open. -/
def allClosed (s : State) : Prop := ∀ q ∈ s.seqs, ∀ k ∈ q.kernels, k.status = .running → k.inStep = false

/-- The tables of the channels of these addresses admit writes for a domain (R370). -/
def admitted (s : State) (domain : BitVec 16) (addrs : List Nat) : Prop :=
  ∀ a ∈ addrs, aclPasses s (channelOf a) domain .write a 1 = true

/-- The home addresses of a kernel's record area. -/
def recordArea (k : Kernel) : List Nat := pinnedSpan k.pins (kRec k.desc) (64 + 1024 * kUnits k.desc)

/-- A kernel whose end has begun: what it awaits is counted, and the writes of its step are gone (R325, R326). -/
def ending (k : Kernel) (code : BitVec 16) : Kernel :=
  { k with status := .ending code, writes := [], disturbance := k.disturbance + BitVec.ofNat 32 k.alerts, alerts := 0 }

/-- A kernel that suspends: the count of R325, with the alerts that the suspension services. -/
def suspends (k : Kernel) : Kernel :=
  { k with status := .suspended, suspendReq := false, suspensions := k.suspensions + 1,
           disturbance := k.disturbance + BitVec.ofNat 32 k.alerts, alerts := 0 }

/-- The record of a kernel as it ends enters the sequencer's store buffer, in the order of R326: the five words, the reserved
bytes, the accumulators. -/
def recorded (s : State) (ch : Nat) (k : Kernel) (code : BitVec 16) : State :=
  let put := fun (u : State) (at_ : Nat) (b : List Byte) => enterOff u (.sequencer ch) false
    ((pinnedSpan k.pins (kRec k.desc + at_) b.length).zip b)
  put (put (put s 0 ((recordWords k code).flatMap (bytesOf 8))) 48 (List.replicate 16 0)) 64 (recordUnits k)

/-- Work in channel `ch` has ended: once all that its agent wrote has performed, its status word takes its tag and code. -/
def Reported (s t : State) (ag : Agent) (status : List Nat) (tag : Word) (code : BitVec 16) : Prop :=
  (∀ e ∈ t.buf, e.agent ≠ ag) ∧ (s.mem.wf = true → ∀ key, status = span key 8 → t.mem.word key = statusWord tag code) ∧
  ∀ a, a ∉ status → t.mem.read a = (performNow s (fun e => e.agent == ag)).mem.read a

end Sys2Proof.Claims

/-- R317, R319 and R321: the lane-wise operations, accumulation, narrowing and shifts, in every unit, all sources read
first. It rests on choices and inferences of the model: log entry 48. -/
def Obligations.MicroArithmetic : Prop :=
  ∀ (s : State) (k : Kernel) (w : BitVec 2) (m n : Bit) (d a b : BitVec 3) (f c r : BitVec 2) (h : Reg), runs s k → w ≠ 3 →
    let gvl := kGvl k.desc
    let z := 8 * 2 ^ w.toNat
    let spans := 4 / 2 ^ w.toNat
    let wise := fun (i : Instr) (op : Nat → Nat → Nat) =>
      OnUnits i s k (fun _ u v => SegsFrom d.toNat gvl z u v (fun i j =>
        op (lane z (u.seg (a.toNat + i)) j) (lane z (u.seg (b.toNat + i)) j)))
    (d.toNat + gvl ≤ 8 → a.toNat + gvl ≤ 8 → b.toNat + gvl ≤ 8 →
      wise (.gadd w m n d a b) (fun x y => laneFit z m n (laneInt z n x + laneInt z n y)) ∧
      wise (.gsub w m n d a b) (fun x y => laneFit z m n (laneInt z n x - laneInt z n y)) ∧
      wise (.gmax w m n d a b) (fun x y => if laneInt z n x ≤ laneInt z n y ↔ m = 1 then x else y)) ∧
    (f.toNat % spans = 0 →
      OnUnits (.gacc w m n a f) s k (fun _ u v => AccsFrom f.toNat spans u v (fun i j =>
        low 32 ((if m = 1 then 0 else (lane 32 (u.acc (f.toNat + i)) j : Int)) +
          laneInt z n (lane z (u.seg a.toNat) (64 * i + j))))) ∧
      OnUnits (.gnar w m n d f) s k (fun _ u v => SegsFrom d.toNat 1 z u v (fun _ j =>
        laneFit z m n (laneInt 32 n (lane 32 (u.acc (f.toNat + j / 64)) (j % 64)))))) ∧
    (c ≠ 3 → f.toNat % 2 ^ c.toNat = 0 →
      OnUnits (.gshr r n h f c) s k (fun _ u v => AccsFrom f.toNat (2 ^ c.toNat) u v (fun i j =>
        low 32 (fixedRound (laneInt 32 n (lane 32 (u.acc (f.toNat + i)) j)) h.toNat r))))

/-- R318, R320, R329 and R402: a read of a row gives what the step has written there, else what the sequencer sees,
and a write waits for the row boundary; a row outside the window ends the kernel with 0x0402, and a read that meets
poison with 0x0406, in the state of the last boundary; a query replaces each index byte by its table entry. It rests
on choices and inferences of the model: log entry 48. -/
def Obligations.MicroTransfers : Prop :=
  ∀ (s : State) (k : Kernel) (x o h : Bit) (d a b g sg : BitVec 3) (p : BitVec 16) (t : BitVec 9), runs s k →
    let gvl := kGvl k.desc
    let np := kUnits k.desc
    let row : Int := k.regs.growc.toInt + p.toInt + (if o = 1 then k.regs.goff.toInt else 0)
    let at_ := fun (m i : Nat) => segmentAt k.data np row.toNat m x (sg.toNat + i)
    let table := fun (m : Nat) => segmentAt k.table np t.toNat m x sg.toNat
    let size := if h = 1 then 512 else 256
    let seen := fun (a : Nat) => ((k.writes.reverse.findSome? (fun l => (l.find? (fun c => c.1 == a)).map (·.2))).getD
      ((offSees s (.sequencer s.gch) a).getD 0)).toNat
    let abandons := fun (i : Instr) (code : BitVec 16) =>
      exec i s = .next (endKernel s s.gch 0 code { stepped k with regs := k.kept, writes := [] })
    let entry := fun (m i : Nat) => if h = 1 then seen (table m + 2 * i) + 256 * seen (table m + 2 * i + 1) else seen (table m + i)
    let answered := fun (i : Instr) (index : GUnit → Nat → Nat → Nat) => OnUnits i s k (fun m u v =>
      if h = 1 then SegsFrom d.toNat (2 * gvl) 16 u v (fun i j => entry m (index u (i / 2) (128 * (i % 2) + j)))
      else SegsFrom d.toNat gvl 8 u v (fun i j => entry m (index u i j)))
    (g.toNat + gvl ≤ 8 → sg.toNat + gvl ≤ 8 → 0 ≤ row → row < kRows k.desc →
      ((∀ m < np, ∀ j < 256 * gvl, rowPoison s k (at_ m 0 + j) = false) →
        OnUnits (.grd x o g sg p) s k (fun m u v => SegsFrom g.toNat gvl 8 u v (fun i j => seen (at_ m i + j)))) ∧
      ((∃ m < np, ∃ j < 256 * gvl, rowPoison s k (at_ m 0 + j) = true) → abandons (.grd x o g sg p) 0x0406) ∧
      ∃ ws, exec (.gwr x o g sg p) s = .next (setKernel s s.gch 0 { stepped k with writes := k.writes ++ ws }) ∧
        ∀ c, c ∈ ws.flatten ↔ ∃ m i j, ∃ _ : m < k.regs.units.length, i < gvl ∧ j < 256 ∧ c.1 = at_ m i + j ∧
          c.2.toNat = lane 8 (k.regs.units[m].seg (g.toNat + i)) j) ∧
    ((row < 0 ∨ kRows k.desc ≤ row) → ∀ i, i = .grd x o g sg p ∨ i = .gwr x o g sg p →
      abandons i 0x0402) ∧
    ((h = 1 → sg.getLsbD 0 = false) → d.toNat + (if h = 1 then 2 * gvl else gvl) ≤ 8 → a.toNat + gvl ≤ 8 → b.toNat + gvl ≤ 8 →
      (∀ m < np, ∀ j < size, rowPoison s k (table m + j) = false) → k.regs.units.length = np →
      answered (.gtq x h d a t sg) (fun u i j => lane 8 (u.seg (a.toNat + i)) j) ∧
      answered (.gtq2 x h d a b t sg) (fun u i j =>
        lane 8 (u.seg (a.toNat + i)) j % 16 * 16 + lane 8 (u.seg (b.toNat + i)) j % 16))

/-- R220, R322, R324, R326, R370 and R402: `grow` closes the row step, its writes performing, and the kernel goes on
or suspends; `gloop` counts down and jumps; `gqin` reads the next offset, after the kernel's own writes; `gqout`
writes the progress word once all in the sequencer's store buffer has performed, and `gsync` performs that and goes
on, the writes of the open step still waiting for its boundary; none of these opens a step. `gend` begins the end of
the kernel where its channels' tables admit its record, which enters the store buffer. It rests on choices and
inferences of the model: log entries 27, 48 and 84. -/
def Obligations.MicroControl : Prop :=
  ∀ (s : State) (k : Kernel) (t : BitVec 8), runs s k →
    let c := advanced k
    let mine := fun (e : Entry) => e.agent == .sequencer s.gch
    let gives := fun (i : Instr) (u : State) (e : Kernel) => exec i s = .next (setKernel u s.gch 0 e)
    let next := atBoundary { c.regs with growc := k.regs.growc + (kStride k.desc).signExtend 32 }
    let closed := { c with regs := next, kept := next, writes := [], inStep := false }
    let offset := kImage k.desc + 4 * (kUlen k.desc + 1 + k.regs.ocur.toNat)
    (k.revokeReq = false → k.suspendReq = false → gives .grow (committed s k) closed) ∧
    (k.revokeReq = false → k.suspendReq = true → gives .grow (committed s k) { closed with
      status := .suspended, suspendReq := false, suspensions := k.suspensions + 1,
      disturbance := k.disturbance + BitVec.ofNat 32 k.alerts, alerts := 0 }) ∧
    gives (.gloop 0 t) s { c with regs := if k.regs.lc0 = 0 then { c.regs with lc0 := kLc0 k.desc }
      else { c.regs with lc0 := k.regs.lc0 - 1, gmpc := t } } ∧
    gives (.gloop 1 t) s { c with regs := if k.regs.lc1 = 0 then { c.regs with lc1 := kLc1 k.desc }
      else { c.regs with lc1 := k.regs.lc1 - 1, gmpc := t } } ∧
    let at_ := pinnedSpan k.pins offset 4
    let progress := pinnedSpan k.pins (kRec k.desc + 40) 8
    (k.regs.ocur.toNat < kOlen k.desc → heldElsewhere s s.gch at_ = false → (∀ a ∈ at_, rowPoison s k a = false) →
      gives .gqin s { c with regs := { c.regs with
        goff := BitVec.ofNat 32 (natOf (at_.map (rowByte s k))), ocur := k.regs.ocur + 1 } }) ∧
    (agentHeld s (.sequencer s.gch) [] = [] → gives .gsync (performNow s mine) c) ∧
    (agentHeld s (.sequencer s.gch) progress = [] →
      gives .gqout ((performNow s mine).writeHome (progress.zip (bytesOf 8 (k.regs.growc.setWidth 64))))
        { c with writes := k.writes.map (fun l => l.filter (fun w => !progress.contains w.1)) }) ∧
    (k.regs.units.length = kUnits k.desc → admitted s k.domain (recordArea k) →
      let e := ending (if k.suspendReq then suspends k else k) 1
      gives .gend (recorded (committed s k) s.gch e 1) e)

/-- R220, R225, R316, R324 to R328, R332 and R333: kernels start afresh or from their record, suspend and resume, and
begin to end when they are revoked between row steps; lists start from their cursor, and a command word adds its rows
and, at the end of a bag, writes the bag. An end that has begun reports once all that the sequencer or the adders
wrote has performed. It rests on choices and inferences of the model: log entries 26 and 48. -/
def Obligations.GrottoEvents : Prop :=
  ∀ (s : State) (ch : Nat) (k : Kernel) (ks : List Kernel) (l m : RedList) (ls : List RedList) (b : List Byte) (rs : List Nat)
      (mine : Bool) (code : BitVec 16),
    let gives := fun (i : Instr) (e : Kernel) => exec i s = .next (setKernel s ch 0 e)
    let toList := fun (i : Instr) (u : State) (e : RedList) => exec i s = .next (setList u ch 0 e)
    let ended := fun (k : Kernel) => match k.status with
      | .ending _ => true
      | _ => false
    let cursor := fun (l : RedList) => if l.started then pinnedSpan l.pins (rRec l.desc) 8 else []
    let outRow := rOut l.desc + l.bag * rPitch l.desc (rOfmt l.desc)
    ((seqOf s ch).kernels = k :: ks →
      (k.status = .queued → k.revokeReq = false →
        (kResume k.desc = false → gives (.grottoKernelStart ch) { k with status := .running }) ∧
        (kResume k.desc = true → heldElsewhere s ch (recordArea k) = false →
          pinRead s (.sequencer ch) k.pins (kRec k.desc) (64 + 1024 * kUnits k.desc) = some b → recordFits k.desc b = true →
          let r := regsOfRecord k.desc b
          gives (.grottoKernelStart ch)
            { k with status := .running, regs := r.1, kept := r.1, suspensions := r.2.1, disturbance := r.2.2 })) ∧
      (k.status = .running →
        (k.inStep = true → gives (.kernelSuspend ch) { k with suspendReq := true }) ∧
        gives (.refresh ch) { k with suspendReq := true } ∧
        gives (.activationCountAlert ch mine)
          { k with suspendReq := true, alerts := k.alerts + (if mine then 1 else 0) }) ∧
      (k.status = .suspended →
        (k.revokeReq = false → gives (.kernelResume ch) { k with status := .running }) ∧
        gives (.activationCountAlert ch true) { k with disturbance := k.disturbance + 1 }) ∧
      (k.status = .ending code → let status := pinnedSpan k.pins (kStat k.desc) 8
        agentHeld s (.sequencer ch) status = [] → admitted s k.domain status →
        ∃ t, endMove s ch = some t ∧ (seqOf t ch).kernels = ks ∧ (seqOf t ch).lists = (seqOf s ch).lists ∧
          Reported s t (.sequencer ch) status (kTag k.desc) code)) ∧
    ((seqOf s ch).kernels.length ≤ 4 → (seqOf s ch).lists.length ≤ 4 →
      (∀ k ∈ (seqOf s ch).kernels, k.regs.units.length = kUnits k.desc ∧ k.kept.units.length = kUnits k.desc ∧
        (k.revokeReq = true → admitted s k.domain (recordArea k))) →
      (∀ l ∈ (seqOf s ch).lists, l.revokeReq = true → admitted s l.domain (cursor l)) →
      ∃ t, exec (.kernelRevoke ch) s = .next t ∧ t.mem = s.mem ∧
        (seqOf t ch).kernels = (seqOf s ch).kernels.map (fun k =>
          if k.revokeReq && !ended k && !(k.status == .running && k.inStep) then
            ending (if k.status == .running then suspends { k with regs := k.kept } else k) 0x0401
          else k) ∧
        (seqOf t ch).lists = (seqOf s ch).lists.map (fun l =>
          if l.revokeReq && l.fin.isNone then { l with fin := some 0x0401 } else l)) ∧
    ((seqOf s ch).lists = l :: ls → l.fin = some code → (∀ k ∈ (seqOf s ch).kernels, ended k = false) →
      let status := pinnedSpan l.pins (rStat l.desc) 8
      agentHeld s (.adders ch) status = [] → admitted s l.domain status →
      ∃ t, endMove s ch = some t ∧ (seqOf t ch).lists = ls ∧ (seqOf t ch).kernels = (seqOf s ch).kernels ∧
        Reported s t (.adders ch) status (rw l.desc 7) code) ∧
    ((seqOf s ch).lists = l :: ls → l.revokeReq = false → l.fin = none → allClosed s →
      (l.started = false → pinRead s (.adders ch) l.pins (rRec l.desc) 8 = some b →
        toList (.reduceListStart ch) s { l with
          started := true, bag := natOf b / 2 ^ 32, c := natOf b % 2 ^ 32, start := natOf b % 2 ^ 32,
          acc := List.replicate (rElems l.desc) 0x80000000 }) ∧
      (l.started = true → rCmds l.desc ≤ l.c →
        admitted s l.domain (cursor l) → toList (.reduceCommandWord ch)
          (enterOff s (.adders ch) false ((cursor l).zip (bytesOf 8 (BitVec.ofNat 64 (l.bag * 2 ^ 32 + l.start)))))
          { l with fin := some 1 }) ∧
      (l.started = true → l.c < rCmds l.desc → pinRead s (.adders ch) l.pins (rList l.desc + 8 * l.c) 8 = some b →
        commandRows (wordOf b) = some rs → (∀ r ∈ rs, r < rRows l.desc) → addRows s ch rs l = some m →
        (natOf b % 2 = 0 → toList (.reduceCommandWord ch) s { m with c := l.c + 1 }) ∧
        (natOf b % 2 = 1 → l.bag < rOuts l.desc → toList (.reduceCommandWord ch)
          (enterOff s (.adders ch) false ((pinnedSpan l.pins outRow (bagBytes m).length).zip (bagBytes m)))
          { m with c := l.c + 1, bag := l.bag + 1, start := l.c + 1,
                   acc := List.replicate (rElems l.desc) 0x80000000 })))
/-! ## Events of memory and of waiting harts -/

/-- R107, R219, R222, R223, R229, R324, R388, R407 and R410: an agent executes a read of a later instruction or
command, the collective engine among them, and a fetch sees a unit before its turn; what a home finds uncorrectable
poisons a granule, or is fatal in firmware's region; the entry that nothing stands before moves to its next buffer or
performs at its home, or asks the kernel that holds the home to suspend (R324); two adds of one place that return
nothing combine into one, in one buffer or at the home. R209 to R212: a walk makes one read at a time, at home: word 0
of an entry, then word 1; a valid leaf stands in a TLB of the die beside older ones, and a cached leaf may go at any
time; a walk that meets poison or an entry that gives no leaf ends, and its request is refused in the next step,
though an older leaf may stand in a TLB. R219 and R223: a read that an agent holds may execute again, and gives its
value to the register or the element that has taken the first; an atomic that its agent holds gives its old value to
its register when it performs at home. It rests on choices and inferences of the model: log entries 2, 4, 22, 25, 26,
58, 63, 65, 70, 91, 92, 96, 97 and 99. -/
def Obligations.MemoryEvents : Prop :=
  (∀ (s u : State) (t z ecc : BitVec 2) (r : Reader) (va : Word) (p : Place) (l : List Byte) (n a size : Nat) (e f : Entry)
       (b : Loc) (pre mid post : List Entry) (x y : Word) (w v : List Contrib) 
       (agent : Agent) (q : Ask) (line : Bool),
     let c := s.onHart t.toFin false
     let m := meetEcc s p.key ecc
     let size' := if line then 128 else if r = .record then 64 * 2 ^ (z.toNat % 2) else 2 ^ z.toNat
     let addrs := span p.key size'
     (Reader.agent r t.toFin = some (agent, q, line) → s.core.team.status = .resident → va.toNat % size' = 0 →
       (line = false → ∀ k, s.core.team.trellis = some k → k.t ≠ t.toFin) →
       translate c (if line then c.engWho else c.who) q va size' = .ok p → m.fatal = none →
       freshRead (dropEarly m m.core.num agent addrs) m.core.num agent addrs = (u, .bytes l) →
       exec (.execute t r va z ecc) s = .next { u with
         early := u.early ++ [{ core := u.core.num, agent := agent, tick := u.ticks, cells := addrs.zip l }] }) ∧
     (r = .collective → va.toNat % 128 = 0 →
       let keys := collLine s va.toNat
       heldByGrotto s keys = false → ∀ cells, keys.mapM (fun k => (offSees s .collective k).map (fun b => (k, b))) = some cells →
         exec (.execute t r va z ecc) s = .next { s with
           early := (dropEarly s offCore .collective keys).early ++
             [{ core := offCore, agent := .collective, tick := s.ticks, cells := cells }] }) ∧
     (r = .fetch → s.core.team.status = .resident → va.toNat % 4 = 0 → translate s c.who Ask.fetch va 4 = .ok p → m.fatal = none →
       poisonedAt m p.key = false → exec (.execute t r va z ecc) s = .next (keepUnit m (p.key / 8 * 8))) ∧
     (r = .home → va.toNat < 2 ^ 60 → exec (.execute t r va z ecc) s = .next (meetEcc s va.toNat ecc)) ∧
     (ecc = 0 → m = s) ∧
     (ecc = 2 → (eccIndex p.key = none ∨ inReserved p.key = false) →
       granule p.key ∈ m.poison ∧ m.mem = s.mem ∧ (eccIndex p.key ≠ none → m.fresh = [granule p.key])) ∧
     (ecc = 2 → eccIndex p.key ≠ none → inReserved p.key = true →
       m = raiseFatal s 3 (1536 + p.key / regionSize) (BitVec.ofNat 64 p.key)) ∧
     (s.buf[n]? = some e → (∀ g ∈ s.buf.take n, g.blocks e = false) → (∀ g ∈ s.buf.eraseIdx n, e.waitsFor g = false) →
       let left := { s with buf := s.buf.eraseIdx n }
       (e.next = some b → exec (.drain n) s = .next { left with buf := left.buf ++ [{ e with loc := b }] }) ∧
       (e.next = none → homeHeld s e = false → exec (.drain n) s = .next (performEntry left e)) ∧
       (e.bad = false → e.agent ≠ .host → performEntry left e = perform left e.payload) ∧
       (e.next = none → homeHeld s e = true → exec (.drain n) s = .next (askSuspend s e.payload.addrs))) ∧
     (s.buf = pre ++ e :: mid ++ f :: post → pre.length = n → 0 < size → sameUnit e f = true →
       (∀ g ∈ mid, sameUnit e g = false ∨ g.payload.overlaps e.payload = false ∧ g.parts e f = false) → (e.loc.level = 1 ∨ e.next = none) →
       (∀ g ∈ pre ++ mid ++ post, (g.lower f = true → g.lower e = true) ∧ (e.loc = f.loc ∨ g.blocks f = false)) →
       let merged := fun (q : Payload) => exec (.combine n) s = .next { s with buf := pre ++ { e with payload := q } :: mid ++ post }
       ((∃ op, e.payload = .atomic op a size x w) → (∃ op, f.payload = .atomic op a size y v) → noneReturns (w ++ v) = false →
         exec (.combine n) s = .next s) ∧
       (e.payload = .atomic .add a size x w → f.payload = .atomic .add a size y v → noneReturns (w ++ v) = true →
         merged (.atomic .add a size (BitVec.ofNat 64 ((x + y).toNat % 2 ^ (8 * size))) (w ++ v))) ∧
       (e.payload = .atomic .fadd a size x w → f.payload = .atomic .fadd a size y v → noneReturns (w ++ v) = true →
         merged (.atomic .fadd a size (fpAdd (if size = 8 then .fp64 else .fp32) .rne x y).1 (w ++ v))))) ∧
  (∀ (s : State) (va : Word) (out : Option Nat) (r : WalkRun) (w : Who) (w0 : Word),
     s.core.team.status = .resident → va.toNat < windowBase →
     let kept := match out.bind (fun n => s.tlb[n]?) with
       | some k => dropLeaves s (· == k)
       | none => s
     let walker := fun (q : WalkRun) => dieOf q.core = dieOf s.core.num
     let mine := fun (q : WalkRun) => q.core = s.core.num ∧ q.root = s.core.team.root ∧ q.va = va.toNat
     let first : WalkRun :=
       { core := s.core.num, root := s.core.team.root, va := va.toNat, left := 4, base := s.core.team.root.toNat, w0 := none }
     let rest := s.walks.filter (· != r)
     let a := r.base + 16 * (va.toNat / 2 ^ (12 + 11 * (r.left - 1)) % 2048)
     let word1 := s.mem.word (a + 8)
     let missed := fun (cls code : Nat) => { kept with
       walks := rest
       miss := some { tick := s.ticks, core := s.core.num, root := s.core.team.root, page := va.toNat / 4096, cls := cls, code := code } }
     let leads := fun (t : State) => exec (.pageWalk { va := va, out := out }) s = .next t
     ((∀ q ∈ s.walks, ¬ mine q) → walkOf kept va.toNat = first) ∧
     ((∀ q ∈ s.walks, ¬ mine q) → 192 ≤ s.walks.countP (fun q => walker q) → leads kept) ∧
     (walkOf kept va.toNat = r → mine r → (r ∈ s.walks ∨ s.walks.countP (fun q => walker q) < 192) →
       (poisonedAt s a = true → leads (missed 11 (poisonCode s a))) ∧
       (poisonedAt s a = false → r.w0 = none →
         ((s.mem.word a).getLsbD 0 = false → leads (missed 6 1)) ∧
         ((s.mem.word a).getLsbD 0 = true → leads { kept with walks := { r with w0 := some (s.mem.word a) } :: rest })) ∧
       (poisonedAt s a = false → r.w0 = some w0 → w0.getLsbD 1 = true →
         (malformedLeaf (4 - r.left) w0 word1 = true → 1 ≤ r.left → r.left ≤ 4 → leads (missed 6 2)) ∧
         (malformedLeaf (4 - r.left) w0 word1 = false → 1 ≤ r.left → r.left ≤ 4 →
           let size := 4096 * 2 ^ leafSize w0
           let k : TlbEntry := { die := dieOf s.core.num, root := s.core.team.root, base := va.toNat - va.toNat % size,
                                 size := size, w0 := w0, w1 := word1 }
           leads { kept with walks := rest, tlb := k :: kept.tlb.filter (· != k) })) ∧
       (poisonedAt s a = false → r.w0 = some w0 → w0.getLsbD 1 = false →
         (malformedTable w0 word1 = true ∨ r.left ≤ 1 → leads (missed 6 2)) ∧
         (malformedTable w0 word1 = false → 1 < r.left →
           leads { kept with walks := { r with left := r.left - 1, base := leafPa w0, w0 := none } :: rest }))) ∧
     (∀ m, s.miss = some m → m.tick + 1 = s.ticks → m.core = w.core → m.root = w.root → m.page = va.toNat / 4096 →
       leafOf s w va.toNat = .error ⟨m.cls, m.code⟩)) ∧
  ((∀ (s u : State) (t z ecc : BitVec 2) (va : Word) (k : Early) (d : RegDest) (l : List Byte) (h pos w i j : Nat),
      s.core.team.status = .resident → s.early[va.toNat]? = some k → k.core = s.core.num →
      (k.agent = .scalar t.toFin ∨ k.agent = .vector t.toFin) →
      let read := freshRead s k.core k.agent (k.cells.map (·.1))
      let again := exec (.execute t .held va z ecc) s
      (read = (u, .bytes l) → k.dest = some (.reg d) →
        again = .next (onAHart u k.core t.toFin (fun a => a.land d (d.form l.length (wordOf l))))) ∧
      (read = (u, .bytes l) → k.dest = some (.elem h pos w i) → again = .next (landElem u k.core t.toFin h pos w i (wordOf l))) ∧
      (k.dest ≠ none → read = (u, .wait) ∨ read = (u, .poison j) → again = .next u)) ∧
   (∀ (s : State) (op : AtomicOp) (a n : Nat) (x : Word) (k : Contrib) (d : RegDest), poisonedAt s a = false → k.ret = some d →
      let old := wordOf (s.mem.bytes a n)
      perform s (.atomic op a n x [k]) =
        onAHart (s.writeHome (cellsAt a (bytesOf n (op.apply n old x)))) k.core k.t (fun h => h.land d (d.form n old))) ∧
   (∀ (a : AHart) (d : RegDest) (w : Word) (n : Nat),
      (d.float = true → (a.land d w).h.f[d.r.toFin] = w ∧ (a.land d w).h.s = a.h.s ∧ d.form n w = boxed (8 * n) w) ∧
      (d.float = false → d.r = 0 → a.land d w = a) ∧
      (d.float = false → d.r ≠ 0 → d.shadow = false → (a.land d w).h.s[d.r.toFin] = w ∧ (a.land d w).shadow = a.shadow) ∧
      (d.float = false → 24 ≤ d.r.toNat → d.shadow = true →
        (a.land d w).shadow[d.r.toNat % 8]'(Nat.mod_lt _ (by decide)) = w ∧ (a.land d w).h = a.h) ∧
      (a.land d w).h.pc = a.h.pc ∧ (a.land d w).h.ldst = a.h.ldst ∧ (a.land d w).pend = a.pend))

namespace Sys2Proof.Claims

/-- A hart of the resident team that has not halted. -/
def live (s : State) (t : Fin 4) (x : Bool) : Prop :=
  s.core.team.status = .resident ∧ t.val < s.core.team.tandems ∧ (s.onHart t x).h.halted = false

end Sys2Proof.Claims

/-- R39, R43, R61, R233, R247, R253 and R394: a stalled grant and a waiting `barw` are worked out afresh, the grant
with bit 6 set and with the slots that earlier loads left unfilled taken away; a hart that waits on a line or a queue
moves next; a waiting completion enters the user-level handler with its two words in s24 and s25; a pending fault is
taken before the instruction at the pc. It rests on choices and inferences of the model: log entries 1, 33, 40 and 71.
-/
def Obligations.WakingEvents : Prop :=
  ∀ (s u w : State) (t : BitVec 2) (d a b : Reg) (g e sc : BitVec 2) (v : Bit) (h : Option Word) (raw n : Nat) (m : BitVec 7)
      (l : List Byte) (lo : Word) (x : Bool) (f : Completion) (fs : List Completion) (p : PFault) (ps : List PFault),
    let c := s.onHart t.toFin false
    let back := fun (r : State) => Host.Outcome.next (ρ := Refusal) (φ := Fault) (r.onHart s.tnd s.xh)
    let parties := ((wordOf l).extractLsb' 0 11).toNat
    let good := (wordOf l).extractLsb' 11 53 = 0 ∧ parties ≠ 0 ∧ parties ≤ 1024
    let target := fun (r : State) => if v = 1 then r.getS b else BitVec.ofNat 64 (r.a.h.strip.toNat - (r.getS b).toNat)
    let mine := fun (i : Move) => Host.Outcome.next (ρ := Refusal) (φ := Fault) { s with sched := i :: s.sched }
    (live s t.toFin false → readyFault c = none → userReady c = false →
      (c.h.wait = some (.setvl d a g e) → s.core.expired = false → highWater c = some (u, h) → u.td.gq.length < 8 →
        grant1 u (u.getS a).toNat g e h = (raw, some (n, m)) →
        exec (.grantRecompute t) s = back (granted u
          { two := false, n := BitVec.ofNat 17 n, rows := 1, cols := BitVec.ofNat 17 n, sew := e, group := g, mask := m } d)) ∧
      (c.h.wait = some (.setvl2 d a b e) → s.core.expired = false → (c.getS b).toNat ≠ 0 →
        (c.getS b).toNat ≤ c.maxvl e 0 → (s.core.team.port = true → (c.getS b).toNat ≤ 28 * groupElems e) →
        highWater c = some (u, h) → u.td.gq.length < 8 → grant2 u (c.getS a).toNat (c.getS b).toNat e h = (raw, some (n, m)) →
        exec (.grantRecompute t) s = back (granted u
          { two := true, n := BitVec.ofNat 17 (n * (c.getS b).toNat), rows := BitVec.ofNat 17 n,
            cols := BitVec.ofNat 17 (c.getS b).toNat, sew := e, group := 0, mask := m } d)) ∧
      (c.h.wait = some (.barw d a b sc v) → acquired c (c.getS a) 8 = some (u, l) →
        (¬ good → exec (.barwRecheck t) s = back ((u.setS d 0xFFFFFFFFFFFFFFFF).bump 4)) ∧
        (good → leastPhase (phaseWords (u.getS a) parties) u 0xFFFFFFFFFFFFFFFF = some (w, lo) →
          (target w).toNat ≤ lo.toNat → (v = 1 ∨ (target w).toNat ≤ w.x.h.strip.toNat) →
          exec (.barwRecheck t) s = back ((w.setS d lo).bump 4)))) ∧
    (live s t.toFin false → readyFault c = none →
      (c.a.done = f :: fs → c.a.ustat = false → c.a.h.priv = .user → c.a.uvec ≠ 0 → c.a.paused = false →
        ∃ r, exec (.userInterruptEntry t) s = back r ∧ r.a.upc = c.a.h.pc ∧ r.a.ldstAside = c.a.h.ldst ∧ r.a.ustat = true ∧
          r.a.done = fs ∧ r.getS 24 = f.stat ∧ r.getS 25 = f.status ∧
          r.a.h = { c.a.h with pc := c.a.uvec &&& 0xFFFFFFFFFFFFFFFE, wait := none } ∧ r.x = c.x ∧ r.mem = s.mem)) ∧
    (live s t.toFin false → c.h.wait = some .line → exec (.lineFullWake t) s = mine (.hart s.core.num t.toFin false)) ∧
    (live s t.toFin x → (s.onHart t.toFin x).h.wait = some .queue →
      exec (.queueStallRelease t x) s = mine (.hart s.core.num t.toFin x)) ∧
    (s.core.team.status = .resident → t.toNat < s.core.team.tandems → c.a.pend = p :: ps → readyFault c = some p →
      ∃ r, exec (.pendingFaultTake t) s = back r ∧ r.a.pend = ps ∧ r.mem = s.mem ∧
        r.a.h = { c.a.h with
          tcause := p.cause, tval := p.tval, tval2 := p.addr, tpc := c.a.h.pc, pc := c.a.h.tvec, priv := .system,
          wait := none, since := r.a.h.since })

/-! ## Events of the core's engines -/

/-- R152, R153, R230, R231, R233, R251 to R253 and R270: a copy command moves one chunk, and once all of its writes
and then its release have performed it marks the lines of a `.fe` full and reports; a stream starts a line, of which
no earlier read stands from then on, once the acquire that its declaration asks for is complete, and fills it; a
matrix feed, after the earlier feeds of its head, pushes one entry and at its end reports. It rests on choices and
inferences of the model: log entries 27, 31, 32, 33, 92, 101 and 103. -/
def Obligations.CopyAndFeedEvents : Prop :=
  ∀ (s u v : State) (n : Nat) (c : CopyCmd) (f : FeedCmd) (l : Marked) (bs : List Byte) (keys : List Nat) (w : Option Word)
      (t j : BitVec 2) (app : App) (p : Place) (k since : Nat),
    let lo := c.next * 128
    let len := min 128 (copyLen c.words - lo)
    let src := pieces 2 (copyFrom c.words + lo) len
    let dst := pieces 2 (copyTo c.words + lo) len
    let h := s.onHart t.toFin false
    let st := app.streams[j.toFin]
    let line := if st.filling then st.started - 1 else st.started
    let es := lineElems app st line
    let slot := st.boff / 128 + line % max st.lines 1
    let hi := min (f.step + feedEntrySteps f.words) (feedSteps f.words)
    (s.core.team.status ≠ .resident → exec (.copyChunk n) s = .next s ∧ exec (.copyComplete n) s = .next s ∧
      exec (.streamLineFill t j) s = .next s ∧ exec (.mfeedEntry n) s = .next s ∧ exec (.operandsConsumed n) s = .next s) ∧
    ((∀ k : Fin 4, ∀ a, s.core.team.tds[k].a.app = some a → ∀ m, a.acq = some m → n ≤ m.1) → engineAcquires s n = some s) ∧
    (s.core.team.status = .resident → s.core.team.copies[n]? = some c →
      (c.next < copyChunks c.words → c.fault = none → engineAcquires s c.serial = none → exec (.copyChunk n) s = .next s) ∧
      (∀ z, c.next < copyChunks c.words → c.fault = none → engineAcquires s c.serial = some z → copyWaits s s.core.team.copies n (pieceKeys s Ask.copyRead src) (pieceKeys s Ask.copyWrite dst) = false →
        readPieces .copy c.since Ask.copyRead src z = .ok u (l, none) → placePieces Ask.copyWrite dst u = .ok v keys →
        let m := if c.kind = 0 then markLine v v.core.num ((copyTo c.words + lo - windowBase) / 128) false else v
        exec (.copyChunk n) s = .next (setCopy (enterCells m .copy c.serial false (keys.zip (l.map (·.1)))) n
          { c with next := c.next + 1 })) ∧
      ((copyChunks c.words ≤ c.next ∨ c.fault ≠ none) → unperformed s .copy c.serial = false →
        concludeCommand s .copy 0 c.t c.ord (copyStat c.words) (copyTag c.words) c.fault = .ok u w →
        let r := if c.kind = 0 then
            (List.range c.next).foldl (fun r j => markLine r r.core.num ((copyTo c.words - windowBase) / 128 + j) true) u
          else u
        (c.kind ≠ 2 → exec (.copyComplete n) s = .next (r.setTeam { r.core.team with
          copies := r.core.team.copies.eraseIdx n })) ∧
        (c.kind = 2 → s.core.team.tds[c.t].a.done.length < 16 → ∀ status, w = some status →
          ∃ x, exec (.copyComplete n) s = .next x ∧ x.core.team.copies = u.core.team.copies.eraseIdx n ∧
            x.core.team.tds[c.t].a.done = u.core.team.tds[c.t].a.done ++
              [{ stat := copyStat c.words, status := status }]))) ∧
    (s.core.team.status = .resident → h.a.app = some app → st.en = true → st.fault = none →
      (app.acq = none → streamAcquired h app = some (h, app)) ∧
      (∀ m, app.acq = some m → acquireDone h m = true →
        streamAcquired h app = some (forgetEarly h h.core.num [.copy], { app with acq := none })) ∧
      (∀ m, st.filling = false → app.acq = some m → acquireDone h m = false → exec (.streamLineFill t j) s = .next s) ∧
      (∀ z app', st.filling = false → es ≠ [] → lineRoom st = true → streamAcquired h app = some (z, app') →
        lineReady z app' es = .ok u true →
        exec (.streamLineFill t j) s = .next ((setStream (markLine (forgetLine u slot) u.core.num slot false) app' j.toNat
          { st with started := st.started + 1, filling := true, since := u.ticks }).onHart s.tnd s.xh)) ∧
      (st.filling = true → fillBytes st es h [] = .ok u bs →
        enginePlace u Ask.copyWrite (BitVec.ofNat 64 (windowBase + (st.boff + line % max st.lines 1 * 128))) 128 = .ok v p →
        ∃ x, exec (.streamLineFill t j) s = .next x ∧ (v.mem.wf = true → ∀ i, (q : i < bs.length) → x.mem.read (p.key + i) = bs[i]) ∧
          (x.coreOf s.core.num).emptyLines.contains ((st.boff + line % max st.lines 1 * 128) / 128) = false)) ∧
    (s.core.team.status = .resident → s.core.team.feeds[n]? = some f →
      (f.step < feedSteps f.words → f.fault = none →
        (∀ e ∈ s.core.team.feeds.take n, e.fault ≠ none ∨ e.step ≠ 0 ∧
          (e.t = f.t → feedHead e.words = feedHead f.words → feedSteps e.words ≤ e.step)) →
        headFull (s.onHart f.t false) (feedHead f.words) = false →
        feedLines f.words (span f.step (hi - f.step)) f.since s = (.ok u (bs, since), k) →
        exec (.mfeedEntry n) s = .next (setFeed ((pushHead (u.onHart f.t false) (feedHead f.words)
          { data := BitVec.ofNat 65536 (natOf bs), count := BitVec.ofNat 17 bs.length, sew := 0, fill := false }).onHart
          u.tnd u.xh) n { f with step := hi, since := since })) ∧
      ((feedSteps f.words ≤ f.step ∨ f.fault ≠ none) →
        concludeCommand s .feed 1 f.t f.ord (feedStat f.words) (feedTag f.words) f.fault = .ok u w →
        exec (.operandsConsumed n) s = .next (u.setTeam { u.core.team with feeds := u.core.team.feeds.eraseIdx n })))

/-- R230, R253, R283, R284, R286, R288 and R289: the clause engine goes on with the command at its head: a pair of
`peval`, the targets, an example or a segment of `pfeed`, the whole work of an instruction that waits, unless its
A-hart is about to leave the instruction; at its end the command reports. It rests on choices and inferences of the
model: log entries 27, 33, 44, 86 and 92. -/
def Obligations.ParterreEvents : Prop :=
  ∀ (s u v x y : State) (p : ParCmd) (rest : List ParCmd) (tr : Bool) (os : List Bool) (next : ParCmd) (w : Option Word)
      (ws : List Nat) (outs : List (Nat × Nat)) (rs : List (List (Nat × Bool))) (sel : List Bool) (n : Nat)
      (ls : List (List Byte)) (states : List Nat),
    (s.core.team.status ≠ .resident → ∀ i ∈ [Instr.pevalRun, .pfeedRun, .pvoteRun, .pstepRun, .pplaneRun], exec i s = .next s) ∧
    (s.core.team.status = .resident → s.core.team.pars = p :: rest →
    let B := batchB p.words
    let e := p.pos / max p.bank.classes 1
    let classes := namedClasses (rs)
    let per := p.bank.clauses * p.bank.segments
    let c := classes.getD (p.pos / max per 1) 0
    let j := p.pos / max p.bank.segments 1 % max p.bank.clauses 1
    let g := p.pos % max p.bank.segments 1
    let done := fun (i : Instr) => p.refused = false → unperformed s .parterre p.serial = false →
      concludeCommand s .parterre 2 p.t p.ord (batchStat p.words) (batchTag p.words) p.fault = .ok u w →
      exec i s = .next (dropPar u)
    let works := fun (i : Instr) =>
      (interrupted (s.onHart p.t false) = true → exec i s = .next s) ∧
      (interrupted (s.onHart p.t false) = false → s.limit = none → worked p (s.onHart p.t false) = some u →
        exec i s = .next (u.onHart s.tnd s.xh))
    (p.kind = .eval tr →
      ((p.fault ≠ none ∨ B * p.bank.classes ≤ p.pos) → done .pevalRun) ∧
      (p.fault = none → p.pos < B * p.bank.classes → (batchO p.words ≠ 0 ∨ batchS p.words ≠ 0) →
        classOuts s p.since p.bank p.words e (p.pos % max p.bank.classes 1) tr = .ok u os →
        writePair u p e (p.pos % max p.bank.classes 1) os = .ok v next → exec .pevalRun s = .next (setPar v next))) ∧
    (p.kind = .feed → p.fault ≠ none → done .pfeedRun) ∧
    (p.kind = .feed → p.fault = none → p.refused = false →
      (p.roles = none → readTargets p.since p.words (List.range B) s = (.ok u ws, n) →
        exec .pfeedRun s = .next (setPar u (match ws.mapM (rolesOf p.bank.classes) with
          | some rs => { p with roles := some rs }
          | none => { p with refused := true }))) ∧
      (p.roles = some rs → p.second = false → p.pos < B → rolesOuts p.since p.bank p.words p.pos (rs.getD p.pos []) s = .ok u outs →
        exec .pfeedRun s = .next (setPar u { p with pos := p.pos + 1, outs := p.outs ++ [outs] })) ∧
      (p.roles = some rs → p.second = false → B ≤ p.pos →
        exec .pfeedRun s = .next (setPar s { p with second := true, pos := 0 })) ∧
      (p.roles = some rs → p.second = true → classes.length * per ≤ p.pos → done .pfeedRun) ∧
      (p.roles = some rs → p.second = true → p.pos < classes.length * per → p.sel = none →
        selectExamples p c j (List.range B) s = (.ok u sel, n) → (∀ b ∈ sel, b = false) →
        exec .pfeedRun s = .next (setPar u { p with pos := p.pos + (p.bank.segments - g) })) ∧
      (p.roles = some rs → p.second = true → p.pos < classes.length * per → p.sel = some sel →
        readPacks p.since p.bank p.words (List.range B) s = (.ok u ws, n) →
        parLines p.since ((List.range p.bank.depth).map (p.bank.plane c j g)) u = .ok v ls →
        stepSegment p ws ((sel.zipIdx.filter (·.1)).map (·.2)) c j g (ls.map natOf) (List.range 1024) v = (.ok x states, n) →
        writePlanes x p.serial (p.bank.plane c j g 0) p.bank.depth states = .ok y () →
        exec .pfeedRun s = .next (setPar y { p with
          pos := p.pos + 1, sel := if g + 1 = p.bank.segments then none else some sel }))) ∧
    ((∃ best, p.kind = .vote best) → (∀ z, s.perReg z ≠ 0) → works .pvoteRun) ∧
    (p.kind = .step → stripC (s.onHart p.t false) ≠ 0 → works .pstepRun) ∧
    ((p.kind = .planeLd ∨ p.kind = .planeSt) → stripC (s.onHart p.t false) ≠ 0 → works .pplaneRun))
/-! ## Events of teams and of the scheduler -/

namespace Sys2Proof.Claims

/-- The outcome of a record is known (R237, R338, R339): its word, where it has a place, takes its identifier and a code, and
it counts as retired with that code. -/
def Finished (s : State) (r : LaunchRec) (code : BitVec 16) : Prop :=
  let t := finishRec s r code
  (s.mem.wf = true → ∀ k, outcomeKey s r.words = some k → t.mem.word k = statusWord (BitVec.ofNat 64 (recId r.words)) code) ∧
  (∀ k, outcomeKey s r.words = some k → ∀ a, (a < k ∨ k + 8 ≤ a) → t.mem.read a = s.mem.read a) ∧
  (outcomeKey s r.words = none → t.mem = s.mem) ∧
  ∀ k ∈ t.launches, (k.queue = r.queue ∧ k.m = r.m ∧ k.epoch = r.epoch → k.status = .retired ∧ k.code = code) ∧
    (¬ (k.queue = r.queue ∧ k.m = r.m ∧ k.epoch = r.epoch) → k ∈ s.launches)

end Sys2Proof.Claims

/-- R31, R78, R340 to R345 and R354: a team is placed on the lowest idle core that qualifies or else on a run list,
starts at its entries with its parameter words, resumes as it was saved, and ends; its quantum expires, and it is
pre-empted where its core no longer fits it, a higher priority waits, or its grace is over. It rests on choices and
inferences of the model: log entries 18, 19, 33, 42, 55, 56, 57, 70, 83 and 105. -/
def Obligations.TeamEvents : Prop :=
  ∀ (s : State) (launch team g : Nat) (r : LaunchRec) (t : Team) (c : Core) (args : List Byte), g < 1536 →
    let f := s.focus g
    let cores := ((span (t.die * 192 + t.cfirst) (t.clast + 1 - t.cfirst)).map s.coreOf).filter (fun c => fitsCore c t)
    let at_ := fun (u : State) => Host.Outcome.next (ρ := Refusal) (φ := Fault) (u.focus s.core.num)
    (s.launches.find? (fun r => r.id == launch && r.status == .active &&
        r.teams.any (fun t => t.index == team && placeable t)) = some r → s.fatal = none →
      r.teams.find? (fun t => t.index == team && placeable t) = some t →
      (∀ k ∈ r.teams, placeable k = true → k.die = t.die → team ≤ k.index) →
      (∀ k ∈ s.launches, k.status = .active → before k r = true → ∀ j ∈ k.teams, placeable j = true → j.die = t.die →
        ∀ c ∈ coresFor s j, idleCore c = false ∧ 16 ≤ c.runList.length) →
      (cores.find? (fun c => c.team.status == .none && c.runList.isEmpty) = some c → c.num < 1536 →
        ∃ u, exec (.teamPlace launch team) s = .next u ∧ (u.coreOf c.num).team = t) ∧
      (cores.find? (fun c => c.team.status == .none && c.runList.isEmpty) = none →
        leastBy (fun c => c.runList.length) (cores.filter (fun c => c.runList.length < 16)) = some c → c.num < 1536 →
        (∀ k ∈ c.runList ++ [t], k.prio ≤ c.team.prio) →
        ∃ u, exec (.teamPlace launch team) s = .next u ∧ (u.coreOf c.num).runList = c.runList ++ [t] ∧
          (u.coreOf c.num).team = c.team)) ∧
    (f.core.team = t → t.status = .notStarted → f.fatal = none → fitsCore f.core t = true → f.launchOf t.launch t.epoch = some r →
      schedRead f t.root t.params.toNat 56 = some args →
      ∃ u, exec (.teamStart g) s = at_ u ∧ u.core.team.status = .resident ∧ u.core.emptyLines = [] ∧
        u.core.team.w = (if t.port then 7 else workingLanes f.core) ∧ u.core.qStart = f.core.cycle ∧
        u.core.code = [] ∧ (∀ i : Fin 4, i.val < t.tandems →
          let e := r.entries.getD i.val (0, 0)
          let hart := fun (entry : Word) => { Hart.fresh with
            s := Vector.ofFn (fun k : Fin 32 => if 1 ≤ k.val ∧ k.val ≤ 7 then (wordsOf 7 args).getD (k.val - 1) 0 else 0)
            pc := (t.image + entry) &&& 0xFFFFFFFFFFFFFFFE, tvec := Config.trapEntry &&& 0xFFFFFFFFFFFFFFFE }
          u.core.team.tds[i] = { Tandem.fresh with
            a := { AHart.fresh with h := hart e.1 }, x := { XHart.fresh with h := hart e.2, decoded := f.core.cycle } }) ∧
        u.core.team.dkeylo = t.dkeylo ∧ u.core.team.dkeyhi = t.dkeyhi ∧ u.core.team.dsrc = 0 ∧ u.core.team.repoch = 0 ∧
        u.core.team.event = 0 ∧ u.core.team.mx.owner = none ∧
        (∀ o, o < t.spad * 65536 → u.mem.read (scratchBase + f.core.num * 2 ^ 23 + o) = Memory.blank)) ∧
    (f.core.team = t → t.status = .stopped → f.fatal = none → fitsCore f.core t = true →
      ∃ u, exec (.teamResume g) s = at_ u ∧ u.core.team.status = .resident ∧ u.core.emptyLines = t.spadEmpty ∧
        u.core.qStart = f.core.cycle ∧ u.core.expired = false ∧ u.core.team.late = [] ∧ u.core.code = [] ∧
        (∀ i : Fin 4,
          let was := t.tds[i]
          let now := u.core.team.tds[i]
          let h := { was.a.h with slot := none }
          let faults := was.a.pend ++ (t.late.filter (fun l => l.t == i)).map (fun l => pendingOf l.detail l.addr)
          now.x = { was.x with h := { was.x.h with slot := none }, decoded := f.core.cycle } ∧
          ((was.a.h.priv = .system ∨ faults = []) → now.a.h = h ∧ now.a.pend = faults) ∧
          (∀ p ps, faults = p :: ps → was.a.h.priv = .user → was.a.paused = false → p.serial = none → now.a.pend = ps ∧
            now.a.h = { h with
              tcause := p.cause, tval := p.tval, tval2 := p.addr, tpc := h.pc, pc := h.tvec, priv := .system, wait := none,
              since := now.a.h.since }))) ∧
    (f.core.team = t → t.status = .resident → s.fatal = none → teamOver s t = true →
      releaseHeld f g teamAgents 3 = [] →
      (∀ k, s.launchOf t.launch t.epoch = some k → heldByGrotto s (wordKeys (outcomeKey s k.words)) = false) →
      let v := releaseMove f g teamAgents 3
      teamOver v v.core.team = true →
      ∃ u, exec (.teamEnd g) s = at_ u ∧ (f.core.runList = [] → u.core.team.status = .none) ∧
        (∀ k l, bestTeam f.core.runList = some (k, l) → u.core.team = k ∧ u.core.runList = l)) ∧
    (f.core.team.status = .resident → f.core.expired = false → 2 ^ 20 ≤ (f.core.cycle - f.core.qStart).toNat →
      let late := { f.core with expired := true }
      let again := { f.core with qStart := f.core.qStart + 0x100000 }
      exec (.quantumExpiry g) s = at_ { f with core := if waiting f f.core.team.prio then late else again }) ∧
    (f.core.team.status = .resident → f.core.expired = true → 2 ^ 20 + 2 ^ 16 ≤ (f.core.cycle - f.core.qStart).toNat →
      exec (.quantumGraceExpiry g) s = at_ (preempt f true)) ∧
    (f.core.team.status ≠ .none → fitsCore f.core f.core.team = false →
      exec (.preemption g) s = at_ (preempt f false)) ∧
    (f.core.team.status ≠ .none → fitsCore f.core f.core.team = true →
      (∃ k ∈ f.core.runList, f.core.team.prio < k.prio) → exec (.preemption g) s = at_ (preempt f true)) ∧
    (f.core.team.status ≠ .none → leaveHeld f = [] →
      let q := (if f.core.team.status = .resident then quiesce f else f).core.team
      (f.core.team.status = .resident → q.status = .stopped) ∧
      bestTeam (f.core.runList ++ [q]) = some ((preempt f true).core.team, (preempt f true).core.runList))

/-- R22, R23, R50, R51, R55 and R397 to R399: ceilings change within their bounds; a second mismatch of one element
group or rank-1 step, before it is done, retires the unit; a mask that is read only adds lane groups that are off, and
the vector ceiling follows; a lane group takes one element group of the oldest instruction among the tandems of its
round, and one group of a `vadd` leaves `vstart` after it. It rests on choices and inferences of the model: log
entries 3, 15, 42, 59 and 66. -/
def Obligations.CoreEvents : Prop :=
  ∀ (s : State) (g v m unit el : Nat) (mask : BitVec 8) (group : BitVec 3) (t : Fin 4) (b e : BitVec 2) (vd va vb : Reg)
      (k : BitVec 3), g < 1536 →
    let f := s.focus g
    let at_ := fun (u : State) => Host.Outcome.next (ρ := Refusal) (φ := Fault) (u.focus s.core.num)
    let ready := ([0, 1, 2, 3] : List (Fin 4)).filter (readyVector s)
    let lg := s.core.groups[group.toFin]
    let fresh := ready.filter (fun t => !lg.round.getLsbD t.val)
    let pool := if fresh = [] then ready else fresh
    let l := pool.filter (fun t => pool.all (fun u => (s.core.team.tds[t].x.decoded).toNat ≤ (s.core.team.tds[u].x.decoded).toNat))
    let n := checkedSize f b.toFin unit
    let it : Suspect := { t := b.toFin, unit := unit, element := el / n * n }
    (1 ≤ v → v ≤ 32 * workingLanes f.core → 16 ≤ m → m ≤ 128 → m % 16 = 0 →
      exec (.ceilingChange g v m) s = at_ { f with core := { f.core with vceil := v, mceil := m } }) ∧
    (checks f b.toFin unit el = true →
      (it ∉ f.core.suspects →
        let entry := { core := f.core.num, unit := unit, element := it.element, retired := false }
        exec (.residueMismatch g unit { t := b, element := el }) s =
          at_ { f with log := f.log ++ [entry], core := { f.core with suspects := it :: f.core.suspects } }) ∧
      (it ∈ f.core.suspects → (stepwise f b.toFin = false ∨ (f.onHart b.toFin true).x.vstart.toNat / n = el / n) →
        ∃ u, exec (.residueMismatch g unit { t := b, element := el }) s = at_ u ∧ u.core.mxOff = (f.core.mxOff || unit == 8) ∧
          ∀ i, i < 8 → u.core.laneOff.getLsbD i = (f.core.laneOff.getLsbD i || i == unit))) ∧
    (s.recovery = false → ∃ u, exec (.laneDisableMaskReload g mask) s = at_ u ∧ u.core.laneOff = f.core.laneOff ||| mask ∧
      (0 < workingLanes u.core → u.core.vceil = min f.core.vceil (32 * workingLanes u.core))) ∧
    (s.core.team.status = .resident → s.core.laneOff.getLsbD group.toNat = false → nextTandem lg.lastTie l = some t →
      let turn : BitVec 4 := BitVec.ofNat 4 (2 ^ t.val)
      let round := if fresh = [] then turn else lg.round ||| turn
      let last := if 1 < l.length then BitVec.ofNat 2 t.val else lg.lastTie
      let groups := s.core.groups.set group.toFin { round := round, lastTie := last }
      exec (.issueOpportunity group) s =
        .next { s with
          core := { s.core with groups := groups }, turn := some (s.core.num, t), sched := .group s.core.num t :: s.sched } ∧
      t ∈ l ∧ ∀ k ∈ l, (t.val + 3 - lg.lastTie.toNat) % 4 ≤ (k.val + 3 - lg.lastTie.toNat) % 4) ∧
    (let x := s.x
     let w := sewBits x.sew
     let hi := (x.vstart.toNat / (2048 / w) + 1) * (2048 / w)
     let at_ := x.vstart.toNat
     s.xh = true → s.fatal = none → e ≠ 3 → intOk vd va vb k 0 e x = true → fits s vd (groupCount x.group) w → hi < x.vl.toNat →
      ∃ u, groupInstr (.vadd vd va vb k e) s = .next u ∧ u.x.vstart.toNat = hi ∧ u.x.vl = x.vl ∧ u.pc = s.pc ∧ u.mem = s.mem ∧
        u.h.ldst = s.h.ldst ∧
        (∀ i, at_ ≤ i → i < hi → x.active k i = true →
          element u w vd i = low w (fmtVal x (vElem s va i) + fmtVal x (bInt s e vb i)) % 2 ^ w) ∧
        ∀ i, i < x.vl.toNat → (i < at_ ∨ hi ≤ i ∨ x.active k i = false) → element u w vd i = element s w vd i)

/-- R212, R334 to R339, R348, R353, R354, R362, R381, R393 and R424: queues are enabled, read and disabled, records
taken, launches made, cancelled, evicted and resumed, faulted launches stopped, and translations invalidated. It rests
on choices and inferences of the model: log entries 49, 50, 51, 52, 58 and 87. -/
def Obligations.SchedulerEvents : Prop :=
  ∀ (s u : State) (j id launch epoch team : Nat) (t : BitVec 2) (detail addr : Word) (writes : List (Nat × Byte)) (r k m : LaunchRec)
      (code : BitVec 16) (c : Core) (f : Trapped),
    let q := s.queueOf j
    let ws := descWords s j
    let running := s.ready = true ∧ s.recovery = false ∧ s.fatal = none
    let free := fun (r : LaunchRec) => heldByGrotto s (wordKeys (outcomeKey s r.words)) = false
    let bothFree := heldByGrotto s (wordKeys (outcomeKey s r.words) ++ wordKeys (outcomeKey s k.words)) = false
    (running → j ≤ 1023 → q.dirty = true → (rw ws 1).getLsbD 0 = true → (q.seen = false ∨ q.off = true) → descOk ws = true →
      poisonedAt s (s.qtab.toNat + 64 * j) = false →
      ∃ v, exec (.queueEnable j) s = .next v ∧ let n := v.queueOf j
        n.en = true ∧ n.seen = true ∧ n.dirty = false ∧ n.off = false ∧ n.epoch = q.epoch + 1 ∧ n.taken = 0 ∧ n.r = 0 ∧ n.retired = [] ∧
        n.d0 = rw ws 0 ∧ n.d1 = rw ws 1 ∧ n.d2 = rw ws 2 ∧ n.d3 = rw ws 3 ∧ v.mem = s.mem) ∧
    (q.dirty = true → poisonedAt s (s.qtab.toNat + 64 * j) = false →
      let on := (rw ws 1).getLsbD 0
      (on = false ∨ q.off = true →
        exec (.queueDisable j) s = .next (s.setQueue { q with en := false, seen := false, dirty := on, off := false })) ∧
      (on = true → q.off = false → exec (.queueDisable j) s = .next s)) ∧
    (let home := s.writeHome ((writes.filter (fun c => c.1 < hostBase)).map (fun c => (hostBase + c.1, c.2)))
     let meets := fun (q : WQueue) => q.en && q.host && writes.any (fun c => q.tailAt ≤ c.1 && c.1 < q.tailAt + 8)
     let m := { home with queues := home.queues.map (fun q => if meets q then { q with tailDirty := true } else q) }
     let n := m.queueOf j
     let v := (m.mem.word (n.key n.tailAt)).toNat
     (meets q = true → n.tailDirty = true) ∧ n.en = q.en ∧
     (n.tailDirty = false → exec (.tailWordObserve j writes) s = .next m) ∧
     (q.en = true → n.tailDirty = true → s.fatal = none → poisonedAt m (n.key n.tailAt) = false →
      exec (.tailWordObserve j writes) s = .next (m.setQueue
        { n with tail := if n.tail ≤ v ∧ v ≤ n.taken + n.size then v else n.tail, tailDirty := false }))) ∧
    (let at_ := q.key (q.ring + 64 * (q.taken % q.size))
     let ws := wordsOf 8 (s.mem.bytes at_ 64)
     let head := q.key q.headAt
     let r : LaunchRec :=
      { id := j * 2 ^ 22 + (q.taken % (2 ^ 22 - 1) + 1), queue := j, m := q.taken, epoch := q.epoch, d3 := q.d3,
        kind := recKind ws, words := ws, status := .waiting, code := 0, teams := [], count := 0, args := [], entries := [],
        started := none, area := none }
     let v := { s.setQueue { q with taken := q.taken + 1 } with launches := r :: s.launches }
     let v := v.writeHome (cellsAt head (bytesOf 8 (BitVec.ofNat 64 (q.taken + 1))))
     running → q.en = true → q.taken < q.tail → poisonedAt s at_ = false →
      heldByGrotto s (span head 8 ++ wordKeys (outcomeKey s ws)) = false →
      exec (.recordTake j) s = .next (if recId ws ≠ r.id then finishRec v r 0x0204 else if fieldsBad ws then finishRec v r 0x0201
        else v)) ∧
    Finished s r code ∧
    (readyRec s id 0 = some r → free r →
      (makeLaunch s r = .ok m → exec (.launch id) s = .next (s.setLaunch m)) ∧
      (makeLaunch s r = .error code → exec (.launch id) s = .next (finishRec s r code))) ∧
    (readyRec s id 2 = some r →
      (target s (recTarget r.words) = none → free r → exec (.cancel id) s = .next (finishRec s r 4)) ∧
      (target s (recTarget r.words) = some k → bothFree → stopLaunch s k = .ok u → ∀ w, target u k.id = some w →
        exec (.cancel id) s = .next (finishRec (endTarget u w 2) r 2))) ∧
    (readyRec s id 3 = some r →
      (target s (recTarget r.words) = none → free r → exec (.evict id) s = .next (finishRec s r 4)) ∧
      (target s (recTarget r.words) = some k → k.status ≠ .waiting →
        let area := (rw r.words 1).toNat
        let size := areaSize (recSpad k.words) k.count
        (((rw r.words 2).toNat < size ∨ hbmSize < area + size) → free r →
          exec (.evict id) s = .next (finishRec s r 0x0205)) ∧
        (size ≤ (rw r.words 2).toNat → area + size ≤ hbmSize →
          heldByGrotto s (wordKeys (outcomeKey s r.words) ++ wordKeys (outcomeKey s k.words) ++ span area size) = false →
          stopLaunch (s.setLaunch k) k = .ok u → ∀ w, target u k.id = some w →
          exec (.evict id) s = .next (finishRec (endTarget (writeArea u w area) { w with area := some area } 3) r 3)))) ∧
    (readyRec s id 4 = some r → free r →
      (makeResumed s r = .ok m → (∃ t ∈ m.teams, t.status ≠ .ended) → exec (.resume id) s = .next (s.setLaunch m)) ∧
      (makeResumed s r = .error code → exec (.resume id) s = .next (finishRec s r code))) ∧
    (readyRec s id 1 = some r → ∃ v, exec (.translationInvalidation id) s = .next v ∧
      v = { dropLeaves (s.setLaunch { r with status := .active, started := some s.serial }) (invalHits r.words) with
        seqs := v.seqs } ∧
      (∀ e, e ∈ v.tlb ↔ e ∈ s.tlb ∧ ¬ (e.root = recRoot r.words ∧ e.base < invalBase r.words + invalLen r.words ∧
        invalBase r.words < e.base + e.size)) ∧
      (∀ n, (seqOf v n).kernels = (seqOf s n).kernels.map (fun k =>
        if invalPins r.words k.root k.pins then { k with revokeReq := true } else k))) ∧
    (s.launches.find? (fun r => r.id == id && r.kind == 1 && r.status == .active) = some r →
      (((∃ e ∈ s.tlb, invalHits r.words e = true) ∨ (∃ w ∈ s.walks, w.root = recRoot r.words)) →
        ∃ v, exec (.invalidationComplete id) s = .next v ∧
          v = { dropLeaves s (invalHits r.words) with walks := s.walks.filter (fun w => w.root != recRoot r.words) } ∧
          ∀ e ∈ v.tlb, invalHits r.words e = false) ∧
      ((∀ e ∈ s.tlb, invalHits r.words e = false) → (∀ w ∈ s.walks, w.root ≠ recRoot r.words) → free r → invalPending s r.words (r.started.getD 0) = false →
        exec (.invalidationComplete id) s = .next (finishRec s r 1))) ∧
    (s.launches.find? (fun r => r.id == id && r.status == .active && !((teamsOf s r).flatMap trappedIn).isEmpty) = some r →
      heldByGrotto s (faultKeys s r) = false → stopLaunch s r = .ok u → u.launchOf r.id r.epoch = some k →
      firstTrap (k.teams.flatMap trappedIn) = some f →
      exec (.launchFaultStop id) s = .next (recordFault u k f)) ∧
    (s.cores.find? (fun c => isTeam launch epoch team c.team) = some c → c.team.status = .resident →
      exec (.lateFault { id := launch, epoch := epoch } team t detail addr) s =
        .next (addFault s c.num t.toFin (fun l => l ++ [pendingOf detail addr])))

/-! ## Events of the host, the security controller and the peers -/

/-- R11, R359 to R362, R368, R407, R408, R410, R411 and R413: what the host's requests and the link's events do; the
fatal causes 1 to 7 (R410), the dump bit and the poison that every CXL.mem access returns from then on (R411), and a
later cause, which is counted, or is the first one where it is the lower of two in one cycle (R413; whether they fell
in one is a free value). It rests on choices and inferences of the model: log entries 2, 64, 65, 81 and 94. -/
def Obligations.HostEvents : Prop :=
  ∀ (s : State) (v : Word) (off : BitVec 12) (addr len pa : Nat) (data : List Byte) (bad : Bool) (m : BitVec 2) (a : Nat),
    let gives := fun (i : Instr) (t : State) => exec i s = .next t
    let inside := s.hdm.toNat ≤ addr ∧ addr + len ≤ s.hdm.toNat + hbmSize
    gives (.mgmtRegisterWrite 0x020 v) { s with hdom := v.setWidth 16 } ∧ gives (.mgmtRegisterWrite 0x040 v) { s with xsrc := v } ∧
    gives (.mgmtRegisterWrite 0x048 v) { s with xdst := v } ∧ gives (.mgmtRegisterWrite 0x050 v) { s with xlen := v } ∧
    gives (.mgmtRegisterWrite 0x058 v) { s with xpeer := v &&& 0x1FFF } ∧
    (off.toNat ∉ [0x020, 0x040, 0x048, 0x050, 0x058] → gives (.mgmtRegisterWrite off v) s) ∧
    gives (.qtab v) (if ∃ q ∈ s.queues, q.en = true then s else { s with qtab := v &&& 0xFFFFFFFFFFFF0000 }) ∧
    gives (.ptab v) (if s.colls ≠ [] ∨ s.xstat = 1 then s else { s with ptab := v &&& 0xFFFFFFFFFFFE0000 }) ∧
    gives (.devstatEventClear v) { s with event := s.event && !v.getLsbD 3 } ∧
    gives (.hdmRangeDecode v) { s with hdm := v } ∧ gives .flitReplay { s with replays := s.replays + 1 } ∧
    ((¬ inside ∨ s.fatal ≠ none) → gives (.hostMemRead addr len) { s with reply := [], replyPoison := true }) ∧
    (inside → s.fatal = none → pa = addr - s.hdm.toNat →
      (hostRefused s .read pa len = some a →
        gives (.hostMemRead addr len) { logRefusal s (channelOf a) s.hdom a with reply := [], replyPoison := true }) ∧
      (hostRefused s .read pa len = none →
        (∀ t l, freshRead s offCore .host (span pa len) = (t, .bytes l) →
          gives (.hostMemRead addr len) { t with reply := l, replyPoison := false }) ∧
        (∀ t i, freshRead s offCore .host (span pa len) = (t, .poison i) →
          gives (.hostMemRead addr len) { t with reply := [], replyPoison := true }) ∧
        (∀ t, freshRead s offCore .host (span pa len) = (t, .wait) → gives (.hostMemRead addr len) t) ∧
        ((∀ e ∈ s.buf, e.loc ≠ .sb offCore .host) → heldByGrotto s (span pa len) = false →
          gives (.hostMemRead addr len) (if (span pa len).any (poisonedAt s) then { s with reply := [], replyPoison := true }
            else { s with reply := (span pa len).map s.mem.read, replyPoison := false }))) ∧
      (data.length = len → hostRefused s .write pa len = some a →
        gives (.hostMemWrite addr data bad) (logRefusal s (channelOf a) s.hdom a)) ∧
      (data.length = len → hostRefused s .write pa len = none →
        ∃ new : List Entry, let t := { s with buf := s.buf ++ new }
          gives (.hostMemWrite addr data bad) t ∧
          (∀ e ∈ new, e.loc = .sb offCore .host ∧ e.agent = .host ∧ e.bad = bad ∧
            ∃ cells, e.payload = .bytes cells ∧ ∀ x ∈ cells, ∀ y ∈ cells, x.1 / 128 = y.1 / 128) ∧
          (∀ i, (h : i < data.length) → visibleByte t offCore .host (pa + i) = some data[i]) ∧
          ∀ x, (x < pa ∨ pa + len ≤ x) → visibleByte t offCore .host x = visibleByte s offCore .host x) ∧
      (data.length = len → ∀ e n, s.buf[n]? = some e → e.agent = .host → e.next = none →
        (∀ g ∈ s.buf.take n, g.blocks e = false) → (∀ g ∈ s.buf.eraseIdx n, e.waitsFor g = false) → homeHeld s e = false →
        ∀ cells, e.payload = .bytes cells → ∃ t, gives (.drain n) t ∧ t.buf = s.buf.eraseIdx n ∧
          t.mem = s.mem.writeAll cells ∧ (e.bad = true → ∀ c ∈ cells, poisonedAt t c.1 = true))) ∧
    ((¬ inside ∨ s.fatal ≠ none) → data.length = len →
      gives (.hostMemWrite addr data bad) { s with reply := [], replyPoison := true }) ∧
    (∃ t, gives (.moduleRetrainFail m) t ∧ (∀ i : Fin 4, t.mods.getLsbD i.val = (s.mods.getLsbD i.val && i.val != m.toNat)) ∧
      (s.fatal = none → (t.fatal = some { first := 6, further := 0, core := 1536, detail := 0 } ↔ t.mods = 0) ∧
        (t.mods ≠ 0 → t.fatal = none))) ∧
    (s.fatal = none → ∀ (i : Instr) (c : BitVec 8) (core : Nat) (d : Word),
      (i = .hostLinkDown ∧ c = 6 ∧ core = 1536 ∧ d = 0 ∨ i = .viralReceived ∧ c = 5 ∧ core = 1536 ∧ d = 0 ∨
        i = .watchdogExpiry ∧ c = 7 ∧ core = 1536 ∧ d = 0 ∨ i = .fatalError c core d ∧ 1 ≤ c.toNat ∧ c.toNat ≤ 7) →
      ∃ t, gives i t ∧ t.fatal = some { first := c, further := 0, core := core, detail := d } ∧ t.dump = true ∧ t.event = true ∧
        t.msis = s.msis + 1) ∧
    (∀ (f : Fatal) (c : BitVec 8) (core : Nat) (d : Word), s.fatal = some f → 1 ≤ c.toNat → c.toNat ≤ 7 →
      let more := BitVec.ofNat 16 (min (f.further.toNat + 1) 0xFFFF)
      ∃ t, gives (.fatalError c core d) t ∧ t.msis = s.msis ∧
        t.fatal = some (if c.toNat < f.first.toNat ∧ Config.sameCycle s.ticks = true then
          { first := c, further := more, core := core, detail := d } else { f with further := more }))

/-- R25, R27, R361, R369, R371, R373, R374, R388, R397, R409, R411 and R424: power and reset, the verification of
images, of which one that fails sends a message also where `devstat.event` is set already (R361), and the mailbox. It
rests on choices and inferences of the model: log entries 2, 20, 60, 61, 62, 81 and 85. -/
def Obligations.SecurityEvents : Prop :=
  ∀ (s : State) (image nonce : List Byte) (target slot n : Nat) (w0 w1 : Word),
    let answers := fun (i : Instr) (l : List Byte) => exec i s = .next { s with reply := l, replyPoison := false }
    let version := BitVec.ofNat 32 (natOf ((image.drop 8).take 4))
    let size := natOf ((image.drop 12).take 4)
    let reset := fun (t : State) => t.core = Core.reset 0 ∧ t.others = [] ∧ t.buf = [] ∧ t.tlb = [] ∧ t.acl = [] ∧ t.queues = [] ∧
      t.launches = [] ∧ t.seqs = [] ∧ t.fatal = none ∧ t.ready = false ∧ t.fused = s.fused ∧ ∀ g < 1536, (t.coreOf g).cycle = 0
    (∃ t, exec .deviceReset s = .next t ∧ reset t ∧ t.mem = s.mem ∧ t.poison = s.poison ∧ t.dump = s.dump ∧ t.powered = true) ∧
    (∃ t, exec .powerDown s = .next t ∧ reset t ∧ t.powered = false ∧ t.dump = false ∧
      ∀ a, isHost a = false → t.mem.read a = Memory.blank) ∧
    (∃ t, exec .thermalTrip s = .next t ∧ reset t ∧ t.powered = false ∧ t.dump = s.dump ∧
      ∀ a, isHost a = false → t.mem.read a = Memory.blank) ∧
    (∀ i, (i = .bootRomVerify image ∧ s.ready = false ∧ s.recovery = false ∨ i = .recoveryImageLoad image ∧ s.recovery = true) →
      exec i s = .next (if imageReason s image = 0 then { s with
          ready := true, recovery := false, reason := 0, version := version, firmware := image.take (5376 + size),
          fused := if s.fused < version then version else s.fused }
        else { s with recovery := true, event := true, msis := s.msis + 1, reason := imageReason s image })) ∧
    (image.length < 5376 + size → imageReason s image = 1) ∧
    (s.recovery = true → exec (.accessTableUpdate target slot w0 w1) s = .next s ∧ exec (.dumpRead n) s = .next s ∧
      exec .errorLogRead s = .next s) ∧
    (s.recovery = false →
      (s.ready = true → target < aclTargets → slot < 64 →
        let new : AclEntry := { target := target, slot := slot, w0 := w0 &&& aclMask0, w1 := w1 &&& aclMask1 }
        let here := fun (e : AclEntry) => e.target == target && e.slot == slot
        let gone := if new ∈ s.acl then s.aclOld else s.aclOld ++ s.acl.filter (fun e => here e && e.w0.getLsbD 0)
        let next := { s with acl := if new ∈ s.acl then s.acl else insertAcl new s.acl, aclOld := gone }
        let left := gone.filter (fun e => !here e || admittedPending next e)
        exec (.accessTableUpdate target slot w0 w1) s =
          .next { next with aclOld := left, reply := [if left.any here then 0 else 1], replyPoison := false }) ∧
      answers (.attestationRequest nonce)
        (evidence s nonce ++ field 3309 (Config.identitySign (evidence s nonce)) ++ Config.identityKey) ∧
      (evidence s nonce).length = 368 ∧
      ((nonce.length = 32) → (evidence s nonce).take 32 = nonce) ∧
      (∃ t, exec (.eccCounterReadClear n) s = .next t ∧
        (∀ c, s.ecc.find? (fun c => c.1 == n) = some (n, c) → t.reply = bytesOf 4 (c.setWidth 64)) ∧
        (∀ c ∈ t.ecc, c.1 ≠ n ∧ c ∈ s.ecc) ∧ ∀ c ∈ s.ecc, c.1 ≠ n → c ∈ t.ecc) ∧
      (∃ t, exec (.lostWriteCountReadClear n) s = .next t ∧ t.reply = bytesOf 4 ((s.queueOf n).lost.setWidth 64) ∧
        (t.queueOf n).lost = 0) ∧
      answers (.faultRecordRead n) (match s.kept.find? (fun k => k.launch == n) with
        | some k => k.words.flatMap (bytesOf 8)
        | none => []) ∧
      answers .errorLogRead (s.log.flatMap (fun e =>
        (List.range 16).map (Config.logByte e.core e.unit e.element e.retired))) ∧
      (let block := span (dumpBase + 4096 * n) 4096
       exec (.dumpRead n) s = .next (
         if s.dump = true ∧ n < 4096 then
           if block.any (poisonedAt s) then { s with reply := [], replyPoison := true }
           else { s with reply := block.map s.mem.read, replyPoison := false }
         else { s with reply := [], replyPoison := false })) ∧
      ∃ t, exec .dumpClear s = .next t ∧ t = { s with mem := t.mem, dump := false } ∧
        ∀ a, t.mem.read a = if dumpBase ≤ a ∧ a < dumpBase + dumpSize then Memory.blank else s.mem.read a)

/-- R254, R255, R364, R366, R368, R370, R389, R404 to R406 and R408: datagrams and what they ask, peer links and block
transfers, and the collective engine's oldest command: its exchange, and then its status word. It rests on choices and
inferences of the model: log entries 2, 46, 47, 64, 68 and 82. -/
def Obligations.PeerEvents : Prop :=
  ∀ (s : State) (src : BitVec 128) (req : PeerReq) (n port pa len off : Nat) (bad done : Bool) (code : BitVec 16) (data : List Byte)
      (shares : List PeerShare) (c : CollCmd) (cs : List CollCmd) (own : List Byte) (ks : List (Option Nat)),
    let names := fun p => poisonedAt s (s.ptab.toNat + 32 * p) = false ∧ (peerWord s p 2).getLsbD 0 = true ∧
      s.mem.bytes (s.ptab.toNat + 32 * p) 16 = (List.range 16).map (fun i => src.extractLsb' (8 * i) 8)
    let allowed := fun (d : BitVec 16) (m : Mode) a => aclPasses s (2305 + port) d m a 1 = true ∧ aclPasses s (channelOf a) d m a 1 = true
    let ended := fun (u : State) (code : BitVec 16) => { u with reply := bytesOf 2 (code.setWidth 64), replyPoison := true }
    let arrives := fun q => exec (.peerDatagramReceive src q) s
    let fin := collResult c.words (contributions c.words shares own)
    let size := collBytes c.words
    let notHeld := fun l => heldByGrotto s l = false
    let ends := fun (t : State) code => ∃ f : CollEnd, t.colls = { c with fin := some f } :: cs ∧ f.code = code
    ((∀ p < 4096, ¬ names p) → arrives req = .next { s with dropped := s.dropped + 1 }) ∧
    (∀ p < 4096, names p → (∀ k < p, ¬ names k) →
      let d := peerDomain s p
      arrives .plain = .next s ∧
      (port < 18 → pa + len ≤ hbmSize → len ≤ 4096 →
        (∀ n < len, (∀ k < n, allowed d .read (pa + k)) → ¬ allowed d .read (pa + n) →
          arrives (.read port pa len) = .next (ended (logRefusal s (if aclPasses s (2305 + port) d .read (pa + n) 1 then
            channelOf (pa + n) else 2305 + port) d (pa + n)) 0x0505)) ∧
        ((∀ n < len, allowed d .read (pa + n)) → notHeld (span pa len) →
          arrives (.read port pa len) = .next (if (span pa len).any (poisonedAt s) then ended s 0x0506
            else { s with reply := (span pa len).map s.mem.read, replyPoison := false }))) ∧
      (port < 18 → pa + data.length ≤ hbmSize → data.length ≤ 4096 →
        (∀ n < data.length, (∀ k < n, allowed d .write (pa + k)) → ¬ allowed d .write (pa + n) →
          arrives (.write port pa data bad) = .next (ended (logRefusal s (if aclPasses s (2305 + port) d .write (pa + n) 1 then
            channelOf (pa + n) else 2305 + port) d (pa + n)) 0x0505)) ∧
        ((∀ n < data.length, allowed d .write (pa + n)) → notHeld (span pa data.length) →
          ∃ t, arrives (.write port pa data bad) = .next t ∧
            (s.mem.wf = true → ∀ i, (h : i < data.length) → t.mem.read (pa + i) = data[i]) ∧
            (bad = true → ∀ i < data.length, poisonedAt t (pa + i) = true) ∧
            ∀ a, (a < pa ∨ pa + data.length ≤ a) → t.mem.read a = s.mem.read a)) ∧
      (p ≠ xferPeer s → arrives (.data off data) = .next s) ∧
      (p = xferPeer s → s.xstat = 1 → xferFetch s = true → off % 64 = 0 → data.length % 64 = 0 → data ≠ [] →
        data.length ≤ 4096 → off + data.length ≤ s.xlen.toNat →
        (∀ i < data.length / 64, off / 64 + i ∉ s.xgot) →
        (∀ c, peerCode s s.hdom p = some c → arrives (.data off data) = .next { s with xstat := c.setWidth 64 }) ∧
        (∀ r, peerCode s s.hdom p = none → xferRefused s off data.length = some r →
          arrives (.data off data) = .next { r with xstat := 0x0505 }) ∧
        (peerCode s s.hdom p = none → xferRefused s off data.length = none → notHeld (span (s.xsrc.toNat + off) data.length) →
          ∃ t, arrives (.data off data) = .next t ∧ t.xstat = 1 ∧
            (∀ g, g ∈ t.xgot ↔ g ∈ s.xgot ∨ off / 64 ≤ g ∧ g < off / 64 + data.length / 64) ∧
            (s.mem.wf = true → ∀ i, (h : i < data.length) → t.mem.read (s.xsrc.toNat + off + i) = data[i]) ∧
            ∀ a, (a < s.xsrc.toNat + off ∨ s.xsrc.toNat + off + data.length ≤ a) → t.mem.read a = s.mem.read a))) ∧
    (let lost := Config.lostDatagram s.ticks
     resentTimes s lost < 64 → exec .datagramRetransmit s =
        .next { s with resends := (lost, resentTimes s lost + 1) :: s.resends.filter (fun d => d.1 != lost) }) ∧
    (port < 18 → (∃ t, exec (.peerLinkDown port) s = .next t ∧ t = { s with ports := t.ports } ∧
        ∀ i < 18, t.ports.getLsbD i = (s.ports.getLsbD i && i != port)) ∧
      ∃ t, exec (.peerLinkUp port) s = .next t ∧ t = { s with ports := t.ports } ∧
        ∀ i < 18, t.ports.getLsbD i = (s.ports.getLsbD i || i == port)) ∧
    (s.xstat ≠ 1 → exec (.xstat 1) s = .next (match peerCode s s.hdom (xferPeer s) with
      | some c => { s with xstat := c.setWidth 64 }
      | none => { s with xstat := 1, xgot := [] }) ∧
      exec (.transferComplete done code) s = .next s) ∧
    (s.xstat = 1 →
      exec (.xstat 1) s = .next s ∧
      (code ∈ xferCodes → exec (.transferComplete false code) s = .next { s with xstat := code.setWidth 64 }) ∧
      (code ∉ xferCodes → exec (.transferComplete false code) s = .next s) ∧
      (xferFetch s = true → (∃ g < s.xlen.toNat / 64, g ∉ s.xgot) → exec (.transferComplete true code) s = .next s) ∧
      ((xferFetch s = true → ∀ g < s.xlen.toNat / 64, g ∈ s.xgot) →
        (xferFetch s = false → notHeld (span s.xsrc.toNat s.xlen.toNat)) →
        (∀ c, peerCode s s.hdom (xferPeer s) = some c →
          exec (.transferComplete true code) s = .next { s with xstat := c.setWidth 64 }) ∧
        (peerCode s s.hdom (xferPeer s) = none →
          (xferFetch s = true → exec (.transferComplete true code) s = .next { s with xstat := 2 }) ∧
          (xferFetch s = false → ∀ r, xferRefused s 0 s.xlen.toNat = some r →
            exec (.transferComplete true code) s = .next { r with xstat := 0x0505 }) ∧
          (xferFetch s = false → xferRefused s 0 s.xlen.toNat = none → exec (.transferComplete true code) s =
            .next { s with xstat := if (span s.xsrc.toNat s.xlen.toNat).any (poisonedAt s) then 0x0506 else 2 }))) ∧
      (64 ≤ resentTimes s n → ∃ t, exec (.peerRetransmitLimit { num := n, xfer := true } shares) s = .next t ∧ t.xstat = 0x0504)) ∧
    (s.colls = c :: cs → c.fin = none →
      (n ≠ c.num → exec (.collectiveAbort { num := n, code := code } shares) s = .next s) ∧
      (notHeld (collTouches s c) →
        (0x0501 ≤ code.toNat → code.toNat ≤ 0x0507 →
          ∃ t, exec (.collectiveAbort { num := c.num, code := code } shares) s = .next t ∧ ends t code) ∧
        (64 ≤ resentTimes s n → ∃ t, exec (.peerRetransmitLimit { num := n, xfer := false } shares) s = .next t ∧ ends t 0x0504) ∧
        (∀ e, collInputs s c shares = .error e → ∃ t, exec (.collectiveRun shares) s = .next t ∧ ends t e.code) ∧
        (collInputs s c shares = .ok own →
          (othersAny c.words shares (mismatched c.words) = true →
            ∃ t, exec (.collectiveRun shares) s = .next t ∧ ends t 0x0503) ∧
          (othersAny c.words shares (mismatched c.words) = false →
            (othersAll c.words shares (fun p => p.data.length == collCount c.words * size) = false →
              exec (.collectiveRun shares) s = .next s) ∧
            (othersAll c.words shares (fun p => p.data.length == collCount c.words * size) = true →
              collPlaces s c size (span (rw c.words 3).toNat fin.length) 0 = .ok ks →
              exec (.collectiveRun shares) s = .next (setFin (enterOff s .collective false
                ((ks.zip fin).filterMap (fun p => p.1.map (fun k => (k, p.2))))) c { code := 1, detail := [] })))))) ∧
    (∀ f, s.colls = c :: cs → c.fin = some f →
      exec (.collectiveAbort { num := n, code := code } shares) s = .next s ∧
      (f.detail = [] → nowHeld s (collReleased c.ord.scope) = [] → notHeld (endKeys s c) →
        ∀ k, offPlace s c.who (collAsk .write) (collStat c.words).toNat = .ok k → k < 2 ^ 60 →
        ∃ t, exec (.collectiveRun shares) s = .next t ∧ t.colls = cs ∧
          (∀ e ∈ t.buf, e.agent ≠ .collective ∧ (c.ord.scope = 3 → e.loc ≠ .lb)) ∧
          (s.mem.wf = true → t.mem.word k = statusWord (rw c.words 6) f.code)))
/-! ## Steps, encodings and the whole machine -/

namespace Sys2Proof.Claims

/-- An outcome once a move has ended: what an `EXECUTE` found counts no longer, and an opportunity has been taken (R50, R375,
R388). -/
def moved : Host.Outcome State Fault Refusal → Host.Outcome State Fault Refusal
  | .next r => .next { r with fresh := [], turn := none }
  | o => o

/-- A hart of a resident team that its core can run, not halted (R28, R55). -/
def here (s : State) (t : Fin 4) : Prop :=
  s.core.team.status = .resident ∧ t.val < s.core.team.tandems ∧ fitsCore s.core s.core.team = true ∧ s.h.halted = false

/-- The state in which the hart in focus goes on: an A-hart once the accesses that its next instruction may not pass have
executed (R219). -/
def onward (s : State) : State :=
  if s.xh then s
  else
    let r := if passesHeld s then s else settleHeld s
    if r.a.paused then r.setA { r.a with paused := false } else r

/-- What the move of a hart leaves: the word of an instruction that has not ended; of an X-hart, the age of its next
instruction and the groups that are still suspect follow (R50, R105, R397). -/
def hartMoved (x : Bool) (c : State) : Host.Outcome State Fault Refusal → Host.Outcome State Fault Refusal
  | .next r => moved (.next (keepWord c (if x then xMoved c r else r)))
  | o => o

/-- What a move that takes only a part of an instruction leaves: the next move takes it whole again. -/
def partMoved (c : State) (l : Option Nat) : Host.Outcome State Fault Refusal → Host.Outcome State Fault Refusal
  | .next r => moved (.next { keepWord c r with limit := l })
  | o => o

/-- What a move leaves whose accesses the agents hold: the next move holds none. -/
def heldMoved (c : State) (h : Bool) : Host.Outcome State Fault Refusal → Host.Outcome State Fault Refusal
  | .next r => moved (.next { keepWord c r with holds := h })
  | o => o

end Sys2Proof.Claims

/-- R28, R50, R51, R104, R105, R107, R115, R119, R195, R219, R317, R326 and R411: a step lets core cycles pass and
moves the hart, sequencer or event that comes next. A hart runs the instruction that the slot at its pc decodes to, or
one element group or some groups of it, or takes the trap of the failing check; a word that it has fetched for an
instruction that has not ended, and the second half of a compact slot, need no fetch. An X-hart with elements for a
lane group waits while the opportunity may go to another tandem, and an A-hart settles what its agents hold before an
instruction that may not pass it. A block in progress runs its next word; a sequencer ends what has begun to end, else
runs its next micro-word. A part that stands still moves no hart. It rests on choices and inferences of the model: log
entries 1, 3, 4, 5, 9, 42, 48, 70 and 84. -/
def Obligations.StepRunsDecoded : Prop :=
  ∀ (s : State) (g u : Nat) (t : Fin 4) (x : Bool) (rest : List Move) (w : BitVec 32) (v : BitVec 64) (i : Instr) (b : Block)
      (k : Kernel) (ch n : Nat) (op : BitVec 8) (read e : State) (er : Refused) (l : List Nat) (limit : Option Nat) (holds : Bool),
    let d0 := { passCycles s with sched := rest }
    let d := { d0 with limit := limit, holds := holds }
    let c0 := (d.focus g).onHart t x
    let c := if x then payTurn c0 c0.x.owed else c0
    let z := onward c
    let q := { d0 with gch := ch }
    let whole := limit = s.limit ∧ holds = s.holds
    let second := c.pc.getLsbD 1
    let chosen := whole ∧ (s.sched = .hart g t x :: rest ∨
      s.sched = [] ∧ rest = [] ∧ g = s.core.num ∧ t = s.tnd ∧ x = s.xh)
    let group := whole ∧ x = true ∧ s.sched = .group g t :: rest
    let part := limit = some n ∧ holds = s.holds ∧ x = false ∧ s.sched = .part g t n :: rest
    let holding := limit = s.limit ∧ holds = true ∧ x = false ∧ s.sched = .holding g t :: rest
    let at_ := if second then c.pc - 2 else c.pc
    let got := heldSlot z = some w ∧ read = { z with ir := w.setWidth 64 } ∨
      heldSlot z = none ∧ fetchAt z at_ = .ok (u, w) ∧
        read = State.setH { keepUnit z u with ir := w.setWidth 64 } { z.h with slot := some (z.h.pc, w) }
    let goes := s.powered = true ∧ s.fatal = none ∧ g < 1536
    let ready := goes ∧ here c0 t ∧ (x = true → waitsTurn c0 = false ∧ (c0.x.owed = 0 ∨ s.turn = none))
    let fetches := ready ∧ (x = false → readyFault c = none ∧ userReady c = false ∧
      (passesHeld c = false → nowHeld c (returnsTo c) = [])) ∧ (x = true → c.x.block = none)
    (chosen ∨ group → fetches → heldSlot z = none → fetchAt z at_ = .error er → step s = hartMoved x c (fetchTrap z er)) ∧
    (part → fetches → got → (second = true → isKSlot w = true) → decodeSlot w second = .instr i →
      step s = partMoved c s.limit (exec i read)) ∧
    (holding → fetches → got → (second = true → isKSlot w = true) → decodeSlot w second = .instr i →
      step s = heldMoved c s.holds (exec i read)) ∧
    (chosen ∨ group → fetches → got →
      ((second = true → isKSlot w = true) →
        (decodeSlot w second = .instr i →
          (chosen → step s = hartMoved x c (exec i read)) ∧
          (group → step s = hartMoved x c (groupTurn i read) ∧
            (s.turn = none → groupTurn i read = groupInstr i read) ∧
            (s.turn ≠ none → groupInstr i read = .next e → groupTurn i read =
              .next (if ranThrough read e = true then e.setX { e.x with owed := takenGroups i read - 1 } else e)) ∧
            ((∀ d a k, i ≠ .vpop d a k ∧ i ≠ .vpush d a k) → (∀ d a b f g, i ≠ .mopa d a b f g) →
              byGroups read.x i = false → groupInstr i read = exec i read))) ∧
        (decodeSlot w second = .compactBit → step s = hartMoved x c (read.illegal 2)) ∧
        (decodeSlot w second = .wrongForm → step s = hartMoved x c (read.illegal 3)) ∧
        (decodeSlot w second = .reserved op → step s = hartMoved x c (read.illegal (if opcodeOn op x then 6 else 4)))) ∧
      (second = true → isKSlot w = false → step s = hartMoved x c (read.illegal 1))) ∧
    (chosen → x = false → goes → here c0 t → readyFault c0 = none → userReady c0 = false → passesHeld c0 = false →
      nowHeld c0 (returnsTo c0) = l → l ≠ [] → step s = hartMoved x c0 ((askSuspend c0 l).stall .word)) ∧
    (chosen ∨ group → x = true → goes → here c0 t →
      (waitsTurn c0 = true ↔ wantsLanes c0 = true ∧ c0.turn ≠ some (c0.core.num, t) ∧ ∃ o, o ≠ t ∧ readyVector c0 o = true) ∧
      (waitsTurn c0 = true → step s = moved (.next (awaitTurn c0)) ∧ (c0.h.wait = none → awaitTurn c0 = c0)) ∧
      (waitsTurn c0 = false → 0 < c0.x.owed → s.turn ≠ none → step s = moved (.next (payTurn c0 1)))) ∧
    (chosen ∨ group → x = true → ready → c.x.block = some b →
      let taken := c.setX { c.x with block := some { b with issued := true } }
      (b.fin = true → step s = hartMoved x c (exec .elementGroupCommit taken)) ∧
      (b.fin = false → b.words[b.epc]? = some v → decodeE v = .instr i → step s = hartMoved x c (exec i taken))) ∧
    (s.sched = .sequencer ch :: rest → s.powered = true → runningKernel q ch = some k → (s.fatal = none ∨ k.inStep = true) →
      (k.inStep = true ∨ endMove q ch = none) →
      (fetchMicro q ch k = .held l → step s = moved (.next (askSuspend q l))) ∧
      (fetchMicro q ch k = .word w → decodeG w = .instr i → step s = moved (exec i q)) ∧
      (fetchMicro q ch k = .poison → step s = moved (.next (abandonKernel q ch 0 0x0406 k)))) ∧
    (s.sched = .sequencer ch :: rest → s.powered = true → s.fatal = none →
      (∀ k, runningKernel q ch = some k → k.inStep = false) → endMove q ch = some e → step s = moved (.next e)) ∧
    (s.sched = .event g i :: rest → goes → i.form = .event →
      ((∀ t r va z ecc, i ≠ .execute t r va z ecc) → (∀ j, i ≠ .issueOpportunity j) → step s = moved (exec i (d0.focus g))) ∧
      (∀ t r va z ecc, i = .execute t r va z ecc → exec i (d0.focus g) = .next e → step s = .next { e with turn := none }) ∧
      (∀ j, i = .issueOpportunity j → exec i (d0.focus g) = .next e → step s = .next { e with fresh := [] })) ∧
    (chosen → s.powered = false ∨ s.fatal ≠ none →
      step s = if s.powered = false ∧ s.sched = [] then .fault .unpowered else moved (.next d0))

/-- R104 to R118: words written out field by field from the encodings of their entries, and what they stand for. -/
def Obligations.DecodingWords : Prop :=
  decodeSlot (0x00#8 ++ 5#5 ++ 6#5 ++ 7#5 ++ 0#9) false = .instr (.add 5 6 7) ∧
  decodeSlot (0x28#8 ++ 5#5 ++ 6#5 ++ 2#2 ++ 8#12) false = .instr (.ld 5 6 2 8) ∧
  decodeSlot (0xC0000000#32) false = .instr .kNop ∧
  decodeSlot (3#2 ++ 0#15 ++ (1#4 ++ 9#5 ++ 10#5 ++ 0#1)) true = .instr (.kSub 9 10) ∧
  decodeE (0x89#8 ++ 0#20 ++ 1#1 ++ 0#3 ++ 0xFFFFFFFE#32) = .instr (.ejmp 1 0xFFFFFFFE) ∧
  decodeG (20#5 ++ 0#27) = .instr .grow ∧
  decodeC (0x00#8 ++ 5#5 ++ 6#5 ++ 7#5 ++ 1#9) = .reserved 0x00

/-- R104, R108, R113, R116 and R118: decoding the word of a well-formed instruction gives it back, whatever its
operands, and a word that decodes is the word of what it decodes to. -/
def Obligations.EncodingRoundTrip : Prop :=
  (∀ i : Instr, i.form ≠ .event → i.wf = true → decode i.form (encode i) = .instr i) ∧
  (∀ (w : BitVec 32) (i : Instr), decodeC w = .instr i → encodeC i = w) ∧
  (∀ (c : BitVec 15) (i : Instr), decodeK c = .instr i → encodeK i = c) ∧
  (∀ (w : BitVec 64) (i : Instr), decodeE w = .instr i → encodeE i = w) ∧
  (∀ (w : BitVec 32) (i : Instr), decodeG w = .instr i → encodeG i = w)

/-- R373, R409 and the canonical form of memory: no step, whichever hart, engine or event moves, leaves a memory that
is not in its form or lets the fused firmware version fall. It rests on choices and inferences of the model: log
entries 20 and 21. -/
def Obligations.StepInvariants : Prop :=
  ∀ (s t : State), step s = .next t → (s.mem.wf = true → t.mem.wf = true) ∧ s.fused.toNat ≤ t.fused.toNat

/-- R27, R77, R78, R397 and R411: the part after device reset, and a hart at team start where R78 gives its values.
That the fused version is 0, that memory reads blank and that a step only lets cycles pass are the model's (log
entries on resets and on how a program comes to run). It rests on choices and inferences of the model: log entries 6,
7, 10, 14, 15, 18 and 20. -/
def Obligations.ResetState : Prop :=
  let s := State.reset
  s.mem.wf = true ∧ s.fatal = none ∧ s.ready = false ∧ s.queues = [] ∧
  s.core.cycle = 0 ∧ s.core.laneOff = 0 ∧ s.core.emptyLines = [] ∧
  s.core.team.status = .none ∧ s.others = [] ∧ s.fused = 0 ∧ (∀ a, s.mem.read a = Memory.blank) ∧
  step s = .next { passCycles s with fresh := [] } ∧
  (∀ h : Hart, h = AHart.fresh.h ∨ h = XHart.fresh.h →
    h.s = Vector.replicate 32 0 ∧ h.f = Vector.replicate 32 0 ∧ h.glim = 0 ∧ h.strip = 0 ∧ Rnd.ofFrm h.frm = .rne ∧
    h.fflags = 0 ∧ h.iflags = false ∧ (h.ldst >>> 5) = 3 ∧ h.priv = .user ∧ h.tpc = 0 ∧ h.tcause = 0 ∧ h.tval = 0 ∧
    h.tval2 = 0 ∧ h.tscratch = 0 ∧ h.halted = false) ∧
  (let a := AHart.fresh
   a.shadow = Vector.replicate 8 0 ∧ a.uvec = 0 ∧ a.upc = 0 ∧ a.ustat = false ∧ a.xrange = false ∧ a.bank = none ∧
   a.grid = none) ∧
  (let x := XHart.fresh
   x.v = Vector.replicate 32 0 ∧ x.k = Vector.replicate 8 0 ∧ x.prog = Vector.replicate 32 0 ∧ sewBits x.sew = 32 ∧
   groupCount x.group = 1 ∧ x.fmt = 9 ∧ x.tail = false ∧ x.vl = 0 ∧ x.vrows = 0 ∧ x.vcols = 0 ∧ x.vstart = 0 ∧
   x.fidx = Vector.replicate 3 0 ∧ x.vxrm = 0 ∧ x.vxsat = false ∧ x.xsel = 0b11100 ∧
   ∀ j : Fin 3, x.dims[j].len = 0 ∧ x.dims[j].stride = 0) ∧
  (∀ (td : Tandem), td = Tandem.fresh → td.q = Vector.replicate 6 [] ∧ td.q6 = [] ∧ td.q7 = [] ∧ td.gq = [])
end

