-- ==== Sys2Proof/Laws/Memory.lean ====
section
/-! SUPPORT. Memory: every operation keeps the canonical form, and what a read gives after a write (R217, R222). -/

namespace Sys2Proof.Laws

open Sys2Proof.Machine

/-! ## The canonical form -/

/-- A lower bound may be lowered. -/
theorem wfFrom_lower {lo hi : Nat} {m : Memory} (h : lo ≤ hi) (w : Memory.wfFrom hi m = true) :
    Memory.wfFrom lo m = true := by
  cases m with
  | nil => rfl
  | cons c m =>
    obtain ⟨a, b⟩ := c
    simp only [Memory.wfFrom, Bool.and_eq_true, decide_eq_true_eq] at w ⊢
    exact ⟨⟨Nat.le_trans h w.1.1, w.1.2⟩, w.2⟩

/-- A write at or above the bound keeps the form. -/
theorem write_wfFrom {lo a : Nat} {b : Byte} {m : Memory} (h : lo ≤ a) (w : Memory.wfFrom lo m = true) :
    Memory.wfFrom lo (m.write a b) = true := by
  induction m generalizing lo with
  | nil =>
    unfold Memory.write
    split <;> simp_all [Memory.wfFrom]
  | cons c m ih =>
    obtain ⟨x, v⟩ := c
    simp only [Memory.wfFrom, Bool.and_eq_true, decide_eq_true_eq] at w
    obtain ⟨⟨hx, hv⟩, hm⟩ := w
    unfold Memory.write
    split
    · split
      · simp [Memory.wfFrom, hx, hm, hv]
      · rename_i hlt hb
        have := wfFrom_lower (m := m) (Nat.le_refl (x + 1)) hm
        simp [Memory.wfFrom, h, hb, hv, this]
        omega
    · split
      · rename_i hax
        subst hax
        split
        · exact wfFrom_lower (by omega) hm
        · rename_i hb
          simp [Memory.wfFrom, h, hb, hm]
      · have := ih (lo := x + 1) (by omega) hm
        simp [Memory.wfFrom, hx, hv, this]

theorem write_wf {a : Nat} {b : Byte} {m : Memory} (w : m.wf = true) : (m.write a b).wf = true :=
  write_wfFrom (Nat.zero_le a) w

theorem writeAll_wf {m : Memory} (cells : List Host.Cell) (w : m.wf = true) : (m.writeAll cells).wf = true := by
  induction cells generalizing m with
  | nil => exact w
  | cons c l ih => exact ih (write_wf w)

/-- Dropping cells keeps the form. -/
theorem filter_wfFrom {lo : Nat} {m : Memory} (p : Host.Cell → Bool) (w : Memory.wfFrom lo m = true) :
    Memory.wfFrom lo (m.filter p) = true := by
  induction m generalizing lo with
  | nil => rfl
  | cons c m ih =>
    obtain ⟨x, v⟩ := c
    simp only [Memory.wfFrom, Bool.and_eq_true, decide_eq_true_eq] at w
    obtain ⟨⟨hx, hv⟩, hm⟩ := w
    have := ih hm
    unfold List.filter
    split
    · simp [Memory.wfFrom, hx, hv, this]
    · exact wfFrom_lower (by omega) this

theorem filter_wf {m : Memory} (p : Host.Cell → Bool) (w : m.wf = true) : Memory.wf (m.filter p) = true :=
  filter_wfFrom p w

theorem clear_wf {m : Memory} (a n : Nat) (w : m.wf = true) : (m.clear a n).wf = true := filter_wf _ w

/-- Memory after reset lists nothing. -/
theorem reset_wf : State.reset.mem.wf = true := rfl

/-! ## Reads after writes -/

/-- Nothing is listed below the bound. -/
theorem read_below {lo a : Nat} {m : Memory} (w : Memory.wfFrom lo m = true) (h : a < lo) : m.read a = Memory.blank := by
  induction m generalizing lo with
  | nil => rfl
  | cons c m ih =>
    obtain ⟨x, v⟩ := c
    simp only [Memory.wfFrom, Bool.and_eq_true, decide_eq_true_eq] at w
    unfold Memory.read
    rw [if_neg (by omega)]
    exact ih w.2 (by omega)

/-- A read gives the byte written to its address, and elsewhere what it gave before. -/
theorem read_write {a c : Nat} {b : Byte} {m : Memory} {lo : Nat} (w : Memory.wfFrom lo m = true) :
    (m.write a b).read c = if c = a then b else m.read c := by
  induction m generalizing lo with
  | nil =>
    unfold Memory.write
    split <;> split <;> simp_all [Memory.read]
  | cons x m ih =>
    obtain ⟨x, v⟩ := x
    simp only [Memory.wfFrom, Bool.and_eq_true, decide_eq_true_eq] at w
    unfold Memory.write
    split
    · rename_i hlt
      have hb : Memory.read m a = Memory.blank := read_below w.2 (by omega)
      split
      · rename_i hbl
        by_cases hc : c = a
        · subst hc
          simp [Memory.read, show ¬ c = x by omega, hb, hbl]
        · simp [hc]
      · simp [Memory.read]
    · split
      · rename_i hax
        subst hax
        have hb : Memory.read m a = Memory.blank := read_below w.2 (by omega)
        split
        · rename_i hbl
          by_cases hc : c = a
          · subst hc; simp [hb, hbl]
          · simp [Memory.read, hc]
        · by_cases hc : c = a <;> simp [Memory.read, hc]
      · rename_i hax
        have := ih w.2
        simp only [Memory.read, this]
        by_cases hcx : c = x
        · subst hcx; simp [show ¬ c = a by omega]
        · simp [hcx]

/-- A write leaves every other byte. -/
theorem read_write_other {a c : Nat} {b : Byte} {m : Memory} (w : m.wf = true) (h : c ≠ a) :
    (m.write a b).read c = m.read c := by rw [read_write w, if_neg h]

theorem read_write_same {a : Nat} {b : Byte} {m : Memory} (w : m.wf = true) : (m.write a b).read a = b := by
  rw [read_write w, if_pos rfl]

/-- Bytes that no cell of a write names stay. -/
theorem read_writeAll_other {c : Nat} {m : Memory} (cells : List Host.Cell) (w : m.wf = true)
    (h : ∀ p ∈ cells, p.1 ≠ c) : (m.writeAll cells).read c = m.read c := by
  induction cells generalizing m with
  | nil => rfl
  | cons p l ih =>
    have h1 := ih (m := m.write p.1 p.2) (write_wf w) (fun q hq => h q (List.mem_cons_of_mem _ hq))
    have h2 := read_write_other (b := p.2) w (Ne.symm (h p (List.mem_cons_self ..)))
    exact h1.trans h2

/-! ## What an entry at home, a drain and a release keep -/

theorem writeHome_wf {s : State} (cells : List Host.Cell) (w : s.mem.wf = true) : (s.writeHome cells).mem.wf = true :=
  writeAll_wf cells w

@[simp] theorem poisonAt_mem (s : State) (l : List Nat) : (s.poisonAt l).mem = s.mem := rfl

@[simp] theorem setCore_mem (s : State) (c : Core) : (s.setCore c).mem = s.mem := by
  unfold State.setCore; split <;> rfl

@[simp] theorem onAHart_mem (s : State) (g : Nat) (t : Fin 4) (f : AHart → AHart) : (onAHart s g t f).mem = s.mem := by
  simp [onAHart]

@[simp] theorem addFault_mem (s : State) (g : Nat) (t : Fin 4) (f : List PFault → List PFault) :
    (addFault s g t f).mem = s.mem := onAHart_mem _ _ _ _

@[simp] theorem focus_mem (s : State) (g : Nat) : (s.focus g).mem = s.mem := by
  unfold State.focus; split <;> rfl

@[simp] theorem markLine_mem (s : State) (g l : Nat) (b : Bool) : (markLine s g l b).mem = s.mem := by
  simp [markLine]

@[simp] theorem dropEarly_mem (s : State) (c : Nat) (ag : Agent) (l : List Nat) : (dropEarly s c ag l).mem = s.mem := rfl

@[simp] theorem askSuspend_mem (s : State) (l : List Nat) : (askSuspend s l).mem = s.mem := rfl

theorem foldNibble_wf (cells : List (Nat × Bool × BitVec 4)) {m : Memory} (w : m.wf = true) :
    Memory.wf (cells.foldl (fun m c =>
      m.write c.1 (if c.2.1 then c.2.2 ++ (m.read c.1).extractLsb' 0 4
        else (m.read c.1).extractLsb' 4 4 ++ c.2.2)) m) = true := by
  induction cells generalizing m with
  | nil => exact w
  | cons c l ih => exact ih (write_wf w)

theorem foldFault_mem (who : List Contrib) (a : Nat) (s : State) :
    (who.foldl (fun s c => addFault s c.core c.t (gatherFault c (poisonCode s a))) s).mem = s.mem := by
  induction who generalizing s with
  | nil => rfl
  | cons c l ih => simp [ih]

@[simp] theorem returnOld_mem (s : State) (n : Nat) (old : Word) (who : List Contrib) :
    (returnOld s n old who).mem = s.mem := by
  unfold returnOld
  induction who generalizing s with
  | nil => rfl
  | cons c l ih => rw [List.foldl_cons, ih]; split <;> simp

theorem performAtomic_wf {s : State} (op : AtomicOp) (a n : Nat) (b : Word) (w : s.mem.wf = true) :
    (performAtomic s op a n b).1.mem.wf = true := by
  unfold performAtomic
  split
  · exact w
  · exact writeHome_wf _ w

theorem perform_wf {s : State} (p : Payload) (w : s.mem.wf = true) : (perform s p).mem.wf = true := by
  cases p with
  | bytes cells => exact writeHome_wf cells w
  | nibbles cells => exact foldNibble_wf cells w
  | atomic op a n b who =>
    have h := performAtomic_wf op a n b w
    simp only [perform]
    split
    · rename_i heq
      rw [heq] at h; rw [returnOld_mem]; exact h
    · rename_i heq
      rw [heq] at h
      rw [foldFault_mem]; exact h

theorem observeWrite_mem (s : State) (l : List Nat) (en : Nat → Bool) : (observeWrite s l en).mem = s.mem := by
  simp only [observeWrite]
  generalize List.range 1024 = js
  induction js generalizing s with
  | nil => rfl
  | cons j js ih =>
    simp only [List.foldl_cons]
    rw [ih]
    split <;> rfl

/-- What performs is the entry's payload, and what the device observes of it changes nothing at home. -/
theorem performEntry_mem (s : State) (e : Entry) : (performEntry s e).mem = (perform s e.payload).mem := by
  simp only [performEntry]
  split
  · rw [observeWrite_mem]; split <;> rfl
  · split <;> rfl

theorem performEntry_wf {s : State} (e : Entry) (w : s.mem.wf = true) : (performEntry s e).mem.wf = true := by
  rw [performEntry_mem]; exact perform_wf _ w

theorem drainMove_wf {s : State} (n : Nat) (w : s.mem.wf = true) : (drainMove s n).mem.wf = true := by
  unfold drainMove
  split
  · exact w
  · split
    · exact w
    · split
      · exact w
      · split
        · exact w
        · exact performEntry_wf _ w

theorem combineMove_mem (s : State) (n : Nat) : (combineMove s n).mem = s.mem := by
  unfold combineMove
  split
  · rfl
  · dsimp only
    split
    · rfl
    · split
      · rfl
      · split <;> rfl

theorem performLevel_wf {s : State} (lv : Nat) (l : List Entry) (w : s.mem.wf = true) :
    (performLevel s lv l).mem.wf = true := by
  unfold performLevel
  induction l generalizing s with
  | nil => exact w
  | cons e l ih =>
    simp only [List.foldl_cons]
    split
    · exact ih (performEntry_wf _ w)
    · exact ih w

theorem performNow_wf {s : State} (sel : Entry → Bool) (w : s.mem.wf = true) : (performNow s sel).mem.wf = true := by
  simp only [performNow, List.foldl_cons, List.foldl_nil]
  exact performLevel_wf _ _ (performLevel_wf _ _ (performLevel_wf _ _ (performLevel_wf _ _ w)))

theorem settleNibbles_wf {s : State} (c : Nat) (ag : Agent) (l : List Nat) (w : s.mem.wf = true) :
    (settleNibbles s c ag l).mem.wf = true := by
  unfold settleNibbles
  split
  · exact performNow_wf _ w
  · exact w

/-- A read settles the nibble entries it meets and changes nothing else at home. -/
theorem freshRead_wf {s : State} (c : Nat) (ag : Agent) (l : List Nat) (w : s.mem.wf = true) :
    (freshRead s c ag l).1.mem.wf = true := by
  unfold freshRead
  split
  · have h := settleNibbles_wf c ag l w
    dsimp only
    split
    · exact h
    · exact h
  · exact w

theorem readMove_wf {s : State} (c : Nat) (ag : Agent) (l : List Nat) (w : s.mem.wf = true) :
    (readMove s c ag l).1.mem.wf = true := by
  unfold readMove readSince
  split
  · exact w
  · exact freshRead_wf (s := dropEarly s c ag l) c ag l w

theorem toSPoint_wf {s : State} (sc : BitVec 2) (e : Entry) (w : s.mem.wf = true) : (toSPoint sc s e).mem.wf = true := by
  unfold toSPoint
  split
  · exact w
  · refine performEntry_wf _ ?_
    unfold performLower
    dsimp only
    split
    · exact performNow_wf _ w
    · exact w

theorem emptyLoc_wf {s : State} (l : Loc) (sc : BitVec 2) (w : s.mem.wf = true) : (emptyLoc s l sc).mem.wf = true := by
  unfold emptyLoc
  generalize s.buf.filter (fun e => e.loc == l) = es
  induction es generalizing s with
  | nil => exact w
  | cons e es ih =>
    simp only [List.foldl_cons]
    apply ih
    split
    · exact toSPoint_wf sc e w
    · exact w

theorem releaseMove_wf {s : State} (c : Nat) (ags : List Agent) (sc : BitVec 2) (w : s.mem.wf = true) :
    (releaseMove s c ags sc).mem.wf = true := by
  unfold releaseMove
  generalize releaseLocs c ags sc = ls
  induction ls generalizing s with
  | nil => exact w
  | cons l ls ih => exact ih (emptyLoc_wf l sc w)

theorem enterAt_wf {s : State} (c : Nat) (ag : Agent) (sc : BitVec 2) (p : Payload) (w : s.mem.wf = true) :
    (enterAt s c ag sc p).mem.wf = true := by
  unfold enterAt
  dsimp only
  split
  · exact w
  · exact perform_wf _ w

@[simp] theorem enter_mem (s : State) (c : Nat) (ag : Agent) (p : Payload) : (enter s c ag p).mem = s.mem := rfl
theorem enterOff_mem (s : State) (ag : Agent) (b : Bool) (l : List Host.Cell) : (enterOff s ag b l).mem = s.mem := by
  unfold enterOff
  generalize (l.map (fun c => c.1 / 128)).eraseDups = ls
  induction ls generalizing s with
  | nil => rfl
  | cons a ls ih => rw [List.foldl_cons, ih]

/-- A fatal error writes the dump or its header. -/
theorem raiseFatal_wf {s : State} (cause : BitVec 8) (g : Nat) (d : Word) (w : s.mem.wf = true) :
    (raiseFatal s cause g d).mem.wf = true := by
  unfold raiseFatal
  split
  · apply writeAll_wf
    exact w
  · apply writeAll_wf
    apply clear_wf
    exact w

end Sys2Proof.Laws
end

