-- ==== Sys2Proof/Laws/Home.lean ====
section
/-! SUPPORT. What performing entries, releases and reads leave as it was: all of the state but home memory and its poison,
what is buffered, the pending faults that an atomic raises, the queues that observe a write, and the early reads. -/

namespace Sys2Proof.Laws

open Sys2Proof.Machine

/-- `t` is `s` but for memory, poison, buffers, cores, work queues and early reads. -/
def SameElse (s t : State) : Prop :=
  t = { s with
    mem := t.mem, poison := t.poison, buf := t.buf, core := t.core, others := t.others, queues := t.queues, early := t.early }

namespace SameElse

theorem refl (s : State) : SameElse s s := rfl

theorem trans {s t u : State} (h : SameElse s t) (g : SameElse t u) : SameElse s u := by
  unfold SameElse at *
  rw [g, h]

/-- A fold of steps that each keep the rest keeps it. -/
theorem foldl {α : Type} {f : State → α → State} (h : ∀ s a, SameElse s (f s a)) (l : List α) (s : State) :
    SameElse s (l.foldl f s) := by
  induction l generalizing s with
  | nil => rfl
  | cons a l ih => exact (h s a).trans (ih _)

theorem limit {s t : State} (h : SameElse s t) : t.limit = s.limit := by rw [h]
theorem seqs {s t : State} (h : SameElse s t) : t.seqs = s.seqs := by rw [h]
theorem acl {s t : State} (h : SameElse s t) : t.acl = s.acl := by rw [h]
theorem tlb {s t : State} (h : SameElse s t) : t.tlb = s.tlb := by rw [h]
theorem launches {s t : State} (h : SameElse s t) : t.launches = s.launches := by rw [h]
theorem fatal {s t : State} (h : SameElse s t) : t.fatal = s.fatal := by rw [h]
theorem serial {s t : State} (h : SameElse s t) : t.serial = s.serial := by rw [h]
theorem tnd {s t : State} (h : SameElse s t) : t.tnd = s.tnd := by rw [h]
theorem xh {s t : State} (h : SameElse s t) : t.xh = s.xh := by rw [h]

end SameElse

theorem writeHome_same (s : State) (cells : List Host.Cell) : SameElse s (s.writeHome cells) := rfl
theorem poisonAt_same (s : State) (l : List Nat) : SameElse s (s.poisonAt l) := rfl

theorem setCore_same (s : State) (c : Core) : SameElse s (s.setCore c) := by
  unfold State.setCore; split <;> rfl

theorem setQueue_same (s : State) (q : WQueue) : SameElse s (s.setQueue q) := rfl

theorem onAHart_same (s : State) (g : Nat) (t : Fin 4) (f : AHart → AHart) : SameElse s (onAHart s g t f) := setCore_same s _

theorem addFault_same (s : State) (g : Nat) (t : Fin 4) (f : List PFault → List PFault) : SameElse s (addFault s g t f) :=
  onAHart_same s g t _

/-- An old value that comes to a register changes its core alone. -/
theorem returnOld_same (s : State) (n : Nat) (old : Word) (who : List Contrib) : SameElse s (returnOld s n old who) := by
  unfold returnOld
  refine SameElse.foldl (fun s c => ?_) who s
  split
  · exact .refl s
  · exact onAHart_same s _ _ _

theorem performAtomic_same (s : State) (op : AtomicOp) (a n : Nat) (b : Word) : SameElse s (performAtomic s op a n b).1 := by
  unfold performAtomic
  split <;> rfl

/-- An entry performs. -/
theorem perform_same (s : State) (p : Payload) : SameElse s (perform s p) := by
  cases p with
  | bytes cells => rfl
  | nibbles cells => rfl
  | atomic op a n b who =>
    have h := performAtomic_same s op a n b
    simp only [perform]
    split
    · rename_i heq
      rw [heq] at h; exact h.trans (returnOld_same _ _ _ _)
    · rename_i heq
      rw [heq] at h
      exact h.trans (SameElse.foldl (fun s c => addFault_same s c.core c.t _) who _)

theorem observeWrite_same (s : State) (l : List Nat) (en : Nat → Bool) : SameElse s (observeWrite s l en) := by
  simp only [observeWrite]
  generalize List.range 1024 = js
  refine (SameElse.foldl (fun s j => ?_) js s).trans rfl
  split
  · exact setQueue_same s _
  · rfl

theorem performEntry_same (s : State) (e : Entry) : SameElse s (performEntry s e) := by
  have h := perform_same s e.payload
  simp only [performEntry]
  split
  · refine SameElse.trans ?_ (observeWrite_same _ _ _)
    split
    · exact h.trans (poisonAt_same _ _)
    · exact h
  · split
    · exact h.trans (poisonAt_same _ _)
    · exact h

theorem performNow_same (s : State) (sel : Entry → Bool) : SameElse s (performNow s sel) := by
  have level : ∀ (s : State) (lv : Nat) (l : List Entry), SameElse s (performLevel s lv l) := by
    intro s lv l
    refine SameElse.foldl (fun s e => ?_) l s
    split
    · exact performEntry_same s e
    · rfl
  simp only [performNow, List.foldl_cons, List.foldl_nil]
  refine SameElse.trans (t := { s with buf := (leaving s sel).2 }) rfl ?_
  exact (level _ _ _).trans ((level _ _ _).trans ((level _ _ _).trans (level _ _ _)))

theorem toSPoint_same (sc : BitVec 2) (s : State) (e : Entry) : SameElse s (toSPoint sc s e) := by
  unfold toSPoint
  split
  · rfl
  · refine SameElse.trans ?_ (performEntry_same _ e)
    simp only [performLower]
    split
    · exact performNow_same s _
    · rfl

/-- A release. -/
theorem releaseMove_same (s : State) (c : Nat) (ags : List Agent) (sc : BitVec 2) : SameElse s (releaseMove s c ags sc) := by
  refine SameElse.foldl (fun s l => ?_) _ s
  refine SameElse.foldl (fun s e => ?_) _ s
  split
  · exact SameElse.trans (t := { s with buf := s.buf.erase e }) rfl (toSPoint_same sc _ e)
  · rfl

theorem enter_same (s : State) (c : Nat) (ag : Agent) (p : Payload) : SameElse s (enter s c ag p) := rfl

theorem enterAt_same (s : State) (c : Nat) (ag : Agent) (sc : BitVec 2) (p : Payload) : SameElse s (enterAt s c ag sc p) := by
  unfold enterAt
  dsimp only
  split
  · rfl
  · exact SameElse.trans (t := dropEarly s c ag p.addrs) rfl (perform_same _ p)

theorem enterOff_same (s : State) (ag : Agent) (b : Bool) (l : List Host.Cell) : SameElse s (enterOff s ag b l) := by
  unfold enterOff
  refine SameElse.foldl (fun s n => ?_) _ s
  rfl

/-- A read that gets its bytes. -/
theorem freshRead_same {s t : State} {c : Nat} {ag : Agent} {l : List Nat} {b : List Byte}
    (h : freshRead s c ag l = (t, .bytes b)) : SameElse s t := by
  have settle : SameElse s (settleNibbles s c ag l) := by
    unfold settleNibbles
    split
    · exact performNow_same s _
    · rfl
  unfold freshRead at h
  split at h
  · dsimp only at h
    split at h
    · simp at h
    · simp only [Prod.mk.injEq] at h
      rw [← h.1]; exact settle
  · simp at h

theorem readMove_same {s t : State} {c : Nat} {ag : Agent} {l : List Nat} {b : List Byte}
    (h : readMove s c ag l = (t, .bytes b)) : SameElse s t := by
  unfold readMove readSince at h
  split at h
  · simp only [Prod.mk.injEq] at h
    rw [← h.1]; rfl
  · simp only [Prod.mk.injEq] at h
    exact SameElse.trans (t := dropEarly s c ag l) rfl (freshRead_same (Prod.ext h.1 h.2))

end Sys2Proof.Laws
end

