-- ==== Sys2Proof/Laws/State.lean ====
section
/-! SUPPORT. What each update of a part of the state leaves in each of its fields. -/

namespace Sys2Proof.Laws

open Sys2Proof.Machine

/-! ## Updates of a part, read back -/

@[simp] theorem setTeam_team (s : State) (t : Team) : (s.setTeam t).core.team = t := rfl
@[simp] theorem setTd_td (s : State) (t : Tandem) : (s.setTd t).td = t := by
  simp [State.setTd, State.td]
@[simp] theorem setA_a (s : State) (a : AHart) : (s.setA a).a = a := by simp [State.setA, State.a]
@[simp] theorem setX_x (s : State) (x : XHart) : (s.setX x).x = x := by simp [State.setX, State.x]
@[simp] theorem setA_x (s : State) (a : AHart) : (s.setA a).x = s.x := by simp [State.setA, State.x]
@[simp] theorem setX_a (s : State) (x : XHart) : (s.setX x).a = s.a := by simp [State.setX, State.a]
@[simp] theorem setTd_setTd (s : State) (t u : Tandem) : (s.setTd t).setTd u = s.setTd u := by
  simp [State.setTd]
@[simp] theorem setTd_self (s : State) : s.setTd s.td = s := by
  simp [State.setTd, State.td]
@[simp] theorem setA_setA (s : State) (a b : AHart) : (s.setA a).setA b = s.setA b := by
  simp [State.setA, State.setTd, State.td]
@[simp] theorem setX_setX (s : State) (a b : XHart) : (s.setX a).setX b = s.setX b := by
  simp [State.setX, State.setTd, State.td]
@[simp] theorem setA_self (s : State) : s.setA s.a = s := setTd_self s
@[simp] theorem setX_self (s : State) : s.setX s.x = s := setTd_self s

/-! ## setTeam -/

@[simp] theorem setTeam_mem (s : State) (t : Team) : (s.setTeam t).mem = s.mem := rfl
@[simp] theorem setTeam_born (s : State) (t : Team) : (s.setTeam t).born = s.born := rfl
@[simp] theorem setTeam_limit (s : State) (t : Team) : (s.setTeam t).limit = s.limit := rfl
@[simp] theorem setTeam_ir (s : State) (t : Team) : (s.setTeam t).ir = s.ir := rfl
@[simp] theorem setTeam_gch (s : State) (t : Team) : (s.setTeam t).gch = s.gch := rfl
@[simp] theorem setTeam_refusals (s : State) (t : Team) : (s.setTeam t).refusals = s.refusals := rfl
@[simp] theorem setTeam_colls (s : State) (t : Team) : (s.setTeam t).colls = s.colls := rfl
@[simp] theorem setTeam_ports (s : State) (t : Team) : (s.setTeam t).ports = s.ports := rfl
@[simp] theorem setTeam_dropped (s : State) (t : Team) : (s.setTeam t).dropped = s.dropped := rfl
@[simp] theorem setTeam_xsrc (s : State) (t : Team) : (s.setTeam t).xsrc = s.xsrc := rfl
@[simp] theorem setTeam_xdst (s : State) (t : Team) : (s.setTeam t).xdst = s.xdst := rfl
@[simp] theorem setTeam_xlen (s : State) (t : Team) : (s.setTeam t).xlen = s.xlen := rfl
@[simp] theorem setTeam_xpeer (s : State) (t : Team) : (s.setTeam t).xpeer = s.xpeer := rfl
@[simp] theorem setTeam_xstat (s : State) (t : Team) : (s.setTeam t).xstat = s.xstat := rfl
@[simp] theorem setTeam_qtab (s : State) (t : Team) : (s.setTeam t).qtab = s.qtab := rfl
@[simp] theorem setTeam_ptab (s : State) (t : Team) : (s.setTeam t).ptab = s.ptab := rfl
@[simp] theorem setTeam_hdom (s : State) (t : Team) : (s.setTeam t).hdom = s.hdom := rfl
@[simp] theorem setTeam_mods (s : State) (t : Team) : (s.setTeam t).mods = s.mods := rfl
@[simp] theorem setTeam_event (s : State) (t : Team) : (s.setTeam t).event = s.event := rfl
@[simp] theorem setTeam_dump (s : State) (t : Team) : (s.setTeam t).dump = s.dump := rfl
@[simp] theorem setTeam_recovery (s : State) (t : Team) : (s.setTeam t).recovery = s.recovery := rfl
@[simp] theorem setTeam_ready (s : State) (t : Team) : (s.setTeam t).ready = s.ready := rfl
@[simp] theorem setTeam_hdm (s : State) (t : Team) : (s.setTeam t).hdm = s.hdm := rfl
@[simp] theorem setTeam_fused (s : State) (t : Team) : (s.setTeam t).fused = s.fused := rfl
@[simp] theorem setTeam_version (s : State) (t : Team) : (s.setTeam t).version = s.version := rfl
@[simp] theorem setTeam_firmware (s : State) (t : Team) : (s.setTeam t).firmware = s.firmware := rfl
@[simp] theorem setTeam_reason (s : State) (t : Team) : (s.setTeam t).reason = s.reason := rfl
@[simp] theorem setTeam_ecc (s : State) (t : Team) : (s.setTeam t).ecc = s.ecc := rfl
@[simp] theorem setTeam_log (s : State) (t : Team) : (s.setTeam t).log = s.log := rfl
@[simp] theorem setTeam_kept (s : State) (t : Team) : (s.setTeam t).kept = s.kept := rfl
@[simp] theorem setTeam_replays (s : State) (t : Team) : (s.setTeam t).replays = s.replays := rfl
@[simp] theorem setTeam_privates (s : State) (t : Team) : (s.setTeam t).privates = s.privates := rfl
@[simp] theorem setTeam_reply (s : State) (t : Team) : (s.setTeam t).reply = s.reply := rfl
@[simp] theorem setTeam_replyPoison (s : State) (t : Team) : (s.setTeam t).replyPoison = s.replyPoison := rfl
@[simp] theorem setTeam_poison (s : State) (t : Team) : (s.setTeam t).poison = s.poison := rfl
@[simp] theorem setTeam_buf (s : State) (t : Team) : (s.setTeam t).buf = s.buf := rfl
@[simp] theorem setTeam_early (s : State) (t : Team) : (s.setTeam t).early = s.early := rfl
@[simp] theorem setTeam_holds (s : State) (t : Team) : (s.setTeam t).holds = s.holds := rfl
@[simp] theorem setTeam_turn (s : State) (t : Team) : (s.setTeam t).turn = s.turn := rfl
@[simp] theorem setTeam_walks (s : State) (t : Team) : (s.setTeam t).walks = s.walks := rfl
@[simp] theorem setTeam_miss (s : State) (t : Team) : (s.setTeam t).miss = s.miss := rfl
@[simp] theorem setTeam_serial (s : State) (t : Team) : (s.setTeam t).serial = s.serial := rfl
@[simp] theorem setTeam_sched (s : State) (t : Team) : (s.setTeam t).sched = s.sched := rfl
@[simp] theorem setTeam_ticks (s : State) (t : Team) : (s.setTeam t).ticks = s.ticks := rfl
@[simp] theorem setTeam_others (s : State) (t : Team) : (s.setTeam t).others = s.others := rfl
@[simp] theorem setTeam_tlb (s : State) (t : Team) : (s.setTeam t).tlb = s.tlb := rfl
@[simp] theorem setTeam_acl (s : State) (t : Team) : (s.setTeam t).acl = s.acl := rfl
@[simp] theorem setTeam_aclOld (s : State) (t : Team) : (s.setTeam t).aclOld = s.aclOld := rfl
@[simp] theorem setTeam_msis (s : State) (t : Team) : (s.setTeam t).msis = s.msis := rfl
@[simp] theorem setTeam_resends (s : State) (t : Team) : (s.setTeam t).resends = s.resends := rfl
@[simp] theorem setTeam_xgot (s : State) (t : Team) : (s.setTeam t).xgot = s.xgot := rfl
@[simp] theorem setTeam_seqs (s : State) (t : Team) : (s.setTeam t).seqs = s.seqs := rfl
@[simp] theorem setTeam_launches (s : State) (t : Team) : (s.setTeam t).launches = s.launches := rfl
@[simp] theorem setTeam_queues (s : State) (t : Team) : (s.setTeam t).queues = s.queues := rfl
@[simp] theorem setTeam_fatal (s : State) (t : Team) : (s.setTeam t).fatal = s.fatal := rfl
@[simp] theorem setTeam_powered (s : State) (t : Team) : (s.setTeam t).powered = s.powered := rfl
@[simp] theorem setTeam_fresh (s : State) (t : Team) : (s.setTeam t).fresh = s.fresh := rfl
@[simp] theorem setTeam_tnd (s : State) (t : Team) : (s.setTeam t).tnd = s.tnd := rfl
@[simp] theorem setTeam_xh (s : State) (t : Team) : (s.setTeam t).xh = s.xh := rfl
@[simp] theorem setTeam_num (s : State) (t : Team) : (s.setTeam t).core.num = s.core.num := rfl

/-! ## setTd -/

@[simp] theorem setTd_mem (s : State) (t : Tandem) : (s.setTd t).mem = s.mem := rfl
@[simp] theorem setTd_born (s : State) (t : Tandem) : (s.setTd t).born = s.born := rfl
@[simp] theorem setTd_limit (s : State) (t : Tandem) : (s.setTd t).limit = s.limit := rfl
@[simp] theorem setTd_ir (s : State) (t : Tandem) : (s.setTd t).ir = s.ir := rfl
@[simp] theorem setTd_gch (s : State) (t : Tandem) : (s.setTd t).gch = s.gch := rfl
@[simp] theorem setTd_refusals (s : State) (t : Tandem) : (s.setTd t).refusals = s.refusals := rfl
@[simp] theorem setTd_colls (s : State) (t : Tandem) : (s.setTd t).colls = s.colls := rfl
@[simp] theorem setTd_ports (s : State) (t : Tandem) : (s.setTd t).ports = s.ports := rfl
@[simp] theorem setTd_dropped (s : State) (t : Tandem) : (s.setTd t).dropped = s.dropped := rfl
@[simp] theorem setTd_xsrc (s : State) (t : Tandem) : (s.setTd t).xsrc = s.xsrc := rfl
@[simp] theorem setTd_xdst (s : State) (t : Tandem) : (s.setTd t).xdst = s.xdst := rfl
@[simp] theorem setTd_xlen (s : State) (t : Tandem) : (s.setTd t).xlen = s.xlen := rfl
@[simp] theorem setTd_xpeer (s : State) (t : Tandem) : (s.setTd t).xpeer = s.xpeer := rfl
@[simp] theorem setTd_xstat (s : State) (t : Tandem) : (s.setTd t).xstat = s.xstat := rfl
@[simp] theorem setTd_qtab (s : State) (t : Tandem) : (s.setTd t).qtab = s.qtab := rfl
@[simp] theorem setTd_ptab (s : State) (t : Tandem) : (s.setTd t).ptab = s.ptab := rfl
@[simp] theorem setTd_hdom (s : State) (t : Tandem) : (s.setTd t).hdom = s.hdom := rfl
@[simp] theorem setTd_mods (s : State) (t : Tandem) : (s.setTd t).mods = s.mods := rfl
@[simp] theorem setTd_event (s : State) (t : Tandem) : (s.setTd t).event = s.event := rfl
@[simp] theorem setTd_dump (s : State) (t : Tandem) : (s.setTd t).dump = s.dump := rfl
@[simp] theorem setTd_recovery (s : State) (t : Tandem) : (s.setTd t).recovery = s.recovery := rfl
@[simp] theorem setTd_ready (s : State) (t : Tandem) : (s.setTd t).ready = s.ready := rfl
@[simp] theorem setTd_hdm (s : State) (t : Tandem) : (s.setTd t).hdm = s.hdm := rfl
@[simp] theorem setTd_fused (s : State) (t : Tandem) : (s.setTd t).fused = s.fused := rfl
@[simp] theorem setTd_version (s : State) (t : Tandem) : (s.setTd t).version = s.version := rfl
@[simp] theorem setTd_firmware (s : State) (t : Tandem) : (s.setTd t).firmware = s.firmware := rfl
@[simp] theorem setTd_reason (s : State) (t : Tandem) : (s.setTd t).reason = s.reason := rfl
@[simp] theorem setTd_ecc (s : State) (t : Tandem) : (s.setTd t).ecc = s.ecc := rfl
@[simp] theorem setTd_log (s : State) (t : Tandem) : (s.setTd t).log = s.log := rfl
@[simp] theorem setTd_kept (s : State) (t : Tandem) : (s.setTd t).kept = s.kept := rfl
@[simp] theorem setTd_replays (s : State) (t : Tandem) : (s.setTd t).replays = s.replays := rfl
@[simp] theorem setTd_privates (s : State) (t : Tandem) : (s.setTd t).privates = s.privates := rfl
@[simp] theorem setTd_reply (s : State) (t : Tandem) : (s.setTd t).reply = s.reply := rfl
@[simp] theorem setTd_replyPoison (s : State) (t : Tandem) : (s.setTd t).replyPoison = s.replyPoison := rfl
@[simp] theorem setTd_poison (s : State) (t : Tandem) : (s.setTd t).poison = s.poison := rfl
@[simp] theorem setTd_buf (s : State) (t : Tandem) : (s.setTd t).buf = s.buf := rfl
@[simp] theorem setTd_early (s : State) (t : Tandem) : (s.setTd t).early = s.early := rfl
@[simp] theorem setTd_holds (s : State) (t : Tandem) : (s.setTd t).holds = s.holds := rfl
@[simp] theorem setTd_turn (s : State) (t : Tandem) : (s.setTd t).turn = s.turn := rfl
@[simp] theorem setTd_walks (s : State) (t : Tandem) : (s.setTd t).walks = s.walks := rfl
@[simp] theorem setTd_miss (s : State) (t : Tandem) : (s.setTd t).miss = s.miss := rfl
@[simp] theorem setTd_serial (s : State) (t : Tandem) : (s.setTd t).serial = s.serial := rfl
@[simp] theorem setTd_sched (s : State) (t : Tandem) : (s.setTd t).sched = s.sched := rfl
@[simp] theorem setTd_ticks (s : State) (t : Tandem) : (s.setTd t).ticks = s.ticks := rfl
@[simp] theorem setTd_others (s : State) (t : Tandem) : (s.setTd t).others = s.others := rfl
@[simp] theorem setTd_tlb (s : State) (t : Tandem) : (s.setTd t).tlb = s.tlb := rfl
@[simp] theorem setTd_acl (s : State) (t : Tandem) : (s.setTd t).acl = s.acl := rfl
@[simp] theorem setTd_aclOld (s : State) (t : Tandem) : (s.setTd t).aclOld = s.aclOld := rfl
@[simp] theorem setTd_msis (s : State) (t : Tandem) : (s.setTd t).msis = s.msis := rfl
@[simp] theorem setTd_resends (s : State) (t : Tandem) : (s.setTd t).resends = s.resends := rfl
@[simp] theorem setTd_xgot (s : State) (t : Tandem) : (s.setTd t).xgot = s.xgot := rfl
@[simp] theorem setTd_seqs (s : State) (t : Tandem) : (s.setTd t).seqs = s.seqs := rfl
@[simp] theorem setTd_launches (s : State) (t : Tandem) : (s.setTd t).launches = s.launches := rfl
@[simp] theorem setTd_queues (s : State) (t : Tandem) : (s.setTd t).queues = s.queues := rfl
@[simp] theorem setTd_fatal (s : State) (t : Tandem) : (s.setTd t).fatal = s.fatal := rfl
@[simp] theorem setTd_powered (s : State) (t : Tandem) : (s.setTd t).powered = s.powered := rfl
@[simp] theorem setTd_fresh (s : State) (t : Tandem) : (s.setTd t).fresh = s.fresh := rfl
@[simp] theorem setTd_tnd (s : State) (t : Tandem) : (s.setTd t).tnd = s.tnd := rfl
@[simp] theorem setTd_xh (s : State) (t : Tandem) : (s.setTd t).xh = s.xh := rfl
@[simp] theorem setTd_num (s : State) (t : Tandem) : (s.setTd t).core.num = s.core.num := rfl

/-! ## setA -/

@[simp] theorem setA_mem (s : State) (a : AHart) : (s.setA a).mem = s.mem := rfl
@[simp] theorem setA_born (s : State) (a : AHart) : (s.setA a).born = s.born := rfl
@[simp] theorem setA_limit (s : State) (a : AHart) : (s.setA a).limit = s.limit := rfl
@[simp] theorem setA_ir (s : State) (a : AHart) : (s.setA a).ir = s.ir := rfl
@[simp] theorem setA_gch (s : State) (a : AHart) : (s.setA a).gch = s.gch := rfl
@[simp] theorem setA_refusals (s : State) (a : AHart) : (s.setA a).refusals = s.refusals := rfl
@[simp] theorem setA_colls (s : State) (a : AHart) : (s.setA a).colls = s.colls := rfl
@[simp] theorem setA_ports (s : State) (a : AHart) : (s.setA a).ports = s.ports := rfl
@[simp] theorem setA_dropped (s : State) (a : AHart) : (s.setA a).dropped = s.dropped := rfl
@[simp] theorem setA_xsrc (s : State) (a : AHart) : (s.setA a).xsrc = s.xsrc := rfl
@[simp] theorem setA_xdst (s : State) (a : AHart) : (s.setA a).xdst = s.xdst := rfl
@[simp] theorem setA_xlen (s : State) (a : AHart) : (s.setA a).xlen = s.xlen := rfl
@[simp] theorem setA_xpeer (s : State) (a : AHart) : (s.setA a).xpeer = s.xpeer := rfl
@[simp] theorem setA_xstat (s : State) (a : AHart) : (s.setA a).xstat = s.xstat := rfl
@[simp] theorem setA_qtab (s : State) (a : AHart) : (s.setA a).qtab = s.qtab := rfl
@[simp] theorem setA_ptab (s : State) (a : AHart) : (s.setA a).ptab = s.ptab := rfl
@[simp] theorem setA_hdom (s : State) (a : AHart) : (s.setA a).hdom = s.hdom := rfl
@[simp] theorem setA_mods (s : State) (a : AHart) : (s.setA a).mods = s.mods := rfl
@[simp] theorem setA_event (s : State) (a : AHart) : (s.setA a).event = s.event := rfl
@[simp] theorem setA_dump (s : State) (a : AHart) : (s.setA a).dump = s.dump := rfl
@[simp] theorem setA_recovery (s : State) (a : AHart) : (s.setA a).recovery = s.recovery := rfl
@[simp] theorem setA_ready (s : State) (a : AHart) : (s.setA a).ready = s.ready := rfl
@[simp] theorem setA_hdm (s : State) (a : AHart) : (s.setA a).hdm = s.hdm := rfl
@[simp] theorem setA_fused (s : State) (a : AHart) : (s.setA a).fused = s.fused := rfl
@[simp] theorem setA_version (s : State) (a : AHart) : (s.setA a).version = s.version := rfl
@[simp] theorem setA_firmware (s : State) (a : AHart) : (s.setA a).firmware = s.firmware := rfl
@[simp] theorem setA_reason (s : State) (a : AHart) : (s.setA a).reason = s.reason := rfl
@[simp] theorem setA_ecc (s : State) (a : AHart) : (s.setA a).ecc = s.ecc := rfl
@[simp] theorem setA_log (s : State) (a : AHart) : (s.setA a).log = s.log := rfl
@[simp] theorem setA_kept (s : State) (a : AHart) : (s.setA a).kept = s.kept := rfl
@[simp] theorem setA_replays (s : State) (a : AHart) : (s.setA a).replays = s.replays := rfl
@[simp] theorem setA_privates (s : State) (a : AHart) : (s.setA a).privates = s.privates := rfl
@[simp] theorem setA_reply (s : State) (a : AHart) : (s.setA a).reply = s.reply := rfl
@[simp] theorem setA_replyPoison (s : State) (a : AHart) : (s.setA a).replyPoison = s.replyPoison := rfl
@[simp] theorem setA_poison (s : State) (a : AHart) : (s.setA a).poison = s.poison := rfl
@[simp] theorem setA_buf (s : State) (a : AHart) : (s.setA a).buf = s.buf := rfl
@[simp] theorem setA_early (s : State) (a : AHart) : (s.setA a).early = s.early := rfl
@[simp] theorem setA_holds (s : State) (a : AHart) : (s.setA a).holds = s.holds := rfl
@[simp] theorem setA_turn (s : State) (a : AHart) : (s.setA a).turn = s.turn := rfl
@[simp] theorem setA_walks (s : State) (a : AHart) : (s.setA a).walks = s.walks := rfl
@[simp] theorem setA_miss (s : State) (a : AHart) : (s.setA a).miss = s.miss := rfl
@[simp] theorem setA_serial (s : State) (a : AHart) : (s.setA a).serial = s.serial := rfl
@[simp] theorem setA_sched (s : State) (a : AHart) : (s.setA a).sched = s.sched := rfl
@[simp] theorem setA_ticks (s : State) (a : AHart) : (s.setA a).ticks = s.ticks := rfl
@[simp] theorem setA_others (s : State) (a : AHart) : (s.setA a).others = s.others := rfl
@[simp] theorem setA_tlb (s : State) (a : AHart) : (s.setA a).tlb = s.tlb := rfl
@[simp] theorem setA_acl (s : State) (a : AHart) : (s.setA a).acl = s.acl := rfl
@[simp] theorem setA_aclOld (s : State) (a : AHart) : (s.setA a).aclOld = s.aclOld := rfl
@[simp] theorem setA_msis (s : State) (a : AHart) : (s.setA a).msis = s.msis := rfl
@[simp] theorem setA_resends (s : State) (a : AHart) : (s.setA a).resends = s.resends := rfl
@[simp] theorem setA_xgot (s : State) (a : AHart) : (s.setA a).xgot = s.xgot := rfl
@[simp] theorem setA_seqs (s : State) (a : AHart) : (s.setA a).seqs = s.seqs := rfl
@[simp] theorem setA_launches (s : State) (a : AHart) : (s.setA a).launches = s.launches := rfl
@[simp] theorem setA_queues (s : State) (a : AHart) : (s.setA a).queues = s.queues := rfl
@[simp] theorem setA_fatal (s : State) (a : AHart) : (s.setA a).fatal = s.fatal := rfl
@[simp] theorem setA_powered (s : State) (a : AHart) : (s.setA a).powered = s.powered := rfl
@[simp] theorem setA_fresh (s : State) (a : AHart) : (s.setA a).fresh = s.fresh := rfl
@[simp] theorem setA_tnd (s : State) (a : AHart) : (s.setA a).tnd = s.tnd := rfl
@[simp] theorem setA_xh (s : State) (a : AHart) : (s.setA a).xh = s.xh := rfl
@[simp] theorem setA_num (s : State) (a : AHart) : (s.setA a).core.num = s.core.num := rfl

/-! ## setX -/

@[simp] theorem setX_mem (s : State) (x : XHart) : (s.setX x).mem = s.mem := rfl
@[simp] theorem setX_born (s : State) (x : XHart) : (s.setX x).born = s.born := rfl
@[simp] theorem setX_limit (s : State) (x : XHart) : (s.setX x).limit = s.limit := rfl
@[simp] theorem setX_ir (s : State) (x : XHart) : (s.setX x).ir = s.ir := rfl
@[simp] theorem setX_gch (s : State) (x : XHart) : (s.setX x).gch = s.gch := rfl
@[simp] theorem setX_refusals (s : State) (x : XHart) : (s.setX x).refusals = s.refusals := rfl
@[simp] theorem setX_colls (s : State) (x : XHart) : (s.setX x).colls = s.colls := rfl
@[simp] theorem setX_ports (s : State) (x : XHart) : (s.setX x).ports = s.ports := rfl
@[simp] theorem setX_dropped (s : State) (x : XHart) : (s.setX x).dropped = s.dropped := rfl
@[simp] theorem setX_xsrc (s : State) (x : XHart) : (s.setX x).xsrc = s.xsrc := rfl
@[simp] theorem setX_xdst (s : State) (x : XHart) : (s.setX x).xdst = s.xdst := rfl
@[simp] theorem setX_xlen (s : State) (x : XHart) : (s.setX x).xlen = s.xlen := rfl
@[simp] theorem setX_xpeer (s : State) (x : XHart) : (s.setX x).xpeer = s.xpeer := rfl
@[simp] theorem setX_xstat (s : State) (x : XHart) : (s.setX x).xstat = s.xstat := rfl
@[simp] theorem setX_qtab (s : State) (x : XHart) : (s.setX x).qtab = s.qtab := rfl
@[simp] theorem setX_ptab (s : State) (x : XHart) : (s.setX x).ptab = s.ptab := rfl
@[simp] theorem setX_hdom (s : State) (x : XHart) : (s.setX x).hdom = s.hdom := rfl
@[simp] theorem setX_mods (s : State) (x : XHart) : (s.setX x).mods = s.mods := rfl
@[simp] theorem setX_event (s : State) (x : XHart) : (s.setX x).event = s.event := rfl
@[simp] theorem setX_dump (s : State) (x : XHart) : (s.setX x).dump = s.dump := rfl
@[simp] theorem setX_recovery (s : State) (x : XHart) : (s.setX x).recovery = s.recovery := rfl
@[simp] theorem setX_ready (s : State) (x : XHart) : (s.setX x).ready = s.ready := rfl
@[simp] theorem setX_hdm (s : State) (x : XHart) : (s.setX x).hdm = s.hdm := rfl
@[simp] theorem setX_fused (s : State) (x : XHart) : (s.setX x).fused = s.fused := rfl
@[simp] theorem setX_version (s : State) (x : XHart) : (s.setX x).version = s.version := rfl
@[simp] theorem setX_firmware (s : State) (x : XHart) : (s.setX x).firmware = s.firmware := rfl
@[simp] theorem setX_reason (s : State) (x : XHart) : (s.setX x).reason = s.reason := rfl
@[simp] theorem setX_ecc (s : State) (x : XHart) : (s.setX x).ecc = s.ecc := rfl
@[simp] theorem setX_log (s : State) (x : XHart) : (s.setX x).log = s.log := rfl
@[simp] theorem setX_kept (s : State) (x : XHart) : (s.setX x).kept = s.kept := rfl
@[simp] theorem setX_replays (s : State) (x : XHart) : (s.setX x).replays = s.replays := rfl
@[simp] theorem setX_privates (s : State) (x : XHart) : (s.setX x).privates = s.privates := rfl
@[simp] theorem setX_reply (s : State) (x : XHart) : (s.setX x).reply = s.reply := rfl
@[simp] theorem setX_replyPoison (s : State) (x : XHart) : (s.setX x).replyPoison = s.replyPoison := rfl
@[simp] theorem setX_poison (s : State) (x : XHart) : (s.setX x).poison = s.poison := rfl
@[simp] theorem setX_buf (s : State) (x : XHart) : (s.setX x).buf = s.buf := rfl
@[simp] theorem setX_early (s : State) (x : XHart) : (s.setX x).early = s.early := rfl
@[simp] theorem setX_holds (s : State) (x : XHart) : (s.setX x).holds = s.holds := rfl
@[simp] theorem setX_turn (s : State) (x : XHart) : (s.setX x).turn = s.turn := rfl
@[simp] theorem setX_walks (s : State) (x : XHart) : (s.setX x).walks = s.walks := rfl
@[simp] theorem setX_miss (s : State) (x : XHart) : (s.setX x).miss = s.miss := rfl
@[simp] theorem setX_serial (s : State) (x : XHart) : (s.setX x).serial = s.serial := rfl
@[simp] theorem setX_sched (s : State) (x : XHart) : (s.setX x).sched = s.sched := rfl
@[simp] theorem setX_ticks (s : State) (x : XHart) : (s.setX x).ticks = s.ticks := rfl
@[simp] theorem setX_others (s : State) (x : XHart) : (s.setX x).others = s.others := rfl
@[simp] theorem setX_tlb (s : State) (x : XHart) : (s.setX x).tlb = s.tlb := rfl
@[simp] theorem setX_acl (s : State) (x : XHart) : (s.setX x).acl = s.acl := rfl
@[simp] theorem setX_aclOld (s : State) (x : XHart) : (s.setX x).aclOld = s.aclOld := rfl
@[simp] theorem setX_msis (s : State) (x : XHart) : (s.setX x).msis = s.msis := rfl
@[simp] theorem setX_resends (s : State) (x : XHart) : (s.setX x).resends = s.resends := rfl
@[simp] theorem setX_xgot (s : State) (x : XHart) : (s.setX x).xgot = s.xgot := rfl
@[simp] theorem setX_seqs (s : State) (x : XHart) : (s.setX x).seqs = s.seqs := rfl
@[simp] theorem setX_launches (s : State) (x : XHart) : (s.setX x).launches = s.launches := rfl
@[simp] theorem setX_queues (s : State) (x : XHart) : (s.setX x).queues = s.queues := rfl
@[simp] theorem setX_fatal (s : State) (x : XHart) : (s.setX x).fatal = s.fatal := rfl
@[simp] theorem setX_powered (s : State) (x : XHart) : (s.setX x).powered = s.powered := rfl
@[simp] theorem setX_fresh (s : State) (x : XHart) : (s.setX x).fresh = s.fresh := rfl
@[simp] theorem setX_tnd (s : State) (x : XHart) : (s.setX x).tnd = s.tnd := rfl
@[simp] theorem setX_xh (s : State) (x : XHart) : (s.setX x).xh = s.xh := rfl
@[simp] theorem setX_num (s : State) (x : XHart) : (s.setX x).core.num = s.core.num := rfl

/-! ## setH -/

@[simp] theorem setH_mem (s : State) (h : Hart) : (s.setH h).mem = s.mem := by unfold State.setH; split <;> rfl
@[simp] theorem setH_born (s : State) (h : Hart) : (s.setH h).born = s.born := by unfold State.setH; split <;> rfl
@[simp] theorem setH_limit (s : State) (h : Hart) : (s.setH h).limit = s.limit := by unfold State.setH; split <;> rfl
@[simp] theorem setH_ir (s : State) (h : Hart) : (s.setH h).ir = s.ir := by unfold State.setH; split <;> rfl
@[simp] theorem setH_gch (s : State) (h : Hart) : (s.setH h).gch = s.gch := by unfold State.setH; split <;> rfl
@[simp] theorem setH_refusals (s : State) (h : Hart) : (s.setH h).refusals = s.refusals := by unfold State.setH; split <;> rfl
@[simp] theorem setH_colls (s : State) (h : Hart) : (s.setH h).colls = s.colls := by unfold State.setH; split <;> rfl
@[simp] theorem setH_ports (s : State) (h : Hart) : (s.setH h).ports = s.ports := by unfold State.setH; split <;> rfl
@[simp] theorem setH_dropped (s : State) (h : Hart) : (s.setH h).dropped = s.dropped := by unfold State.setH; split <;> rfl
@[simp] theorem setH_xsrc (s : State) (h : Hart) : (s.setH h).xsrc = s.xsrc := by unfold State.setH; split <;> rfl
@[simp] theorem setH_xdst (s : State) (h : Hart) : (s.setH h).xdst = s.xdst := by unfold State.setH; split <;> rfl
@[simp] theorem setH_xlen (s : State) (h : Hart) : (s.setH h).xlen = s.xlen := by unfold State.setH; split <;> rfl
@[simp] theorem setH_xpeer (s : State) (h : Hart) : (s.setH h).xpeer = s.xpeer := by unfold State.setH; split <;> rfl
@[simp] theorem setH_xstat (s : State) (h : Hart) : (s.setH h).xstat = s.xstat := by unfold State.setH; split <;> rfl
@[simp] theorem setH_qtab (s : State) (h : Hart) : (s.setH h).qtab = s.qtab := by unfold State.setH; split <;> rfl
@[simp] theorem setH_ptab (s : State) (h : Hart) : (s.setH h).ptab = s.ptab := by unfold State.setH; split <;> rfl
@[simp] theorem setH_hdom (s : State) (h : Hart) : (s.setH h).hdom = s.hdom := by unfold State.setH; split <;> rfl
@[simp] theorem setH_mods (s : State) (h : Hart) : (s.setH h).mods = s.mods := by unfold State.setH; split <;> rfl
@[simp] theorem setH_event (s : State) (h : Hart) : (s.setH h).event = s.event := by unfold State.setH; split <;> rfl
@[simp] theorem setH_dump (s : State) (h : Hart) : (s.setH h).dump = s.dump := by unfold State.setH; split <;> rfl
@[simp] theorem setH_recovery (s : State) (h : Hart) : (s.setH h).recovery = s.recovery := by unfold State.setH; split <;> rfl
@[simp] theorem setH_ready (s : State) (h : Hart) : (s.setH h).ready = s.ready := by unfold State.setH; split <;> rfl
@[simp] theorem setH_hdm (s : State) (h : Hart) : (s.setH h).hdm = s.hdm := by unfold State.setH; split <;> rfl
@[simp] theorem setH_fused (s : State) (h : Hart) : (s.setH h).fused = s.fused := by unfold State.setH; split <;> rfl
@[simp] theorem setH_version (s : State) (h : Hart) : (s.setH h).version = s.version := by unfold State.setH; split <;> rfl
@[simp] theorem setH_firmware (s : State) (h : Hart) : (s.setH h).firmware = s.firmware := by unfold State.setH; split <;> rfl
@[simp] theorem setH_reason (s : State) (h : Hart) : (s.setH h).reason = s.reason := by unfold State.setH; split <;> rfl
@[simp] theorem setH_ecc (s : State) (h : Hart) : (s.setH h).ecc = s.ecc := by unfold State.setH; split <;> rfl
@[simp] theorem setH_log (s : State) (h : Hart) : (s.setH h).log = s.log := by unfold State.setH; split <;> rfl
@[simp] theorem setH_kept (s : State) (h : Hart) : (s.setH h).kept = s.kept := by unfold State.setH; split <;> rfl
@[simp] theorem setH_replays (s : State) (h : Hart) : (s.setH h).replays = s.replays := by unfold State.setH; split <;> rfl
@[simp] theorem setH_privates (s : State) (h : Hart) : (s.setH h).privates = s.privates := by unfold State.setH; split <;> rfl
@[simp] theorem setH_reply (s : State) (h : Hart) : (s.setH h).reply = s.reply := by unfold State.setH; split <;> rfl
@[simp] theorem setH_replyPoison (s : State) (h : Hart) : (s.setH h).replyPoison = s.replyPoison := by unfold State.setH; split <;> rfl
@[simp] theorem setH_poison (s : State) (h : Hart) : (s.setH h).poison = s.poison := by unfold State.setH; split <;> rfl
@[simp] theorem setH_buf (s : State) (h : Hart) : (s.setH h).buf = s.buf := by unfold State.setH; split <;> rfl
@[simp] theorem setH_early (s : State) (h : Hart) : (s.setH h).early = s.early := by unfold State.setH; split <;> rfl
@[simp] theorem setH_holds (s : State) (h : Hart) : (s.setH h).holds = s.holds := by unfold State.setH; split <;> rfl
@[simp] theorem setH_turn (s : State) (h : Hart) : (s.setH h).turn = s.turn := by unfold State.setH; split <;> rfl
@[simp] theorem setH_walks (s : State) (h : Hart) : (s.setH h).walks = s.walks := by unfold State.setH; split <;> rfl
@[simp] theorem setH_miss (s : State) (h : Hart) : (s.setH h).miss = s.miss := by unfold State.setH; split <;> rfl
@[simp] theorem setH_serial (s : State) (h : Hart) : (s.setH h).serial = s.serial := by unfold State.setH; split <;> rfl
@[simp] theorem setH_sched (s : State) (h : Hart) : (s.setH h).sched = s.sched := by unfold State.setH; split <;> rfl
@[simp] theorem setH_ticks (s : State) (h : Hart) : (s.setH h).ticks = s.ticks := by unfold State.setH; split <;> rfl
@[simp] theorem setH_others (s : State) (h : Hart) : (s.setH h).others = s.others := by unfold State.setH; split <;> rfl
@[simp] theorem setH_tlb (s : State) (h : Hart) : (s.setH h).tlb = s.tlb := by unfold State.setH; split <;> rfl
@[simp] theorem setH_acl (s : State) (h : Hart) : (s.setH h).acl = s.acl := by unfold State.setH; split <;> rfl
@[simp] theorem setH_aclOld (s : State) (h : Hart) : (s.setH h).aclOld = s.aclOld := by unfold State.setH; split <;> rfl
@[simp] theorem setH_msis (s : State) (h : Hart) : (s.setH h).msis = s.msis := by unfold State.setH; split <;> rfl
@[simp] theorem setH_resends (s : State) (h : Hart) : (s.setH h).resends = s.resends := by unfold State.setH; split <;> rfl
@[simp] theorem setH_xgot (s : State) (h : Hart) : (s.setH h).xgot = s.xgot := by unfold State.setH; split <;> rfl
@[simp] theorem setH_seqs (s : State) (h : Hart) : (s.setH h).seqs = s.seqs := by unfold State.setH; split <;> rfl
@[simp] theorem setH_launches (s : State) (h : Hart) : (s.setH h).launches = s.launches := by unfold State.setH; split <;> rfl
@[simp] theorem setH_queues (s : State) (h : Hart) : (s.setH h).queues = s.queues := by unfold State.setH; split <;> rfl
@[simp] theorem setH_fatal (s : State) (h : Hart) : (s.setH h).fatal = s.fatal := by unfold State.setH; split <;> rfl
@[simp] theorem setH_powered (s : State) (h : Hart) : (s.setH h).powered = s.powered := by unfold State.setH; split <;> rfl
@[simp] theorem setH_fresh (s : State) (h : Hart) : (s.setH h).fresh = s.fresh := by unfold State.setH; split <;> rfl
@[simp] theorem setH_tnd (s : State) (h : Hart) : (s.setH h).tnd = s.tnd := by unfold State.setH; split <;> rfl
@[simp] theorem setH_xh (s : State) (h : Hart) : (s.setH h).xh = s.xh := by unfold State.setH; split <;> rfl
@[simp] theorem setH_num (s : State) (h : Hart) : (s.setH h).core.num = s.core.num := by unfold State.setH; split <;> rfl

/-! ## onHart -/

@[simp] theorem onHart_mem (s : State) (t : Fin 4) (x : Bool) : (s.onHart t x).mem = s.mem := rfl
@[simp] theorem onHart_born (s : State) (t : Fin 4) (x : Bool) : (s.onHart t x).born = s.born := rfl
@[simp] theorem onHart_limit (s : State) (t : Fin 4) (x : Bool) : (s.onHart t x).limit = s.limit := rfl
@[simp] theorem onHart_ir (s : State) (t : Fin 4) (x : Bool) : (s.onHart t x).ir = s.ir := rfl
@[simp] theorem onHart_gch (s : State) (t : Fin 4) (x : Bool) : (s.onHart t x).gch = s.gch := rfl
@[simp] theorem onHart_refusals (s : State) (t : Fin 4) (x : Bool) : (s.onHart t x).refusals = s.refusals := rfl
@[simp] theorem onHart_colls (s : State) (t : Fin 4) (x : Bool) : (s.onHart t x).colls = s.colls := rfl
@[simp] theorem onHart_ports (s : State) (t : Fin 4) (x : Bool) : (s.onHart t x).ports = s.ports := rfl
@[simp] theorem onHart_dropped (s : State) (t : Fin 4) (x : Bool) : (s.onHart t x).dropped = s.dropped := rfl
@[simp] theorem onHart_xsrc (s : State) (t : Fin 4) (x : Bool) : (s.onHart t x).xsrc = s.xsrc := rfl
@[simp] theorem onHart_xdst (s : State) (t : Fin 4) (x : Bool) : (s.onHart t x).xdst = s.xdst := rfl
@[simp] theorem onHart_xlen (s : State) (t : Fin 4) (x : Bool) : (s.onHart t x).xlen = s.xlen := rfl
@[simp] theorem onHart_xpeer (s : State) (t : Fin 4) (x : Bool) : (s.onHart t x).xpeer = s.xpeer := rfl
@[simp] theorem onHart_xstat (s : State) (t : Fin 4) (x : Bool) : (s.onHart t x).xstat = s.xstat := rfl
@[simp] theorem onHart_qtab (s : State) (t : Fin 4) (x : Bool) : (s.onHart t x).qtab = s.qtab := rfl
@[simp] theorem onHart_ptab (s : State) (t : Fin 4) (x : Bool) : (s.onHart t x).ptab = s.ptab := rfl
@[simp] theorem onHart_hdom (s : State) (t : Fin 4) (x : Bool) : (s.onHart t x).hdom = s.hdom := rfl
@[simp] theorem onHart_mods (s : State) (t : Fin 4) (x : Bool) : (s.onHart t x).mods = s.mods := rfl
@[simp] theorem onHart_event (s : State) (t : Fin 4) (x : Bool) : (s.onHart t x).event = s.event := rfl
@[simp] theorem onHart_dump (s : State) (t : Fin 4) (x : Bool) : (s.onHart t x).dump = s.dump := rfl
@[simp] theorem onHart_recovery (s : State) (t : Fin 4) (x : Bool) : (s.onHart t x).recovery = s.recovery := rfl
@[simp] theorem onHart_ready (s : State) (t : Fin 4) (x : Bool) : (s.onHart t x).ready = s.ready := rfl
@[simp] theorem onHart_hdm (s : State) (t : Fin 4) (x : Bool) : (s.onHart t x).hdm = s.hdm := rfl
@[simp] theorem onHart_fused (s : State) (t : Fin 4) (x : Bool) : (s.onHart t x).fused = s.fused := rfl
@[simp] theorem onHart_version (s : State) (t : Fin 4) (x : Bool) : (s.onHart t x).version = s.version := rfl
@[simp] theorem onHart_firmware (s : State) (t : Fin 4) (x : Bool) : (s.onHart t x).firmware = s.firmware := rfl
@[simp] theorem onHart_reason (s : State) (t : Fin 4) (x : Bool) : (s.onHart t x).reason = s.reason := rfl
@[simp] theorem onHart_ecc (s : State) (t : Fin 4) (x : Bool) : (s.onHart t x).ecc = s.ecc := rfl
@[simp] theorem onHart_log (s : State) (t : Fin 4) (x : Bool) : (s.onHart t x).log = s.log := rfl
@[simp] theorem onHart_kept (s : State) (t : Fin 4) (x : Bool) : (s.onHart t x).kept = s.kept := rfl
@[simp] theorem onHart_replays (s : State) (t : Fin 4) (x : Bool) : (s.onHart t x).replays = s.replays := rfl
@[simp] theorem onHart_privates (s : State) (t : Fin 4) (x : Bool) : (s.onHart t x).privates = s.privates := rfl
@[simp] theorem onHart_reply (s : State) (t : Fin 4) (x : Bool) : (s.onHart t x).reply = s.reply := rfl
@[simp] theorem onHart_replyPoison (s : State) (t : Fin 4) (x : Bool) : (s.onHart t x).replyPoison = s.replyPoison := rfl
@[simp] theorem onHart_poison (s : State) (t : Fin 4) (x : Bool) : (s.onHart t x).poison = s.poison := rfl
@[simp] theorem onHart_buf (s : State) (t : Fin 4) (x : Bool) : (s.onHart t x).buf = s.buf := rfl
@[simp] theorem onHart_early (s : State) (t : Fin 4) (x : Bool) : (s.onHart t x).early = s.early := rfl
@[simp] theorem onHart_holds (s : State) (t : Fin 4) (x : Bool) : (s.onHart t x).holds = s.holds := rfl
@[simp] theorem onHart_turn (s : State) (t : Fin 4) (x : Bool) : (s.onHart t x).turn = s.turn := rfl
@[simp] theorem onHart_walks (s : State) (t : Fin 4) (x : Bool) : (s.onHart t x).walks = s.walks := rfl
@[simp] theorem onHart_miss (s : State) (t : Fin 4) (x : Bool) : (s.onHart t x).miss = s.miss := rfl
@[simp] theorem onHart_serial (s : State) (t : Fin 4) (x : Bool) : (s.onHart t x).serial = s.serial := rfl
@[simp] theorem onHart_sched (s : State) (t : Fin 4) (x : Bool) : (s.onHart t x).sched = s.sched := rfl
@[simp] theorem onHart_ticks (s : State) (t : Fin 4) (x : Bool) : (s.onHart t x).ticks = s.ticks := rfl
@[simp] theorem onHart_others (s : State) (t : Fin 4) (x : Bool) : (s.onHart t x).others = s.others := rfl
@[simp] theorem onHart_tlb (s : State) (t : Fin 4) (x : Bool) : (s.onHart t x).tlb = s.tlb := rfl
@[simp] theorem onHart_acl (s : State) (t : Fin 4) (x : Bool) : (s.onHart t x).acl = s.acl := rfl
@[simp] theorem onHart_aclOld (s : State) (t : Fin 4) (x : Bool) : (s.onHart t x).aclOld = s.aclOld := rfl
@[simp] theorem onHart_msis (s : State) (t : Fin 4) (x : Bool) : (s.onHart t x).msis = s.msis := rfl
@[simp] theorem onHart_resends (s : State) (t : Fin 4) (x : Bool) : (s.onHart t x).resends = s.resends := rfl
@[simp] theorem onHart_xgot (s : State) (t : Fin 4) (x : Bool) : (s.onHart t x).xgot = s.xgot := rfl
@[simp] theorem onHart_seqs (s : State) (t : Fin 4) (x : Bool) : (s.onHart t x).seqs = s.seqs := rfl
@[simp] theorem onHart_launches (s : State) (t : Fin 4) (x : Bool) : (s.onHart t x).launches = s.launches := rfl
@[simp] theorem onHart_queues (s : State) (t : Fin 4) (x : Bool) : (s.onHart t x).queues = s.queues := rfl
@[simp] theorem onHart_fatal (s : State) (t : Fin 4) (x : Bool) : (s.onHart t x).fatal = s.fatal := rfl
@[simp] theorem onHart_powered (s : State) (t : Fin 4) (x : Bool) : (s.onHart t x).powered = s.powered := rfl
@[simp] theorem onHart_fresh (s : State) (t : Fin 4) (x : Bool) : (s.onHart t x).fresh = s.fresh := rfl
@[simp] theorem onHart_tnd (s : State) (t : Fin 4) (x : Bool) : (s.onHart t x).tnd = t := rfl
@[simp] theorem onHart_xh (s : State) (t : Fin 4) (x : Bool) : (s.onHart t x).xh = x := rfl
@[simp] theorem onHart_num (s : State) (t : Fin 4) (x : Bool) : (s.onHart t x).core.num = s.core.num := rfl

/-! ## bump -/

@[simp] theorem bump_mem (s : State) (n : Nat) : (s.bump n).mem = s.mem := setH_mem _ _
@[simp] theorem bump_born (s : State) (n : Nat) : (s.bump n).born = s.born := setH_born _ _
@[simp] theorem bump_limit (s : State) (n : Nat) : (s.bump n).limit = s.limit := setH_limit _ _
@[simp] theorem bump_ir (s : State) (n : Nat) : (s.bump n).ir = s.ir := setH_ir _ _
@[simp] theorem bump_gch (s : State) (n : Nat) : (s.bump n).gch = s.gch := setH_gch _ _
@[simp] theorem bump_refusals (s : State) (n : Nat) : (s.bump n).refusals = s.refusals := setH_refusals _ _
@[simp] theorem bump_colls (s : State) (n : Nat) : (s.bump n).colls = s.colls := setH_colls _ _
@[simp] theorem bump_ports (s : State) (n : Nat) : (s.bump n).ports = s.ports := setH_ports _ _
@[simp] theorem bump_dropped (s : State) (n : Nat) : (s.bump n).dropped = s.dropped := setH_dropped _ _
@[simp] theorem bump_xsrc (s : State) (n : Nat) : (s.bump n).xsrc = s.xsrc := setH_xsrc _ _
@[simp] theorem bump_xdst (s : State) (n : Nat) : (s.bump n).xdst = s.xdst := setH_xdst _ _
@[simp] theorem bump_xlen (s : State) (n : Nat) : (s.bump n).xlen = s.xlen := setH_xlen _ _
@[simp] theorem bump_xpeer (s : State) (n : Nat) : (s.bump n).xpeer = s.xpeer := setH_xpeer _ _
@[simp] theorem bump_xstat (s : State) (n : Nat) : (s.bump n).xstat = s.xstat := setH_xstat _ _
@[simp] theorem bump_qtab (s : State) (n : Nat) : (s.bump n).qtab = s.qtab := setH_qtab _ _
@[simp] theorem bump_ptab (s : State) (n : Nat) : (s.bump n).ptab = s.ptab := setH_ptab _ _
@[simp] theorem bump_hdom (s : State) (n : Nat) : (s.bump n).hdom = s.hdom := setH_hdom _ _
@[simp] theorem bump_mods (s : State) (n : Nat) : (s.bump n).mods = s.mods := setH_mods _ _
@[simp] theorem bump_event (s : State) (n : Nat) : (s.bump n).event = s.event := setH_event _ _
@[simp] theorem bump_dump (s : State) (n : Nat) : (s.bump n).dump = s.dump := setH_dump _ _
@[simp] theorem bump_recovery (s : State) (n : Nat) : (s.bump n).recovery = s.recovery := setH_recovery _ _
@[simp] theorem bump_ready (s : State) (n : Nat) : (s.bump n).ready = s.ready := setH_ready _ _
@[simp] theorem bump_hdm (s : State) (n : Nat) : (s.bump n).hdm = s.hdm := setH_hdm _ _
@[simp] theorem bump_fused (s : State) (n : Nat) : (s.bump n).fused = s.fused := setH_fused _ _
@[simp] theorem bump_version (s : State) (n : Nat) : (s.bump n).version = s.version := setH_version _ _
@[simp] theorem bump_firmware (s : State) (n : Nat) : (s.bump n).firmware = s.firmware := setH_firmware _ _
@[simp] theorem bump_reason (s : State) (n : Nat) : (s.bump n).reason = s.reason := setH_reason _ _
@[simp] theorem bump_ecc (s : State) (n : Nat) : (s.bump n).ecc = s.ecc := setH_ecc _ _
@[simp] theorem bump_log (s : State) (n : Nat) : (s.bump n).log = s.log := setH_log _ _
@[simp] theorem bump_kept (s : State) (n : Nat) : (s.bump n).kept = s.kept := setH_kept _ _
@[simp] theorem bump_replays (s : State) (n : Nat) : (s.bump n).replays = s.replays := setH_replays _ _
@[simp] theorem bump_privates (s : State) (n : Nat) : (s.bump n).privates = s.privates := setH_privates _ _
@[simp] theorem bump_reply (s : State) (n : Nat) : (s.bump n).reply = s.reply := setH_reply _ _
@[simp] theorem bump_replyPoison (s : State) (n : Nat) : (s.bump n).replyPoison = s.replyPoison := setH_replyPoison _ _
@[simp] theorem bump_poison (s : State) (n : Nat) : (s.bump n).poison = s.poison := setH_poison _ _
@[simp] theorem bump_buf (s : State) (n : Nat) : (s.bump n).buf = s.buf := setH_buf _ _
@[simp] theorem bump_early (s : State) (n : Nat) : (s.bump n).early = s.early := setH_early _ _
@[simp] theorem bump_holds (s : State) (n : Nat) : (s.bump n).holds = s.holds := setH_holds _ _
@[simp] theorem bump_turn (s : State) (n : Nat) : (s.bump n).turn = s.turn := setH_turn _ _
@[simp] theorem bump_walks (s : State) (n : Nat) : (s.bump n).walks = s.walks := setH_walks _ _
@[simp] theorem bump_miss (s : State) (n : Nat) : (s.bump n).miss = s.miss := setH_miss _ _
@[simp] theorem bump_serial (s : State) (n : Nat) : (s.bump n).serial = s.serial := setH_serial _ _
@[simp] theorem bump_sched (s : State) (n : Nat) : (s.bump n).sched = s.sched := setH_sched _ _
@[simp] theorem bump_ticks (s : State) (n : Nat) : (s.bump n).ticks = s.ticks := setH_ticks _ _
@[simp] theorem bump_others (s : State) (n : Nat) : (s.bump n).others = s.others := setH_others _ _
@[simp] theorem bump_tlb (s : State) (n : Nat) : (s.bump n).tlb = s.tlb := setH_tlb _ _
@[simp] theorem bump_acl (s : State) (n : Nat) : (s.bump n).acl = s.acl := setH_acl _ _
@[simp] theorem bump_aclOld (s : State) (n : Nat) : (s.bump n).aclOld = s.aclOld := setH_aclOld _ _
@[simp] theorem bump_msis (s : State) (n : Nat) : (s.bump n).msis = s.msis := setH_msis _ _
@[simp] theorem bump_resends (s : State) (n : Nat) : (s.bump n).resends = s.resends := setH_resends _ _
@[simp] theorem bump_xgot (s : State) (n : Nat) : (s.bump n).xgot = s.xgot := setH_xgot _ _
@[simp] theorem bump_seqs (s : State) (n : Nat) : (s.bump n).seqs = s.seqs := setH_seqs _ _
@[simp] theorem bump_launches (s : State) (n : Nat) : (s.bump n).launches = s.launches := setH_launches _ _
@[simp] theorem bump_queues (s : State) (n : Nat) : (s.bump n).queues = s.queues := setH_queues _ _
@[simp] theorem bump_fatal (s : State) (n : Nat) : (s.bump n).fatal = s.fatal := setH_fatal _ _
@[simp] theorem bump_powered (s : State) (n : Nat) : (s.bump n).powered = s.powered := setH_powered _ _
@[simp] theorem bump_fresh (s : State) (n : Nat) : (s.bump n).fresh = s.fresh := setH_fresh _ _
@[simp] theorem bump_tnd (s : State) (n : Nat) : (s.bump n).tnd = s.tnd := setH_tnd _ _
@[simp] theorem bump_xh (s : State) (n : Nat) : (s.bump n).xh = s.xh := setH_xh _ _
@[simp] theorem bump_num (s : State) (n : Nat) : (s.bump n).core.num = s.core.num := setH_num _ _

/-! ## jump -/

@[simp] theorem jump_mem (s : State) (a : Word) : (s.jump a).mem = s.mem := setH_mem _ _
@[simp] theorem jump_born (s : State) (a : Word) : (s.jump a).born = s.born := setH_born _ _
@[simp] theorem jump_limit (s : State) (a : Word) : (s.jump a).limit = s.limit := setH_limit _ _
@[simp] theorem jump_ir (s : State) (a : Word) : (s.jump a).ir = s.ir := setH_ir _ _
@[simp] theorem jump_gch (s : State) (a : Word) : (s.jump a).gch = s.gch := setH_gch _ _
@[simp] theorem jump_refusals (s : State) (a : Word) : (s.jump a).refusals = s.refusals := setH_refusals _ _
@[simp] theorem jump_colls (s : State) (a : Word) : (s.jump a).colls = s.colls := setH_colls _ _
@[simp] theorem jump_ports (s : State) (a : Word) : (s.jump a).ports = s.ports := setH_ports _ _
@[simp] theorem jump_dropped (s : State) (a : Word) : (s.jump a).dropped = s.dropped := setH_dropped _ _
@[simp] theorem jump_xsrc (s : State) (a : Word) : (s.jump a).xsrc = s.xsrc := setH_xsrc _ _
@[simp] theorem jump_xdst (s : State) (a : Word) : (s.jump a).xdst = s.xdst := setH_xdst _ _
@[simp] theorem jump_xlen (s : State) (a : Word) : (s.jump a).xlen = s.xlen := setH_xlen _ _
@[simp] theorem jump_xpeer (s : State) (a : Word) : (s.jump a).xpeer = s.xpeer := setH_xpeer _ _
@[simp] theorem jump_xstat (s : State) (a : Word) : (s.jump a).xstat = s.xstat := setH_xstat _ _
@[simp] theorem jump_qtab (s : State) (a : Word) : (s.jump a).qtab = s.qtab := setH_qtab _ _
@[simp] theorem jump_ptab (s : State) (a : Word) : (s.jump a).ptab = s.ptab := setH_ptab _ _
@[simp] theorem jump_hdom (s : State) (a : Word) : (s.jump a).hdom = s.hdom := setH_hdom _ _
@[simp] theorem jump_mods (s : State) (a : Word) : (s.jump a).mods = s.mods := setH_mods _ _
@[simp] theorem jump_event (s : State) (a : Word) : (s.jump a).event = s.event := setH_event _ _
@[simp] theorem jump_dump (s : State) (a : Word) : (s.jump a).dump = s.dump := setH_dump _ _
@[simp] theorem jump_recovery (s : State) (a : Word) : (s.jump a).recovery = s.recovery := setH_recovery _ _
@[simp] theorem jump_ready (s : State) (a : Word) : (s.jump a).ready = s.ready := setH_ready _ _
@[simp] theorem jump_hdm (s : State) (a : Word) : (s.jump a).hdm = s.hdm := setH_hdm _ _
@[simp] theorem jump_fused (s : State) (a : Word) : (s.jump a).fused = s.fused := setH_fused _ _
@[simp] theorem jump_version (s : State) (a : Word) : (s.jump a).version = s.version := setH_version _ _
@[simp] theorem jump_firmware (s : State) (a : Word) : (s.jump a).firmware = s.firmware := setH_firmware _ _
@[simp] theorem jump_reason (s : State) (a : Word) : (s.jump a).reason = s.reason := setH_reason _ _
@[simp] theorem jump_ecc (s : State) (a : Word) : (s.jump a).ecc = s.ecc := setH_ecc _ _
@[simp] theorem jump_log (s : State) (a : Word) : (s.jump a).log = s.log := setH_log _ _
@[simp] theorem jump_kept (s : State) (a : Word) : (s.jump a).kept = s.kept := setH_kept _ _
@[simp] theorem jump_replays (s : State) (a : Word) : (s.jump a).replays = s.replays := setH_replays _ _
@[simp] theorem jump_privates (s : State) (a : Word) : (s.jump a).privates = s.privates := setH_privates _ _
@[simp] theorem jump_reply (s : State) (a : Word) : (s.jump a).reply = s.reply := setH_reply _ _
@[simp] theorem jump_replyPoison (s : State) (a : Word) : (s.jump a).replyPoison = s.replyPoison := setH_replyPoison _ _
@[simp] theorem jump_poison (s : State) (a : Word) : (s.jump a).poison = s.poison := setH_poison _ _
@[simp] theorem jump_buf (s : State) (a : Word) : (s.jump a).buf = s.buf := setH_buf _ _
@[simp] theorem jump_early (s : State) (a : Word) : (s.jump a).early = s.early := setH_early _ _
@[simp] theorem jump_holds (s : State) (a : Word) : (s.jump a).holds = s.holds := setH_holds _ _
@[simp] theorem jump_turn (s : State) (a : Word) : (s.jump a).turn = s.turn := setH_turn _ _
@[simp] theorem jump_walks (s : State) (a : Word) : (s.jump a).walks = s.walks := setH_walks _ _
@[simp] theorem jump_miss (s : State) (a : Word) : (s.jump a).miss = s.miss := setH_miss _ _
@[simp] theorem jump_serial (s : State) (a : Word) : (s.jump a).serial = s.serial := setH_serial _ _
@[simp] theorem jump_sched (s : State) (a : Word) : (s.jump a).sched = s.sched := setH_sched _ _
@[simp] theorem jump_ticks (s : State) (a : Word) : (s.jump a).ticks = s.ticks := setH_ticks _ _
@[simp] theorem jump_others (s : State) (a : Word) : (s.jump a).others = s.others := setH_others _ _
@[simp] theorem jump_tlb (s : State) (a : Word) : (s.jump a).tlb = s.tlb := setH_tlb _ _
@[simp] theorem jump_acl (s : State) (a : Word) : (s.jump a).acl = s.acl := setH_acl _ _
@[simp] theorem jump_aclOld (s : State) (a : Word) : (s.jump a).aclOld = s.aclOld := setH_aclOld _ _
@[simp] theorem jump_msis (s : State) (a : Word) : (s.jump a).msis = s.msis := setH_msis _ _
@[simp] theorem jump_resends (s : State) (a : Word) : (s.jump a).resends = s.resends := setH_resends _ _
@[simp] theorem jump_xgot (s : State) (a : Word) : (s.jump a).xgot = s.xgot := setH_xgot _ _
@[simp] theorem jump_seqs (s : State) (a : Word) : (s.jump a).seqs = s.seqs := setH_seqs _ _
@[simp] theorem jump_launches (s : State) (a : Word) : (s.jump a).launches = s.launches := setH_launches _ _
@[simp] theorem jump_queues (s : State) (a : Word) : (s.jump a).queues = s.queues := setH_queues _ _
@[simp] theorem jump_fatal (s : State) (a : Word) : (s.jump a).fatal = s.fatal := setH_fatal _ _
@[simp] theorem jump_powered (s : State) (a : Word) : (s.jump a).powered = s.powered := setH_powered _ _
@[simp] theorem jump_fresh (s : State) (a : Word) : (s.jump a).fresh = s.fresh := setH_fresh _ _
@[simp] theorem jump_tnd (s : State) (a : Word) : (s.jump a).tnd = s.tnd := setH_tnd _ _
@[simp] theorem jump_xh (s : State) (a : Word) : (s.jump a).xh = s.xh := setH_xh _ _
@[simp] theorem jump_num (s : State) (a : Word) : (s.jump a).core.num = s.core.num := setH_num _ _

/-! ## setLdst -/

@[simp] theorem setLdst_mem (s : State) (c : BitVec 2) (r : Reg) : (s.setLdst c r).mem = s.mem := setH_mem _ _
@[simp] theorem setLdst_born (s : State) (c : BitVec 2) (r : Reg) : (s.setLdst c r).born = s.born := setH_born _ _
@[simp] theorem setLdst_limit (s : State) (c : BitVec 2) (r : Reg) : (s.setLdst c r).limit = s.limit := setH_limit _ _
@[simp] theorem setLdst_ir (s : State) (c : BitVec 2) (r : Reg) : (s.setLdst c r).ir = s.ir := setH_ir _ _
@[simp] theorem setLdst_gch (s : State) (c : BitVec 2) (r : Reg) : (s.setLdst c r).gch = s.gch := setH_gch _ _
@[simp] theorem setLdst_refusals (s : State) (c : BitVec 2) (r : Reg) : (s.setLdst c r).refusals = s.refusals := setH_refusals _ _
@[simp] theorem setLdst_colls (s : State) (c : BitVec 2) (r : Reg) : (s.setLdst c r).colls = s.colls := setH_colls _ _
@[simp] theorem setLdst_ports (s : State) (c : BitVec 2) (r : Reg) : (s.setLdst c r).ports = s.ports := setH_ports _ _
@[simp] theorem setLdst_dropped (s : State) (c : BitVec 2) (r : Reg) : (s.setLdst c r).dropped = s.dropped := setH_dropped _ _
@[simp] theorem setLdst_xsrc (s : State) (c : BitVec 2) (r : Reg) : (s.setLdst c r).xsrc = s.xsrc := setH_xsrc _ _
@[simp] theorem setLdst_xdst (s : State) (c : BitVec 2) (r : Reg) : (s.setLdst c r).xdst = s.xdst := setH_xdst _ _
@[simp] theorem setLdst_xlen (s : State) (c : BitVec 2) (r : Reg) : (s.setLdst c r).xlen = s.xlen := setH_xlen _ _
@[simp] theorem setLdst_xpeer (s : State) (c : BitVec 2) (r : Reg) : (s.setLdst c r).xpeer = s.xpeer := setH_xpeer _ _
@[simp] theorem setLdst_xstat (s : State) (c : BitVec 2) (r : Reg) : (s.setLdst c r).xstat = s.xstat := setH_xstat _ _
@[simp] theorem setLdst_qtab (s : State) (c : BitVec 2) (r : Reg) : (s.setLdst c r).qtab = s.qtab := setH_qtab _ _
@[simp] theorem setLdst_ptab (s : State) (c : BitVec 2) (r : Reg) : (s.setLdst c r).ptab = s.ptab := setH_ptab _ _
@[simp] theorem setLdst_hdom (s : State) (c : BitVec 2) (r : Reg) : (s.setLdst c r).hdom = s.hdom := setH_hdom _ _
@[simp] theorem setLdst_mods (s : State) (c : BitVec 2) (r : Reg) : (s.setLdst c r).mods = s.mods := setH_mods _ _
@[simp] theorem setLdst_event (s : State) (c : BitVec 2) (r : Reg) : (s.setLdst c r).event = s.event := setH_event _ _
@[simp] theorem setLdst_dump (s : State) (c : BitVec 2) (r : Reg) : (s.setLdst c r).dump = s.dump := setH_dump _ _
@[simp] theorem setLdst_recovery (s : State) (c : BitVec 2) (r : Reg) : (s.setLdst c r).recovery = s.recovery := setH_recovery _ _
@[simp] theorem setLdst_ready (s : State) (c : BitVec 2) (r : Reg) : (s.setLdst c r).ready = s.ready := setH_ready _ _
@[simp] theorem setLdst_hdm (s : State) (c : BitVec 2) (r : Reg) : (s.setLdst c r).hdm = s.hdm := setH_hdm _ _
@[simp] theorem setLdst_fused (s : State) (c : BitVec 2) (r : Reg) : (s.setLdst c r).fused = s.fused := setH_fused _ _
@[simp] theorem setLdst_version (s : State) (c : BitVec 2) (r : Reg) : (s.setLdst c r).version = s.version := setH_version _ _
@[simp] theorem setLdst_firmware (s : State) (c : BitVec 2) (r : Reg) : (s.setLdst c r).firmware = s.firmware := setH_firmware _ _
@[simp] theorem setLdst_reason (s : State) (c : BitVec 2) (r : Reg) : (s.setLdst c r).reason = s.reason := setH_reason _ _
@[simp] theorem setLdst_ecc (s : State) (c : BitVec 2) (r : Reg) : (s.setLdst c r).ecc = s.ecc := setH_ecc _ _
@[simp] theorem setLdst_log (s : State) (c : BitVec 2) (r : Reg) : (s.setLdst c r).log = s.log := setH_log _ _
@[simp] theorem setLdst_kept (s : State) (c : BitVec 2) (r : Reg) : (s.setLdst c r).kept = s.kept := setH_kept _ _
@[simp] theorem setLdst_replays (s : State) (c : BitVec 2) (r : Reg) : (s.setLdst c r).replays = s.replays := setH_replays _ _
@[simp] theorem setLdst_privates (s : State) (c : BitVec 2) (r : Reg) : (s.setLdst c r).privates = s.privates := setH_privates _ _
@[simp] theorem setLdst_reply (s : State) (c : BitVec 2) (r : Reg) : (s.setLdst c r).reply = s.reply := setH_reply _ _
@[simp] theorem setLdst_replyPoison (s : State) (c : BitVec 2) (r : Reg) : (s.setLdst c r).replyPoison = s.replyPoison := setH_replyPoison _ _
@[simp] theorem setLdst_poison (s : State) (c : BitVec 2) (r : Reg) : (s.setLdst c r).poison = s.poison := setH_poison _ _
@[simp] theorem setLdst_buf (s : State) (c : BitVec 2) (r : Reg) : (s.setLdst c r).buf = s.buf := setH_buf _ _
@[simp] theorem setLdst_early (s : State) (c : BitVec 2) (r : Reg) : (s.setLdst c r).early = s.early := setH_early _ _
@[simp] theorem setLdst_holds (s : State) (c : BitVec 2) (r : Reg) : (s.setLdst c r).holds = s.holds := setH_holds _ _
@[simp] theorem setLdst_turn (s : State) (c : BitVec 2) (r : Reg) : (s.setLdst c r).turn = s.turn := setH_turn _ _
@[simp] theorem setLdst_walks (s : State) (c : BitVec 2) (r : Reg) : (s.setLdst c r).walks = s.walks := setH_walks _ _
@[simp] theorem setLdst_miss (s : State) (c : BitVec 2) (r : Reg) : (s.setLdst c r).miss = s.miss := setH_miss _ _
@[simp] theorem setLdst_serial (s : State) (c : BitVec 2) (r : Reg) : (s.setLdst c r).serial = s.serial := setH_serial _ _
@[simp] theorem setLdst_sched (s : State) (c : BitVec 2) (r : Reg) : (s.setLdst c r).sched = s.sched := setH_sched _ _
@[simp] theorem setLdst_ticks (s : State) (c : BitVec 2) (r : Reg) : (s.setLdst c r).ticks = s.ticks := setH_ticks _ _
@[simp] theorem setLdst_others (s : State) (c : BitVec 2) (r : Reg) : (s.setLdst c r).others = s.others := setH_others _ _
@[simp] theorem setLdst_tlb (s : State) (c : BitVec 2) (r : Reg) : (s.setLdst c r).tlb = s.tlb := setH_tlb _ _
@[simp] theorem setLdst_acl (s : State) (c : BitVec 2) (r : Reg) : (s.setLdst c r).acl = s.acl := setH_acl _ _
@[simp] theorem setLdst_aclOld (s : State) (c : BitVec 2) (r : Reg) : (s.setLdst c r).aclOld = s.aclOld := setH_aclOld _ _
@[simp] theorem setLdst_msis (s : State) (c : BitVec 2) (r : Reg) : (s.setLdst c r).msis = s.msis := setH_msis _ _
@[simp] theorem setLdst_resends (s : State) (c : BitVec 2) (r : Reg) : (s.setLdst c r).resends = s.resends := setH_resends _ _
@[simp] theorem setLdst_xgot (s : State) (c : BitVec 2) (r : Reg) : (s.setLdst c r).xgot = s.xgot := setH_xgot _ _
@[simp] theorem setLdst_seqs (s : State) (c : BitVec 2) (r : Reg) : (s.setLdst c r).seqs = s.seqs := setH_seqs _ _
@[simp] theorem setLdst_launches (s : State) (c : BitVec 2) (r : Reg) : (s.setLdst c r).launches = s.launches := setH_launches _ _
@[simp] theorem setLdst_queues (s : State) (c : BitVec 2) (r : Reg) : (s.setLdst c r).queues = s.queues := setH_queues _ _
@[simp] theorem setLdst_fatal (s : State) (c : BitVec 2) (r : Reg) : (s.setLdst c r).fatal = s.fatal := setH_fatal _ _
@[simp] theorem setLdst_powered (s : State) (c : BitVec 2) (r : Reg) : (s.setLdst c r).powered = s.powered := setH_powered _ _
@[simp] theorem setLdst_fresh (s : State) (c : BitVec 2) (r : Reg) : (s.setLdst c r).fresh = s.fresh := setH_fresh _ _
@[simp] theorem setLdst_tnd (s : State) (c : BitVec 2) (r : Reg) : (s.setLdst c r).tnd = s.tnd := setH_tnd _ _
@[simp] theorem setLdst_xh (s : State) (c : BitVec 2) (r : Reg) : (s.setLdst c r).xh = s.xh := setH_xh _ _
@[simp] theorem setLdst_num (s : State) (c : BitVec 2) (r : Reg) : (s.setLdst c r).core.num = s.core.num := setH_num _ _

/-! ## setS -/

@[simp] theorem setS_mem (s : State) (d : Reg) (v : Word) : (s.setS d v).mem = s.mem := by
  unfold State.setS; dsimp only; split
  · simp
  · split <;> simp
@[simp] theorem setS_born (s : State) (d : Reg) (v : Word) : (s.setS d v).born = s.born := by
  unfold State.setS; dsimp only; split
  · simp
  · split <;> simp
@[simp] theorem setS_limit (s : State) (d : Reg) (v : Word) : (s.setS d v).limit = s.limit := by
  unfold State.setS; dsimp only; split
  · simp
  · split <;> simp
@[simp] theorem setS_ir (s : State) (d : Reg) (v : Word) : (s.setS d v).ir = s.ir := by
  unfold State.setS; dsimp only; split
  · simp
  · split <;> simp
@[simp] theorem setS_gch (s : State) (d : Reg) (v : Word) : (s.setS d v).gch = s.gch := by
  unfold State.setS; dsimp only; split
  · simp
  · split <;> simp
@[simp] theorem setS_refusals (s : State) (d : Reg) (v : Word) : (s.setS d v).refusals = s.refusals := by
  unfold State.setS; dsimp only; split
  · simp
  · split <;> simp
@[simp] theorem setS_colls (s : State) (d : Reg) (v : Word) : (s.setS d v).colls = s.colls := by
  unfold State.setS; dsimp only; split
  · simp
  · split <;> simp
@[simp] theorem setS_ports (s : State) (d : Reg) (v : Word) : (s.setS d v).ports = s.ports := by
  unfold State.setS; dsimp only; split
  · simp
  · split <;> simp
@[simp] theorem setS_dropped (s : State) (d : Reg) (v : Word) : (s.setS d v).dropped = s.dropped := by
  unfold State.setS; dsimp only; split
  · simp
  · split <;> simp
@[simp] theorem setS_xsrc (s : State) (d : Reg) (v : Word) : (s.setS d v).xsrc = s.xsrc := by
  unfold State.setS; dsimp only; split
  · simp
  · split <;> simp
@[simp] theorem setS_xdst (s : State) (d : Reg) (v : Word) : (s.setS d v).xdst = s.xdst := by
  unfold State.setS; dsimp only; split
  · simp
  · split <;> simp
@[simp] theorem setS_xlen (s : State) (d : Reg) (v : Word) : (s.setS d v).xlen = s.xlen := by
  unfold State.setS; dsimp only; split
  · simp
  · split <;> simp
@[simp] theorem setS_xpeer (s : State) (d : Reg) (v : Word) : (s.setS d v).xpeer = s.xpeer := by
  unfold State.setS; dsimp only; split
  · simp
  · split <;> simp
@[simp] theorem setS_xstat (s : State) (d : Reg) (v : Word) : (s.setS d v).xstat = s.xstat := by
  unfold State.setS; dsimp only; split
  · simp
  · split <;> simp
@[simp] theorem setS_qtab (s : State) (d : Reg) (v : Word) : (s.setS d v).qtab = s.qtab := by
  unfold State.setS; dsimp only; split
  · simp
  · split <;> simp
@[simp] theorem setS_ptab (s : State) (d : Reg) (v : Word) : (s.setS d v).ptab = s.ptab := by
  unfold State.setS; dsimp only; split
  · simp
  · split <;> simp
@[simp] theorem setS_hdom (s : State) (d : Reg) (v : Word) : (s.setS d v).hdom = s.hdom := by
  unfold State.setS; dsimp only; split
  · simp
  · split <;> simp
@[simp] theorem setS_mods (s : State) (d : Reg) (v : Word) : (s.setS d v).mods = s.mods := by
  unfold State.setS; dsimp only; split
  · simp
  · split <;> simp
@[simp] theorem setS_event (s : State) (d : Reg) (v : Word) : (s.setS d v).event = s.event := by
  unfold State.setS; dsimp only; split
  · simp
  · split <;> simp
@[simp] theorem setS_dump (s : State) (d : Reg) (v : Word) : (s.setS d v).dump = s.dump := by
  unfold State.setS; dsimp only; split
  · simp
  · split <;> simp
@[simp] theorem setS_recovery (s : State) (d : Reg) (v : Word) : (s.setS d v).recovery = s.recovery := by
  unfold State.setS; dsimp only; split
  · simp
  · split <;> simp
@[simp] theorem setS_ready (s : State) (d : Reg) (v : Word) : (s.setS d v).ready = s.ready := by
  unfold State.setS; dsimp only; split
  · simp
  · split <;> simp
@[simp] theorem setS_hdm (s : State) (d : Reg) (v : Word) : (s.setS d v).hdm = s.hdm := by
  unfold State.setS; dsimp only; split
  · simp
  · split <;> simp
@[simp] theorem setS_fused (s : State) (d : Reg) (v : Word) : (s.setS d v).fused = s.fused := by
  unfold State.setS; dsimp only; split
  · simp
  · split <;> simp
@[simp] theorem setS_version (s : State) (d : Reg) (v : Word) : (s.setS d v).version = s.version := by
  unfold State.setS; dsimp only; split
  · simp
  · split <;> simp
@[simp] theorem setS_firmware (s : State) (d : Reg) (v : Word) : (s.setS d v).firmware = s.firmware := by
  unfold State.setS; dsimp only; split
  · simp
  · split <;> simp
@[simp] theorem setS_reason (s : State) (d : Reg) (v : Word) : (s.setS d v).reason = s.reason := by
  unfold State.setS; dsimp only; split
  · simp
  · split <;> simp
@[simp] theorem setS_ecc (s : State) (d : Reg) (v : Word) : (s.setS d v).ecc = s.ecc := by
  unfold State.setS; dsimp only; split
  · simp
  · split <;> simp
@[simp] theorem setS_log (s : State) (d : Reg) (v : Word) : (s.setS d v).log = s.log := by
  unfold State.setS; dsimp only; split
  · simp
  · split <;> simp
@[simp] theorem setS_kept (s : State) (d : Reg) (v : Word) : (s.setS d v).kept = s.kept := by
  unfold State.setS; dsimp only; split
  · simp
  · split <;> simp
@[simp] theorem setS_replays (s : State) (d : Reg) (v : Word) : (s.setS d v).replays = s.replays := by
  unfold State.setS; dsimp only; split
  · simp
  · split <;> simp
@[simp] theorem setS_privates (s : State) (d : Reg) (v : Word) : (s.setS d v).privates = s.privates := by
  unfold State.setS; dsimp only; split
  · simp
  · split <;> simp
@[simp] theorem setS_reply (s : State) (d : Reg) (v : Word) : (s.setS d v).reply = s.reply := by
  unfold State.setS; dsimp only; split
  · simp
  · split <;> simp
@[simp] theorem setS_replyPoison (s : State) (d : Reg) (v : Word) : (s.setS d v).replyPoison = s.replyPoison := by
  unfold State.setS; dsimp only; split
  · simp
  · split <;> simp
@[simp] theorem setS_poison (s : State) (d : Reg) (v : Word) : (s.setS d v).poison = s.poison := by
  unfold State.setS; dsimp only; split
  · simp
  · split <;> simp
@[simp] theorem setS_buf (s : State) (d : Reg) (v : Word) : (s.setS d v).buf = s.buf := by
  unfold State.setS; dsimp only; split
  · simp
  · split <;> simp
@[simp] theorem setS_early (s : State) (d : Reg) (v : Word) : (s.setS d v).early = s.early := by
  unfold State.setS; dsimp only; split
  · simp
  · split <;> simp
@[simp] theorem setS_holds (s : State) (d : Reg) (v : Word) : (s.setS d v).holds = s.holds := by
  unfold State.setS; dsimp only; split
  · simp
  · split <;> simp
@[simp] theorem setS_turn (s : State) (d : Reg) (v : Word) : (s.setS d v).turn = s.turn := by
  unfold State.setS; dsimp only; split
  · simp
  · split <;> simp
@[simp] theorem setS_walks (s : State) (d : Reg) (v : Word) : (s.setS d v).walks = s.walks := by
  unfold State.setS; dsimp only; split
  · simp
  · split <;> simp
@[simp] theorem setS_miss (s : State) (d : Reg) (v : Word) : (s.setS d v).miss = s.miss := by
  unfold State.setS; dsimp only; split
  · simp
  · split <;> simp
@[simp] theorem setS_serial (s : State) (d : Reg) (v : Word) : (s.setS d v).serial = s.serial := by
  unfold State.setS; dsimp only; split
  · simp
  · split <;> simp
@[simp] theorem setS_sched (s : State) (d : Reg) (v : Word) : (s.setS d v).sched = s.sched := by
  unfold State.setS; dsimp only; split
  · simp
  · split <;> simp
@[simp] theorem setS_ticks (s : State) (d : Reg) (v : Word) : (s.setS d v).ticks = s.ticks := by
  unfold State.setS; dsimp only; split
  · simp
  · split <;> simp
@[simp] theorem setS_others (s : State) (d : Reg) (v : Word) : (s.setS d v).others = s.others := by
  unfold State.setS; dsimp only; split
  · simp
  · split <;> simp
@[simp] theorem setS_tlb (s : State) (d : Reg) (v : Word) : (s.setS d v).tlb = s.tlb := by
  unfold State.setS; dsimp only; split
  · simp
  · split <;> simp
@[simp] theorem setS_acl (s : State) (d : Reg) (v : Word) : (s.setS d v).acl = s.acl := by
  unfold State.setS; dsimp only; split
  · simp
  · split <;> simp
@[simp] theorem setS_aclOld (s : State) (d : Reg) (v : Word) : (s.setS d v).aclOld = s.aclOld := by
  unfold State.setS; dsimp only; split
  · simp
  · split <;> simp
@[simp] theorem setS_msis (s : State) (d : Reg) (v : Word) : (s.setS d v).msis = s.msis := by
  unfold State.setS; dsimp only; split
  · simp
  · split <;> simp
@[simp] theorem setS_resends (s : State) (d : Reg) (v : Word) : (s.setS d v).resends = s.resends := by
  unfold State.setS; dsimp only; split
  · simp
  · split <;> simp
@[simp] theorem setS_xgot (s : State) (d : Reg) (v : Word) : (s.setS d v).xgot = s.xgot := by
  unfold State.setS; dsimp only; split
  · simp
  · split <;> simp
@[simp] theorem setS_seqs (s : State) (d : Reg) (v : Word) : (s.setS d v).seqs = s.seqs := by
  unfold State.setS; dsimp only; split
  · simp
  · split <;> simp
@[simp] theorem setS_launches (s : State) (d : Reg) (v : Word) : (s.setS d v).launches = s.launches := by
  unfold State.setS; dsimp only; split
  · simp
  · split <;> simp
@[simp] theorem setS_queues (s : State) (d : Reg) (v : Word) : (s.setS d v).queues = s.queues := by
  unfold State.setS; dsimp only; split
  · simp
  · split <;> simp
@[simp] theorem setS_fatal (s : State) (d : Reg) (v : Word) : (s.setS d v).fatal = s.fatal := by
  unfold State.setS; dsimp only; split
  · simp
  · split <;> simp
@[simp] theorem setS_powered (s : State) (d : Reg) (v : Word) : (s.setS d v).powered = s.powered := by
  unfold State.setS; dsimp only; split
  · simp
  · split <;> simp
@[simp] theorem setS_fresh (s : State) (d : Reg) (v : Word) : (s.setS d v).fresh = s.fresh := by
  unfold State.setS; dsimp only; split
  · simp
  · split <;> simp
@[simp] theorem setS_tnd (s : State) (d : Reg) (v : Word) : (s.setS d v).tnd = s.tnd := by
  unfold State.setS; dsimp only; split
  · simp
  · split <;> simp
@[simp] theorem setS_xh (s : State) (d : Reg) (v : Word) : (s.setS d v).xh = s.xh := by
  unfold State.setS; dsimp only; split
  · simp
  · split <;> simp
@[simp] theorem setS_num (s : State) (d : Reg) (v : Word) : (s.setS d v).core.num = s.core.num := by
  unfold State.setS; dsimp only; split
  · simp
  · split <;> simp

/-! ## setF -/

@[simp] theorem setF_mem (s : State) (d : Reg) (v : Word) : (s.setF d v).mem = s.mem := (setH_mem _ _).trans (setH_mem _ _)
@[simp] theorem setF_born (s : State) (d : Reg) (v : Word) : (s.setF d v).born = s.born := (setH_born _ _).trans (setH_born _ _)
@[simp] theorem setF_limit (s : State) (d : Reg) (v : Word) : (s.setF d v).limit = s.limit := (setH_limit _ _).trans (setH_limit _ _)
@[simp] theorem setF_ir (s : State) (d : Reg) (v : Word) : (s.setF d v).ir = s.ir := (setH_ir _ _).trans (setH_ir _ _)
@[simp] theorem setF_gch (s : State) (d : Reg) (v : Word) : (s.setF d v).gch = s.gch := (setH_gch _ _).trans (setH_gch _ _)
@[simp] theorem setF_refusals (s : State) (d : Reg) (v : Word) : (s.setF d v).refusals = s.refusals := (setH_refusals _ _).trans (setH_refusals _ _)
@[simp] theorem setF_colls (s : State) (d : Reg) (v : Word) : (s.setF d v).colls = s.colls := (setH_colls _ _).trans (setH_colls _ _)
@[simp] theorem setF_ports (s : State) (d : Reg) (v : Word) : (s.setF d v).ports = s.ports := (setH_ports _ _).trans (setH_ports _ _)
@[simp] theorem setF_dropped (s : State) (d : Reg) (v : Word) : (s.setF d v).dropped = s.dropped := (setH_dropped _ _).trans (setH_dropped _ _)
@[simp] theorem setF_xsrc (s : State) (d : Reg) (v : Word) : (s.setF d v).xsrc = s.xsrc := (setH_xsrc _ _).trans (setH_xsrc _ _)
@[simp] theorem setF_xdst (s : State) (d : Reg) (v : Word) : (s.setF d v).xdst = s.xdst := (setH_xdst _ _).trans (setH_xdst _ _)
@[simp] theorem setF_xlen (s : State) (d : Reg) (v : Word) : (s.setF d v).xlen = s.xlen := (setH_xlen _ _).trans (setH_xlen _ _)
@[simp] theorem setF_xpeer (s : State) (d : Reg) (v : Word) : (s.setF d v).xpeer = s.xpeer := (setH_xpeer _ _).trans (setH_xpeer _ _)
@[simp] theorem setF_xstat (s : State) (d : Reg) (v : Word) : (s.setF d v).xstat = s.xstat := (setH_xstat _ _).trans (setH_xstat _ _)
@[simp] theorem setF_qtab (s : State) (d : Reg) (v : Word) : (s.setF d v).qtab = s.qtab := (setH_qtab _ _).trans (setH_qtab _ _)
@[simp] theorem setF_ptab (s : State) (d : Reg) (v : Word) : (s.setF d v).ptab = s.ptab := (setH_ptab _ _).trans (setH_ptab _ _)
@[simp] theorem setF_hdom (s : State) (d : Reg) (v : Word) : (s.setF d v).hdom = s.hdom := (setH_hdom _ _).trans (setH_hdom _ _)
@[simp] theorem setF_mods (s : State) (d : Reg) (v : Word) : (s.setF d v).mods = s.mods := (setH_mods _ _).trans (setH_mods _ _)
@[simp] theorem setF_event (s : State) (d : Reg) (v : Word) : (s.setF d v).event = s.event := (setH_event _ _).trans (setH_event _ _)
@[simp] theorem setF_dump (s : State) (d : Reg) (v : Word) : (s.setF d v).dump = s.dump := (setH_dump _ _).trans (setH_dump _ _)
@[simp] theorem setF_recovery (s : State) (d : Reg) (v : Word) : (s.setF d v).recovery = s.recovery := (setH_recovery _ _).trans (setH_recovery _ _)
@[simp] theorem setF_ready (s : State) (d : Reg) (v : Word) : (s.setF d v).ready = s.ready := (setH_ready _ _).trans (setH_ready _ _)
@[simp] theorem setF_hdm (s : State) (d : Reg) (v : Word) : (s.setF d v).hdm = s.hdm := (setH_hdm _ _).trans (setH_hdm _ _)
@[simp] theorem setF_fused (s : State) (d : Reg) (v : Word) : (s.setF d v).fused = s.fused := (setH_fused _ _).trans (setH_fused _ _)
@[simp] theorem setF_version (s : State) (d : Reg) (v : Word) : (s.setF d v).version = s.version := (setH_version _ _).trans (setH_version _ _)
@[simp] theorem setF_firmware (s : State) (d : Reg) (v : Word) : (s.setF d v).firmware = s.firmware := (setH_firmware _ _).trans (setH_firmware _ _)
@[simp] theorem setF_reason (s : State) (d : Reg) (v : Word) : (s.setF d v).reason = s.reason := (setH_reason _ _).trans (setH_reason _ _)
@[simp] theorem setF_ecc (s : State) (d : Reg) (v : Word) : (s.setF d v).ecc = s.ecc := (setH_ecc _ _).trans (setH_ecc _ _)
@[simp] theorem setF_log (s : State) (d : Reg) (v : Word) : (s.setF d v).log = s.log := (setH_log _ _).trans (setH_log _ _)
@[simp] theorem setF_kept (s : State) (d : Reg) (v : Word) : (s.setF d v).kept = s.kept := (setH_kept _ _).trans (setH_kept _ _)
@[simp] theorem setF_replays (s : State) (d : Reg) (v : Word) : (s.setF d v).replays = s.replays := (setH_replays _ _).trans (setH_replays _ _)
@[simp] theorem setF_privates (s : State) (d : Reg) (v : Word) : (s.setF d v).privates = s.privates := (setH_privates _ _).trans (setH_privates _ _)
@[simp] theorem setF_reply (s : State) (d : Reg) (v : Word) : (s.setF d v).reply = s.reply := (setH_reply _ _).trans (setH_reply _ _)
@[simp] theorem setF_replyPoison (s : State) (d : Reg) (v : Word) : (s.setF d v).replyPoison = s.replyPoison := (setH_replyPoison _ _).trans (setH_replyPoison _ _)
@[simp] theorem setF_poison (s : State) (d : Reg) (v : Word) : (s.setF d v).poison = s.poison := (setH_poison _ _).trans (setH_poison _ _)
@[simp] theorem setF_buf (s : State) (d : Reg) (v : Word) : (s.setF d v).buf = s.buf := (setH_buf _ _).trans (setH_buf _ _)
@[simp] theorem setF_early (s : State) (d : Reg) (v : Word) : (s.setF d v).early = s.early := (setH_early _ _).trans (setH_early _ _)
@[simp] theorem setF_holds (s : State) (d : Reg) (v : Word) : (s.setF d v).holds = s.holds := (setH_holds _ _).trans (setH_holds _ _)
@[simp] theorem setF_turn (s : State) (d : Reg) (v : Word) : (s.setF d v).turn = s.turn := (setH_turn _ _).trans (setH_turn _ _)
@[simp] theorem setF_walks (s : State) (d : Reg) (v : Word) : (s.setF d v).walks = s.walks := (setH_walks _ _).trans (setH_walks _ _)
@[simp] theorem setF_miss (s : State) (d : Reg) (v : Word) : (s.setF d v).miss = s.miss := (setH_miss _ _).trans (setH_miss _ _)
@[simp] theorem setF_serial (s : State) (d : Reg) (v : Word) : (s.setF d v).serial = s.serial := (setH_serial _ _).trans (setH_serial _ _)
@[simp] theorem setF_sched (s : State) (d : Reg) (v : Word) : (s.setF d v).sched = s.sched := (setH_sched _ _).trans (setH_sched _ _)
@[simp] theorem setF_ticks (s : State) (d : Reg) (v : Word) : (s.setF d v).ticks = s.ticks := (setH_ticks _ _).trans (setH_ticks _ _)
@[simp] theorem setF_others (s : State) (d : Reg) (v : Word) : (s.setF d v).others = s.others := (setH_others _ _).trans (setH_others _ _)
@[simp] theorem setF_tlb (s : State) (d : Reg) (v : Word) : (s.setF d v).tlb = s.tlb := (setH_tlb _ _).trans (setH_tlb _ _)
@[simp] theorem setF_acl (s : State) (d : Reg) (v : Word) : (s.setF d v).acl = s.acl := (setH_acl _ _).trans (setH_acl _ _)
@[simp] theorem setF_aclOld (s : State) (d : Reg) (v : Word) : (s.setF d v).aclOld = s.aclOld := (setH_aclOld _ _).trans (setH_aclOld _ _)
@[simp] theorem setF_msis (s : State) (d : Reg) (v : Word) : (s.setF d v).msis = s.msis := (setH_msis _ _).trans (setH_msis _ _)
@[simp] theorem setF_resends (s : State) (d : Reg) (v : Word) : (s.setF d v).resends = s.resends := (setH_resends _ _).trans (setH_resends _ _)
@[simp] theorem setF_xgot (s : State) (d : Reg) (v : Word) : (s.setF d v).xgot = s.xgot := (setH_xgot _ _).trans (setH_xgot _ _)
@[simp] theorem setF_seqs (s : State) (d : Reg) (v : Word) : (s.setF d v).seqs = s.seqs := (setH_seqs _ _).trans (setH_seqs _ _)
@[simp] theorem setF_launches (s : State) (d : Reg) (v : Word) : (s.setF d v).launches = s.launches := (setH_launches _ _).trans (setH_launches _ _)
@[simp] theorem setF_queues (s : State) (d : Reg) (v : Word) : (s.setF d v).queues = s.queues := (setH_queues _ _).trans (setH_queues _ _)
@[simp] theorem setF_fatal (s : State) (d : Reg) (v : Word) : (s.setF d v).fatal = s.fatal := (setH_fatal _ _).trans (setH_fatal _ _)
@[simp] theorem setF_powered (s : State) (d : Reg) (v : Word) : (s.setF d v).powered = s.powered := (setH_powered _ _).trans (setH_powered _ _)
@[simp] theorem setF_fresh (s : State) (d : Reg) (v : Word) : (s.setF d v).fresh = s.fresh := (setH_fresh _ _).trans (setH_fresh _ _)
@[simp] theorem setF_tnd (s : State) (d : Reg) (v : Word) : (s.setF d v).tnd = s.tnd := (setH_tnd _ _).trans (setH_tnd _ _)
@[simp] theorem setF_xh (s : State) (d : Reg) (v : Word) : (s.setF d v).xh = s.xh := (setH_xh _ _).trans (setH_xh _ _)
@[simp] theorem setF_num (s : State) (d : Reg) (v : Word) : (s.setF d v).core.num = s.core.num := (setH_num _ _).trans (setH_num _ _)

/-! ## raise -/

@[simp] theorem raise_mem (s : State) (f : Flags) : (s.raise f).mem = s.mem := setH_mem _ _
@[simp] theorem raise_born (s : State) (f : Flags) : (s.raise f).born = s.born := setH_born _ _
@[simp] theorem raise_limit (s : State) (f : Flags) : (s.raise f).limit = s.limit := setH_limit _ _
@[simp] theorem raise_ir (s : State) (f : Flags) : (s.raise f).ir = s.ir := setH_ir _ _
@[simp] theorem raise_gch (s : State) (f : Flags) : (s.raise f).gch = s.gch := setH_gch _ _
@[simp] theorem raise_refusals (s : State) (f : Flags) : (s.raise f).refusals = s.refusals := setH_refusals _ _
@[simp] theorem raise_colls (s : State) (f : Flags) : (s.raise f).colls = s.colls := setH_colls _ _
@[simp] theorem raise_ports (s : State) (f : Flags) : (s.raise f).ports = s.ports := setH_ports _ _
@[simp] theorem raise_dropped (s : State) (f : Flags) : (s.raise f).dropped = s.dropped := setH_dropped _ _
@[simp] theorem raise_xsrc (s : State) (f : Flags) : (s.raise f).xsrc = s.xsrc := setH_xsrc _ _
@[simp] theorem raise_xdst (s : State) (f : Flags) : (s.raise f).xdst = s.xdst := setH_xdst _ _
@[simp] theorem raise_xlen (s : State) (f : Flags) : (s.raise f).xlen = s.xlen := setH_xlen _ _
@[simp] theorem raise_xpeer (s : State) (f : Flags) : (s.raise f).xpeer = s.xpeer := setH_xpeer _ _
@[simp] theorem raise_xstat (s : State) (f : Flags) : (s.raise f).xstat = s.xstat := setH_xstat _ _
@[simp] theorem raise_qtab (s : State) (f : Flags) : (s.raise f).qtab = s.qtab := setH_qtab _ _
@[simp] theorem raise_ptab (s : State) (f : Flags) : (s.raise f).ptab = s.ptab := setH_ptab _ _
@[simp] theorem raise_hdom (s : State) (f : Flags) : (s.raise f).hdom = s.hdom := setH_hdom _ _
@[simp] theorem raise_mods (s : State) (f : Flags) : (s.raise f).mods = s.mods := setH_mods _ _
@[simp] theorem raise_event (s : State) (f : Flags) : (s.raise f).event = s.event := setH_event _ _
@[simp] theorem raise_dump (s : State) (f : Flags) : (s.raise f).dump = s.dump := setH_dump _ _
@[simp] theorem raise_recovery (s : State) (f : Flags) : (s.raise f).recovery = s.recovery := setH_recovery _ _
@[simp] theorem raise_ready (s : State) (f : Flags) : (s.raise f).ready = s.ready := setH_ready _ _
@[simp] theorem raise_hdm (s : State) (f : Flags) : (s.raise f).hdm = s.hdm := setH_hdm _ _
@[simp] theorem raise_fused (s : State) (f : Flags) : (s.raise f).fused = s.fused := setH_fused _ _
@[simp] theorem raise_version (s : State) (f : Flags) : (s.raise f).version = s.version := setH_version _ _
@[simp] theorem raise_firmware (s : State) (f : Flags) : (s.raise f).firmware = s.firmware := setH_firmware _ _
@[simp] theorem raise_reason (s : State) (f : Flags) : (s.raise f).reason = s.reason := setH_reason _ _
@[simp] theorem raise_ecc (s : State) (f : Flags) : (s.raise f).ecc = s.ecc := setH_ecc _ _
@[simp] theorem raise_log (s : State) (f : Flags) : (s.raise f).log = s.log := setH_log _ _
@[simp] theorem raise_kept (s : State) (f : Flags) : (s.raise f).kept = s.kept := setH_kept _ _
@[simp] theorem raise_replays (s : State) (f : Flags) : (s.raise f).replays = s.replays := setH_replays _ _
@[simp] theorem raise_privates (s : State) (f : Flags) : (s.raise f).privates = s.privates := setH_privates _ _
@[simp] theorem raise_reply (s : State) (f : Flags) : (s.raise f).reply = s.reply := setH_reply _ _
@[simp] theorem raise_replyPoison (s : State) (f : Flags) : (s.raise f).replyPoison = s.replyPoison := setH_replyPoison _ _
@[simp] theorem raise_poison (s : State) (f : Flags) : (s.raise f).poison = s.poison := setH_poison _ _
@[simp] theorem raise_buf (s : State) (f : Flags) : (s.raise f).buf = s.buf := setH_buf _ _
@[simp] theorem raise_early (s : State) (f : Flags) : (s.raise f).early = s.early := setH_early _ _
@[simp] theorem raise_holds (s : State) (f : Flags) : (s.raise f).holds = s.holds := setH_holds _ _
@[simp] theorem raise_turn (s : State) (f : Flags) : (s.raise f).turn = s.turn := setH_turn _ _
@[simp] theorem raise_walks (s : State) (f : Flags) : (s.raise f).walks = s.walks := setH_walks _ _
@[simp] theorem raise_miss (s : State) (f : Flags) : (s.raise f).miss = s.miss := setH_miss _ _
@[simp] theorem raise_serial (s : State) (f : Flags) : (s.raise f).serial = s.serial := setH_serial _ _
@[simp] theorem raise_sched (s : State) (f : Flags) : (s.raise f).sched = s.sched := setH_sched _ _
@[simp] theorem raise_ticks (s : State) (f : Flags) : (s.raise f).ticks = s.ticks := setH_ticks _ _
@[simp] theorem raise_others (s : State) (f : Flags) : (s.raise f).others = s.others := setH_others _ _
@[simp] theorem raise_tlb (s : State) (f : Flags) : (s.raise f).tlb = s.tlb := setH_tlb _ _
@[simp] theorem raise_acl (s : State) (f : Flags) : (s.raise f).acl = s.acl := setH_acl _ _
@[simp] theorem raise_aclOld (s : State) (f : Flags) : (s.raise f).aclOld = s.aclOld := setH_aclOld _ _
@[simp] theorem raise_msis (s : State) (f : Flags) : (s.raise f).msis = s.msis := setH_msis _ _
@[simp] theorem raise_resends (s : State) (f : Flags) : (s.raise f).resends = s.resends := setH_resends _ _
@[simp] theorem raise_xgot (s : State) (f : Flags) : (s.raise f).xgot = s.xgot := setH_xgot _ _
@[simp] theorem raise_seqs (s : State) (f : Flags) : (s.raise f).seqs = s.seqs := setH_seqs _ _
@[simp] theorem raise_launches (s : State) (f : Flags) : (s.raise f).launches = s.launches := setH_launches _ _
@[simp] theorem raise_queues (s : State) (f : Flags) : (s.raise f).queues = s.queues := setH_queues _ _
@[simp] theorem raise_fatal (s : State) (f : Flags) : (s.raise f).fatal = s.fatal := setH_fatal _ _
@[simp] theorem raise_powered (s : State) (f : Flags) : (s.raise f).powered = s.powered := setH_powered _ _
@[simp] theorem raise_fresh (s : State) (f : Flags) : (s.raise f).fresh = s.fresh := setH_fresh _ _
@[simp] theorem raise_tnd (s : State) (f : Flags) : (s.raise f).tnd = s.tnd := setH_tnd _ _
@[simp] theorem raise_xh (s : State) (f : Flags) : (s.raise f).xh = s.xh := setH_xh _ _
@[simp] theorem raise_num (s : State) (f : Flags) : (s.raise f).core.num = s.core.num := setH_num _ _

/-! ## raiseIdiv -/

@[simp] theorem raiseIdiv_mem (s : State) (b : Bool) : (s.raiseIdiv b).mem = s.mem := setH_mem _ _
@[simp] theorem raiseIdiv_born (s : State) (b : Bool) : (s.raiseIdiv b).born = s.born := setH_born _ _
@[simp] theorem raiseIdiv_limit (s : State) (b : Bool) : (s.raiseIdiv b).limit = s.limit := setH_limit _ _
@[simp] theorem raiseIdiv_ir (s : State) (b : Bool) : (s.raiseIdiv b).ir = s.ir := setH_ir _ _
@[simp] theorem raiseIdiv_gch (s : State) (b : Bool) : (s.raiseIdiv b).gch = s.gch := setH_gch _ _
@[simp] theorem raiseIdiv_refusals (s : State) (b : Bool) : (s.raiseIdiv b).refusals = s.refusals := setH_refusals _ _
@[simp] theorem raiseIdiv_colls (s : State) (b : Bool) : (s.raiseIdiv b).colls = s.colls := setH_colls _ _
@[simp] theorem raiseIdiv_ports (s : State) (b : Bool) : (s.raiseIdiv b).ports = s.ports := setH_ports _ _
@[simp] theorem raiseIdiv_dropped (s : State) (b : Bool) : (s.raiseIdiv b).dropped = s.dropped := setH_dropped _ _
@[simp] theorem raiseIdiv_xsrc (s : State) (b : Bool) : (s.raiseIdiv b).xsrc = s.xsrc := setH_xsrc _ _
@[simp] theorem raiseIdiv_xdst (s : State) (b : Bool) : (s.raiseIdiv b).xdst = s.xdst := setH_xdst _ _
@[simp] theorem raiseIdiv_xlen (s : State) (b : Bool) : (s.raiseIdiv b).xlen = s.xlen := setH_xlen _ _
@[simp] theorem raiseIdiv_xpeer (s : State) (b : Bool) : (s.raiseIdiv b).xpeer = s.xpeer := setH_xpeer _ _
@[simp] theorem raiseIdiv_xstat (s : State) (b : Bool) : (s.raiseIdiv b).xstat = s.xstat := setH_xstat _ _
@[simp] theorem raiseIdiv_qtab (s : State) (b : Bool) : (s.raiseIdiv b).qtab = s.qtab := setH_qtab _ _
@[simp] theorem raiseIdiv_ptab (s : State) (b : Bool) : (s.raiseIdiv b).ptab = s.ptab := setH_ptab _ _
@[simp] theorem raiseIdiv_hdom (s : State) (b : Bool) : (s.raiseIdiv b).hdom = s.hdom := setH_hdom _ _
@[simp] theorem raiseIdiv_mods (s : State) (b : Bool) : (s.raiseIdiv b).mods = s.mods := setH_mods _ _
@[simp] theorem raiseIdiv_event (s : State) (b : Bool) : (s.raiseIdiv b).event = s.event := setH_event _ _
@[simp] theorem raiseIdiv_dump (s : State) (b : Bool) : (s.raiseIdiv b).dump = s.dump := setH_dump _ _
@[simp] theorem raiseIdiv_recovery (s : State) (b : Bool) : (s.raiseIdiv b).recovery = s.recovery := setH_recovery _ _
@[simp] theorem raiseIdiv_ready (s : State) (b : Bool) : (s.raiseIdiv b).ready = s.ready := setH_ready _ _
@[simp] theorem raiseIdiv_hdm (s : State) (b : Bool) : (s.raiseIdiv b).hdm = s.hdm := setH_hdm _ _
@[simp] theorem raiseIdiv_fused (s : State) (b : Bool) : (s.raiseIdiv b).fused = s.fused := setH_fused _ _
@[simp] theorem raiseIdiv_version (s : State) (b : Bool) : (s.raiseIdiv b).version = s.version := setH_version _ _
@[simp] theorem raiseIdiv_firmware (s : State) (b : Bool) : (s.raiseIdiv b).firmware = s.firmware := setH_firmware _ _
@[simp] theorem raiseIdiv_reason (s : State) (b : Bool) : (s.raiseIdiv b).reason = s.reason := setH_reason _ _
@[simp] theorem raiseIdiv_ecc (s : State) (b : Bool) : (s.raiseIdiv b).ecc = s.ecc := setH_ecc _ _
@[simp] theorem raiseIdiv_log (s : State) (b : Bool) : (s.raiseIdiv b).log = s.log := setH_log _ _
@[simp] theorem raiseIdiv_kept (s : State) (b : Bool) : (s.raiseIdiv b).kept = s.kept := setH_kept _ _
@[simp] theorem raiseIdiv_replays (s : State) (b : Bool) : (s.raiseIdiv b).replays = s.replays := setH_replays _ _
@[simp] theorem raiseIdiv_privates (s : State) (b : Bool) : (s.raiseIdiv b).privates = s.privates := setH_privates _ _
@[simp] theorem raiseIdiv_reply (s : State) (b : Bool) : (s.raiseIdiv b).reply = s.reply := setH_reply _ _
@[simp] theorem raiseIdiv_replyPoison (s : State) (b : Bool) : (s.raiseIdiv b).replyPoison = s.replyPoison := setH_replyPoison _ _
@[simp] theorem raiseIdiv_poison (s : State) (b : Bool) : (s.raiseIdiv b).poison = s.poison := setH_poison _ _
@[simp] theorem raiseIdiv_buf (s : State) (b : Bool) : (s.raiseIdiv b).buf = s.buf := setH_buf _ _
@[simp] theorem raiseIdiv_early (s : State) (b : Bool) : (s.raiseIdiv b).early = s.early := setH_early _ _
@[simp] theorem raiseIdiv_holds (s : State) (b : Bool) : (s.raiseIdiv b).holds = s.holds := setH_holds _ _
@[simp] theorem raiseIdiv_turn (s : State) (b : Bool) : (s.raiseIdiv b).turn = s.turn := setH_turn _ _
@[simp] theorem raiseIdiv_walks (s : State) (b : Bool) : (s.raiseIdiv b).walks = s.walks := setH_walks _ _
@[simp] theorem raiseIdiv_miss (s : State) (b : Bool) : (s.raiseIdiv b).miss = s.miss := setH_miss _ _
@[simp] theorem raiseIdiv_serial (s : State) (b : Bool) : (s.raiseIdiv b).serial = s.serial := setH_serial _ _
@[simp] theorem raiseIdiv_sched (s : State) (b : Bool) : (s.raiseIdiv b).sched = s.sched := setH_sched _ _
@[simp] theorem raiseIdiv_ticks (s : State) (b : Bool) : (s.raiseIdiv b).ticks = s.ticks := setH_ticks _ _
@[simp] theorem raiseIdiv_others (s : State) (b : Bool) : (s.raiseIdiv b).others = s.others := setH_others _ _
@[simp] theorem raiseIdiv_tlb (s : State) (b : Bool) : (s.raiseIdiv b).tlb = s.tlb := setH_tlb _ _
@[simp] theorem raiseIdiv_acl (s : State) (b : Bool) : (s.raiseIdiv b).acl = s.acl := setH_acl _ _
@[simp] theorem raiseIdiv_aclOld (s : State) (b : Bool) : (s.raiseIdiv b).aclOld = s.aclOld := setH_aclOld _ _
@[simp] theorem raiseIdiv_msis (s : State) (b : Bool) : (s.raiseIdiv b).msis = s.msis := setH_msis _ _
@[simp] theorem raiseIdiv_resends (s : State) (b : Bool) : (s.raiseIdiv b).resends = s.resends := setH_resends _ _
@[simp] theorem raiseIdiv_xgot (s : State) (b : Bool) : (s.raiseIdiv b).xgot = s.xgot := setH_xgot _ _
@[simp] theorem raiseIdiv_seqs (s : State) (b : Bool) : (s.raiseIdiv b).seqs = s.seqs := setH_seqs _ _
@[simp] theorem raiseIdiv_launches (s : State) (b : Bool) : (s.raiseIdiv b).launches = s.launches := setH_launches _ _
@[simp] theorem raiseIdiv_queues (s : State) (b : Bool) : (s.raiseIdiv b).queues = s.queues := setH_queues _ _
@[simp] theorem raiseIdiv_fatal (s : State) (b : Bool) : (s.raiseIdiv b).fatal = s.fatal := setH_fatal _ _
@[simp] theorem raiseIdiv_powered (s : State) (b : Bool) : (s.raiseIdiv b).powered = s.powered := setH_powered _ _
@[simp] theorem raiseIdiv_fresh (s : State) (b : Bool) : (s.raiseIdiv b).fresh = s.fresh := setH_fresh _ _
@[simp] theorem raiseIdiv_tnd (s : State) (b : Bool) : (s.raiseIdiv b).tnd = s.tnd := setH_tnd _ _
@[simp] theorem raiseIdiv_xh (s : State) (b : Bool) : (s.raiseIdiv b).xh = s.xh := setH_xh _ _
@[simp] theorem raiseIdiv_num (s : State) (b : Bool) : (s.raiseIdiv b).core.num = s.core.num := setH_num _ _

/-! ## raiseSat -/

@[simp] theorem raiseSat_mem (s : State) (b : Bool) : (s.raiseSat b).mem = s.mem := rfl
@[simp] theorem raiseSat_born (s : State) (b : Bool) : (s.raiseSat b).born = s.born := rfl
@[simp] theorem raiseSat_limit (s : State) (b : Bool) : (s.raiseSat b).limit = s.limit := rfl
@[simp] theorem raiseSat_ir (s : State) (b : Bool) : (s.raiseSat b).ir = s.ir := rfl
@[simp] theorem raiseSat_gch (s : State) (b : Bool) : (s.raiseSat b).gch = s.gch := rfl
@[simp] theorem raiseSat_refusals (s : State) (b : Bool) : (s.raiseSat b).refusals = s.refusals := rfl
@[simp] theorem raiseSat_colls (s : State) (b : Bool) : (s.raiseSat b).colls = s.colls := rfl
@[simp] theorem raiseSat_ports (s : State) (b : Bool) : (s.raiseSat b).ports = s.ports := rfl
@[simp] theorem raiseSat_dropped (s : State) (b : Bool) : (s.raiseSat b).dropped = s.dropped := rfl
@[simp] theorem raiseSat_xsrc (s : State) (b : Bool) : (s.raiseSat b).xsrc = s.xsrc := rfl
@[simp] theorem raiseSat_xdst (s : State) (b : Bool) : (s.raiseSat b).xdst = s.xdst := rfl
@[simp] theorem raiseSat_xlen (s : State) (b : Bool) : (s.raiseSat b).xlen = s.xlen := rfl
@[simp] theorem raiseSat_xpeer (s : State) (b : Bool) : (s.raiseSat b).xpeer = s.xpeer := rfl
@[simp] theorem raiseSat_xstat (s : State) (b : Bool) : (s.raiseSat b).xstat = s.xstat := rfl
@[simp] theorem raiseSat_qtab (s : State) (b : Bool) : (s.raiseSat b).qtab = s.qtab := rfl
@[simp] theorem raiseSat_ptab (s : State) (b : Bool) : (s.raiseSat b).ptab = s.ptab := rfl
@[simp] theorem raiseSat_hdom (s : State) (b : Bool) : (s.raiseSat b).hdom = s.hdom := rfl
@[simp] theorem raiseSat_mods (s : State) (b : Bool) : (s.raiseSat b).mods = s.mods := rfl
@[simp] theorem raiseSat_event (s : State) (b : Bool) : (s.raiseSat b).event = s.event := rfl
@[simp] theorem raiseSat_dump (s : State) (b : Bool) : (s.raiseSat b).dump = s.dump := rfl
@[simp] theorem raiseSat_recovery (s : State) (b : Bool) : (s.raiseSat b).recovery = s.recovery := rfl
@[simp] theorem raiseSat_ready (s : State) (b : Bool) : (s.raiseSat b).ready = s.ready := rfl
@[simp] theorem raiseSat_hdm (s : State) (b : Bool) : (s.raiseSat b).hdm = s.hdm := rfl
@[simp] theorem raiseSat_fused (s : State) (b : Bool) : (s.raiseSat b).fused = s.fused := rfl
@[simp] theorem raiseSat_version (s : State) (b : Bool) : (s.raiseSat b).version = s.version := rfl
@[simp] theorem raiseSat_firmware (s : State) (b : Bool) : (s.raiseSat b).firmware = s.firmware := rfl
@[simp] theorem raiseSat_reason (s : State) (b : Bool) : (s.raiseSat b).reason = s.reason := rfl
@[simp] theorem raiseSat_ecc (s : State) (b : Bool) : (s.raiseSat b).ecc = s.ecc := rfl
@[simp] theorem raiseSat_log (s : State) (b : Bool) : (s.raiseSat b).log = s.log := rfl
@[simp] theorem raiseSat_kept (s : State) (b : Bool) : (s.raiseSat b).kept = s.kept := rfl
@[simp] theorem raiseSat_replays (s : State) (b : Bool) : (s.raiseSat b).replays = s.replays := rfl
@[simp] theorem raiseSat_privates (s : State) (b : Bool) : (s.raiseSat b).privates = s.privates := rfl
@[simp] theorem raiseSat_reply (s : State) (b : Bool) : (s.raiseSat b).reply = s.reply := rfl
@[simp] theorem raiseSat_replyPoison (s : State) (b : Bool) : (s.raiseSat b).replyPoison = s.replyPoison := rfl
@[simp] theorem raiseSat_poison (s : State) (b : Bool) : (s.raiseSat b).poison = s.poison := rfl
@[simp] theorem raiseSat_buf (s : State) (b : Bool) : (s.raiseSat b).buf = s.buf := rfl
@[simp] theorem raiseSat_early (s : State) (b : Bool) : (s.raiseSat b).early = s.early := rfl
@[simp] theorem raiseSat_holds (s : State) (b : Bool) : (s.raiseSat b).holds = s.holds := rfl
@[simp] theorem raiseSat_turn (s : State) (b : Bool) : (s.raiseSat b).turn = s.turn := rfl
@[simp] theorem raiseSat_walks (s : State) (b : Bool) : (s.raiseSat b).walks = s.walks := rfl
@[simp] theorem raiseSat_miss (s : State) (b : Bool) : (s.raiseSat b).miss = s.miss := rfl
@[simp] theorem raiseSat_serial (s : State) (b : Bool) : (s.raiseSat b).serial = s.serial := rfl
@[simp] theorem raiseSat_sched (s : State) (b : Bool) : (s.raiseSat b).sched = s.sched := rfl
@[simp] theorem raiseSat_ticks (s : State) (b : Bool) : (s.raiseSat b).ticks = s.ticks := rfl
@[simp] theorem raiseSat_others (s : State) (b : Bool) : (s.raiseSat b).others = s.others := rfl
@[simp] theorem raiseSat_tlb (s : State) (b : Bool) : (s.raiseSat b).tlb = s.tlb := rfl
@[simp] theorem raiseSat_acl (s : State) (b : Bool) : (s.raiseSat b).acl = s.acl := rfl
@[simp] theorem raiseSat_aclOld (s : State) (b : Bool) : (s.raiseSat b).aclOld = s.aclOld := rfl
@[simp] theorem raiseSat_msis (s : State) (b : Bool) : (s.raiseSat b).msis = s.msis := rfl
@[simp] theorem raiseSat_resends (s : State) (b : Bool) : (s.raiseSat b).resends = s.resends := rfl
@[simp] theorem raiseSat_xgot (s : State) (b : Bool) : (s.raiseSat b).xgot = s.xgot := rfl
@[simp] theorem raiseSat_seqs (s : State) (b : Bool) : (s.raiseSat b).seqs = s.seqs := rfl
@[simp] theorem raiseSat_launches (s : State) (b : Bool) : (s.raiseSat b).launches = s.launches := rfl
@[simp] theorem raiseSat_queues (s : State) (b : Bool) : (s.raiseSat b).queues = s.queues := rfl
@[simp] theorem raiseSat_fatal (s : State) (b : Bool) : (s.raiseSat b).fatal = s.fatal := rfl
@[simp] theorem raiseSat_powered (s : State) (b : Bool) : (s.raiseSat b).powered = s.powered := rfl
@[simp] theorem raiseSat_fresh (s : State) (b : Bool) : (s.raiseSat b).fresh = s.fresh := rfl
@[simp] theorem raiseSat_tnd (s : State) (b : Bool) : (s.raiseSat b).tnd = s.tnd := rfl
@[simp] theorem raiseSat_xh (s : State) (b : Bool) : (s.raiseSat b).xh = s.xh := rfl
@[simp] theorem raiseSat_num (s : State) (b : Bool) : (s.raiseSat b).core.num = s.core.num := rfl

/-! ## raiseRange -/

@[simp] theorem raiseRange_mem (s : State) (b : Bool) : (s.raiseRange b).mem = s.mem := rfl
@[simp] theorem raiseRange_born (s : State) (b : Bool) : (s.raiseRange b).born = s.born := rfl
@[simp] theorem raiseRange_limit (s : State) (b : Bool) : (s.raiseRange b).limit = s.limit := rfl
@[simp] theorem raiseRange_ir (s : State) (b : Bool) : (s.raiseRange b).ir = s.ir := rfl
@[simp] theorem raiseRange_gch (s : State) (b : Bool) : (s.raiseRange b).gch = s.gch := rfl
@[simp] theorem raiseRange_refusals (s : State) (b : Bool) : (s.raiseRange b).refusals = s.refusals := rfl
@[simp] theorem raiseRange_colls (s : State) (b : Bool) : (s.raiseRange b).colls = s.colls := rfl
@[simp] theorem raiseRange_ports (s : State) (b : Bool) : (s.raiseRange b).ports = s.ports := rfl
@[simp] theorem raiseRange_dropped (s : State) (b : Bool) : (s.raiseRange b).dropped = s.dropped := rfl
@[simp] theorem raiseRange_xsrc (s : State) (b : Bool) : (s.raiseRange b).xsrc = s.xsrc := rfl
@[simp] theorem raiseRange_xdst (s : State) (b : Bool) : (s.raiseRange b).xdst = s.xdst := rfl
@[simp] theorem raiseRange_xlen (s : State) (b : Bool) : (s.raiseRange b).xlen = s.xlen := rfl
@[simp] theorem raiseRange_xpeer (s : State) (b : Bool) : (s.raiseRange b).xpeer = s.xpeer := rfl
@[simp] theorem raiseRange_xstat (s : State) (b : Bool) : (s.raiseRange b).xstat = s.xstat := rfl
@[simp] theorem raiseRange_qtab (s : State) (b : Bool) : (s.raiseRange b).qtab = s.qtab := rfl
@[simp] theorem raiseRange_ptab (s : State) (b : Bool) : (s.raiseRange b).ptab = s.ptab := rfl
@[simp] theorem raiseRange_hdom (s : State) (b : Bool) : (s.raiseRange b).hdom = s.hdom := rfl
@[simp] theorem raiseRange_mods (s : State) (b : Bool) : (s.raiseRange b).mods = s.mods := rfl
@[simp] theorem raiseRange_event (s : State) (b : Bool) : (s.raiseRange b).event = s.event := rfl
@[simp] theorem raiseRange_dump (s : State) (b : Bool) : (s.raiseRange b).dump = s.dump := rfl
@[simp] theorem raiseRange_recovery (s : State) (b : Bool) : (s.raiseRange b).recovery = s.recovery := rfl
@[simp] theorem raiseRange_ready (s : State) (b : Bool) : (s.raiseRange b).ready = s.ready := rfl
@[simp] theorem raiseRange_hdm (s : State) (b : Bool) : (s.raiseRange b).hdm = s.hdm := rfl
@[simp] theorem raiseRange_fused (s : State) (b : Bool) : (s.raiseRange b).fused = s.fused := rfl
@[simp] theorem raiseRange_version (s : State) (b : Bool) : (s.raiseRange b).version = s.version := rfl
@[simp] theorem raiseRange_firmware (s : State) (b : Bool) : (s.raiseRange b).firmware = s.firmware := rfl
@[simp] theorem raiseRange_reason (s : State) (b : Bool) : (s.raiseRange b).reason = s.reason := rfl
@[simp] theorem raiseRange_ecc (s : State) (b : Bool) : (s.raiseRange b).ecc = s.ecc := rfl
@[simp] theorem raiseRange_log (s : State) (b : Bool) : (s.raiseRange b).log = s.log := rfl
@[simp] theorem raiseRange_kept (s : State) (b : Bool) : (s.raiseRange b).kept = s.kept := rfl
@[simp] theorem raiseRange_replays (s : State) (b : Bool) : (s.raiseRange b).replays = s.replays := rfl
@[simp] theorem raiseRange_privates (s : State) (b : Bool) : (s.raiseRange b).privates = s.privates := rfl
@[simp] theorem raiseRange_reply (s : State) (b : Bool) : (s.raiseRange b).reply = s.reply := rfl
@[simp] theorem raiseRange_replyPoison (s : State) (b : Bool) : (s.raiseRange b).replyPoison = s.replyPoison := rfl
@[simp] theorem raiseRange_poison (s : State) (b : Bool) : (s.raiseRange b).poison = s.poison := rfl
@[simp] theorem raiseRange_buf (s : State) (b : Bool) : (s.raiseRange b).buf = s.buf := rfl
@[simp] theorem raiseRange_early (s : State) (b : Bool) : (s.raiseRange b).early = s.early := rfl
@[simp] theorem raiseRange_holds (s : State) (b : Bool) : (s.raiseRange b).holds = s.holds := rfl
@[simp] theorem raiseRange_turn (s : State) (b : Bool) : (s.raiseRange b).turn = s.turn := rfl
@[simp] theorem raiseRange_walks (s : State) (b : Bool) : (s.raiseRange b).walks = s.walks := rfl
@[simp] theorem raiseRange_miss (s : State) (b : Bool) : (s.raiseRange b).miss = s.miss := rfl
@[simp] theorem raiseRange_serial (s : State) (b : Bool) : (s.raiseRange b).serial = s.serial := rfl
@[simp] theorem raiseRange_sched (s : State) (b : Bool) : (s.raiseRange b).sched = s.sched := rfl
@[simp] theorem raiseRange_ticks (s : State) (b : Bool) : (s.raiseRange b).ticks = s.ticks := rfl
@[simp] theorem raiseRange_others (s : State) (b : Bool) : (s.raiseRange b).others = s.others := rfl
@[simp] theorem raiseRange_tlb (s : State) (b : Bool) : (s.raiseRange b).tlb = s.tlb := rfl
@[simp] theorem raiseRange_acl (s : State) (b : Bool) : (s.raiseRange b).acl = s.acl := rfl
@[simp] theorem raiseRange_aclOld (s : State) (b : Bool) : (s.raiseRange b).aclOld = s.aclOld := rfl
@[simp] theorem raiseRange_msis (s : State) (b : Bool) : (s.raiseRange b).msis = s.msis := rfl
@[simp] theorem raiseRange_resends (s : State) (b : Bool) : (s.raiseRange b).resends = s.resends := rfl
@[simp] theorem raiseRange_xgot (s : State) (b : Bool) : (s.raiseRange b).xgot = s.xgot := rfl
@[simp] theorem raiseRange_seqs (s : State) (b : Bool) : (s.raiseRange b).seqs = s.seqs := rfl
@[simp] theorem raiseRange_launches (s : State) (b : Bool) : (s.raiseRange b).launches = s.launches := rfl
@[simp] theorem raiseRange_queues (s : State) (b : Bool) : (s.raiseRange b).queues = s.queues := rfl
@[simp] theorem raiseRange_fatal (s : State) (b : Bool) : (s.raiseRange b).fatal = s.fatal := rfl
@[simp] theorem raiseRange_powered (s : State) (b : Bool) : (s.raiseRange b).powered = s.powered := rfl
@[simp] theorem raiseRange_fresh (s : State) (b : Bool) : (s.raiseRange b).fresh = s.fresh := rfl
@[simp] theorem raiseRange_tnd (s : State) (b : Bool) : (s.raiseRange b).tnd = s.tnd := rfl
@[simp] theorem raiseRange_xh (s : State) (b : Bool) : (s.raiseRange b).xh = s.xh := rfl
@[simp] theorem raiseRange_num (s : State) (b : Bool) : (s.raiseRange b).core.num = s.core.num := rfl

/-! ## The hart in focus -/

@[simp] theorem setH_h (s : State) (h : Hart) : (s.setH h).h = h := by
  unfold State.setH State.h
  split <;> simp_all [State.setX, State.setA]
@[simp] theorem setH_setH (s : State) (h k : Hart) : (s.setH h).setH k = s.setH k := by
  unfold State.setH
  cases hx : s.xh <;> simp [hx]
@[simp] theorem setH_self (s : State) : s.setH s.h = s := by
  unfold State.setH State.h
  split
  · exact setX_self s
  · exact setA_self s
@[simp] theorem bump_pc (s : State) (n : Nat) : (s.bump n).pc = s.pc + BitVec.ofNat 64 n := by simp [State.bump, State.pc]
@[simp] theorem jump_pc (s : State) (t : Word) : (s.jump t).pc = t &&& ~~~1#64 := by simp [State.jump, State.pc]
@[simp] theorem setLdst_ldst (s : State) (c : BitVec 2) (r : Reg) : (s.setLdst c r).h.ldst = c ++ r := by
  simp [State.setLdst]

end Sys2Proof.Laws
end

