-- ==== Sys2Proof/Laws/Registers.lean ====
section
/-! SUPPORT. Registers read after they or others are written, the shadows among them. -/

namespace Sys2Proof.Laws

open Sys2Proof.Machine

@[simp] theorem setH_shadow (s : State) (h : Hart) : (s.setH h).a.shadow = s.a.shadow := by
  unfold State.setH; split <;> simp
@[simp] theorem setH_ustat (s : State) (h : Hart) : (s.setH h).a.ustat = s.a.ustat := by
  unfold State.setH; split <;> simp
@[simp] theorem setH_shadowed (s : State) (h : Hart) (r : Reg) : (s.setH h).shadowed r = s.shadowed r := by
  simp [State.shadowed]

/-- Shadows replaced. -/
@[simp] theorem shadow_h (s : State) (v : Vector Word 8) : (s.setA { s.a with shadow := v }).h = s.h := by
  simp [State.h, State.setA, State.setTd, State.td, State.a]
@[simp] theorem shadow_shadowed (s : State) (v : Vector Word 8) (r : Reg) :
    (s.setA { s.a with shadow := v }).shadowed r = s.shadowed r := by
  simp [State.shadowed]
theorem shadow_setH (s : State) (v : Vector Word 8) (h : Hart) :
    (s.setA { s.a with shadow := v }).setH h = (s.setH h).setA { (s.setH h).a with shadow := v } := by
  unfold State.setH
  by_cases e : s.xh = true
  · simp [e, State.setA, State.setX, State.setTd, State.td, State.x, State.a]
  · simp [e]

theorem setLdst_getF (s : State) (c : BitVec 2) (d r : Reg) : (s.setLdst c d).getF r = s.getF r := by
  simp only [State.setLdst, State.getF, setH_h]

theorem getS_setH (s : State) (h : Hart) (r : Reg) :
    (s.setH h).getS r = if r = 0#5 then 0
      else if s.shadowed r then s.a.shadow[(r - 24#5).toNat % 8]'(Nat.mod_lt _ (by decide)) else h.s[r.toFin] := by
  simp only [State.getS, setH_shadowed, setH_h]
  split
  · rfl
  · split
    · congr 1; simp
    · rfl

/-- A change of the hart that leaves its s registers leaves what they read as. -/
theorem getS_setH_same (s : State) (h : Hart) (r : Reg) (e : h.s = s.h.s) : (s.setH h).getS r = s.getS r := by
  rw [getS_setH, State.getS, e]
theorem getF_setH_same (s : State) (h : Hart) (r : Reg) (e : h.f = s.h.f) : (s.setH h).getF r = s.getF r := by
  simp only [State.getF, setH_h, e]

@[simp] theorem bump_getS (s : State) (n : Nat) (r : Reg) : (s.bump n).getS r = s.getS r := getS_setH_same _ _ _ rfl
@[simp] theorem jump_getS (s : State) (t : Word) (r : Reg) : (s.jump t).getS r = s.getS r := getS_setH_same _ _ _ rfl
@[simp] theorem bump_getF (s : State) (n : Nat) (r : Reg) : (s.bump n).getF r = s.getF r := getF_setH_same _ _ _ rfl
@[simp] theorem jump_getF (s : State) (t : Word) (r : Reg) : (s.jump t).getF r = s.getF r := getF_setH_same _ _ _ rfl
@[simp] theorem setLdst_getS (s : State) (c : BitVec 2) (d r : Reg) : (s.setLdst c d).getS r = s.getS r :=
  getS_setH_same _ _ _ rfl

/-- Two shadowed registers stand in one place only if they are one. -/
theorem shadow_place (d r : Reg) (hd : 24#5 ≤ d) (hr : 24#5 ≤ r) :
    (d - 24#5).toNat % 8 = (r - 24#5).toNat % 8 ↔ r = d := by
  revert d r; decide

theorem shadowed_ge {s : State} {r : Reg} (h : s.shadowed r = true) : 24#5 ≤ r := by
  simp [State.shadowed] at h; exact h.2

end Sys2Proof.Laws
end

