-- ==== Sys2Proof/Laws/Ops.lean ====
section
/-! SUPPORT. What the shared operations of `Machine/Ops.lean` answer: the checks before an instruction, traps and the
return from them, checked accesses and releases. -/

namespace Sys2Proof.Laws

open Sys2Proof.Machine

/-! ## The checks before an instruction -/

/-- The hart that may issue a well-formed instruction runs it. -/
theorem issue_runs {onA onX : Bool} {i : Instr} {s : State} {body : State → Out}
    (h : (if s.xh then onX else onA) = true) (w : i.wf = true) : issue onA onX i s body = body s := by
  simp [issue, h, w]

/-- The other hart takes an illegal instruction with cause 4. -/
theorem issue_wrong {onA onX : Bool} {i : Instr} {s : State} {body : State → Out}
    (h : (if s.xh then onX else onA) = false) : issue onA onX i s body = s.illegal 4 := by
  simp [issue, h]

/-- A reserved field is an illegal instruction with cause 6. -/
theorem issue_reserved {onA onX : Bool} {i : Instr} {s : State} {body : State → Out}
    (h : (if s.xh then onX else onA) = true) (w : i.wf = false) : issue onA onX i s body = s.illegal 6 := by
  simp [issue, h, w]

/-- All that `issue` can answer. -/
theorem issue_cases (onA onX : Bool) (i : Instr) (s : State) (body : State → Out) :
    issue onA onX i s body = s.illegal 4 ∨ issue onA onX i s body = s.illegal 6 ∨
      ((if s.xh then onX else onA) = true ∧ i.wf = true ∧ issue onA onX i s body = body s) := by
  cases h : (if s.xh then onX else onA)
  · exact .inl (issue_wrong h)
  · cases w : i.wf
    · exact .inr (.inl (issue_reserved h w))
    · exact .inr (.inr ⟨rfl, rfl, issue_runs h w⟩)

/-! ## Traps -/

@[simp] theorem withdraw_h (s : State) : s.withdraw.h = s.h := by unfold State.withdraw; split <;> rfl
@[simp] theorem withdraw_xh (s : State) : s.withdraw.xh = s.xh := by unfold State.withdraw; split <;> rfl
@[simp] theorem withdraw_mem (s : State) : s.withdraw.mem = s.mem := by unfold State.withdraw; split <;> rfl

/-- A trap of a user hart: what it records, and where it goes on (R375, R377). -/
theorem takeTrap_user (s : State) (c v v2 p : Word) (h : s.h.priv = .user) :
    (s.takeTrap c v v2 p).h = { s.h with
      tcause := c, tval := v, tval2 := v2, tpc := p, pc := s.h.tvec, priv := .system, wait := none, since := s.ticks } := by
  have e : s.withdraw.ticks = s.ticks := by unfold State.withdraw; split <;> rfl
  simp [State.takeTrap, h, e]

/-- It changes no memory. -/
theorem takeTrap_mem (s : State) (c v v2 p : Word) (h : s.h.priv = .user) : (s.takeTrap c v v2 p).mem = s.mem := by
  simp [State.takeTrap, h]

/-- A trap at privilege system is a fatal error (R380). -/
theorem takeTrap_system (s : State) (c v v2 p : Word) (h : s.h.priv = .system) :
    s.takeTrap c v v2 p = raiseFatal s 1 s.core.num p := by
  simp [State.takeTrap, h]

/-- Every trap answers a next state. -/
theorem trap_next (s : State) (cls code acc : Nat) (v v2 : Word) :
    s.trap cls code acc v v2 = .next (s.takeTrap (causeWord cls code acc) v v2 s.h.pc) := rfl
theorem illegal_next (s : State) (code : Nat) :
    s.illegal code = .next (s.takeTrap (causeWord 1 code 0) 0 s.ir s.h.pc) := rfl

/-- The return (R141): user privilege, at the saved pc. -/
@[simp] theorem returnTrap_h (s : State) :
    s.returnTrap.h = { s.h with pc := s.h.tpc &&& ~~~1#64, priv := .user, wait := none } := by
  simp [State.returnTrap]
@[simp] theorem returnTrap_mem (s : State) : s.returnTrap.mem = s.mem := by simp [State.returnTrap]

/-! ## Checked accesses -/

/-- A read that is aligned, granted, past every empty line and free of poison goes on with the bytes. -/
theorem readThen_bytes {s t : State} {ag : Agent} {q : Ask} {va : Word} {n : Nat} {k : State → Place → List Byte → Out}
    {p : Place} {l : List Byte} (a : va.toNat % n = 0) (h : translate s s.who q va n = .ok p)
    (r : readMove s s.core.num ag (span p.key n) = (t, .bytes l)) : readThen s ag q va n k = k t p l := by
  simp [readThen, a, h, r]

/-- All that a read can answer: a class 5 trap, that of the refused access, its continuation, a stall at an empty line,
a class 11 trap. -/
theorem readThen_cases (s : State) (ag : Agent) (q : Ask) (va : Word) (n : Nat) (k : State → Place → List Byte → Out) :
    (va.toNat % n ≠ 0 ∧ readThen s ag q va n k = s.badAccess 5 0 q.acc va) ∨
    (∃ e, translate s s.who q va n = .error e ∧ readThen s ag q va n k = s.badAccess e.cls e.code q.acc va) ∨
    ∃ p, va.toNat % n = 0 ∧ translate s s.who q va n = .ok p ∧
      ((∃ t l, readMove s s.core.num ag (span p.key n) = (t, .bytes l) ∧ readThen s ag q va n k = k t p l) ∨
       (∃ t, readMove s s.core.num ag (span p.key n) = (t, .wait) ∧ readThen s ag q va n k = t.stall .line) ∨
       ∃ t g, readMove s s.core.num ag (span p.key n) = (t, .poison g) ∧
         readThen s ag q va n k = t.badAccess 11 (readCode t (span p.key n)) q.acc va) := by
  by_cases a : va.toNat % n = 0
  · cases h : translate s s.who q va n with
    | error e => exact .inr (.inl ⟨e, rfl, by simp [readThen, a, h]⟩)
    | ok p =>
      refine .inr (.inr ⟨p, a, rfl, ?_⟩)
      cases r : readMove s s.core.num ag (span p.key n) with
      | mk t o =>
        cases o with
        | bytes l => exact .inl ⟨t, l, rfl, by simp [readThen, a, h, r]⟩
        | wait => exact .inr (.inl ⟨t, rfl, by simp [readThen, a, h, r]⟩)
        | poison g => exact .inr (.inr ⟨t, g, rfl, by simp [readThen, a, h, r]⟩)
  · exact .inl ⟨a, by simp [readThen, a]⟩

/-- The place of an access that changes memory, aligned, granted and not guarded. -/
theorem placeThen_place {s : State} {q : Ask} {va : Word} {n : Nat} {k : State → Place → Out} {p : Place}
    (a : va.toNat % n = 0) (h : translate s s.who q va n = .ok p)
    (g : (scratchCore? p.key == some s.core.num && guarded s (span p.key n)) = false) :
    placeThen s q va n k = k s p := by
  simp only [placeThen, a, h, g, bne_self_eq_false, Bool.false_eq_true, if_false]

/-- A release that no home holds up performs, and then its continuation runs. -/
theorem releaseThen_free {s : State} {ags : List Agent} {sc : BitVec 2} {k : State → Out}
    (h : releaseHeld s s.core.num ags sc = []) : releaseThen s ags sc k = k (releaseMove s s.core.num ags sc) := by
  simp [releaseThen, h]

/-- All that a release can answer. -/
theorem releaseThen_cases (s : State) (ags : List Agent) (sc : BitVec 2) (k : State → Out) :
    (releaseHeld s s.core.num ags sc = [] ∧ releaseThen s ags sc k = k (releaseMove s s.core.num ags sc)) ∨
    (releaseHeld s s.core.num ags sc ≠ [] ∧
      releaseThen s ags sc k = (askSuspend s (releaseHeld s s.core.num ags sc)).stall .word) := by
  cases h : releaseHeld s s.core.num ags sc with
  | nil => exact .inl ⟨rfl, by simp [releaseThen, h]⟩
  | cons a l => exact .inr ⟨by simp, by simp [releaseThen, h]⟩

/-- A stall changes only what the hart waits for. -/
@[simp] theorem stall_next (s : State) (w : Wait) : s.stall w = .next (s.setH { s.h with wait := some w }) := rfl

end Sys2Proof.Laws
end

