-- ==== Sys2Proof/Laws/Run.lean ====
section
/-! SUPPORT. What a step does around the instruction of a hart: which state it fetches in, what a move of a hart leaves, and
when a hart or an engine waits. -/

namespace Sys2Proof.Laws

open Sys2Proof.Machine

/-! ## Registers that take their value late -/

@[simp] theorem land_pc (a : AHart) (d : RegDest) (w : Word) : (a.land d w).h.pc = a.h.pc := by
  unfold AHart.land; repeat' split
  all_goals rfl
@[simp] theorem land_ldst (a : AHart) (d : RegDest) (w : Word) : (a.land d w).h.ldst = a.h.ldst := by
  unfold AHart.land; repeat' split
  all_goals rfl
@[simp] theorem land_pend (a : AHart) (d : RegDest) (w : Word) : (a.land d w).pend = a.pend := by
  unfold AHart.land; repeat' split
  all_goals rfl
@[simp] theorem land_priv (a : AHart) (d : RegDest) (w : Word) : (a.land d w).h.priv = a.h.priv := by
  unfold AHart.land; repeat' split
  all_goals rfl
@[simp] theorem land_halted (a : AHart) (d : RegDest) (w : Word) : (a.land d w).h.halted = a.h.halted := by
  unfold AHart.land; repeat' split
  all_goals rfl

/-! ## Fetching -/

@[simp] theorem keepUnit_h (s : State) (u : Nat) : (keepUnit s u).h = s.h := by unfold keepUnit; split <;> rfl
@[simp] theorem keepUnit_xh (s : State) (u : Nat) : (keepUnit s u).xh = s.xh := by unfold keepUnit; split <;> rfl
@[simp] theorem keepUnit_mem (s : State) (u : Nat) : (keepUnit s u).mem = s.mem := by unfold keepUnit; split <;> rfl

/-- The address of the slot of the hart in focus. -/
def slotAt (s : State) : Word := if s.pc.getLsbD 1 then s.pc - 2 else s.pc

/-- A word that the hart has already is decoded, with no fetch. -/
theorem fetchInstr_held {s : State} {w : BitVec 32} (h : heldSlot s = some w) :
    fetchInstr s = ({ s with ir := w.setWidth 64 }, decodeFetched s w (s.pc.getLsbD 1)) := by
  unfold fetchInstr; dsimp only; rw [h]

/-- Else the slot is fetched, and its word kept. -/
theorem fetchInstr_fetched {s : State} {u : Nat} {w : BitVec 32} (h : heldSlot s = none) (f : fetchAt s (slotAt s) = .ok (u, w)) :
    fetchInstr s = (tookWord s u w, decodeFetched s w (s.pc.getLsbD 1)) := by
  unfold slotAt at f; unfold fetchInstr; dsimp only; rw [h]; dsimp only; rw [f]

/-- A fetch that is refused leaves the state as it is. -/
theorem fetchInstr_refused {s : State} {e : Refused} (h : heldSlot s = none) (f : fetchAt s (slotAt s) = .error e) :
    fetchInstr s = (s, .inr e) := by
  unfold slotAt at f; unfold fetchInstr; dsimp only; rw [h]; dsimp only; rw [f]

theorem tookWord_eq (s : State) (u : Nat) (w : BitVec 32) :
    tookWord s u w = State.setH { keepUnit s u with ir := w.setWidth 64 } { s.h with slot := some (s.h.pc, w) } := by
  show State.setH { keepUnit s u with ir := w.setWidth 64 } { (keepUnit s u).h with slot := some ((keepUnit s u).h.pc, w) } = _
  rw [keepUnit_h]

/-! ## Moves of harts -/

/-- A hart of core g may move: the team is resident on a core that can run it, and the hart has not halted. -/
structure MayMove (s : State) (t : Fin 4) : Prop where
  resident : s.core.team.status = .resident
  there : t.val < s.core.team.tandems
  fits : fitsCore s.core s.core.team = true
  runs : s.h.halted = false

/-- The part runs: it has power, and no fatal error is in force. -/
theorem standsStill_false {s : State} (p : s.powered = true) (f : s.fatal = none) : standsStill s = false := by
  simp [standsStill, p, f]

@[simp] theorem focus_turn (s : State) (g : Nat) : (s.focus g).turn = s.turn := by unfold State.focus; split <;> rfl

/-- What stands before the body of a hart's move: a wait for the opportunity, one that is owed, else the body. -/
theorem hartThen_eq (g : Nat) (t : Fin 4) (x : Bool) (f : State → Out) (d : State) (p : d.powered = true) (n : d.fatal = none)
    (hg : g < 1536) (m : MayMove ((d.focus g).onHart t x) t) :
    hartThen g t x f d =
      (let s := (d.focus g).onHart t x
       if x && waitsTurn s then .next (awaitTurn s)
       else if x && decide (0 < s.x.owed) && d.turn.isSome then .next (payTurn s 1)
       else
         let s := if x then payTurn s s.x.owed else s
         match f s with
         | .next r => .next (keepWord s (if x then xMoved s r else r))
         | o => o) := by
  unfold hartThen
  rw [if_neg (by simp [standsStill_false p n]; omega)]
  rw [if_neg (by
    have := m.there
    simp only [m.resident, m.runs, m.fits, bne_self_eq_false, Bool.not_true, Bool.or_false, Bool.and_false, Bool.false_or]
    simpa using this)]
  have e : ((d.focus g).onHart t x).turn = d.turn := focus_turn d g
  dsimp only
  rw [e]
  all_goals rfl

/-- A step whose next choice is a hart, or with no choice left the hart in focus, is that hart's move; an opportunity of an
earlier step counts no longer. -/
theorem step_hart {s : State} {g : Nat} {t : Fin 4} {x : Bool} {rest : List Move} (p : s.powered = true)
    (h : s.sched = .hart g t x :: rest ∨ s.sched = [] ∧ rest = [] ∧ g = s.core.num ∧ t = s.tnd ∧ x = s.xh) :
    step s = match hartMove g t x { passCycles s with sched := rest } with
      | .next r => .next { r with fresh := [], turn := none }
      | o => o := by
  have e : takeChoice (passCycles s) = (.hart g t x, { passCycles s with sched := rest }) := by
    have q : (passCycles s).sched = s.sched := rfl
    unfold takeChoice
    obtain h | ⟨h, rfl, rfl, rfl, rfl⟩ := h
    · rw [q, h]
    · rw [q, h]
      refine Prod.ext rfl ?_
      show passCycles s = { passCycles s with sched := [] }
      rw [← h]; rfl
  unfold step
  rw [if_neg (by simp [p]), e]
  unfold runMove moveOf
  dsimp only
  cases hartMove g t x { passCycles s with sched := rest } <;> rfl

/-- What a hart's agents hold and its next instruction may not pass has executed, and nothing but homes and registers has
changed by it. -/
theorem settleHeld_same (s : State) :
    SameElse { s with early := s.early.filter (fun e => !holdsRead s e) } (settleHeld s) := performNow_same _ _

@[simp] theorem settleHeld_xh (s : State) : (settleHeld s).xh = s.xh := (settleHeld_same s).xh
@[simp] theorem settleHeld_tnd (s : State) : (settleHeld s).tnd = s.tnd := (settleHeld_same s).tnd

/-! ## Engines -/

/-- An engine moves for a team that is resident, and stands still for any other (R252, R270, R284, R354). -/
theorem whileResident_cases (s : State) (f : State → Out) :
    (s.core.team.status = .resident → whileResident s f = f s) ∧ (s.core.team.status ≠ .resident → whileResident s f = .next s) :=
  ⟨fun h => by simp [whileResident, h], fun h => by simp [whileResident, h]⟩

end Sys2Proof.Laws
end

