-- ==== Sys2Proof/Safety.lean ====
section
/-! DEFINITION. What counts as a safe run: the states a run goes through keep the canonical form of memory, and every step
ends in a next state. -/

namespace Sys2Proof

open Sys2Proof.Machine

/-- A state whose memory stands in its canonical form. -/
def Sound (s : State) : Prop := s.mem.wf = true

/-- A step is safe when it ends in a next state that is sound. -/
def SafeStep (s : State) : Prop := ∃ t, step s = .next t ∧ Sound t

/-- A run of k steps is safe when each of its steps is. -/
def SafeRun : Nat → State → Prop
  | 0, s => Sound s
  | k + 1, s => Sound s ∧ ∃ t, step s = .next t ∧ SafeRun k t

end Sys2Proof
end

