-- ==== Sys2Proof/Tests/Slice0.lean ====
section
/-! SUPPORT. Tests: ill-formed terms, words of the encodings, results of single steps, and a state that meets the
hypotheses of each clause of each obligation. -/

set_option Elab.async false

namespace Sys2Proof.Tests

open Sys2Proof.Machine Sys2Proof.Claims

/-! ## States that the tests start from -/

/-- The instruction answers a next state that `p` holds of. -/
def ends (i : Instr) (s : State) (p : State → Bool) : Bool :=
  match exec i s with
  | .next t => p t
  | _ => false

/-- A team of four tandems on a core with one lane group and a scratchpad of 1 MiB. -/
def team : Team := { Team.blank with status := .resident, tandems := 4, w := 1, spad := 16 }

/-- The first A-hart of that team on core 0. -/
def onA : State := { State.reset with core := { (Core.reset 0) with team := team } }

/-- The X-hart of the same tandem. -/
def onX : State := { onA with xh := true }

/-- The first byte of the scratchpad window. -/
def win : Word := 0x00FFFF0000000000

/-- s with some s registers set. -/
def setR (s : State) (l : List (Reg × Word)) : State := l.foldl (fun s p => s.setS p.1 p.2) s

/-- s with some f registers set. -/
def setFR (s : State) (l : List (Reg × Word)) : State := l.foldl (fun s p => s.setF p.1 p.2) s

/-- s at privilege system. -/
def sys (s : State) : State := s.setH { s.h with priv := .system }

/-! ## Registers, scalar arithmetic, queues and grants -/

/-- Expected values: the table of R122. -/
theorem test_div_edges :
    (let s := setR onA [(1, 0x8000000000000000), (2, 0xFFFFFFFFFFFFFFFF), (4, 7)]
     [(Instr.div 3 1 2, 0x8000000000000000), (.rem 3 1 2, 0), (.div 3 4 0, 0xFFFFFFFFFFFFFFFF), (.rem 3 4 0, 7),
      (.divu 3 4 0, 0xFFFFFFFFFFFFFFFF), (.remu 3 4 0, 7)].all
      (fun p => ends p.1 s (fun t => t.getS 3 == p.2 && t.h.iflags && t.pc == 4))) = true := by decide +kernel

/-- -7 divided by 2, rounded toward zero, with no flag (R122). -/
theorem test_div_rounds :
    (let s := setR onA [(1, 0xFFFFFFFFFFFFFFF9), (2, 2)]
     ends (.div 3 1 2) s (fun t => t.getS 3 == 0xFFFFFFFFFFFFFFFD && !t.h.iflags) &&
     ends (.rem 3 1 2) s (fun t => t.getS 3 == 0xFFFFFFFFFFFFFFFF && !t.h.iflags)) = true := by decide +kernel

/-- 0x0000000000F00000 has 40 leading zeros, 20 trailing zeros and 4 ones (R123). -/
theorem test_bop :
    (let s := setR onA [(1, 0xF00000)]
     ends (.bop 3 1 0) s (fun t => t.getS 3 == 40) && ends (.bop 3 1 1) s (fun t => t.getS 3 == 20) &&
     ends (.bop 3 1 2) s (fun t => t.getS 3 == 4) &&
     ends (.bop 3 1 3) s (fun t => t.getS 3 == 0x00000F0000000000)) = true := by decide +kernel

/-- (-2^63) x 2: the high half is -1, and 1 unsigned (R121). -/
theorem test_mulh :
    (let s := setR onA [(1, 0x8000000000000000), (2, 2)]
     ends (.mulh 3 1 2) s (fun t => t.getS 3 == 0xFFFFFFFFFFFFFFFF) &&
     ends (.mulhu 3 1 2) s (fun t => t.getS 3 == 1) &&
     ends (.slt 3 1 2) s (fun t => t.getS 3 == 1) && ends (.sltu 3 1 2) s (fun t => t.getS 3 == 0)) = true := by
  decide +kernel

/-- A branch of offset -2 halfwords from 0x100 goes to 0xFC; `jalr s1,[s1+#5]` reads s1 first and clears bit 0. -/
theorem test_transfers :
    (let s := (setR onA [(1, 0x200)]).jump 0x100
     ends (.beq 0 0 0x3FFE) s (fun t => t.pc == 0xFC) && ends (.bne 0 0 0x3FFE) s (fun t => t.pc == 0x104) &&
     ends (.jalr 1 1 5) s (fun t => t.pc == 0x204 && t.getS 1 == 0x104) &&
     ends (.lui 3 1) s (fun t => t.getS 3 == 0x2000)) = true := by decide +kernel

/-- 1.5 + 2.25 = 3.75 in fp32, boxed; 1 / 0 gives infinity and dz (R135). -/
theorem test_scalar_float :
    (let s := setFR onA [(1, 0xFFFFFFFF3FC00000), (2, 0xFFFFFFFF40100000), (4, 0xFFFFFFFF3F800000), (5, 0xFFFFFFFF00000000)]
     ends (.fadd 3 1 2 0) s (fun t => t.getF 3 == 0xFFFFFFFF40700000 && t.h.fflags == 0) &&
     ends (.fdiv 3 4 5 0) s (fun t => t.getF 3 == 0xFFFFFFFF7F800000 && t.h.fflags == 0b01000)) = true := by
  decide +kernel

theorem witness_BitOperations : (1 : Reg) ≠ 0 := by decide

theorem witness_ScalarFloat :
    ((0 : BitVec 2) ≠ 3) ∧ ((2 : BitVec 2) = 2) ∧ (Fmt.fp32 = .fp32 ∨ Fmt.fp32 = .fp64) ∧ 0 < Fmt.fp32.width - 1 := by
  decide

theorem witness_ScalarFrame :
    (destS (.div 3 1 2) = some 3 ∧ ends (.div 3 1 2) (setR onA [(1, 7)]) (fun _ => true) = true) ∧
    (destF (.fma 3 1 2 1) = some 3 ∧ Instr.wf (.fma 3 1 2 1) = true ∧ ends (.fma 3 1 2 1) onA (fun _ => true) = true) := by
  decide +kernel

/-- The tandem of the hart with three entries in its q6 or q7. -/
def queued (s : State) (n : Nat) : State :=
  s.setTd { s.td with q6 := List.replicate n 7, q7 := List.replicate n 9 }

theorem witness_ScalarQueues :
    (onA.xh = false ∧ (queued onA 15).td.q6.length < 16) ∧ (queued onA 16).td.q6.length = 16 ∧
    (queued onA 1).td.q7 = 9 :: [] ∧ onA.td.q7 = [] ∧
    (onX.xh = true ∧ (queued onX 15).td.q7.length < 16) ∧ (queued onX 16).td.q7.length = 16 ∧
    (queued onX 1).td.q6 = 7 :: [] ∧ onX.td.q6 = [] ∧ ((0 : Reg) ≠ 6 ∧ (0 : Reg) ≠ 7) := by decide +kernel

/-- R61 and R132: the X-hart pops what the A-hart pushed; a full head stalls. -/
theorem test_queues :
    (ends (.qpush 6 1 0) (setR onA [(1, 5)]) (fun t =>
      ends (.qpop 2 6 0) { t with xh := true } (fun u => u.getS 2 == 5 && u.td.q6.isEmpty)) &&
     ends (.qpush 6 1 0) (queued onA 16) (fun t => t.h.wait == some .queue && t.pc == 0) &&
     ends (.qpop 2 6 0) onA (fun t => t.h.tcause == 0x0000000000060001)) = true := by decide +kernel

/-- A stream of 8-byte elements of which `started` lines have been issued. -/
def streamAt (started : Nat) : Stream where
  en := true
  src := win
  esz := 3
  stride := 8
  lines := 4
  boff := 0
  started := started
  filling := false
  read := 0
  seen := []
  parts := []
  since := 0
  fault := none

/-- The A-hart with an application of 100 elements, on position `p`, with one stream. -/
def inApp (p started : Nat) (hw : Word) : State :=
  onA.setA { onA.a with
    app := some { n := 100, hw := hw, scope := 0, p := p, acq := none, streams := Vector.replicate 4 { streamAt started with en := false } |>.set 0 (streamAt started) } }

/-- A grant of ten elements in the queue of the tandem. -/
def grantWaits : State :=
  onX.setTd { onX.td with gq := [{ two := false, n := 10, rows := 1, cols := 10, sew := 2, group := 0, mask := 32 }] }

theorem witness_Grants :
    (onA.xh = false ∧ onA.core.expired = false ∧ onA.td.gq.length < 8) ∧
    ((highWater onA).isSome = true ∧ (grant1 onA 10 0 2 none).2.isSome = true) ∧
    ((highWater (inApp 0 0 0)).isSome = true ∧ (grant1 (inApp 0 0 0) 10 0 3 none).2.isNone = true ∧
      (streamFaultAt (inApp 0 0 0) (grant1 (inApp 0 0 0) 10 0 3 none).1).isNone = true) ∧
    ((onA.getS 2).toNat = 0 ∧ grantStalled onA = false) ∧
    (onA.maxvl 2 0 < ((setR onA [(2, 0x100000)]).getS 2).toNat) ∧
    (((setR onA [(2, 4)]).getS 2).toNat ≠ 0 ∧ ((setR onA [(2, 4)]).getS 2).toNat ≤ onA.maxvl 2 0 ∧
      onA.core.team.port = false ∧ (grant2 onA 3 4 2 none).2.isSome = true) ∧
    (grantWaits.xh = true ∧ grantWaits.td.gq ≠ []) ∧ (onX.xh = true ∧ onX.td.gq = []) ∧
    ((inApp 4 2 0).a.app.isSome = true ∧ (grant1 (inApp 4 2 0) 10 0 3 none).2.isSome = true) := by decide +kernel

/-- The limiter mask of a grant that the remaining length alone limits is bit 5 (R42), and its strip is counted. -/
theorem test_setvl :
    ends (.setvl 3 1 0 2) (setR onA [(1, 10)]) (fun t =>
      t.getS 3 == 10 && t.h.glim == 0b0100000 && t.h.strip == 1 && t.td.gq.length == 1) = true := by decide +kernel

theorem test_setvl_taken :
    ends (.setvl 3 0 0 2) grantWaits (fun t => t.getS 3 == 10 && t.x.vl == 10 && t.h.glim == 32 && t.td.gq.isEmpty) = true := by
  decide +kernel

theorem witness_Applications :
    ((readable (setR onA [(1, win)]) onA.scalarAgent Ask.record win 128).any (fun r => !fillsPending r.1) = true) ∧
    (let s := (inApp 0 0 0).setA { (inApp 0 0 0).a with
       app := (inApp 0 0 0).a.app.map (fun p => { p with streams := p.streams.set 0 { streamAt 1 with filling := true } }) }
     fillsPending s = true ∧ (readable s s.scalarAgent Ask.record win 128).any (fun r => fillsPending r.1) = true) ∧
    fillsPending onA = false ∧
    ((writable onA Ask.store win 8).isSome = true ∧
      (releaseHeld onA 0 [onA.scalarAgent] 0).isEmpty = true) ∧
    (onA.a.h.strip - onA.x.h.strip).toNat ≤ (onA.getS 1).toNat ∧
    (let s := onA.setA { onA.a with h := { onA.a.h with strip := 3 } }
     (s.getS 1).toNat < (s.a.h.strip - s.x.h.strip).toNat) ∧
    onX.xh = true ∧ (3 : Reg).toNat ≥ 3 := by decide +kernel

/-- R149: a length above 65,536 is clipped. -/
theorem test_setdim :
    ends (.setdim 1 2 3) (setR onX [(2, 100000), (3, 0x1FFFFFFFF)]) (fun t =>
      t.x.dims[1].len == 65536 && t.x.dims[1].stride == 0xFFFFFFFF && t.x.dims[0] == onX.x.dims[0]) = true := by
  decide +kernel
/-! ## Traps, control registers, loads, stores and atomics -/

/-- s with the page at 0x10000 mapped to itself by a cached leaf of the given kind and second word, all permissions. -/
def paged (s : State) (kind : Nat) (w1 : Word) : State :=
  { s with tlb := [{ die := 0, root := 0, base := 0x10000, size := 4096, w0 := BitVec.ofNat 64 (0x103C3 + kind * 1024), w1 := w1 }] }

/-- s with its team in a security domain. -/
def inDomain (s : State) (d : BitVec 16) : State := s.setTeam { s.core.team with domain := d }

theorem witness_TrapEntry :
    (onA.h.priv = .user ∧ onX.h.priv = .user) ∧
    ((sys onA).h.priv = .system ∧ (sys onA).fatal = none ∧ (sys onA).core.num < 1536 ∧ (sys onA).others.isEmpty = true ∧
      (sys onA).ecc.isEmpty = true ∧ (sys onA).refusals.isEmpty = true) ∧
    (let s := { sys onA with fatal := some { first := 2, further := 0xFFFF, core := 1, detail := 0 } }
     s.h.priv = .system ∧ s.fatal.any (fun f => f.further == 0xFFFF) = true) := by decide +kernel

/-- R140 and R375: `trap #5` saves its class and code, resumes after itself and goes on at `tvec`. -/
theorem test_trap :
    (let s := onA.setH { onA.h with tvec := 0x400, pc := 0x100 }
     ends (.trap 5) s (fun t => t.pc == 0x400 && t.h.tpc == 0x104 && t.h.tcause == 0x50003 && t.h.priv == .system)) = true := by
  decide +kernel

/-- `eret` at privilege system goes back to `tpc` at privilege user (R141). -/
theorem test_eret :
    (let s := sys (onA.setH { onA.h with tpc := 0x205 })
     ends .eret s (fun t => t.pc == 0x204 && t.h.priv == .user)) = true := by decide +kernel

theorem witness_ControlRegisters :
    (csrListed onX.xh 0x000 = true ∧ csrSystem 0x000 = false) ∧
    (csrListed onA.xh 0x801 = true ∧ csrSystem 0x801 = true ∧ (sys onA).h.priv = .system) ∧
    (csrListed onX.xh 0x023 = false ∧ csrListed onA.xh 0x009 = false ∧ csrListed onA.xh 0x813 = false) ∧
    ((0x023#12).toNat = 0x023 ∧ 0x810 ≤ (0x812#12).toNat ∧ (0x012#12).toNat ≤ 0x12 ∧ 0x812 < (0x813#12).toNat) := by
  decide +kernel

/-- R67 and R68: `frm` keeps its value when 5 is written; a flag is cleared by a 1. -/
theorem test_csr :
    (let s := (setR onA [(1, 5), (2, 0b01000)]).setH { (setR onA [(1, 5), (2, 0b01000)]).h with frm := 3, fflags := 0b01001 }
     ends (.csrw 1 0x020) s (fun t => t.h.frm == 3) && ends (.csrw 2 0x021) s (fun t => t.h.fflags == 0b00001) &&
     ends (.csrx 3 2 0x021) s (fun t => t.h.fflags == 0b00001 && t.getS 3 == 0b01001)) = true := by decide +kernel

theorem witness_TrapsAndReturns :
    (onA.h.priv = .user ∧ 0x801 ≤ (0x806#12).toNat ∧ (0x806#12).toNat ≤ 0x806) ∧ onA.a.ustat = false ∧
    (1#24 ≠ 0) ∧ (sys onX).h.priv = .system ∧
    (let s := onA.setA { onA.a with ustat := true }
     s.h.priv = .user ∧ s.xh = false ∧ s.a.ustat = true) := by decide +kernel

theorem witness_ScalarLoads :
    ([0, 1, 2, 3].all (fun z => (readable (setR onA [(1, win)]) onA.scalarAgent Ask.load
       (ea (setR onA [(1, win)]) 1 8) (2 ^ z)).isSome) = true) ∧
    (readable (setR onA [(1, win)]) onA.scalarAgent Ask.load (win + 0xFFFF8) 8).isSome = true ∧
    ends (.ld 3 1 3 8) (setR onA [(1, win)]) (fun _ => true) = true ∧ onA.buf.isEmpty = true ∧
    (let s := { setR onA [(1, win)] with holds := true }
     s.holds = true ∧ (readable s s.scalarAgent Ask.load (ea s 1 8) 8).isSome = true) := by decide +kernel

/-- R219 and R223: the agent of a load that is held may execute the read again; a held atomic gives its old value to its
register as it performs at home. -/
theorem test_held :
    (let s := { setR { onA with mem := onA.mem.writeAll (cellsAt scratchBase [7]) } [(1, win), (2, 2)] with holds := true }
     ends (.ld 3 1 3 0) s (fun t => t.getS 3 == 7 && t.early.length == 1 && t.pc == 4 &&
       ends (.execute 0 .held 0 0 0) { t with mem := t.mem.writeAll (cellsAt scratchBase [9]) } (fun u => u.getS 3 == 9)) &&
     ends (.amoadd 3 1 2 0 0 0 0 0) s (fun t => t.getS 3 == 0 && t.h.ldst == 3 && t.buf.length == 1 &&
       ends (.drain 0) t (fun u => ends (.drain 0) u (fun v => v.getS 3 == 7 && v.mem.read scratchBase == 9 && v.buf.isEmpty)))) = true := by
  decide +kernel

theorem witness_ScalarStores :
    ([0, 1, 2, 3].all (fun z => (writable (setR onA [(1, win)]) Ask.store (ea (setR onA [(1, win)]) 1 8) (2 ^ z)).isSome) = true) ∧
    ends (.st 3 1 3 8) (setR onA [(1, win)]) (fun _ => true) = true ∧
    ends (.fst 3 1 2 8) (setR onA [(1, win)]) (fun _ => true) = true := by decide +kernel

/-- A halfword stored in the scratchpad comes back extended, low byte first (R104, R129). -/
theorem test_store_load :
    ends (.st 2 1 1 2) (setR onA [(1, win), (2, 0x12349081)]) (fun t =>
      ends (.ld 3 1 1 2) t (fun u => u.getS 3 == 0xFFFFFFFFFFFF9081) &&
      ends (.ldu 3 1 0 3) t (fun u => u.getS 3 == 0x90) && ends (.ld 3 1 1 4) t (fun u => u.getS 3 == 0)) = true := by
  decide +kernel

/-- A misaligned load is a trap of class 5 with the address (R130). -/
theorem test_misaligned :
    ends (.ld 3 1 3 4) (setR onA [(1, win)]) (fun t => t.h.tcause == 5 && t.h.tval == win + 4 && t.getS 3 == 0) = true := by
  decide +kernel

theorem witness_MemorySeen :
    (onA.early.isEmpty = true ∧ onA.buf.isEmpty = true ∧ lineFull onA scratchBase = true ∧
      heldByGrotto onA [scratchBase] = false ∧ visibleByte onA 0 onA.scalarAgent scratchBase = none ∧
      poisonedAt onA scratchBase = false) ∧
    (let s := { onA with poison := [scratchBase] }
     visibleByte s 0 s.scalarAgent scratchBase = none ∧ poisonedAt s scratchBase = true) ∧
    onA.mem.wf = true := by decide +kernel

theorem witness_RefusedAccesses :
    (2 ^ 56 ≤ (0xFFFFFFFFFFFFFFF8 : Word).toNat) ∧
    (windowBase + windowSize ≤ (win + 0x800000).toNat ∧ (win + 0x800000).toNat < 2 ^ 56) ∧
    ((win + 0xFFFF8).toNat - windowBase + 8 ≤ onA.who.spad * 65536) ∧
    (onA.who.spad * 65536 < (win + 0xFFFF9).toNat - windowBase + 8) ∧ Ask.fetch.mode = .exec ∧
    (let s := paged onA 0 0
     (match leafOf s s.who 0x10000 with
       | .ok l => l.w0.getLsbD 6 && l.w0.getLsbD 9 && leafKind l.w0 == 0 && decide (leafPa l.w0 + (0x10000 - l.base) < hostBase) &&
           !aclPasses s (channelOf 0x10000) s.who.domain .read 0x10000 8 &&
           aclPasses s (channelOf 0x10000) 0xFFFF .read 0x10000 8
       | _ => false) = true) ∧
    (let s := paged onA 2 0
     (match leafOf s s.who 0x10000 with | .ok l => leafKind l.w0 == 2 && l.w0.getLsbD 6 | _ => false) = true) ∧
    (let s := { onA with tlb := [{ die := 0, root := 0, base := 0x10000, size := 4096, w0 := 0x10003, w1 := 0 }] }
     (match leafOf s s.who 0x10000 with | .ok l => !l.w0.getLsbD 6 | _ => false) = true) ∧
    ((ea (setR onA [(1, win)]) 1 4).toNat % 8 ≠ 0) ∧
    ((match translate onA onA.who Ask.load 0x20000 8 with | .error _ => true | _ => false) = true) ∧
    ((match translate onA onA.who Ask.store 0x20000 8 with | .error _ => true | _ => false) = true) := by decide +kernel

/-- A user of the page tables at 0x8000, of which the first three levels are pointers; the entry of the page at 0x1000. -/
def tableUser : Who := { onA.who with root := 0x8000 }
def tablesTo (w0 w1 : Word) : State :=
  { onA with mem := onA.mem.writeAll (cellsAt 0x8000 (bytesOf 8 0x10001) ++ cellsAt 0x10000 (bytesOf 8 0x18001) ++
    cellsAt 0x18000 (bytesOf 8 0x20001) ++ cellsAt 0x20010 (bytesOf 8 w0 ++ bytesOf 8 w1)) }

theorem witness_TranslationOrder_walk :
    (let s := tablesTo 0 0
     s.tlb.isEmpty = true ∧ walkEntry s 0x8000 0x1000 3 = some 0x20010 ∧ (s.mem.word 0x20010).getLsbD 0 = false ∧ s.poison.isEmpty = true ∧
       missOf s tableUser 0x1000 = none ∧
       walkEntry s 0x8000 (2 ^ 45) 0 = some 0x8010 ∧ (s.mem.word 0x8010).getLsbD 0 = false) ∧
    (let s := { onA with mem := onA.mem.writeAll (cellsAt 0x8000 (bytesOf 8 3)) }
     walkEntry s 0x8000 0x1000 0 = some 0x8000 ∧ malformedLeaf 0 (s.mem.word 0x8000) (s.mem.word 0x8008) = true ∧
       (s.mem.word 0x8000).getLsbD 0 = true ∧ (s.mem.word 0x8000).getLsbD 1 = true) ∧
    (let s := tablesTo 0x41005 0
     walkEntry s 0x8000 0x1000 3 = some 0x20010 ∧ malformedTable (s.mem.word 0x20010) (s.mem.word 0x20018) = true ∧
       (s.mem.word 0x20010).getLsbD 0 = true ∧ (s.mem.word 0x20010).getLsbD 1 = false) ∧
    tableUser.root.toNat = 0x8000 := by decide +kernel

theorem witness_TranslationOrder_kinds :
    (windowBase ≤ win.toNat ∧ win.toNat < windowBase + windowSize) ∧
    (let s := paged onA 3 0
     (match leafOf s s.who 0x10000 with | .ok l => leafKind l.w0 == 3 && l.w0.getLsbD 6 && l.w0.getLsbD 9 | _ => false) = true ∧
       Ask.load.peer = false ∧ ¬ kindAdmits Ask.load 3) ∧
    (let s := paged onA 0 0
     (match leafOf s s.who 0x10000 with | .ok l => leafFmt l.w1 == 0 && leafTrellis l.w1 == 0 && !leafGrotto l.w1 | _ => false) = true ∧
       kindAdmits Ask.load 0 ∧ ¬ attrAdmits .x64 0 ∧ ¬ attrAdmits .parameter 0 ∧ ¬ attrAdmits .gradient 0 ∧ ¬ attrAdmits .grotto 0 ∧
       ¬ attrAdmits .notX64 0x60) := by
  unfold kindAdmits attrAdmits
  decide +kernel

/-- R205, R206 and R211: an entry that is not valid gives cause 1, a malformed one cause 2. -/
theorem test_walk_refusals :
    (let why := fun (w0 : Word) => match translate (tablesTo w0 0) tableUser Ask.load 0x1000 8 with
       | .error e => some (e.cls, e.code)
       | .ok _ => none
     why 0 == some (6, 1) && why 0x41005 == some (6, 2)) = true := by decide +kernel

/-- A feed command of one step of 128 bytes from the first line of the scratchpad. -/
def fedFrom : FeedCmd where
  t := 0
  words := [win, 0x100000080, 0]
  ord := { scope := 0, acq := false, rel := false }
  step := 0
  since := 0
  fault := none

theorem witness_RefusedAccesses_guard :
    (let s := onA.setTeam { onA.core.team with og := 2, feeds := [fedFrom] }
     (match translate s s.who Ask.store win 8 with | .ok p => scratchCore? p.key == some 0 && guarded s (span p.key 8) | _ => false) = true ∧
     s.core.team.og ≠ 1) := by decide +kernel

theorem witness_Atomics :
    (let s := inDomain (setR (paged onA 0 0) [(1, 0x10000)]) 0xFFFF
     (atomicAllowed s 8 .none false 0x10000).isSome = true ∧ (atomicAllowed s 4 .notX64 false 0x10000).isSome = true ∧
     (atomicAllowed s 4 .none true 0x10000).isSome = true ∧
     (releaseHeld s 0 [s.scalarAgent] 0).isEmpty = true ∧ heldByGrotto s (span 0x10000 8) = false ∧
     poisonedAt s 0x10000 = false) ∧
    (let s := inDomain (setR (paged onA 0 0x60) [(1, 0x10000)]) 0xFFFF
     (atomicAllowed s 4 .none true 0x10000).any isX64 = true) ∧
    (atomicAllowed onA 8 .none false win).isSome = true ∧
    (let s := { onA with holds := true }
     s.holds = true ∧ (3 : Reg) ≠ 0 ∧ (atomicAllowed s 8 .none false win).isSome = true ∧
       (enterHeld s s.core.num s.scalarAgent 0 (span scratchBase 8)).isEmpty = true) := by decide +kernel

/-- R238: `amoadd` writes the old value and adds, 4-byte values sign-extended; `amomm` of kind 2 compares unsigned. -/
theorem test_atomics :
    (let s := setR { onA with mem := onA.mem.writeAll (cellsAt scratchBase [0xFF, 0xFF, 0xFF, 0xFF]) } [(1, win), (2, 2)]
     ends (.amoadd 3 1 2 0 0 0 0 0) s (fun t => t.getS 3 == 0xFFFFFFFFFFFFFFFF && t.mem.read scratchBase == 1 && t.mem.read (scratchBase + 3) == 0) &&
     ends (.amomm 3 1 2 0 0 0 0 2 0) s (fun t => t.getS 3 == 0xFFFFFFFF && t.mem.read scratchBase == 2) &&
     ends (.amocas 3 1 2 0 0 0 0 0) s (fun t => t.mem.read scratchBase == 0xFF) &&
     ends (.amoswp 3 1 2 0 0 0 0 0) s (fun t => t.mem.read scratchBase == 2)) = true := by decide +kernel

/-- A barrier word of two parties at the window, whose phases are 3 and 4, and a plain word at +0x80. -/
def barrier : State :=
  setR { onA with mem := onA.mem.writeAll (cellsAt scratchBase [2] ++ cellsAt (scratchBase + 8) [3] ++ cellsAt (scratchBase + 16) [4] ++ cellsAt (scratchBase + 128) [7]) } [(1, win), (4, win + 128)]

theorem witness_OrderingAndWaiting :
    (releaseHeld onA 0 [.scalar 0, .vector 0] 3).isEmpty = true ∧
    (acquired barrier win 8).isSome = true ∧ (acquired barrier win 4).isSome = true ∧
    ((writable barrier Ask.store win 8).isSome = true ∧ (writable barrier Ask.store win 4).isSome = true) ∧
    ((acquired barrier (win + 128) 8).any (fun r => wordOf r.2 == 7) = true) ∧
    ((acquired barrier (win + 8) 8).any (fun r => wordOf r.2 == 3) = true) ∧
    ((leastPhase (phaseWords win 2) barrier 0xFFFFFFFFFFFFFFFF).any (fun r => r.2 == 3) = true) ∧
    ((acquired barrier (win + 0x80) 8).any (fun r => ((0 : Word)).toNat ≤ (wordOf r.2).toNat) = true) ∧
    ((acquired barrier (win + 0x200) 8).any (fun r => (wordOf r.2).toNat < (3 : Word).toNat && (wordOf r.2).extractLsb' 0 16 == 0) = true) ∧
    (let s := setR (onA.setTeam { onA.core.team with event := 6 }) [(1, 2), (2, 1)]
     s.core.team.event &&& (s.getS 1).extractLsb' 0 16 ≠ 0 ∧ s.core.team.event &&& (s.getS 2).extractLsb' 0 16 = 0 ∧
     (s.getS 2).extractLsb' 0 16 ≠ 0) ∧
    waiting onA onA.core.team.prio = false ∧
    (let s := onA.setH { onA.h with halted := true }
     s.h.halted = true ∧ (readyFault s).isNone = true) := by decide +kernel

/-- R247: `barw` takes the least phase once it has reached the target, and stalls before. -/
theorem test_barw :
    (ends (.barw 3 1 2 0 1) (setR barrier [(2, 3)]) (fun t => t.getS 3 == 3 && t.pc == 4) &&
     ends (.barw 3 1 2 0 1) (setR barrier [(2, 4)]) (fun t => t.h.wait == some (.barw 3 1 2 0 1) && t.pc == 0) &&
     ends (.barw 3 4 2 0 1) (setR barrier [(2, 4), (4, win + 0x200)]) (fun t => t.getS 3 == 0xFFFFFFFFFFFFFFFF)) = true := by
  decide +kernel

/-- R248: `wfe` takes and clears the bits of its mask. -/
theorem test_wfe :
    (let s := setR (onA.setTeam { onA.core.team with event := 6 }) [(1, 3)]
     ends (.wfe 3 1) s (fun t => t.getS 3 == 2 && t.core.team.event == 4) &&
     ends (.sev 1) s (fun t => t.core.team.event == 7)) = true := by decide +kernel

/-- No home is held up where no row step is open and nothing is guarded: the premises of releasing stores and of atomics. -/
theorem witness_FreeHomes :
    (enterHeld onA 0 onA.scalarAgent 2 (span scratchBase 8)).isEmpty = true ∧
    (releaseHeld onA 0 [onA.scalarAgent] 2).isEmpty = true ∧ (releaseHeld onA 0 [onA.vectorAgent] 2).isEmpty = true ∧
    (atomicHeld onA (span scratchBase 8)).isEmpty = true ∧ onA.vm.serial = 0 ∧
    badByte onA 0 onA.scalarAgent scratchBase = false ∧ poisonedAt onA scratchBase = false ∧
    (let s := (onA.setTeam { onA.core.team with event := 0b110 })
     s.core.team.event &&& 0b010 &&& ~~~earlierWaits s ≠ 0) ∧
    (onA.tnd = 0 ∧ onA.xh = false ∧ (onA.core.team.tds.toList.all (fun t => t.a.h.wait.isNone && t.x.h.wait.isNone)) = true) := by
  decide +kernel

/-! ## Vector instructions -/

/-- The X-hart on a strip of n elements of a format and a width code. -/
def strip (n : BitVec 17) (fmt : BitVec 4) (sew : BitVec 2) : State := onX.setX { onX.x with vl := n, fmt := fmt, sew := sew }

/-- s with some v registers set, each to its elements of w bits. -/
def setV (s : State) (w : Nat) (l : List (Fin 32 × List Nat)) : State :=
  s.setX { s.x with v := l.foldl (fun v p =>
    v.set p.1.val (p.2.zipIdx.foldl (fun r e => setElem r w e.2 (BitVec.ofNat 64 e.1)) 0) p.1.isLt) s.x.v }

/-- The first n elements of w bits of register r. -/
def elems (s : State) (w : Nat) (r : Nat) (n : Nat) : List Nat := (List.range n).map (fun i => getElemN (s.x.reg r) w i)

/-- `fits`, as a value. -/
def fitsB (s : State) (d : Reg) (g w : Nat) : Bool :=
  decide (w ∈ [8, 16, 32, 64, 128, 256] ∧ 0 < s.core.team.w ∧ s.core.team.w ≤ 8 ∧ d.toNat + g ≤ 32 ∧ s.x.vl.toNat ≤ s.perWidth w * g)

theorem witness_ElementRules :
    (onX.xh = true ∧ onX.x.vl ≤ onX.x.vstart) ∧
    (let s := (strip 3 4 2)
     s.x.vstart < s.x.vl ∧ (32 ∈ [8, 16, 32, 64, 128, 256] ∧ 0 < s.core.team.w ∧ s.core.team.w ≤ 8 ∧ (31 : Reg).toNat + 1 ≤ 32 ∧
       s.x.vl.toNat ≤ s.perWidth 32 * 1) ∧ s.x.vl.toNat ≤ 2048 ∧ (s.x.vstart.toNat ≤ 2 ∧ 2 < s.x.vl.toNat) ∧ s.x.active 0 2 = true ∧
       (s.setX { s.x with k := s.x.k.set 1 1 }).x.active 1 2 = false) := by decide +kernel

theorem witness_WrongHart :
    (xOnly .mexit = true ∧ onA.xh = false) ∧ (aOnly (.ld 0 0 0 0) = true ∧ onX.xh = true) := by decide

/-- R119 and R383: cause 4, with the word as `tval2`. -/
theorem test_wrong_hart :
    ends .mexit { onA with ir := 0x1234 } (fun t => t.h.tcause == 0x40001 && t.h.tval == 0 && t.h.tval2 == 0x1234) = true := by
  decide +kernel

/-- s with vector entries in one of the heads q0 to q5. -/
def heads (s : State) (h : Fin 6) (l : List QEntry) : State := s.setTd { s.td with q := s.td.q.set h.val l h.isLt }

/-- An entry of n elements of 32 bits. -/
def entry (n : BitVec 17) (v : VReg) : QEntry := { data := v, count := n, sew := 2, fill := false }

theorem witness_VectorQueues :
    (let s := strip 3 4 2
     let t := heads s 0 [entry 3 0x300000002_00000001]
     check7 s.x true [(4, 1)] false false [] = true ∧ s.x.vstart < s.x.vl ∧ fitsB s 4 1 32 = true ∧
     (ceilDiv s.x.vl.toNat (s.perReg 2) - 0 ≤ (headOf t 0).length) ∧ (headOf s 0).length < ceilDiv s.x.vl.toNat (s.perReg 2) ∧
     (headOf s 4).length + 1 ≤ 2 ∧ 2 ≤ (headOf (heads s 4 [entry 1 0, entry 1 0]) 4).length) ∧
    (onX.x.vl ≤ onX.x.vstart ∧ check7 onX.x true [(4, 1)] false false [] = true) := by decide +kernel

/-- R61 and R162: a popped entry; a packed push of the active elements. -/
theorem test_vector_queues :
    (ends (.vpop 4 0 0) (heads (strip 3 4 2) 0 [entry 2 0x0000000300000002_00000001]) (fun t =>
       elems t 32 4 3 == [1, 2, 0] && t.pc == 4 && (headOf t 0).isEmpty) &&
     ends (.vpush 4 1 1) (let s := setV (strip 3 4 2) 32 [(1, [7, 8, 9])]; s.setX { s.x with k := s.x.k.set 1 0b101 }) (fun t =>
       (headOf t 4).length == 1 && (headOf t 4).all (fun q => q.count == 2 && getElemN q.data 32 1 == 9))) = true := by
  decide +kernel

theorem witness_VectorMasks :
    ((5 : Reg).toNat < 8 ∧ (let x := (strip 3 4 2).x
      check7 x (fmtInt x.fmt && x.matched) [(1, x.g 1), (2, x.g 1)] true false [] = true ∧
      check7 x x.matched [] true false [] = true ∧ check7 x x.matched [] true true [] = true) ∧
     (let x := (strip 3 9 2).x
      check7 x (fmtInt x.fmt && x.matched) [(1, x.g 1), (2, x.g 1)] true false [] = false)) := by decide +kernel

/-- R172 and R174: less or equal on signed elements; `vpopc.ff` with no hit writes all ones. -/
theorem test_masks :
    (let s := setV (strip 3 4 2) 32 [(1, [1, 0xFFFFFFFF, 5]), (2, [1, 0, 4])]
     ends (.vcmp 2 1 2 0 3) s (fun t => t.x.k[2] == 0b011 && t.pc == 4) &&
     ends (.vpopc 3 1 0 2) s (fun t => t.getS 3 == 0xFFFFFFFFFFFFFFFF)) = true := by decide +kernel

theorem witness_VectorIntegers :
    ((0 : BitVec 2) ≠ 3 ∧ maskDestOk 1 3 = true ∧ intOk 3 1 2 0 0 0 (strip 3 4 2).x = true ∧
      intOk 3 1 2 0 0 0 (strip 3 9 2).x = false ∧ anyOk 3 1 2 0 0 (strip 3 9 2).x = true ∧
      anyOk 3 1 2 0 0 (strip 3 9 3).x = false ∧ moveOk 3 1 0 0 false (strip 3 9 3).x = true ∧ moveOk 3 1 0 1 true (strip 3 9 2).x = true) ∧
    (let x := (strip 3 2 1).x
     check7 x (fmtInt x.fmt && x.matched) [(4, x.g 2), (2, x.g 1), (3, x.g 1)] false false [((4, x.g 2), (2, x.g 1)), ((4, x.g 2), (3, x.g 1))] = true) ∧
    (0 : Nat) < 1 := by decide +kernel

/-- R85 and R170: a saturating add clamps and sets `vxsat`; -7 / 2 rounds toward zero; a wide product accumulates. -/
theorem test_integers :
    (let s := setV (strip 3 4 2) 32 [(1, [0x7FFFFFFF, 0xFFFFFFF9, 3]), (2, [1, 2, 0])]
     ends (.vsadd 3 1 2 0 0) s (fun t => elems t 32 3 3 == [0x7FFFFFFF, 0xFFFFFFFB, 3] && t.x.vxsat && t.x.h.ldst == 0b1000011) &&
     ends (.vdiv 3 1 2 0 1 3 0) s (fun t => elems t 32 3 3 == [0x7FFFFFFF, 0xFFFFFFFD, 0xFFFFFFFF] && t.x.k[3] == 0b100) &&
     ends (.vwmac 4 1 2 0 0) (setV (strip 2 2 1) 16 [(1, [0xFFFF, 3]), (2, [2, 5])]) (fun t => elems t 32 4 2 == [0xFFFFFFFE, 15])) = true := by
  decide +kernel

theorem witness_ClauseBits :
    (let x := (strip 3 4 2).x
     check7 x (x.matched && x.fmt != 14) [(1, x.g 1), (2, x.g 1)] false false [] = true ∧ x.vstart < x.vl ∧
     check7 x x.matched [(3, x.g 1), (1, x.g 1)] false true [((3, x.g 1), (1, x.g 1))] = true ∧ 0 < x.vl.toNat ∧
     (strip 3 4 2).x.vl.toNat ≤ (strip 3 4 2).perWidth 32 ∧ 32 * (16 * ceilDiv 3 128) ≤ (strip 3 4 2).perWidth 8 * 1) := by decide +kernel

/-- R177: bits above the threshold, the last byte filled with zeros. -/
theorem test_threshold :
    ends (.vthrb 3 1 2 0 0) (setV (strip 3 4 2) 32 [(1, [5, 1, 9]), (2, [4, 4, 9]), (3, [0xFFFF])]) (fun t =>
      elems t 8 3 2 == [0b001, 0xFF]) = true := by decide +kernel

theorem witness_VectorFloat :
    maskDestOk 0 0 = true ∧ (0 : BitVec 2).toNat < 2 ∧ fpOk 3 1 2 0 0 0 (strip 3 9 2).x = true ∧ fpOk 3 1 2 0 0 0 (strip 3 4 2).x = false ∧
    (3 : Reg).toNat < 8 ∧ (4 : Reg).toNat ≤ 4 ∧ (2 : BitVec 2) ≠ 3 ∧
    (let x := (strip 3 9 2).x
     check7 x (x.fmt == 9 && x.matched) [(3, x.g 1), (1, x.g 1)] (maskUsed 0 0) false [] = true ∧
     check7 x (!fmtInt x.fmt && x.fmt != 14 && x.matched) [(3, x.g 1), (1, x.g 1)] false false [] = true) := by decide +kernel

/-- 1.5 + 2.25 and 1 / 0 in fp32 (R179). -/
theorem test_vector_float :
    (let s := setV (strip 2 9 2) 32 [(1, [0x3FC00000, 0x3F800000]), (2, [0x40100000, 0])]
     ends (.vfadd 3 1 2 0 0 0 0) s (fun t => elems t 32 3 2 == [0x40700000, 0x3F800000] && t.h.fflags == 0) &&
     ends (.vfdiv 3 1 2 0 0 0 0) s (fun t => (elems t 32 3 2).getD 1 0 == 0x7F800000 && t.h.fflags.getLsbD 3)) = true := by
  decide +kernel

theorem witness_VectorConversions :
    (let x := (strip 3 9 2).x
     (9 : BitVec 4).toNat ≤ 13 ∧ check7 x (cvtPair x.fmt 4 && x.matched) [(3, x.g 1), (1, x.g 1)] (maskUsed 0 0) false [] = true ∧
     x.fmt ≠ 14 ∧ check7 x (9 ≤ x.fmt.toNat && x.matched && true) [(4, x.g 2), (1, x.g 1)] (maskUsed 0 0) false [((4, x.g 2), (1, x.g 1))] = true ∧
     check7 x (x.fmt == 9 && x.matched) [(3, x.g 1), (1, x.g 1)] (maskUsed 0 0) false [((3, x.g 1), (1, x.g 1)), ((3, x.g 1), (2, 1))] = true ∧
     x.vstart < x.vl) ∧
    (let x := (strip 3 11 1).x
     check7 x (9 ≤ x.fmt.toNat && x.fmt.toNat ≤ 13 && x.matched && true) [(3, x.g 1), (4, x.g 2)] (maskUsed 0 0) false
       [((3, x.g 1), (4, x.g 2))] = true) ∧
    (let x := (strip 3 14 0).x
     x.fmt = 14 ∧ check7 x x.matched [(4, x.g 2), (1, x.g 1)] (maskUsed 0 0) false [((4, x.g 2), (1, x.g 1))] = true ∧
     check7 x (x.fmt == 14 && x.matched && x.group == 0) [(1, 1), (8, 8)] (maskUsed 0 0) false [((1, 1), (8, 8))] = true) := by
  decide +kernel

/-- fp32 1.5 to fp16 and to a signed integer toward even (R183, R184). -/
theorem test_conversions :
    (ends (.vfnar 3 4 0 0 0 0 0) (setV (strip 1 11 1) 32 [(4, [0x3FC00000])]) (fun t => elems t 16 3 1 == [0x3E00]) &&
     ends (.vfcvt 3 1 4 0 0 0 0) (setV (strip 1 9 2) 32 [(1, [0xBFC00000])]) (fun t => elems t 32 3 1 == [0xFFFFFFFE])) = true := by
  decide +kernel

theorem witness_ReductionsAndScans :
    (let x := (strip 3 9 2).x
     (5 : BitVec 3).toNat ≤ 5 ∧ check7 x (redFmtOk x 0) [(3, 1), (1, x.g 1)] false true [] = true ∧ x.vstart < x.vl ∧
     check7 x (redFmtOk x 0) [(3, 1), (1, x.g 1)] false false [((3, 1), (1, x.g 1))] = true ∧
     check7 x (redFmtOk x 0) [(3, x.g 1), (1, x.g 1)] false true [((3, x.g 1), (1, x.g 1))] = true ∧
     check7 x (redFmtOk x 0) [(3, x.g 1), (1, x.g 1), (4, 1)] false false [((3, x.g 1), (1, x.g 1)), ((3, x.g 1), (4, 1))] = true ∧
     fitsB (strip 3 9 2) 3 1 32 = true ∧ (x.vstart.toNat ≤ 1 ∧ 1 < x.vl.toNat) ∧ x.active 0 1 = true) ∧
    (let x := (strip 3 9 2).x
     let y := { x with vstart := 1, k := x.k.set 1 2 }
     1 < y.vl.toNat ∧ 0 < y.vstart.toNat ∧ y.active 1 2 = false) ∧
    ([1, 2].length = 2 ^ 1 ∧ (2 ^ 1 < [1, 2, 3].length ∧ [1, 2, 3].length < 2 ^ (1 + 1))) := by decide +kernel

/-- A sum over three integers, and the inclusive scan of them (R187, R188). -/
theorem test_reduction :
    (let s := setV (strip 3 4 2) 32 [(1, [5, 6, 7])]
     ends (.vred 3 1 0 0 0) s (fun t => elems t 32 3 1 == [18]) &&
     ends (.vscan 3 1 0 0 0 0) s (fun t => elems t 32 3 3 == [5, 11, 18]) &&
     ends (.vscan 3 1 4 0 0 3) s (fun t => elems t 32 3 3 == [0, 5, 11]) &&
     ends (.vscan 3 1 4 0 0 1) s (fun t => elems t 32 3 3 == [5, 11, 18])) = true := by decide +kernel

theorem witness_StripSoftmax :
    (let x := (strip 3 9 2).x
     (30 : Reg).toNat ≤ 30 ∧ check7 x (9 ≤ x.fmt.toNat && x.fmt.toNat ≤ 11 && x.matched) [(3, x.g 1), (1, x.g 1)] false true
       [((3, x.g 1), (1, x.g 1))] = true ∧ x.vstart < x.vl ∧ (strip 3 9 2).x.vl.toNat ≤ (strip 3 9 2).perWidth 32 ∧
     ceilDiv 3 (groupElems 2) ≤ (strip 3 9 2).perWidth 32) ∧
    (let x := (strip 0 9 2).x
     x.vl ≤ x.vstart ∧ check7 x (9 ≤ x.fmt.toNat && x.fmt.toNat ≤ 11 && x.matched) [(3, x.g 1), (1, x.g 1)] false true
       [((3, x.g 1), (1, x.g 1))] = true) := by decide +kernel

/-- R190: on a strip of no element the running values come back, boxed, and `ldst` is set. -/
theorem test_softmax_empty :
    ends (.vsmx 3 1 4 0 0) (setFR (strip 0 9 2) [(4, 0x3F800000), (5, 7)]) (fun t =>
      t.getF 4 == 0xFFFFFFFF3F800000 && t.getF 5 == 0xFFFFFFFF00000007 && t.h.ldst == 0b1000011 && t.pc == 4) = true := by
  decide +kernel
/-! ## Vector memory, element blocks and permutations -/

/-- The A-hart on a strip of n elements of 32 bits. -/
def feedStrip (n : BitVec 17) : State := setR (onA.setA { onA.a with n := n, sew := 2, vrows := 1, vcols := n }) [(1, win), (2, 8)]

/-- A unit-step load of 32-bit elements from the window into q0. -/
def unitLoad (acq : Bool) (idx : Option Nat) : VLoad :=
  { d := 0, f := 1, acq := acq, scope := 0, ring := none, idx := idx, addr := fun i _ x => win + BitVec.ofNat 64 (i * 4) + BitVec.ofInt 64 x }

/-- A load issues and reads every element of its strip. -/
def loadAll (l : VLoad) (s : State) : Bool :=
  let b := issued (vecAcquired s l.acq)
  (if l.acq then claimHead b (l.d + l.f) else some b).any (fun t =>
    stripN t != 0 && (allLoaded l (ceilDiv (stripN t) (stripE t)) t).isSome)

/-- Three indices 8, 4 and 0 in q5. -/
def indexed (s : State) : State := heads s 5 [entry 3 0x000000000000000400000008]

theorem witness_VectorLoads :
    ((feedStrip 3).xh = false ∧ (3 : Reg).toNat < 4 ∧ (2 : Reg).toNat + 1 < 4 ∧ stripN (feedStrip 0) = 0 ∧ stripN (feedStrip 3) ≠ 0 ∧
      (feedStrip 3).limit = none) ∧
    ([(unitLoad false none, feedStrip 3), (unitLoad true none, feedStrip 3), (unitLoad false (some 5), indexed (feedStrip 3))].all
      (fun p => loadAll p.1 p.2)) = true := by decide +kernel

theorem witness_VectorLoads_element :
    ((win + 2).toNat % 4 ≠ 0) ∧
    (match translate onA onA.who Ask.load 0x20000 4 with | .error _ => true | _ => false) = true ∧
    (match translate onA onA.who Ask.load win 4 with | .ok p => !leafSync p.w1 | _ => false) = true ∧
    (let s := inDomain (paged onA 1 0x8) 0xFFFF
     (match translate s s.who Ask.load 0x10000 4 with | .ok p => leafSync p.w1 && !eligible 0 p 0 | _ => false) = true) ∧
    (match readMove onA 0 onA.vectorAgent (span scratchBase 4) with | (_, .bytes _) => true | _ => false) = true ∧
    (let s := { onA with poison := [scratchBase] }
     (match readMove s 0 s.vectorAgent (span scratchBase 4) with | (_, .poison _) => true | _ => false) = true) ∧
    onA.h.priv = .user := by decide +kernel

/-- Elements of the scratchpad: unit steps, a stride of 8 bytes, and indices 8, 4, 0 (R157). -/
theorem test_vector_loads :
    (let s := { (feedStrip 3) with mem := onA.mem.writeAll ([0, 4, 8, 16].flatMap (fun o => cellsAt (scratchBase + o) (bytesOf 4 (BitVec.ofNat 64 (100 + o))))) }
     let got := fun (q : QEntry) => [getElemN q.data 32 0, getElemN q.data 32 1, getElemN q.data 32 2]
     ends (.vld 0 1 0 0 0) s (fun t => (headOf t 0).map got == [[100, 104, 108]] && t.pc == 4) &&
     ends (.vlds 0 1 2 0 0) s (fun t => (headOf t 0).map got == [[100, 108, 116]]) &&
     ends (.vldx 0 1 5 0 0 0) (indexed s) (fun t => (headOf t 0).map got == [[108, 104, 100]])) = true := by decide +kernel

/-- A unit-step store of 32-bit elements to the window from q4. -/
def unitStore (idx : Option Nat) : VStore :=
  { d := 4, f := 1, idx := idx, base := win, scaled := true, addr2 := fun i _ _ h => 2 * (win.toNat : Int) + i * h }

/-- Three elements 1, 2, 3 in q4. -/
def storing : State := heads (feedStrip 3) 4 [entry 3 0x000000030000000200000001]

/-- s with the page at 0x10000 one that rounds stochastically, to 8-bit elements. -/
def srPaged (s : State) : State :=
  inDomain (paged (s.setTeam { s.core.team with dtg := true }) 0 0x108) 0xFFFF

/-- A unit-step store to that page. -/
def pageStore : VStore :=
  { unitStore none with base := 0x10000, addr2 := fun i _ _ h => 2 * 0x10000 + i * h }

/-- Twice an address lies on a page that rounds elements of this strip stochastically (R295). -/
def stochastic (s : State) (a2 : Int) : Bool :=
  decide (2 ≤ s.a.sew.toNat) && leafSrnd (pageAttr s s.who (BitVec.ofInt 64 (a2 / 2))) == 2

/-- That store as it issues, its draw tag held by another port. -/
def clash : State :=
  issued ((srPaged storing).setTeam { (srPaged storing).core.team with
    ports := [{ kind := 2, tag := 3, t := 1, serial := 0, draw := sampled onA }] })

theorem witness_VectorStores :
    (storing.xh = false ∧ (4 : Reg).toNat = 4 ∧ (5 : Reg) ≠ 4 ∧ stripN (feedStrip 0) = 0 ∧ stripN storing ≠ 0) ∧
    (releaseHeld storing 0 [storing.vectorAgent] 0).isEmpty = true ∧
    (match baseHalves (issued storing) { unitStore none with base := 0x20000 } with | .error _ => true | _ => false) = true ∧
    (let st := unitStore none
     let t := issued storing
     t.limit = none ∧ (match baseHalves t st with
       | .ok h => (openFor t (issueAddrs t st h)).isSome && !(issueAddrs t st h).any (stochastic t) && (baseFault t st h).isNone &&
           (allStored st h (st.f * ceilDiv (stripN t) (stripE t)) t).isSome
       | _ => false) = true) ∧
    (let st := pageStore
     ((match baseHalves clash st with
       | .ok h => (issueAddrs clash st h).any (stochastic clash) && (openStorePort clash).isNone
       | _ => false) = true) ∧
     let t := issued (srPaged storing)
     t.limit = none ∧ (match baseHalves t st with
       | .ok h => (issueAddrs t st h).any (stochastic t) && (openStorePort t).any (fun p => (baseFault p st h).isNone &&
           (allStored st h (st.f * ceilDiv (stripN p) (stripE p)) p).isSome)
       | _ => false) = true) ∧
    (let b := issued (indexed storing)
     let k := ceilDiv (stripN b) (stripE b)
     2 ≤ b.a.sew.toNat ∧ b.limit = none ∧ (match scaScale b (b.getS 1) with
       | .ok m => (scaDry false 4 5 (b.getS 1) m (k + 1) b).isNone && (scaBaseFault b false 4 5 (b.getS 1) m).isNone &&
           (allScattered false 4 5 (b.getS 1) m k b).any (fun u => (scaElems u false u.vm.sca).toOption.isSome)
       | _ => false) = true) ∧
    (let s := indexed storing
     let b := issued (s.setTeam { s.core.team with det := true })
     b.core.team.det = true ∧ (match scaScale b (b.getS 1) with
       | .ok m => (scaDry false 4 5 (b.getS 1) m 2 b).isNone &&
           (allScattered false 4 5 (b.getS 1) m 1 b).any (fun u => u.buf.isEmpty && u.vm.sca.length == 3 &&
             (match scaElems u false u.vm.sca with | .ok ps => ps.length == 3 | _ => false))
       | _ => false) = true) ∧
    (let s := indexed storing
     let b := issued (setR (s.setTeam { s.core.team with det := true }) [(1, win + 1)])
     b.core.team.det = true ∧ (match scaScale b (b.getS 1) with
       | .ok m => (scaDry false 4 5 (b.getS 1) m 2 b).isSome && (scaBaseFault b false 4 5 (b.getS 1) m).isNone
       | _ => false) = true) ∧
    (let s := onA.setA { onA.a with n := 3, sew := 1 }
     s.a.sew.toNat < 2) := by decide +kernel

/-- Bases without a leaf, and on a page that may only be read. -/
theorem witness_VectorStores_base :
    (let st := { unitStore none with base := 0x10000, addr2 := fun i _ _ h => 2 * 0x10000 + i * h }
     let t := issued { storing with tlb := [{ die := 0, root := 0, base := 0x10000, size := 4096, w0 := 0x10343, w1 := 0 }] }
     (match baseHalves t st with
       | .ok h => !(issueAddrs t st h).any (stochastic t) && (baseFault t st h).isSome
       | _ => false) = true) ∧
    (let b := issued (setR (indexed storing) [(1, 0x20000)])
     (match scaScale b (b.getS 1) with | .error _ => true | _ => false) = true) ∧
    (let s := { indexed storing with tlb := [{ die := 0, root := 0, base := 0x10000, size := 4096, w0 := 0x10343, w1 := 0 }] }
     let b := issued (setR s [(1, 0x10000)])
     (match scaScale b (b.getS 1) with | .ok m => (scaBaseFault b false 4 5 (b.getS 1) m).isSome | _ => false) = true) := by
  decide +kernel

/-- R158: the elements of the oldest entry of q4, one after another; the entry goes. -/
theorem test_vector_store :
    ends (.vst 4 1 0 0 0) storing (fun t =>
      (headOf t 4).isEmpty && (visibleByte t 0 t.vectorAgent (scratchBase + 8) == some 3) && t.mem.isEmpty) = true := by
  decide +kernel

/-- R242: three adds at 2^2 times the indices. -/
theorem test_scatter :
    ends (.vsca 4 1 5 0 0 0 0) (indexed storing) (fun t => t.buf.length == 3 && t.pc == 4) = true := by decide +kernel

theorem witness_FullEmptyLines :
    (let s := setR onA [(1, win), (2, 0), (3, 2), (4, win + 64), (5, win + 0x7FFF80), (6, 0x1000), (7, win + 0xFFF80)]
     (s.getS 2).toNat = 0 ∧ (s.getS 3).toNat ≠ 0 ∧ (s.getS 1).toNat % 128 = 0 ∧ windowBase ≤ (s.getS 1).toNat ∧
     (s.getS 1).toNat - windowBase + 128 * (s.getS 3).toNat ≤ s.core.team.spad * 65536 ∧
     (s.getS 1).toNat - windowBase + 128 * (s.getS 3).toNat ≤ 0x800000 ∧ (s.getS 4).toNat % 128 ≠ 0 ∧
     (releaseHeld s 0 [s.vectorAgent] 0).isEmpty = true ∧ ([0, 1].all (fun l => !s.core.emptyLines.contains l)) = true ∧
     ((s.getS 5).toNat % 128 = 0 ∧ 0x800000 < (s.getS 5).toNat - windowBase + 128 * (s.getS 3).toNat) ∧
     ((s.getS 6).toNat % 128 = 0 ∧ (s.getS 6).toNat < windowBase) ∧
     ((s.getS 7).toNat % 128 = 0 ∧ windowBase ≤ (s.getS 7).toNat ∧
       (s.getS 7).toNat - windowBase + 128 * (s.getS 3).toNat ≤ 0x800000 ∧
       s.core.team.spad * 65536 < (s.getS 7).toNat - windowBase + 128 * (s.getS 3).toNat)) ∧
    (let s := { onA with core := { onA.core with emptyLines := [0, 1] } }
     ([0, 1].all (fun l => s.core.emptyLines.contains l)) = true) := by decide +kernel

/-- R161 and R336: a range past the window, and one past the launch's part of it, trap before any line is touched. -/
theorem test_lines_refused :
    (let s := setR onA [(3, 2), (5, win + 0x7FFF80), (7, win + 0xFFF80)]
     [Instr.lfe 5 3 0 0 0, .lfe 5 3 0 0 1, .lwait 5 3 0 0 0, .lwait 5 3 0 0 1].all (fun i =>
       ends i s (fun t => t.h.tcause % 0x1000000 == 0x060006 && t.core.emptyLines.isEmpty)) &&
     [Instr.lfe 7 3 0 0 0, .lfe 7 3 0 0 1, .lwait 7 3 0 0 0, .lwait 7 3 0 0 1].all (fun i =>
       ends i s (fun t => t.h.tcause % 0x1000000 == 0x010006 && t.core.emptyLines.isEmpty))) = true := by decide +kernel

/-- R161 and R233: two lines marked empty, on which `lwait` for full lines stalls. -/
theorem test_lines :
    ends (.lfe 1 3 0 0 0) (setR onA [(1, win + 128), (3, 2)]) (fun t => t.core.emptyLines == [1, 2] &&
      ends (.lwait 1 3 0 0 0) t (fun u => u.h.wait == some .line) && ends (.lwait 1 3 0 0 1) t (fun u => u.pc == 8)) = true := by
  decide +kernel

/-- A lane in progress: element 1 of a strip of three 32-bit integers. -/
def laneBlock : Block where
  words := []
  base := win
  d := 9
  isF := false
  mask := 0
  en := false
  kx := 0
  lane := 1
  epc := 2
  pred := true
  inc := 40
  out := none
  exc := false
  excs := 0
  fin := false
  issued := false
  carry0 := 0
  v0 := Vector.replicate 32 0
  k0 := Vector.replicate 8 0
  flags := 0
  sat := false

/-- The X-hart inside that lane. -/
def inLane : State :=
  let s := setV (strip 3 4 2) 32 [(1, [5, 6, 7]), (2, [1, 9, 1])]
  s.setX { s.x with block := some laneBlock }

theorem witness_BlockWords :
    (inLane.xh = true ∧ inLane.x.block.isSome = true ∧ laneBlock.fin = false) ∧ immOk 2 0 0 = true ∧ immOk 0 1 7 = true ∧
    ((1 : Bit) = 1 ∧ (0 : BitVec 32) = 0) ∧ elementWordOk 0 3 1 2 0 0 0 0 = true ∧ inLane.x.active 0 2 = true ∧
    groupEnd inLane.x 1 = 3 := by decide +kernel

/-- A word of the lane adds in its element; a branch moves the lane's counter; a passed-over word only goes on (R195). -/
theorem test_block_words :
    (ends (.elementWord 0 3 1 2 0 0 0 0 0) inLane (fun t => elems t 32 3 3 == [0, 15, 0] && t.x.block.any (fun b => b.epc == 3)) &&
     ends (.ejmp 0 0xFFFFFFFE) inLane (fun t => t.x.block.any (fun b => b.epc == 0)) &&
     ends (.esend 0 1) inLane (fun t => t.x.block.any (fun b => b.out == some 6)) &&
     ends (.erecv 0 3) inLane (fun t => elems t 32 3 2 == [0, 40]) &&
     ends (.ejmp 1 5) (inLane.setX { inLane.x with block := some { laneBlock with pred := false } }) (fun t => t.x.block.any (fun b => b.epc == 3))) = true := by
  decide +kernel

/-- A block of one `estop` word at the start of a page that may be executed. -/
def fetching (n : BitVec 17) : State :=
  let s := inDomain (setR (paged (strip n 4 2) 0 0) [(1, 0x10000), (2, 77)]) 0xFFFF
  { s with mem := s.mem.writeAll (cellsAt 0x10000 (bytesOf 8 (encodeE .estop))) }

theorem witness_BlockGroups :
    (let s := fetching 3
     let t := s.setX (discardBlock s.x)
     s.xh = true ∧ maskDestOk 0 0 = true ∧ check7 s.x true [] (maskUsed 0 0) false [] = true ∧ (t.getS 1).toNat % 8 = 0 ∧
     (match readBlock t (t.getS 1) 256 0 [] with | .inr ws => (strayWord ws).isNone && ws.length == 1 | _ => false) = true ∧
     t.x.vstart < t.x.vl ∧ t.x.active 0 0 = true) ∧
    ((fetching 0).x.vl ≤ (fetching 0).x.vstart) ∧
    (let s := (fetching 3).setX { (fetching 3).x with vstart := 1, carry := 55, resumed := true }
     s.x.vstart < s.x.vl ∧ s.x.resumed = true ∧ s.x.vstart ≠ 0) ∧
    (let s := (fetching 3).setX { (fetching 3).x with vstart := 0, carry := 55, resumed := true }
     s.x.vstart < s.x.vl ∧ s.x.resumed = true) ∧
    (let s := inLane.setX { inLane.x with block := some { laneBlock with fin := true, issued := true } }
     s.x.block.any (fun b => b.fin && b.issued) = true ∧ s.x.vl.toNat ≤ 65536 ∧ s.x.vl.toNat ≤ groupEnd s.x 0) ∧
    (let s := (strip 300 4 2).setX { (strip 300 4 2).x with block := some { laneBlock with fin := true, issued := true, en := true } }
     groupEnd s.x 0 < s.x.vl.toNat ∧ groupEnd s.x 0 ≤ 2048) := by decide +kernel

/-- R193 and R201: a block opens at lane 0 with the carry in; the last group that commits writes the carry out. -/
theorem test_block_groups :
    (ends (.vfetch 9 1 2 0 0 0 0) (fetching 3) (fun t => t.x.block.any (fun b => b.lane == 0 && b.inc == 77 && b.words.length == 1) && t.pc == 0) &&
     ends .elementGroupCommit (inLane.setX { inLane.x with block := some { laneBlock with fin := true, issued := true } }) (fun t =>
       t.getS 9 == 40 && t.pc == 4 && t.x.block.isNone)) = true := by decide +kernel

/-- R198 and R201: a resumed `vfetch` takes the saved carry; another takes the seed, wherever it starts, and one at `vstart` 0
takes it too and leaves the saved carry. -/
theorem test_block_carry :
    (let s := (fetching 3).setX { (fetching 3).x with vstart := 1, carry := 55, resumed := true }
     ends (.vfetch 9 1 2 0 0 0 0) s (fun t => t.x.block.any (fun b => b.lane == 1 && b.inc == 55) && !t.x.resumed) &&
     ends (.vfetch 9 1 2 0 0 0 0) (s.setX { s.x with resumed := false }) (fun t => t.x.block.any (fun b => b.lane == 1 && b.inc == 77)) &&
     ends (.vfetch 9 1 2 0 0 0 0) (s.setX { s.x with vl := 1 }) (fun t => t.getS 9 == 55 && t.x.vstart == 0) &&
     ends (.vfetch 9 1 2 0 0 0 0) (s.setX { s.x with vstart := 0 }) (fun t => t.x.block.any (fun b => b.lane == 0 && b.inc == 77) && t.x.resumed)) = true := by
  decide +kernel
/-! ## Permutations, compacts, the matrix unit and the engines -/

theorem witness_Permutes :
    (let x := (strip 3 4 2).x
     check7 x true [(3, x.g 1), (1, x.g 1)] false true [((3, x.g 1), (1, x.g 1))] = true ∧ maskDestOk 1 3 = true ∧
     check7 x (!false || x.sew == 0) [(3, x.g 1), (1, x.g 1), (2, x.g 1)] (maskUsed 0 0) false
       [((3, x.g 1), (1, x.g 1)), ((3, x.g 1), (2, x.g 1))] = true ∧ 0 < x.vl.toNat ∧ fitsB (strip 3 4 2) 3 1 32 = true ∧
     check7 x (fmtInt x.fmt && x.matched) [(3, x.g 1)] false false [] = true) ∧
    (let x := (strip 3 0 0).x
     check7 x (!true || x.sew == 0) [(4, x.g 1), (1, x.g 1), (2, x.g 2)] (maskUsed 0 0) false
       [((4, x.g 1), (1, x.g 1)), ((4, x.g 1), (2, x.g 2))] = true) := by decide +kernel

/-- R189: a slide down fills with zeros; a gather past the strip gives 0; compression counts in s[b]. -/
theorem test_permutes :
    (let s := setV (strip 3 4 2) 32 [(1, [5, 6, 7]), (2, [2, 0, 3])]
     ends (.vslide 3 1 1 0 2) s (fun t => elems t 32 3 3 == [6, 7, 0]) &&
     ends (.vgath 3 1 2 0 0 0 0) s (fun t => elems t 32 3 3 == [7, 5, 0]) &&
     ends (.vcmpr 3 1 4 1) (s.setX { s.x with k := s.x.k.set 1 0b110 }) (fun t => elems t 32 3 2 == [6, 7] && t.getS 4 == 2)) = true := by
  decide +kernel

/-- The hart with a given last destination. -/
def lastWritten (s : State) (l : BitVec 7) : State := s.setH { s.h with ldst := l }

theorem witness_CompactForms :
    ((((lastWritten onA 5).h.ldst >>> 5).setWidth 2 : BitVec 2) = 0 ∧ ¬ ((1 : Reg) = 0 ∧ (2 : Reg) = 0)) ∧
    (let s := lastWritten (strip 3 4 2) 0b1000001
     ((s.h.ldst >>> 5).setWidth 2 : BitVec 2) = 2 ∧ s.xh = true ∧ intOk 3 1 2 0 0 0 s.x = true ∧ moveOk 3 1 0 0 false s.x = true) ∧
    (let s := lastWritten (strip 3 9 2) 0b1000001
     fpOk 3 1 2 0 0 0 s.x = true) ∧
    ((((lastWritten onA 0b0100101).h.ldst >>> 5).setWidth 2 : BitVec 2) ≠ 0) ∧ (lastWritten onA 5).xh = false ∧ (2 : Reg) ≠ 0 ∧
    (((((lastWritten (strip 3 4 2) 0b0100101).h.ldst >>> 5).setWidth 2 : BitVec 2) ≠ 2) ∧ (lastWritten (strip 3 4 2) 0b0100101).xh = true) := by decide +kernel

/-- R113 and R119: s3 is the last destination; a compact goes on by 2, and with an f register last it is illegal. -/
theorem test_compact :
    (ends (.kAdd 4 2) (setR onA [(2, 10), (3, 7)]) (fun t => t.getS 4 == 17 && t.pc == 2 && t.h.ldst == 4) &&
     ends (.kAdd 4 2) (setFR onA [(3, 7)]) (fun t => t.h.tcause == 0x50001) &&
     ends (.kMv 4 2) (setR onA [(3, 7)]) (fun t => t.h.tcause == 0x50001)) = true := by decide +kernel

/-- s with its matrix state owned by tandem t. -/
def owned (s : State) (t : Fin 4) : State := s.setMx { s.mx with owner := some t, mvl := 128 }

theorem witness_MatrixState :
    onX.mx.owner = none ∧ (owned onX 0).mx.owner = some onX.tnd ∧ ((owned onX 1).mx.owner ≠ none ∧ (owned onX 1).mx.owner ≠ some onX.tnd) ∧
    ((owned (strip 3 9 2) 0).x.sew = 2 ∧ (owned (strip 3 9 2) 0).x.fmt = 9) ∧ (owned (strip 3 0 0) 0).x.sew ≠ 2 ∧
    ((3 : Reg).toNat < 4 ∧ maskDestOk 0 0 = true) := by decide +kernel

/-- 128 one-byte values in q0 and in q1. -/
def operands : State :=
  heads (heads (owned (strip 128 0 0) 0) 0 [{ data := 0x38, count := 128, sew := 0, fill := false }]) 1 [{ data := 0x40, count := 128, sew := 0, fill := false }]

theorem witness_MatrixProducts :
    (operands.mx.owner = some operands.tnd ∧ ((0 : BitVec 2) = 3 ↔ (1 : BitVec 2) = 3)) ∧
    ((mopaSource operands 0 0).any (fun l => l.length == 128) = true ∧ (mopaSource operands 1 0).any (fun l => l.length == 128) = true ∧
      128 / 128 ≤ operands.mx.mvl.toNat) ∧
    ((1 : Reg).toNat < 4 ∧ headOf (owned onX 0) 1 = []) ∧ operands.mx.mkblk.toNat < 127 ∧
    (let s := owned (strip 3 9 2) 0
     check7 s.x (s.x.fmt == 9 && s.x.matched) [(4, s.x.g 1)] (maskUsed 0 0) false [] = true ∧
     (s.getS 1).toNat + ceilDiv s.x.vl.toNat 128 ≤ 128 ∧ (s.x.vstart.toNat ≤ 2 ∧ 2 < s.x.vl.toNat) ∧ s.x.active 0 2 = true) := by decide +kernel

/-- The A-hart with a record at the first bytes of the window, its address in s1. -/
def recorded (ws : List Word) : State :=
  setR { onA with mem := onA.mem.writeAll (cellsAt scratchBase (ws.flatMap (bytesOf 8))) } [(1, win)]

/-- A copy of 128 bytes with a status word, a feed, a collective, a batch and a grid record. -/
def copyRecord : List Word := [win, win + 0x1000, 128, win + 0x2000, 0, 0, 0, 0]
def feedRecord : List Word := [win, 0x100000080, 0x100, 0, 0, 0, 0, 0]
def collRecord : List Word := [0x0000000000020900, 16, 0, 0, 0, 0, 0, 0]
def batchRecord : List Word := [win + 0x1000, 1, win + 0x2000, win + 0x3000, win + 0x4000, 0, 0, 0]
def bankRecord : List Word := [win + 0x8000, 0x0002000200000004, 0xFFFF000100010001, 0, 0, 0, 0, 0]
def gridRecord : List Word := [0x10000, 0x20000, 0x40101, 0, 0, 0, 0, 0, 0x100000001]

/-- A grid of one level and one fp32 feature, and a bank of two classes of two clauses. -/
def grid : Grid := { pbase := 0x10000, gbase := 0x20000, cfg := 0x40101, levels := [0x100000001] }
def bank : Bank := { w0 := win + 0x8000, w1 := 0x0002000200000004, w2 := 0xFFFF000100010001 }

/-- The A-hart bound to that bank, with the batch record. -/
def banked : State := let s := recorded batchRecord; s.setA { s.a with bank := some bank }

/-- A copy command that the engine holds. -/
def heldCopy : CopyCmd :=
  { kind := 1, t := 0, words := copyRecord, ord := orders 0 0 0, next := 0, serial := 1, since := 0, fault := none }

theorem witness_EngineHandovers :
    ((recordRead Ask.record (recorded copyRecord) 1).any (fun p => copyIssue 1 p.2 == 0) = true ∧
      (recorded copyRecord).core.team.copies.length < 16 ∧ (releaseHeld (recorded copyRecord) 0 [.scalar 0, .vector 0] 0).isEmpty = true) ∧
    ((recordRead Ask.record (recorded copyRecord) 1).any (fun p => copyIssue 0 p.2 != 0) = true) ∧
    ((recordRead Ask.record (recorded feedRecord) 1).any (fun p => feedIssue p.2 == 0) = true) ∧
    ((recordRead Ask.record (recorded collRecord) 1).any (fun p => collIssue p.2 == 0) = true) ∧
    ((recordRead Ask.parRecord banked 1).any (fun p => batchIssue p.2 == 0 && p.1.a.bank == some bank) = true) ∧
    ((recordRead Ask.parRecord (recorded batchRecord) 1).any (fun p => p.1.a.bank.isNone) = true) ∧
    (feedClash banked 1 = false ∧ feedClash banked 2 = false) ∧
    (let s := setR banked [(1, win + 1)]
     let busy := fun (tag : BitVec 32) => s.setTeam { s.core.team with
       dtg := true, ports := [{ kind := 2, tag := tag, t := 1, serial := 0, draw := sampled onA }] }
     (busy 1).a.bank ≠ none ∧ ((busy 1).getS 1).toNat % 64 ≠ 0 ∧ feedClash (busy 1) 1 = true ∧
       feedClash (busy 2) 1 = false ∧ feedClash (busy 2) 2 = true ∧
       (match translate onA onA.who Ask.parRecord 0x20000 64 with | .error _ => true | _ => false) = true) ∧
    ((recordRead Ask.parRecord (recorded bankRecord) 1).any (fun p => bankStatus p.2 == 0) = true) ∧
    ((recordRead Ask.record (recorded gridRecord) 1).any (fun p => gridStatus p.2 grid == 0 &&
      (recordItems 8 1 (win + 64) p.1).any (fun q => q.2.map wordOf == [0x100000001])) = true) ∧
    16 ≤ (onA.setTeam { onA.core.team with copies := List.replicate 16 heldCopy }).core.team.copies.length := by
  decide +kernel

/-- R237 and R251: status 0, and the command is held; a length of 0 comes to its end at once. -/
theorem test_copy :
    (ends (.cpy 3 1 0 0 0 1) (recorded copyRecord) (fun t => t.getS 3 == 0 && t.core.team.copies.length == 1 && t.pc == 4) &&
     ends (.cpy 3 1 0 0 0 1) (recorded (copyRecord.set 2 0)) (fun t => t.core.team.copies.isEmpty) &&
     ends (.cpy 3 1 0 0 0 1) (recorded (copyRecord.set 7 1)) (fun t => t.getS 3 == 1 && t.core.team.copies.isEmpty)) = true := by
  decide +kernel

/-- R281 and R300: both bindings succeed; a bank of no class has status 2. -/
theorem test_bindings :
    (ends (.pbank 3 1 0 0 0) (recorded bankRecord) (fun t => t.getS 3 == 0 && t.a.bank == some bank) &&
     ends (.pbank 3 1 0 0 0) (recorded (bankRecord.set 1 0x0000000200000004)) (fun t => t.getS 3 == 2 && t.a.bank.isNone) &&
     ends (.tgbind 3 1 0 0 0) (recorded gridRecord) (fun t => t.getS 3 == 0 && t.a.grid == some grid)) = true := by
  decide +kernel

/-- s with pages of kind hbm mapped to themselves, each with its size and the second word of its leaf. -/
def mapped (s : State) (l : List (Nat × Nat × Word)) : State :=
  inDomain { s with tlb := l.map (fun p =>
    { die := 0, root := 0, base := p.1, size := p.2.1, w0 := BitVec.ofNat 64 (p.1 + 0x3C3), w1 := p.2.2 }) } 0xFFFF

/-- The A-hart with a record at the first bytes of the window and 64 KiB of Grotto pages from 0 on, where a kernel image
of one `gend` word stands at 0x1000. -/
def grotto (ws : List Word) : State :=
  let s := mapped (recorded ws) [(0, 0x10000, 0x20000)]
  { s with mem := s.mem.writeAll (cellsAt 0x1000 [0x00, 0x00, 0x00, 0xF0]) }

def kernelRecord : List Word := [0x1000, 0, 0, 0x2000, 0x3000, 0x0001000000010001, 0, 0]
def reduceRecord : List Word := [0x1000, 0x2000, 0x3000, 0x4000, 0x5000, 0x0000001000000001, 0x0000000100004099, 0]

theorem witness_GrottoHandovers :
    ((recordRead Ask.record (grotto kernelRecord) 1).any (fun p => kernelIssue p.2 == 0 &&
      (match pinParts p.1 (kernelParts (p.1.getS 1).toNat p.2) with
        | .ok ps => (recordItems 4 1 0x1000 p.1).any (fun q =>
            imageOk p.2 (q.2.map (fun l => BitVec.ofNat 32 (natOf l)))) &&
          windowOk (windowBlocks (ps.map (·.1)) 0 1 1) (kPairs p.2) 0 0 32256 && ps.all (pinPasses p.1 0)
        | .error _ => false)) = true) ∧
    ((recordRead Ask.record (grotto (kernelRecord.set 5 0x0002000000010001)) 1).any (fun p => kernelIssue p.2 == 0 &&
      (match pinParts p.1 (kernelParts (p.1.getS 1).toNat p.2) with
        | .ok ps => !windowOk (windowBlocks (ps.map (·.1)) 0 1 1) (kPairs p.2) 0 0 32256
        | .error _ => false)) = true) ∧
    ((recordRead Ask.record (grotto (kernelRecord.set 0 0x4000)) 1).any (fun p => kernelIssue p.2 == 0 &&
      (recordItems 4 1 0x4000 p.1).any (fun q => !imageOk p.2 (q.2.map (fun l => BitVec.ofNat 32 (natOf l))))) = true) ∧
    ((recordRead Ask.record (grotto (kernelRecord.set 7 0xFFFFFFFFFFFFFFFF)) 1).any (fun p => kernelIssue p.2 != 0 && reduceIssue p.2 != 0) = true) ∧
    ((recordRead Ask.record (grotto reduceRecord) 1).any (fun p => reduceIssue p.2 == 0 &&
      (match pinParts p.1 (reduceParts p.2) with
        | .ok ps => (ps.map (·.1)).all (pinStack 0) && ps.all (pinPasses p.1 0) && channelOf (pinned (ps.map (·.1)) (rList p.2)) == 0
        | .error _ => false)) = true) ∧
    ((recordRead Ask.record (inDomain (grotto reduceRecord) 5) 1).any (fun p => reduceIssue p.2 == 0 &&
      (match pinParts p.1 (reduceParts p.2) with
        | .ok ps => (ps.map (·.1)).all (pinStack 0) && !ps.all (pinPasses p.1 0)
        | .error _ => false)) = true) ∧
    ((recordRead Ask.record (inDomain (grotto kernelRecord) 5) 1).any (fun p => kernelIssue p.2 == 0 &&
      (match pinParts p.1 (kernelParts (p.1.getS 1).toNat p.2) with
        | .ok ps => !ps.all (pinPasses p.1 0)
        | .error _ => false)) = true) := by decide +kernel

/-- R314 to R316: the kernel goes to the sequencer of channel 0. -/
theorem test_glaunch :
    (ends (.glaunch 3 1 0 0 0) (grotto kernelRecord) (fun t => t.getS 3 == 0 && t.seqs.length == 1 && t.pc == 4) &&
     ends (.glaunch 3 1 0 0 0) (grotto (kernelRecord.set 5 0x0002000000010001)) (fun t => t.getS 3 == 4 && t.seqs.isEmpty)) = true := by
  decide +kernel

/-- A command for `worked`, on the bank above. -/
def waiting1 (kind : ParKind) (head : Reg) (addr : Word) : ParCmd :=
  { kind := kind, t := 0, words := batchRecord, bank := bank, head := head, addr := addr, ord := orders 0 0 0, dkey := 0, dsrc := 0,
    serial := 1, pos := 0, bits := 0, roles := none, outs := [], second := false, sel := none, refused := false, since := 0, fault := none }

/-- The A-hart on a strip of 128 bytes, whose head q4 has them. -/
def byteStrip : State :=
  let s := setR (banked.setA { banked.a with n := 128, sew := 0, vrows := 1, vcols := 128 }) [(5, win + 0x8000)]
  heads s 4 [{ data := 0x03, count := 128, sew := 0, fill := false }]

theorem witness_ParterreInstructions :
    (byteStrip.limit = none ∧ stripC byteStrip ≠ 0 ∧ (4 : Reg).toNat = 4 ∧ byteStrip.core.team.pars.isEmpty = true) ∧
    ((recordRead Ask.parRecord banked 1).any (fun p => p.1.a.bank == some bank && batchIssue p.2 == 0 && batchS p.2 != 0 &&
      ([0, 1, 2, 3] : List (BitVec 2)).all (fun z => p.1.perReg z != 0)) = true) ∧
    (byteStrip.a.bank = some bank ∧ byteStrip.a.sew = 0 ∧ (byteStrip.getS 5).toNat % 128 = 0 ∧ stripN byteStrip % 128 = 0) ∧
    onA.a.bank = none ∧ onA.a.sew ≠ 0 ∧
    ((worked (waiting1 .planeLd 0 (win + 0x8000)) (byteStrip.setTeam { byteStrip.core.team with pars := [waiting1 .planeLd 0 (win + 0x8000)] })).isSome = true) ∧
    ((worked (waiting1 .planeSt 4 (win + 0x8000)) (byteStrip.setTeam { byteStrip.core.team with pars := [waiting1 .planeSt 4 (win + 0x8000)] })).isSome = true) ∧
    ((worked (waiting1 .step 4 (win + 0x8000)) (byteStrip.setTeam { byteStrip.core.team with pars := [waiting1 .step 4 (win + 0x8000)] })).isSome = true) ∧
    ((worked (waiting1 (.vote true) 0 0) (byteStrip.setTeam { byteStrip.core.team with pars := [waiting1 (.vote true) 0 0] })).isSome = true) ∧
    (ParKind.step.waits = true ∧ ((waiting1 .step 4 0).t = byteStrip.tnd)) := by decide +kernel

/-- The A-hart on a strip of three 16-bit elements, for draws. -/
def drawStrip : State := onA.setA { onA.a with n := 3, sew := 1, vrows := 1, vcols := 3 }

theorem witness_ParterreInstructions_draws :
    (drawStrip.limit = none ∧ drawStrip.a.sew = 1 ∧ tagClash drawStrip 5 = false ∧
      (times (drawPushed 0 0 (sampled drawStrip) 5) (entriesLeft drawStrip) drawStrip).isSome = true) ∧
    (let s := drawStrip.setTeam { drawStrip.core.team with dtg := true, ports := [{ kind := 2, tag := 5, t := 1, serial := 0, draw := sampled onA }] }
     tagClash s 5 = true ∧ s.core.team.ports.any (fun p => p.kind == 2 && p.t == s.tnd) = false) ∧
    ([0].length = bank.segments) ∧ ((0b10 : Nat).testBit 1 = true ∧ 1 < 2 * bank.features) := by decide +kernel

/-- The A-hart on a strip of two fp32 values, bound to the grid, with a coordinate plane in q4 and values in q5. -/
def gridded : State :=
  let s := mapped (onA.setA { onA.a with n := 2, sew := 2, vrows := 1, vcols := 2, grid := some grid })
    [(0x10000, 4096, 0x8000), (0x20000, 4096, 0x10060)]
  heads (heads s 4 [entry 2 0x3F0000003E800000]) 5 [entry 2 0x3F8000003F800000]

theorem witness_TrellisInstructions :
    (gridded.limit = none ∧ gridded.xh = false ∧ gridded.a.grid = some grid ∧ gridded.a.sew = 2 ∧ gridded.a.group = 0 ∧ stripN gridded ≠ 0 ∧
      gridded.core.team.trellis.isNone = true) ∧
    ((unitBegun gridded 0 0).any (fun p =>
      match popCoords (grid.d - p.2.coords.length) p.2 (setCursor p.1 (some p.2)) with
      | .ok (t, _) => (times (planeGathered 0) (grid.f * grid.count) t).isSome &&
          (match quietRelease t .trellis (orders 0 0 0) with | .ok _ _ => true | _ => false)
      | .error _ => false) = true) ∧
    ((unitBegun gridded 0 0).any (fun p =>
      match popCoords (grid.d - p.2.coords.length) p.2 (setCursor p.1 (some p.2)) with
      | .ok (t, _) => (times (planeScattered) (grid.f * grid.count) t).any (fun u => !u.buf.isEmpty)
      | .error _ => false) = true) ∧
    ((times (planeScattered) 0 (gridded.setTeam { gridded.core.team with trellis := some { t := 0, grid := grid, plane := 1, coords := [0], serial := 7, since := 0 } })).any
      (fun u => u.core.team.trellis.any (fun c => u.buf.all (fun e => !e.holds u.core.num c.serial))) = true) ∧
    onA.a.grid = none ∧ (let s := onA.setA { onA.a with grid := some grid, sew := 1 }; s.a.sew ≠ 2) ∧
    (gridded.setTeam { gridded.core.team with trellis := some { t := 1, grid := grid, plane := 0, coords := [], serial := 0, since := 0 } }).core.team.trellis.any
      (fun c => c.t != gridded.tnd) = true := by decide +kernel

/-- The A-hart on a strip of two x64 cells in the page at 0x10000. -/
def cells : State :=
  let s := mapped (setR (onA.setA { onA.a with n := 2, sew := 2, vrows := 1, vcols := 2 }) [(1, 0x10000)]) [(0x10000, 4096, 0x60)]
  { s with mem := s.mem.writeAll (cellsAt 0x10000 (bytesOf 8 3 ++ bytesOf 8 5)) }

theorem witness_TrellisInstructions_cells :
    (cells.limit = none ∧ cells.a.sew = 2 ∧ stripN cells ≠ 0 ∧ stripC cells ≠ 0 ∧
      (times (groupConverted .fp32 0 (cells.getS 1)) (ceilDiv (stripN cells) (stripE cells)) cells).isSome = true) ∧
    ((readable cells cells.scalarAgent Ask.cell (cells.getS 1) 8).isSome = true) ∧ stripN onA = 0 ∧ (onA.a.sew ≠ 3) := by decide +kernel

/-- R302 and R308: one plane of interpolated features; two cells of whole numbers as fp32. -/
theorem test_trellis :
    (ends (.tgload 0 0 0 0) gridded (fun t => (headOf t 0).length == 1 && (headOf t 4).isEmpty && t.pc == 4) &&
     ends (.xconvV 0 1 0 0 0) cells (fun t => (headOf t 0).map (fun q => [getElemN q.data 32 0, getElemN q.data 32 1]) == [[0x40400000, 0x40A00000]])) = true := by
  decide +kernel
/-! ## Grotto, memory's events and waking harts -/

/-- A kernel of one unit whose window is the row of 4 KiB at address 0 and whose image is one `gend` word. -/
def kern : Kernel where
  desc := kernelRecord
  words := [0xF0000000]
  pins := [{ va := 0, len := 0x10000, home := 0, page := 0, size := 0x10000 }]
  data := [0]
  table := []
  root := 0
  domain := 0xFFFF
  core := 0
  t := 0
  launch := 0
  epoch := 0
  team := 0
  status := .running
  regs := GRegs.fresh kernelRecord
  kept := GRegs.fresh kernelRecord
  writes := []
  inStep := false
  suspendReq := false
  revokeReq := false
  alerts := 0
  suspensions := 0
  disturbance := 0

/-- The sequencer of channel 0 in focus, with that kernel and that list. -/
def sequencer (ks : List Kernel) (ls : List RedList) : State :=
  { grotto kernelRecord with seqs := [{ ch := 0, kernels := ks, lists := ls }] }

/-- kern with some lanes in g0 and g1. -/
def laden : Kernel :=
  { kern with regs := { kern.regs with units := [{ g := (Vector.replicate 8 0).set 0 0x0580 |>.set 1 0x03FF, b := Vector.replicate 4 0 }] } }

/-- The first unit of the kernel in focus. -/
def unit (t : State) : GUnit := (((seqOf t 0).kernels.head?.bind (fun k => k.regs.units.head?)).getD { g := Vector.replicate 8 0, b := Vector.replicate 4 0 })

theorem witness_MicroArithmetic :
    ((runningKernel (sequencer [laden] []) 0).isSome = true ∧ laden.revokeReq = false) ∧ (0 : BitVec 2) ≠ 3 ∧
    (7 : BitVec 3).toNat + kGvl kern.desc ≤ 8 ∧ (3 : BitVec 2).toNat % (4 / 2 ^ (2 : BitVec 2).toNat) = 0 ∧
    ((2 : BitVec 2) ≠ 3 ∧ (0 : BitVec 2).toNat % 2 ^ (2 : BitVec 2).toNat = 0) := by decide +kernel

/-- R319: signed bytes -128 + -1 saturate to -128, 5 + 3 is 8; unsigned they wrap to 0x7F. -/
theorem test_gadd :
    (ends (.gadd 0 1 1 2 0 1) (sequencer [laden] []) (fun t => lane 8 (unit t).g[2] 0 == 0x80 && lane 8 (unit t).g[2] 1 == 8) &&
     ends (.gadd 0 0 0 2 0 1) (sequencer [laden] []) (fun t => lane 8 (unit t).g[2] 0 == 0x7F && lane 8 (unit t).g[0] 1 == 5)) = true := by
  decide +kernel

/-- A kernel with a table of one row, and a queue of one offset. -/
def tabled : Kernel := { laden with desc := [0x1000, 0, 0x8000, 0x2000, 0x3000, 0x0001000000010041, 0x0001000000000000, 0], table := [0x8000] }

theorem witness_MicroTransfers :
    ((runningKernel (sequencer [tabled] []) 0).isSome = true ∧ kUnits tabled.desc = 1 ∧ kRows tabled.desc = 1 ∧ kGvl tabled.desc = 1) ∧
    ((0 : Int) ≤ tabled.regs.growc.toInt + (0 : BitVec 16).toInt ∧ tabled.regs.growc.toInt + (0 : BitVec 16).toInt < kRows tabled.desc) ∧
    ((List.range 256).all (fun j => !rowPoison (sequencer [tabled] []) tabled (segmentAt tabled.data 1 0 0 0 0 + j)) = true) ∧
    (tabled.regs.growc.toInt + (0xFFFF : BitVec 16).toInt < 0 ∧ kRows tabled.desc ≤ tabled.regs.growc.toInt + (1 : BitVec 16).toInt) ∧
    ((2 : BitVec 3).getLsbD 0 = false ∧ (0 : BitVec 3).toNat + 2 * kGvl tabled.desc ≤ 8 ∧ tabled.regs.units.length = 1 ∧
      (List.range 512).all (fun j => !rowPoison (sequencer [tabled] []) tabled (segmentAt tabled.table 1 0 0 0 2 + j)) = true) ∧
    (rowPoison { sequencer [tabled] [] with poison := [0] } tabled (segmentAt tabled.data 1 0 0 0 0 + 5) = true) := by
  decide +kernel

/-- R318: a row outside the window ends the kernel with 0x0402; a written segment is read back before it performs. -/
theorem test_grow_transfers :
    (ends (.grd 0 0 0 0 1) (sequencer [laden] []) (fun t => (seqOf t 0).kernels.all (fun k => k.status == .ending 0x0402) &&
       offSees t (.sequencer 0) 0x2006 == some 0x02 && offSees t (.sequencer 0) 0x2007 == some 0x04 && t.mem.read 0x2007 == 0) &&
     ends (.gwr 0 0 0 0 0) (sequencer [laden] []) (fun t => t.mem.read 0 == 0 &&
       ends (.grd 0 0 3 0 0) { t with gch := 0 } (fun u => lane 8 (unit u).g[3] 1 == 5))) = true := by decide +kernel

theorem witness_MicroControl :
    (kern.revokeReq = false ∧ kern.suspendReq = false) ∧ (runningKernel (sequencer [{ kern with suspendReq := true }] []) 0).isSome = true ∧
    (tabled.regs.ocur.toNat < kOlen tabled.desc ∧ heldElsewhere (sequencer [tabled] []) 0 (pinnedSpan tabled.pins 0x1004 4) = false ∧
      (pinnedSpan tabled.pins 0x1004 4).all (fun a => !rowPoison (sequencer [tabled] []) tabled a) = true) ∧
    ((agentHeld (sequencer [kern] []) (.sequencer 0) (pinnedSpan kern.pins (kRec kern.desc + 40) 8)).isEmpty = true ∧
      (agentHeld (sequencer [kern] []) (.sequencer 0) []).isEmpty = true) ∧
    (kern.regs.units.length = kUnits kern.desc ∧
      (recordArea kern).all (fun a => aclPasses (sequencer [kern] []) (channelOf a) kern.domain .write a 1) = true) := by
  decide +kernel

/-- R322 and R324: `grow` closes the step at the next row with segment registers zero; its writes perform. -/
theorem test_grow :
    ends .grow (sequencer [{ laden with writes := [[(5, 9)]], inStep := true }] []) (fun t =>
      t.mem.read 5 == 9 && (seqOf t 0).kernels.all (fun k => !k.inStep && k.writes.isEmpty) && (unit t).g[0] == 0) = true := by
  decide +kernel

/-- R326 and R402: `gend` buffers the record, and then the end performs it and reports code 1. -/
theorem test_gend :
    ends .gend (sequencer [kern] []) (fun t => (seqOf t 0).kernels.all (fun k => k.status == .ending 1) && !t.buf.isEmpty &&
      (endMove t 0).any (fun u => u.seqs.isEmpty && u.buf.isEmpty && u.mem.word 0x3000 == statusWord (kTag kern.desc) 1)) = true := by
  decide +kernel

/-- A list of one command word over the tables of `reduceRecord`. -/
def list1 : RedList where
  desc := reduceRecord
  pins := [{ va := 0, len := 0x10000, home := 0, page := 0, size := 0x10000 }]
  root := 0
  domain := 0xFFFF
  core := 0
  t := 0
  launch := 0
  epoch := 0
  team := 0
  started := false
  bag := 0
  c := 0
  start := 0
  acc := List.replicate 16 0x80000000
  revokeReq := false
  fin := none

/-- The record of a kernel that was suspended. -/
def recordBytes : List Byte := bytesOf 8 0x0401000000000000 ++ bytesOf 8 1 ++ List.replicate (48 + 1024) 0

theorem witness_GrottoEvents :
    (let k := { kern with status := GStatus.queued }
     (seqOf (sequencer [k] []) 0).kernels.length = 1 ∧ k.status = .queued ∧ k.revokeReq = false ∧ kResume k.desc = false) ∧
    (let k := { kern with status := GStatus.queued, desc := kernelRecord.set 6 0x8000 }
     let s := { sequencer [k] [] with mem := onA.mem.writeAll (cellsAt 0x2000 recordBytes) }
     kResume k.desc = true ∧ heldElsewhere s 0 (recordArea k) = false ∧
     (pinRead s (.sequencer 0) k.pins (kRec k.desc) (64 + 1024 * kUnits k.desc)).any (fun b => recordFits k.desc b) = true) ∧
    (kern.status = .running ∧ { kern with inStep := true }.inStep = true ∧ { kern with status := GStatus.suspended }.status = .suspended) ∧
    (let s := sequencer [kern] [list1]
     (s.seqs.all (fun q => q.kernels.all (fun k => k.status != .running || !k.inStep)) = true) ∧ (seqOf s 0).kernels.length ≤ 4 ∧
     (seqOf s 0).lists.length = 1 ∧ list1.revokeReq = false ∧ list1.started = false ∧
     (pinRead s (.adders 0) list1.pins (rRec list1.desc) 8).isSome = true) ∧
    (let l := { list1 with started := true }
     let s := { sequencer [] [l] with mem := onA.mem.writeAll (cellsAt 0x1000 (bytesOf 8 0x1000000000000001)) }
     l.c < rCmds l.desc ∧ l.bag < rOuts l.desc ∧ (pinRead s (.adders 0) l.pins (rList l.desc + 8 * l.c) 8).any (fun b =>
       natOf b % 2 == 1 && (commandRows (wordOf b)).any (fun rs => rs.all (fun r => r < rRows l.desc) && (addRows s 0 rs l).isSome)) = true) ∧
    (let l := { list1 with started := true, c := 1 }
     l.started = true ∧ rCmds l.desc ≤ l.c ∧ l.fin = none ∧
       (pinnedSpan l.pins (rRec l.desc) 8).all (fun a => aclPasses (sequencer [] [l]) (channelOf a) l.domain .write a 1) = true) ∧
    (let k := { kern with status := GStatus.ending 1 }
     (agentHeld (sequencer [k] []) (.sequencer 0) (pinnedSpan k.pins (kStat k.desc) 8)).isEmpty = true ∧
       (pinnedSpan k.pins (kStat k.desc) 8).all (fun a => aclPasses (sequencer [k] []) (channelOf a) k.domain .write a 1) = true) ∧
    (let l := { list1 with fin := some 0x0401 }
     l.fin = some 0x0401 ∧ (sequencer [] [l]).seqs.all (fun q => q.kernels.isEmpty) = true ∧
       (agentHeld (sequencer [] [l]) (.adders 0) (pinnedSpan l.pins (rStat l.desc) 8)).isEmpty = true ∧
       (pinnedSpan l.pins (rStat l.desc) 8).all (fun a => aclPasses (sequencer [] [l]) (channelOf a) l.domain .write a 1) = true) ∧
    (let k := { kern with revokeReq := true }
     (k.regs.units.length = kUnits k.desc ∧ k.kept.units.length = kUnits k.desc) ∧
       (recordArea k).all (fun a => aclPasses (sequencer [k] []) (channelOf a) k.domain .write a 1) = true ∧ k.inStep = false) := by decide +kernel

/-- R220, R332 and R333: the word at the end of a bag buffers it, and the cursor moves on; a list past its words ends, and its
status word says so once all has performed. -/
theorem test_reduce :
    (let l := { list1 with started := true }
     let s := { sequencer [] [l] with mem := onA.mem.writeAll (cellsAt 0x1000 (bytesOf 8 0x1000000000000001) ++ cellsAt 0x2000 (bytesOf 4 0x40400000)) }
     ends (.reduceCommandWord 0) s (fun t => (seqOf t 0).lists.all (fun l => l.c == 1 && l.bag == 1) &&
       offSees t (.adders 0) 0x3003 == some 0x40 && offSees t (.adders 0) 0x3002 == some 0x40 && t.mem.read 0x3003 == 0 &&
       ends (.reduceCommandWord 0) t (fun u => (endMove u 0).any (fun v =>
         v.seqs.isEmpty && v.buf.isEmpty && v.mem.read 0x3003 == 0x40 && v.mem.read 0x5000 == 1)))) = true := by decide +kernel

/-- R328: a revocation between row steps begins the end with code 0x0401. -/
theorem test_revoke :
    ends (.kernelRevoke 0) (sequencer [{ kern with revokeReq := true }] []) (fun t =>
      (seqOf t 0).kernels.all (fun k => k.status == .ending 0x0401)) = true := by decide +kernel

/-- The A-hart with an entry of one byte at home address 0x10000 in its store buffer, and two adds of one place in the
buffer of the channel. -/
def entryAt (loc : Loc) (p : Payload) : Entry :=
  { loc := loc, core := 0, agent := .scalar 0, payload := p, serial := 1, low := 0, rank := none, bad := false }
def adding (x : Word) : Entry := entryAt (.pb 0) (.atomic .add 0x10000 8 x [])

/-- The contribution of an atomic that gives its old value to s3. -/
def returning : Contrib :=
  { core := 0, t := 0, serial := 1, elem := 0, va := 0x10000, vsca := false, late := false
    ret := some { float := false, signed := true, shadow := false, r := 3 } }

theorem witness_MemoryEvents :
    (let s := inDomain (paged onA 0 0) 0xFFFF
     let c := s.onHart 0 false
     s.core.team.status = .resident ∧ (match translate c c.who Ask.load 0x10000 8 with | .ok p => p.key == 0x10000 | _ => false) = true ∧
     (match gotBytes (meetEcc s 0x10000 0) 0 (.scalar 0) (span 0x10000 8) with | .bytes _ => true | _ => false) = true ∧
     (eccIndex 0x10000).isSome = true ∧ s.core.team.trellis.isNone = true ∧
     (match translate c c.engWho Ask.copyRead 0x10000 128 with | .ok p => p.key == 0x10000 | _ => false) = true ∧
     Reader.agent .scalar 0 = some (.scalar 0, Ask.load, false) ∧ Reader.agent .copy 0 = some (.copy, Ask.copyRead, true) ∧
     (match freshRead s 0 .copy (span 0x10000 128) with | (_, .bytes l) => l.length == 128 | _ => false) = true ∧
     (meetEcc s 0x10000 0).fatal = none ∧
     (match translate c c.who Ask.fetch 0x10000 4 with | .ok p => p.key == 0x10000 | _ => false) = true ∧ poisonedAt s 0x10000 = false) ∧
    (inReserved 0xC000010000 = false ∧ (eccIndex 0xC000010000).isSome = true ∧ (eccIndex dumpBase).isSome = true ∧ inReserved dumpBase = true) ∧
    ((eccIndex hostBase).isNone = true ∧ hostBase < 2 ^ 60) ∧
    (let e := entryAt (.sb 0 (.scalar 0)) (.bytes [(0x10000, 7)])
     let s := { onA with buf := [e] }
     e.next.isSome = true ∧ (s.buf.take 0).all (fun g => !g.blocks e) ∧ (s.buf.eraseIdx 0).all (fun g => !e.waitsFor g)) ∧
    (let e := entryAt (.pb 0) (.bytes [(scratchBase, 7)])
     let s := { onA with buf := [e] }
     (s.buf[0]?).isSome = true ∧ e.next.isNone = true ∧ homeHeld s e = false) ∧
    (let e := entryAt (.fb 0) (.bytes [(0, 7)])
     let s := { sequencer [{ kern with inStep := true }] [] with buf := [e] }
     e.next.isNone = true ∧ homeHeld s e = true) ∧
    ((adding 1).loc.level = 1 ∧ (adding 1).rank = none ∧ (adding 2).loc = (adding 1).loc ∧
      sameUnit (adding 1) (adding 2) = true ∧
      (let f := { adding 2 with loc := .fb 0 }
       let e := { adding 1 with loc := .fb 1, core := 200 }
       e.next.isNone = true ∧ f.next.isNone = true ∧ sameUnit e f = true ∧ ∀ g ∈ ([] : List Entry), g.blocks f = false)) ∧
    ({ adding 1 with payload := .atomic .add 0x10000 8 1 [returning] }.payload = .atomic .add 0x10000 8 1 [returning] ∧
      noneReturns [returning] = false ∧ noneReturns [] = true) ∧
    (Reader.agent .record 0 = some (.scalar 0, Ask.record, false) ∧
      (let s := (recorded copyRecord).onHart 0 false
       (match translate s s.who Ask.record win 64 with | .ok p => p.key == scratchBase | _ => false) = true)) := by
  decide +kernel

/-- A walk for the page at 0x1000 through the tables at 0x8000, about to read the entry at `base` with `left` levels to go. -/
def walking (left base : Nat) (w0 : Option Word) : WalkRun :=
  { core := 0, root := 0x8000, va := 0x1000, left := left, base := base, w0 := w0 }

/-- A core whose team has those tables, with that walk. -/
def walker (w0 w1 : Word) (r : WalkRun) : State :=
  let s := tablesTo w0 w1
  { s.setTeam { s.core.team with root := 0x8000 } with walks := [r] }

/-- Reads of either word of an entry, a table, a leaf, poison, entries that give no leaf, no free walker, and a request that
has just been refused. -/
theorem witness_Walks :
    ((walker 0x413C3 0 (walking 4 0x8000 none)).core.team.status = .resident ∧ (0x1000 : Word).toNat < windowBase) ∧
    ([(4, 0x8000, none), (1, 0x20000, none), (4, 0x8000, some 0x10001), (1, 0x20000, some 0x413C3)].all (fun (p : Nat × Nat × Option Word) =>
      let s := walker 0x413C3 0 (walking p.1 p.2.1 p.2.2)
      walkOf s 0x1000 == walking p.1 p.2.1 p.2.2 && s.walks.contains (walking p.1 p.2.1 p.2.2)) = true) ∧
    ((walkOf (tablesTo 0 0) 0x1000).left = 4 ∧ (tablesTo 0 0).walks = []) ∧
    ((tablesTo 0 0).mem.word 0x20010 = 0 ∧ (0x413C3 : Word).getLsbD 1 = true ∧ malformedLeaf (4 - 1) 0x413C3 0 = false ∧
      malformedLeaf (4 - 4) 3 0 = true ∧ (0x10001 : Word).getLsbD 1 = false ∧ malformedTable 0x10001 0 = false ∧
      malformedTable 0x41005 0 = true) ∧
    (poisonedAt { walker 0x413C3 0 (walking 4 0x8000 none) with poison := [0x8000] } 0x8000 = true) ∧
    (let s := { tablesTo 0 0 with walks := List.replicate 192 { walking 4 0x8000 none with core := 1 } }
     192 ≤ s.walks.countP (fun q => dieOf q.core == dieOf s.core.num) ∧ ∀ q ∈ s.walks, ¬ q.core = s.core.num) ∧
    (let s := { tablesTo 0x413C3 0 with ticks := 6, miss := some { tick := 5, core := 0, root := 0x8000, page := 1, cls := 6, code := 1 } }
     s.miss.any (fun m => m.tick + 1 == s.ticks && m.core == tableUser.core && m.root == tableUser.root && m.page == 0x1000 / 4096) = true) := by
  decide +kernel

/-- R209: a walk of four levels takes two reads for each and then leaves its leaf. -/
theorem test_walk :
    (let walk := Instr.pageWalk { va := 0x1000, out := none }
     let s := { walker 0x413C3 0 (walking 4 0x8000 none) with walks := [] }
     let next := fun (n : Nat) (s : State) => Nat.repeat (fun o => o.bind (fun t => match exec walk t with | .next u => some u | _ => none)) n (some s)
     (next 7 s).any (fun t => t.tlb.isEmpty && t.walks == [walking 1 0x20000 (some 0x413C3)]) &&
     (next 8 s).any (fun t => t.walks.isEmpty && t.tlb.all (fun e => e.base == 0x1000 && e.w0 == 0x413C3) && t.tlb.length == 1)) = true := by
  decide +kernel

/-- A held read of a register and one of an element, and what waits and what meets poison. -/
def holding (d : Dest) : Early :=
  { core := 0, agent := .scalar 0, tick := 0, cells := [(scratchBase, 7)], dest := some d }

theorem witness_HeldAccesses :
    (let k := holding (.reg { float := false, signed := true, shadow := false, r := 3 })
     let s := { onA with early := [k] }
     s.early[(0 : Word).toNat]? = some k ∧ k.core = s.core.num ∧ (k.agent = .scalar (0 : BitVec 2).toFin) ∧ k.dest ≠ none ∧
     (match freshRead s 0 (.scalar 0) [scratchBase] with | (_, .bytes l) => l == [0] | _ => false) = true ∧
     (match freshRead { s with poison := [scratchBase] } 0 (.scalar 0) [scratchBase] with | (_, .poison j) => j == 0 | _ => false) = true ∧
     (match freshRead { s with core := { s.core with emptyLines := [0] } } 0 (.scalar 0) [scratchBase] with | (_, .wait) => true | _ => false) = true) ∧
    (let k := { holding (.elem 0 0 32 1) with agent := .vector 0 }
     k.agent = .vector (0 : BitVec 2).toFin ∧ k.dest = some (.elem 0 0 32 1)) ∧
    (poisonedAt onA scratchBase = false ∧ returning.ret.isSome = true) ∧
    (({ float := true, signed := false, shadow := false, r := 3 } : RegDest).float = true ∧
      (24 ≤ (25 : Reg).toNat ∧ ({ float := false, signed := true, shadow := true, r := 25 } : RegDest).shadow = true)) := by
  decide +kernel

/-- R222 and R223: an entry performs at home; two adds of one place become one add of the sum. -/
theorem test_memory_events :
    (ends (.drain 0) { onA with buf := [entryAt (.pb 0) (.bytes [(scratchBase, 7)])] } (fun t =>
       t.buf.isEmpty && t.mem.read scratchBase == 7) &&
     ends (.combine 0) { onA with buf := [adding 5, adding 6] } (fun t => t.buf == [adding 11])) = true := by decide +kernel

/-- The A-hart stalled, seen from any hart in focus. -/
def stalled (s : State) (w : Wait) : State := s.setA { s.a with h := { s.a.h with wait := some w } }

theorem witness_WakingEvents :
    (let s := stalled (setR onA [(1, 10)]) (.setvl 3 1 0 2)
     s.core.team.status = .resident ∧ 0 < s.core.team.tandems ∧ (s.onHart 0 false).h.halted = false ∧ (readyFault s).isNone = true ∧
     s.core.expired = false ∧ (highWater s).any (fun p => p.1.td.gq.length < 8 && (grant1 p.1 10 0 2 p.2).2.isSome) = true) ∧
    (let s := stalled (setR onA [(1, 3), (2, 4)]) (.setvl2 3 1 2 2)
     (s.getS 2).toNat ≠ 0 ∧ (s.getS 2).toNat ≤ s.maxvl 2 0 ∧ s.core.team.port = false ∧
     (highWater s).any (fun p => (grant2 p.1 3 4 2 p.2).2.isSome) = true) ∧
    (let s := stalled (setR barrier [(2, 3)]) (.barw 3 1 2 0 1)
     (acquired s (s.getS 1) 8).any (fun p => (leastPhase (phaseWords (p.1.getS 1) 2) p.1 0xFFFFFFFFFFFFFFFF).any (fun q => 3 ≤ q.2.toNat)) = true) ∧
    (let s := setR onA [(1, win)]
     (acquired s (s.getS 1) 8).any (fun p => ((wordOf p.2).extractLsb' 0 11).toNat == 0) = true) ∧
    (let s := onA.setA { onA.a with done := [{ stat := 5, status := 6 }], uvec := 0x500 }
     s.a.done.length = 1 ∧ s.a.ustat = false ∧ s.a.h.priv = .user ∧ s.a.uvec ≠ 0 ∧ s.a.paused = false) ∧
    ((stalled onA .line).h.wait = some .line ∧ (stalled onA .queue).h.wait = some .queue) ∧
    (let s := onA.setA { onA.a with pend := [{ cause := 5, tval := 0, addr := 0, serial := none }] }
     (readyFault s).isSome = true) := by decide +kernel

/-- R253 and R394: the user-level handler's entry, and a pending fault taken before the instruction at the pc. -/
theorem test_waking :
    (ends (.userInterruptEntry 0) (onA.setA { onA.a with done := [{ stat := 5, status := 6 }], uvec := 0x500 }) (fun t =>
       t.pc == 0x500 && t.getS 24 == 5 && t.getS 25 == 6 && t.a.ustat) &&
     ends (.pendingFaultTake 0) (onA.setA { onA.a with pend := [{ cause := 5, tval := 1, addr := 2, serial := none }] }) (fun t =>
       t.h.tcause == 5 && t.h.tval2 == 2 && t.a.pend.isEmpty)) = true := by decide +kernel
/-! ## Events of the engines, the teams and the scheduler -/

/-- The core with a copy command, stream fills or feeds of its own. -/
def copying (c : CopyCmd) : State := (recorded copyRecord).setTeam { (recorded copyRecord).core.team with copies := [c] }

/-- The result of an engine's access, where it goes through. -/
def engOk {α : Type} (r : Eng α) (p : State → α → Bool) : Bool :=
  match r with
  | .ok s a => p s a
  | _ => false

/-- A feed of one step from the window into q1. -/
def feedCmd : FeedCmd :=
  { t := 0, words := [win, 0x100000080, 0x101, 0, 0, 0, 0, 0], ord := orders 0 0 0, step := 0, since := 0, fault := none }

theorem witness_CopyAndFeedEvents :
    (heldCopy.next < copyChunks heldCopy.words ∧ heldCopy.fault = none ∧ copyWaits (copying heldCopy) [heldCopy] 0
        (pieceKeys (copying heldCopy) Ask.copyRead (pieces 2 (copyFrom heldCopy.words) 128))
        (pieceKeys (copying heldCopy) Ask.copyWrite (pieces 2 (copyTo heldCopy.words) 128)) = false ∧
      engOk (readPieces .copy heldCopy.since Ask.copyRead (pieces 2 (copyFrom heldCopy.words) 128) (copying heldCopy)) (fun u r => r.2.isNone &&
        engOk (placePieces Ask.copyWrite (pieces 2 (copyTo heldCopy.words) 128) u) (fun _ _ => true)) = true) ∧
    ((copying heldCopy).core.team.status = .resident ∧ (engineAcquires (copying heldCopy) heldCopy.serial).isSome = true ∧
      (∀ k : Fin 4, (copying heldCopy).core.team.tds[k].a.app = none) ∧
      (let s := copying heldCopy
       let a := inApp 0 0 0
       let s := s.setTeam { s.core.team with tds := s.core.team.tds.set 0 { s.core.team.tds[0] with
         a := { s.core.team.tds[0].a with app := a.a.app.map (fun p => { p with acq := some (1, 0) }) } } }
       (engineAcquires s 5).isNone = true ∧
         (s.a.app.any (fun p => !acquireDone s (1, 0) && acquireDone s (0, 0) && p.acq == some (1, 0)) = true))) ∧
    (let c := { heldCopy with next := 1 }
     copyChunks c.words ≤ c.next ∧ unperformed (copying c) .copy c.serial = false ∧
     engOk (concludeCommand (copying c) .copy 0 c.t c.ord (copyStat c.words) (copyTag c.words) c.fault) (fun _ w => w.isSome) = true) ∧
    (let s := inApp 0 0 0
     s.a.app.any (fun app => app.streams[0].en && app.streams[0].fault.isNone && !app.streams[0].filling &&
       !(lineElems app app.streams[0] 0).isEmpty && lineRoom app.streams[0] &&
       app.acq.isNone && engOk (lineReady s app (lineElems app app.streams[0] 0)) (fun _ b => b)) = true) ∧
    (let st := { streamAt 1 with filling := true }
     engOk (fillBytes st (span 0 16) onA []) (fun u bs => bs.length == 128 &&
       engOk (enginePlace u Ask.copyWrite (BitVec.ofNat 64 (windowBase + st.boff)) 128) (fun _ _ => true)) = true) ∧
    (let s := onA.setTeam { onA.core.team with feeds := [feedCmd] }
     feedCmd.step < feedSteps feedCmd.words ∧ headFull (s.onHart 0 false) (feedHead feedCmd.words) = false ∧
     (match feedLines feedCmd.words (span 0 1) feedCmd.since s with | (.ok _ bs, _) => bs.1.length == 128 | _ => false) = true) ∧
    (let s := onA.setTeam { onA.core.team with feeds := [{ feedCmd with step := 1 }, feedCmd] }
     (∀ e ∈ s.core.team.feeds.take 1, e.fault ≠ none ∨ e.step ≠ 0 ∧ feedSteps e.words ≤ e.step) ∧ s.core.team.feeds[1]? = some feedCmd ∧
     (match feedLines feedCmd.words (span 0 1) feedCmd.since s with | (.ok _ bs, _) => bs.1.length == 128 | _ => false) = true) ∧
    (let f := { feedCmd with step := 1 }
     feedSteps f.words ≤ f.step ∧ engOk (concludeCommand onA .feed 1 f.t f.ord (feedStat f.words) (feedTag f.words) f.fault) (fun _ _ => true) = true) := by
  decide +kernel

/-- R252 and R270: a chunk becomes an entry of the copy engine; an entry of one step comes into q1. -/
theorem test_engines :
    (ends (.copyChunk 0) (copying heldCopy) (fun t => t.buf.length == 1 && t.core.team.copies.all (fun c => c.next == 1)) &&
     ends (.mfeedEntry 0) (onA.setTeam { onA.core.team with feeds := [feedCmd] }) (fun t =>
       (headOf t 1).all (fun q => q.count == 128 && q.sew == 0) && t.core.team.feeds.all (fun f => f.step == 1))) = true := by
  decide +kernel

/-- Target records: one example of class 0, with class 1 as its negative. -/
def learning (p : ParCmd) : State :=
  let s := banked.setTeam { banked.core.team with pars := [p] }
  { s with mem := s.mem.writeAll (cellsAt (scratchBase + 0x4000) (bytesOf 4 0x00010000)) }

/-- A `pfeed` whose targets are known and whose example has been evaluated. -/
def second : ParCmd :=
  { waiting1 .feed 0 0 with roles := some [[(0, true), (1, false)]], outs := [[(0, 0), (0, 0)]], second := true }

theorem witness_ParterreEvents :
    (let p := waiting1 (.eval true) 0 0
     let s := learning p
     p.fault = none ∧ p.pos < batchB p.words * p.bank.classes ∧ batchS p.words ≠ 0 ∧
     engOk (classOuts s p.since p.bank p.words 0 0 true) (fun u os => engOk (writePair u p 0 0 os) (fun _ _ => true)) = true) ∧
    (let p := { waiting1 (.eval true) 0 0 with pos := 2 }
     let s := learning p
     batchB p.words * p.bank.classes ≤ p.pos ∧ p.refused = false ∧ unperformed s .parterre p.serial = false ∧
     engOk (concludeCommand s .parterre 2 p.t p.ord (batchStat p.words) (batchTag p.words) p.fault) (fun _ _ => true) = true) ∧
    (let p := waiting1 .feed 0 0
     let s := learning p
     p.roles = none ∧ p.refused = false ∧
     (match readTargets p.since p.words (List.range 1) s with | (.ok _ ws, _) => ws.mapM (rolesOf p.bank.classes) == some [[(0, true), (1, false)]] | _ => false) = true) ∧
    (let s := learning second
     engOk (rolesOuts second.since second.bank second.words 0 [(0, true), (1, false)] s) (fun _ l => l.length == 2) = true ∧
     batchB second.words ≤ 1 ∧ second.pos < (namedClasses [[(0, true), (1, false)]]).length * (second.bank.clauses * second.bank.segments) ∧
     (match selectExamples second 0 0 (List.range 1) s with | (.ok _ sel, _) => sel.all (fun b => !b) | _ => false) = true) ∧
    (let s := learning second
     (match readPacks second.since second.bank second.words (List.range 1) s with
      | (.ok u ws, _) => engOk (parLines second.since ((List.range second.bank.depth).map (second.bank.plane 0 0 0)) u) (fun v ls =>
          (match stepSegment second ws [0] 0 0 0 (ls.map natOf) (List.range 4) v with | (.ok _ states, _) => states.length == 4 | _ => false))
      | _ => false) = true) ∧
    ((worked (waiting1 (.vote true) 0 0) ((learning (waiting1 (.vote true) 0 0)).onHart 0 false)).isSome = true) ∧
    stripC (byteStrip.onHart 0 false) ≠ 0 ∧
    (let s := (learning (waiting1 (.vote true) 0 0)).onHart 0 false
     interrupted s = false ∧ s.limit = none ∧
       interrupted (s.setA { s.a with pend := [{ cause := 5, tval := 0, addr := 0, serial := none }] }) = true) ∧
    ((learning second).core.team.status = .resident ∧ ((learning second).setTeam { (learning second).core.team with status := .stopped }).core.team.status ≠ .resident) := by decide +kernel

/-- R252, R270 and R284: the commands of a team that has not resumed stand still. -/
theorem test_engines_stopped :
    (let stop := fun (s : State) => s.setTeam { s.core.team with status := .stopped }
     ends (.copyChunk 0) (stop (copying heldCopy)) (fun t => t.buf.isEmpty && t.core.team.copies.all (fun c => c.next == 0)) &&
     ends (.mfeedEntry 0) (stop (onA.setTeam { onA.core.team with feeds := [feedCmd] })) (fun t => (headOf t 1).isEmpty)) = true := by
  decide +kernel

/-- Tables at 0x8000 that map the pages at 0x1000 and 0x2000 to 0x41000 and 0x42000. -/
def tables : List Host.Cell :=
  cellsAt 0x8000 (bytesOf 8 0x10001) ++ cellsAt 0x10000 (bytesOf 8 0x18001) ++ cellsAt 0x18000 (bytesOf 8 0x20001) ++
    cellsAt 0x20010 (bytesOf 8 0x413C3) ++ cellsAt 0x20020 (bytesOf 8 0x423C3)

/-- A launch of two teams of one tandem, its image at 0x1000 and its parameters at 0x2000, in the only queue. -/
def launchWords : List Word := [0x1000, 0x2000, 0x8080, 0, 0, 1, 0, 0]
def record (kind : Nat) (ws : List Word) (status : RecStatus) : LaunchRec :=
  { id := 1, queue := 0, m := 0, epoch := 1, d3 := 0x0001010000000001, kind := kind, words := ws, status := status, code := 0,
    teams := [], count := 0, args := [], entries := [], started := none, area := none }
def queue0 : WQueue := { WQueue.fresh 0 with en := true, seen := true, epoch := 1, d0 := 0x30001, d1 := 0x31001, d2 := 0x31008, d3 := 0x0001010000000001, taken := 1 }
def image : List Host.Cell :=
  cellsAt 0x41000 (bytesOf 8 0x4C514B45524E0001) ++ cellsAt 0x41008 (bytesOf 8 1) ++ cellsAt 0x41010 (bytesOf 8 0x100000002) ++
    cellsAt 0x41050 (bytesOf 8 0x100) ++ cellsAt 0x41058 (bytesOf 8 0x200)

/-- Firmware runs, and one record has been taken. -/
def scheduling (rs : List LaunchRec) : State :=
  { State.reset with mem := Memory.writeAll [] (tables ++ image), ready := true, queues := [queue0], launches := rs }

/-- A team of that launch. -/
def newcomer (status : TeamStatus) : Team :=
  { team with status := status, launch := 1, epoch := 1, index := 0, tandems := 1, params := 0x2000, image := 0x1000, root := 0x8000, clast := 0 }

/-- That team stopped, a late fault held for its first A-hart. -/
def late1 : Team := { newcomer .stopped with late := [{ t := 0, detail := 0x0000000000010006, addr := 0x7000 }] }

/-- R393: the late fault is taken as the team is resumed, before any instruction of it. -/
theorem test_team_late :
    (let s := { scheduling [] with core := { State.reset.core with team := late1 } }
     ends (.teamResume 0) s (fun t => t.core.team.status == .resident && t.core.team.late.isEmpty && t.core.team.tds[0].a.h.priv == .system &&
       t.core.team.tds[0].a.h.tval2 == 0x7000 && t.core.team.tds[0].a.pend.isEmpty)) = true := by decide +kernel

theorem witness_TeamEvents :
    (let r := { record 0 launchWords .active with teams := [newcomer .notStarted], count := 1 }
     let s := scheduling [r]
     (s.launches.find? (fun r => r.id == 1 && r.status == .active && r.teams.any (fun t => t.index == 0 && placeable t))).any (fun r =>
       (r.teams.find? (fun t => t.index == 0 && placeable t)).isSome && !placedBefore s r (newcomer .notStarted).die) = true ∧ s.fatal = none ∧
     ((((span 0 1).map s.coreOf).filter (fun c => fitsCore c (newcomer .notStarted))).find? (fun c => c.team.status == .none && c.runList.isEmpty)).isSome = true) ∧
    (let r := { record 0 launchWords .active with teams := [newcomer .notStarted], count := 1 }
     let s := { scheduling [r] with core := { State.reset.core with team := newcomer .resident } }
     let cores := ((span 0 1).map s.coreOf).filter (fun c => fitsCore c (newcomer .notStarted))
     (cores.find? (fun c => c.team.status == .none && c.runList.isEmpty)).isNone = true ∧
     (leastBy (fun c => c.runList.length) (cores.filter (fun c => c.runList.length < 16))).any (fun c =>
       (c.runList ++ [newcomer .notStarted]).all (fun k => k.prio ≤ c.team.prio)) = true) ∧
    (let s := { scheduling [record 0 launchWords .active] with core := { State.reset.core with team := newcomer .notStarted } }
     let f := s.focus 0
     f.core.team.status = .notStarted ∧ fitsCore f.core (newcomer .notStarted) = true ∧ (f.launchOf 1 1).isSome = true ∧
     (schedRead f 0x8000 0x2000 56).isSome = true) ∧
    (let s := { scheduling [] with core := { State.reset.core with team := newcomer .stopped } }
     (s.focus 0).core.team.status = .stopped ∧ fitsCore (s.focus 0).core (newcomer .stopped) = true ∧ s.fatal = none ∧
       (newcomer .stopped).tds[0].a.pend = [] ∧ (newcomer .stopped).late = []) ∧
    (let t := late1
     t.status = .stopped ∧ t.tds[0].a.h.priv = .user ∧ (t.late.filter (fun l => l.t == 0)).map (fun l => pendingOf l.detail l.addr) ≠ [] ∧
       (t.late.map (fun l => (pendingOf l.detail l.addr).serial)).all (·.isNone) = true ∧ t.tds[0].a.paused = false) ∧
    (let t := { newcomer .resident with tds := Vector.replicate 4 { Tandem.fresh with
       a := { AHart.fresh with h := { Hart.fresh with halted := true } }, x := { XHart.fresh with h := { Hart.fresh with halted := true } } } }
     let s := { scheduling [record 0 launchWords .active] with core := { State.reset.core with team := t } }
     teamOver s t = true ∧ (releaseHeld (s.focus 0) 0 teamAgents 3).isEmpty = true ∧
     (s.launchOf 1 1).any (fun k => !heldByGrotto s (wordKeys (outcomeKey s k.words))) = true ∧ (s.focus 0).core.runList.isEmpty = true ∧
     teamOver (releaseMove (s.focus 0) 0 teamAgents 3) (releaseMove (s.focus 0) 0 teamAgents 3).core.team = true) ∧
    (let c := { State.reset.core with team := newcomer .resident, cycle := 0x110000 }
     c.team.status = .resident ∧ c.expired = false ∧ 2 ^ 20 + 2 ^ 16 ≤ (c.cycle - c.qStart).toNat ∧ fitsCore c c.team = true) ∧
    (let c := { State.reset.core with team := newcomer .resident, laneOff := 0xFF, runList := [{ newcomer .notStarted with prio := 1 }] }
     fitsCore c c.team = false ∧ c.runList.any (fun k => c.team.prio < k.prio) = true ∧
     (leaveHeld ({ scheduling [] with core := c }.focus 0)).isEmpty = true) := by decide +kernel

/-- R78: a team starts at its entries with its parameters, with eight lane groups. -/
theorem test_team_start :
    (let s := { scheduling [{ record 0 launchWords .active with entries := [(0x100, 0x200)] }] with core := { State.reset.core with team := newcomer .notStarted } }
     let s := { s with mem := s.mem.writeAll (cellsAt 0x42000 (bytesOf 8 77)) }
     ends (.teamStart 0) s (fun t => t.core.team.status == .resident && t.core.team.w == 8 && t.core.team.tds[0].a.h.pc == 0x1100 &&
       t.core.team.tds[0].x.h.pc == 0x1200 && t.core.team.tds[0].a.h.s[1] == 77)) = true := by decide +kernel

/-- The first X-hart at a `vadd`, on a strip. -/
def readyX : State :=
  let s := mapped (strip 3 4 2) [(0x10000, 4096, 0)]
  { s.setX { s.x with h := { s.x.h with pc := 0x10000 } } with mem := s.mem.writeAll (cellsAt 0x10000 (bytesOf 4 ((encodeC (.vadd 3 1 2 0 0)).setWidth 64))) }

/-- The same at a reduction, which works in one step. -/
def reducing : State :=
  { readyX with mem := readyX.mem.writeAll (cellsAt 0x10000 (bytesOf 4 ((encodeC (.vred 3 1 0 0 0)).setWidth 64))) }

/-- The mismatch of lane group 3 on the first element group there. -/
def suspect3 : Suspect := { t := 0, unit := 3, element := 0 }

theorem witness_CoreEvents :
    (workingLanes (onA.focus 0).core = 8 ∧ checks readyX 0 3 2 = true ∧ suspect3 ∉ readyX.core.suspects ∧
      checkedSize readyX 0 3 = 64) ∧
    (let s := { readyX with core := { readyX.core with suspects := [suspect3] } }
     suspect3 ∈ s.core.suspects ∧ checks s 0 3 2 = true ∧ (s.onHart 0 true).x.vstart.toNat / 64 = 2 / 64 ∧
     stepwise s 0 = true) ∧
    (let s := { reducing with core := { reducing.core with suspects := [suspect3] } }
     suspect3 ∈ s.core.suspects ∧ checks s 0 3 2 = true ∧ stepwise s 0 = false) ∧
    (readyX.core.team.status = .resident ∧ readyX.core.laneOff.getLsbD 0 = false ∧ readyVector readyX 0 = true ∧
      nextTandem readyX.core.groups[0].lastTie (oldest readyX (([0, 1, 2, 3] : List (Fin 4)).filter (readyVector readyX))) = some 0) ∧
    (let s := strip 70 4 2
     s.xh = true ∧ s.fatal = none ∧ intOk 3 1 2 0 0 0 s.x = true ∧ fitsB s 3 1 32 = true ∧ (0 / 64 + 1) * 64 < s.x.vl.toNat) := by
  decide +kernel

/-- R51: the first element group of 70 elements; `vstart` stands after it. -/
theorem test_group :
    (match groupInstr (.vadd 3 1 2 0 0) (setV (strip 70 4 2) 32 [(1, List.replicate 70 2), (2, List.replicate 70 3)]) with
      | .next t => t.x.vstart == 64 && t.x.vl == 70 && t.pc == 0 && elems t 32 3 66 == List.replicate 64 5 ++ [0, 0]
      | _ => false) = true := by decide +kernel

/-- A queue whose descriptor in the table at 0 asks to be enabled, and a record in its ring. -/
def enabling : State :=
  { scheduling [] with queues := [{ WQueue.fresh 0 with dirty := true }], mem := Memory.writeAll [] (cellsAt 0 (bytesOf 8 0x30001) ++
    cellsAt 8 (bytesOf 8 0x31001) ++ cellsAt 16 (bytesOf 8 0x31008) ++ cellsAt 24 (bytesOf 8 0x00010100BF000001)) }

/-- A trapped hart of the launch. -/
def trapping : State :=
  let t := newcomer .resident
  let t := { t with tds := t.tds.set 0 { Tandem.fresh with a := { AHart.fresh with h := { Hart.fresh with priv := .system, tcause := 3 } } } }
  { scheduling [record 0 launchWords .active] with core := { State.reset.core with team := t } }

/-- The record with its identifier, kind and first words. -/
def asking (kind : Nat) (ws : List Word) : LaunchRec :=
  { record kind (ws ++ [BitVec.ofNat 64 (2 ^ 32 * 0 + 2), 0, BitVec.ofNat 64 (kind * 2 ^ 32)]) .waiting with id := 2, m := 1 }

theorem witness_SchedulerEvents :
    ((enabling.queueOf 0).dirty = true ∧ (enabling.queueOf 0).seen = false ∧ (rw (descWords enabling 0) 1).getLsbD 0 = true ∧
      descOk (descWords enabling 0) = true ∧ poisonedAt enabling 0 = false ∧ enabling.ready = true ∧ enabling.recovery = false) ∧
    (let s := { enabling with mem := [] }
     (rw (descWords s 0) 1).getLsbD 0 = false) ∧
    (let s := { scheduling [] with queues := [{ queue0 with tailDirty := true }] }
     (s.queueOf 0).en = true ∧ (s.queueOf 0).tailDirty = true ∧ poisonedAt s ((s.queueOf 0).key (s.queueOf 0).tailAt) = false) ∧
    (let s := { scheduling [] with queues := [{ queue0 with tail := 2 }] }
     (s.queueOf 0).taken < (s.queueOf 0).tail ∧ heldByGrotto s (span 0x31008 8) = false) ∧
    (let s := scheduling [record 0 (launchWords.set 0 0x20000) .waiting]
     (readyRec s 1 0).any (fun r => match makeLaunch s r with | .ok _ => false | .error c => c == 0x0202) = true) := by decide +kernel

theorem witness_SchedulerEvents_records :
    (let s := scheduling [asking 2 [1, 0, 0, 0x50000, 0]]
     (readyRec s 2 2).any (fun r => (target s (recTarget r.words)).isNone) = true) ∧
    (let s := scheduling [asking 2 [1, 0, 0, 0x50000, 0], { record 0 launchWords .active with teams := [newcomer .stopped], count := 1 }]
     (readyRec s 2 2).any (fun r => (target s (recTarget r.words)).any (fun k =>
       !heldByGrotto s (wordKeys (outcomeKey s r.words) ++ wordKeys (outcomeKey s k.words)) &&
       (match stopLaunch s k with | .ok u => (target u k.id).isSome | _ => false))) = true) ∧
    (let s := scheduling [asking 3 [1, 0x100000, 0x10000000, 0x50000, 0], { record 0 launchWords .active with teams := [newcomer .stopped], count := 1 }]
     (readyRec s 2 3).any (fun r => (target s (recTarget r.words)).any (fun k => k.status != .waiting &&
       areaSize (recSpad k.words) k.count ≤ (rw r.words 2).toNat && (rw r.words 1).toNat + areaSize (recSpad k.words) k.count ≤ hbmSize &&
       (match stopLaunch (s.setLaunch k) k with | .ok u => (target u k.id).isSome | _ => false))) = true ∧
     heldByGrotto s (span 0x100000 64) = false) ∧
    (let s := scheduling [asking 3 [1, 0x100000, 0x100, 0x50000, 0], { record 0 launchWords .active with count := 1 }]
     (readyRec s 2 3).any (fun r => (target s (recTarget r.words)).any (fun k => (rw r.words 2).toNat < areaSize (recSpad k.words) k.count)) = true) ∧
    (let s := scheduling [asking 1 [0, 16, 0x8000, 0x50000, 0]]
     (readyRec s 2 1).isSome = true) ∧
    (let s := scheduling [{ asking 1 [0, 16, 0x8000, 0x50000, 0] with status := .active, started := some 0 }]
     (s.launches.find? (fun r => r.id == 2 && r.kind == 1 && r.status == .active)).any (fun r =>
       !heldByGrotto s (wordKeys (outcomeKey s r.words)) && !invalPending s r.words 0) = true ∧ s.walks = [] ∧
     (let t := { s with walks := [walking 1 0x20000 none] }
      (t.launches.find? (fun r => r.id == 2 && r.kind == 1 && r.status == .active)).any (fun r => recRoot r.words == 0x8000) = true)) := by decide +kernel

/-- The words of the tables. -/
def Tabled (s : State) : Prop :=
  s.poison = [] ∧ s.mem.word 0x8000 = 0x10001 ∧ s.mem.word 0x8008 = 0 ∧ s.mem.word 0x10000 = 0x18001 ∧ s.mem.word 0x10008 = 0 ∧
  s.mem.word 0x18000 = 0x20001 ∧ s.mem.word 0x18008 = 0 ∧ s.mem.word 0x20010 = 0x413C3 ∧ s.mem.word 0x20018 = 0 ∧
  s.mem.word 0x20020 = 0x423C3 ∧ s.mem.word 0x20028 = 0

theorem walk_table (s : State) (va k base i : Nat) (w : Word) (hk : (k == 0) = false) (hp : s.poison = []) (hi : va / 2 ^ (12 + 11 * k) % 2048 = i)
    (h : s.mem.word (base + 16 * i) = w) (h8 : s.mem.word (base + 16 * i + 8) = 0)
    (w0 : w.getLsbD 0 = true) (w1 : w.getLsbD 1 = false) (wf : malformedTable w 0 = false) :
    walkFrom s va (k + 1) base = walkFrom s va k (leafPa w) := by
  have e : entryPa va k base = base + 16 * i := by rw [← hi]; rfl
  rw [walkFrom]
  simp only [e, entrySays, h, h8, poisonedAt, hp, w0, w1, wf, hk]
  rfl

theorem walk_leaf (s : State) (va base i : Nat) (w : Word) (hp : s.poison = []) (hi : va / 2 ^ (12 + 11 * 0) % 2048 = i)
    (h : s.mem.word (base + 16 * i) = w) (h8 : s.mem.word (base + 16 * i + 8) = 0)
    (w0 : w.getLsbD 0 = true) (w1 : w.getLsbD 1 = true) (wf : malformedLeaf 3 w 0 = false) (wz : leafSize w = 0) :
    walkFrom s va (0 + 1) base = .ok { base := va - va % 4096, size := 4096, w0 := w, w1 := 0 } := by
  have e : entryPa va 0 base = base + 16 * i := by rw [← hi]; rfl
  rw [walkFrom]
  simp only [e, entrySays, h, h8, poisonedAt, hp, w0, w1, wf, wz]
  rfl

theorem tabled_key (s : State) (h : Tabled s) (va : Nat) (hv : va / 4096 = 1 ∨ va / 4096 = 2) :
    schedKey s 0x8000 false va = some (0x40000 + va) := by
  obtain ⟨hp, h0, h1, h2, h3, h4, h5, h6, h7, h8, h9⟩ := h
  have nw : ¬ windowBase ≤ va := by show ¬ 0x00FFFF0000000000 ≤ va; omega
  unfold schedKey
  rw [if_neg nw]
  have t : walkFrom s va 4 (0x8000 : Word).toNat = walkFrom s va (0 + 1) 0x20000 := by
    rw [show (0x8000 : Word).toNat = 0x8000 from rfl,
      walk_table s va 3 0x8000 0 0x10001 rfl hp (by omega) h0 h1 (by decide) (by decide) (by decide), show leafPa 0x10001 = 0x10000 from rfl,
      walk_table s va 2 0x10000 0 0x18001 rfl hp (by omega) h2 h3 (by decide) (by decide) (by decide), show leafPa 0x18001 = 0x18000 from rfl,
      walk_table s va 1 0x18000 0 0x20001 rfl hp (by omega) h4 h5 (by decide) (by decide) (by decide), show leafPa 0x20001 = 0x20000 from rfl]
  rw [t]
  obtain hv | hv := hv
  · rw [walk_leaf s va 0x20000 1 0x413C3 hp (by omega) h6 h7 (by decide) (by decide) (by decide) (by decide)]
    have q : ((0x413C3 : Word).getLsbD 9 && (if false = true then (0x413C3 : Word).getLsbD 7 else (0x413C3 : Word).getLsbD 6) &&
        decide (leafKind 0x413C3 < 2)) = true ∧ leafKind 0x413C3 = 0 ∧ leafPa 0x413C3 = 0x41000 := by decide
    dsimp only
    rw [if_pos q.1, q.2.1, q.2.2]
    simp only [homeKey, Option.some.injEq]
    omega
  · rw [walk_leaf s va 0x20000 2 0x423C3 hp (by omega) h8 h9 (by decide) (by decide) (by decide) (by decide)]
    have q : ((0x423C3 : Word).getLsbD 9 && (if false = true then (0x423C3 : Word).getLsbD 7 else (0x423C3 : Word).getLsbD 6) &&
        decide (leafKind 0x423C3 < 2)) = true ∧ leafKind 0x423C3 = 0 ∧ leafPa 0x423C3 = 0x42000 := by decide
    dsimp only
    rw [if_pos q.1, q.2.1, q.2.2]
    simp only [homeKey, Option.some.injEq]
    omega

/-- What the scheduler reads through them. -/
theorem tabled_read (s : State) (h : Tabled s) (va n : Nat) (hv : ∀ a ∈ span va n, a / 4096 = 1 ∨ a / 4096 = 2) :
    schedRead s 0x8000 va n = some ((span va n).map (fun a => s.mem.read (0x40000 + a))) := by
  unfold schedRead
  generalize span va n = l at hv
  induction l with
  | nil => rfl
  | cons a l ih =>
    have hp : s.poison = [] := h.1
    rw [List.mapM_cons, ih (fun b hb => hv b (by simp [hb])), tabled_key s h a (hv a (by simp))]
    simp [poisonedAt, hp]

theorem tabled_scheduling (rs : List LaunchRec) : Tabled (scheduling rs) := by
  have h : (let m := Memory.writeAll [] (tables ++ image)
      m.word 0x8000 = 0x10001 ∧ m.word 0x8008 = 0 ∧ m.word 0x10000 = 0x18001 ∧ m.word 0x10008 = 0 ∧ m.word 0x18000 = 0x20001 ∧
      m.word 0x18008 = 0 ∧ m.word 0x20010 = 0x413C3 ∧ m.word 0x20018 = 0 ∧ m.word 0x20020 = 0x423C3 ∧ m.word 0x20028 = 0) := by
    decide +kernel
  exact ⟨rfl, h⟩

/-- The reading checks of the launch pass: two teams of one tandem. -/
theorem reads_pass (s : State) (h : Tabled s) (ws : List Word) (hr : recRoot ws = 0x8000) (hi : recImage ws = 0x1000)
    (hp : recParams ws = 0x2000)
    (hh : (imageHead (wordsOf 32 ((span 0x1000 256).map (fun a => s.mem.read (0x40000 + a))))).any (fun h =>
      teamCount h.levels == 2 && h.entries.length == 1) = true) :
    ∃ h args, launchReads s ws = some (h, args) ∧ teamCount h.levels = 2 ∧ h.entries.length = 1 := by
  cases e : imageHead (wordsOf 32 ((span 0x1000 256).map (fun a => s.mem.read (0x40000 + a)))) with
  | none => rw [e] at hh; exact absurd hh (by decide)
  | some h' =>
  rw [e] at hh
  simp only [Option.any_some, Bool.and_eq_true, beq_iff_eq] at hh
  have m1 : ∀ a ∈ span 0x1000 256, a / 4096 = 1 ∨ a / 4096 = 2 := by
    intro a ha; simp only [span, List.mem_map, List.mem_range] at ha; omega
  have m2 : ∀ a ∈ span 0x2000 56, a / 4096 = 1 ∨ a / 4096 = 2 := by
    intro a ha; simp only [span, List.mem_map, List.mem_range] at ha; omega
  refine ⟨h', wordsOf 7 ((span 0x2000 56).map (fun a => s.mem.read (0x40000 + a))), ?_, hh⟩
  rw [launchReads, hr, hi, hp, tabled_read s h _ _ m1, tabled_read s h _ _ m2]
  dsimp only
  rw [e]
  rfl

theorem witness_SchedulerEvents_launch :
    let r := record 0 launchWords .waiting
    let s := scheduling [r]
    readyRec s 1 0 = some r ∧ heldByGrotto s (wordKeys (outcomeKey s r.words)) = false ∧
      (match makeLaunch s r with | .ok m => m.teams.length == 2 | .error _ => false) = true := by
  refine ⟨by decide +kernel, rfl, ?_⟩
  obtain ⟨h, args, e, n, t⟩ := reads_pass _ (tabled_scheduling [record 0 launchWords .waiting]) launchWords (by decide) (by decide)
    (by decide) (by decide +kernel)
  have e' : launchReads (scheduling [record 0 launchWords .waiting]) (record 0 launchWords .waiting).words = some (h, args) := e
  rw [makeLaunch, e']
  dsimp only
  rw [if_neg (by rw [t]; decide)]
  simp [n]

/-- A saved area of one launch of no lasting team: its record and its head. -/
def saved : State :=
  let s := scheduling [asking 4 [0x100000, 0, 0x8000, 0, 0]]
  { s with mem := s.mem.writeAll ((cellsAt 0x100000 (([0x1000, 0x2000, 0x8080, 0, 0, 0, 0, 0] : List Word).flatMap (bytesOf 8))) ++
      cellsAt 0x100040 (bytesOf 8 2) ++ cellsAt 0x100048 (bytesOf 8 (BitVec.ofNat 64 (slotSize 1))) ++
      ([0, 1] : List Nat).flatMap (fun i => cellsAt (imageAt 0x100000 1 i) [1])) }

theorem tabled_saved : Tabled saved := by
  have h : saved.mem.word 0x8000 = 0x10001 ∧ saved.mem.word 0x8008 = 0 ∧ saved.mem.word 0x10000 = 0x18001 ∧
      saved.mem.word 0x10008 = 0 ∧ saved.mem.word 0x18000 = 0x20001 ∧ saved.mem.word 0x18008 = 0 ∧
      saved.mem.word 0x20010 = 0x413C3 ∧ saved.mem.word 0x20018 = 0 ∧ saved.mem.word 0x20020 = 0x423C3 ∧ saved.mem.word 0x20028 = 0 := by
    decide +kernel
  exact ⟨rfl, h⟩

/-- A team saved in state 0 has not started. -/
theorem fresh_status (s : State) (r : Src) (like : Team) (h : ((r.word 0).extractLsb' 8 2).toNat = 0) :
    (readTeam s r like).status = .notStarted := by
  have e : (r.word 0).extractLsb' 8 2 = 0#2 := BitVec.eq_of_toNat_eq h
  unfold readTeam
  simp only [e]
  rfl

theorem witness_SchedulerEvents_resumed :
    let r := asking 4 [0x100000, 0, 0x8000, 0, 0]
    readyRec saved 2 4 = some r ∧ heldByGrotto saved (wordKeys (outcomeKey saved r.words)) = false ∧
      (match makeResumed saved r with | .ok m => m.teams.any (fun t => t.status != .ended) | .error _ => false) = true := by
  refine ⟨by decide +kernel, rfl, ?_⟩
  have w : resumeWords saved (asking 4 [0x100000, 0, 0x8000, 0, 0]) = [0x1000, 0x2000, 0x8080, 0, 0, 2, 0, 0] := by
    decide +kernel
  obtain ⟨h, args, e, n, t⟩ := reads_pass saved tabled_saved
    (resumeWords saved (asking 4 [0x100000, 0, 0x8000, 0, 0])) (by rw [w]; decide) (by rw [w]; decide) (by rw [w]; decide)
    (by decide +kernel)
  have c1 : (poisonedAt saved 0x100000 || poisonedAt saved (0x100000 + 64) || launchFieldsBad (resumeWords saved (asking 4 [0x100000, 0, 0x8000, 0, 0])) ||
      ((saved.mem.word (0x100000 + 56)).extractLsb' 32 32) != 0 || (saved.mem.word (0x100000 + 72)).toNat != slotSize 1) = false := by
    decide +kernel
  have c2 : ((saved.mem.word (0x100000 + 64)).toNat != 2 || hbmSize < 0x100000 + areaSize 1 2 || areaPoisoned saved 0x100000 1 2 ||
      (List.range 2).any (fun i =>
        (({ mem := saved.mem, base := imageAt 0x100000 1 i } : Src).nat 0 1) != 1 ||
          (({ mem := saved.mem, base := imageAt 0x100000 1 i } : Src).word 0).extractLsb' 8 2 == 3#2 ||
          ((({ mem := saved.mem, base := imageAt 0x100000 1 i } : Src).word 8).extractLsb' 32 3).toNat + 1 != 1)) = false := by
    decide +kernel
  have c3 : recSpad (resumeWords saved (asking 4 [0x100000, 0, 0x8000, 0, 0])) = 1 := by rw [w]; decide
  rw [makeResumed, show (rw (asking 4 [0x100000, 0, 0x8000, 0, 0]).words 0).toNat = 0x100000 from rfl]
  simp only [c3, c1, e, n, t, c2]
  show ((readTeam saved { mem := saved.mem, base := imageAt 0x100000 1 0 } _).status != .ended || _) = true
  rw [fresh_status]
  · rfl
  · decide +kernel

theorem witness_SchedulerEvents_resume :
    (let s := scheduling [asking 4 [0x100000, 0, 0x8000, 0, 0]]
     (readyRec s 2 4).any (fun r => match makeResumed s r with | .ok _ => false | .error _ => true) = true) ∧
    ((trapping.launches.find? (fun r => r.id == 1 && r.status == .active)).any (fun r => !heldByGrotto trapping (faultKeys trapping r) &&
      !((teamsOf trapping r).flatMap trappedIn).isEmpty &&
      (match stopLaunch trapping r with
        | .ok u => (u.launchOf 1 1).any (fun k => (firstTrap (k.teams.flatMap trappedIn)).isSome)
        | _ => false)) = true) ∧
    (trapping.cores.find? (fun c => isTeam 1 1 0 c.team)).any (fun c => c.team.status == .resident) = true := by decide +kernel

/-! ## Events of the host, of security and of the peers -/

/-- The host table of no domain lets the management port through. -/
def hosting : State := { State.reset with hdom := 0xFFFF }

theorem witness_HostEvents :
    hosting.fatal = none ∧
    (hosting.hdm.toNat ≤ 0x100 ∧ 0x100 + 1 ≤ hosting.hdm.toNat + hbmSize) ∧
    (hosting.hdm.toNat ≤ hbmSize - 1 ∧ hbmSize - 1 + 1 ≤ hosting.hdm.toNat + hbmSize) ∧
    ¬ (hosting.hdm.toNat ≤ hbmSize ∧ hbmSize + 1 ≤ hosting.hdm.toNat + hbmSize) ∧
    hostRefused hosting .read 0x100 1 = none ∧ hostRefused hosting .write 0x100 ([7] : List Byte).length = none ∧
    hostRefused State.reset .read 0x100 1 = some 0x100 ∧ hostRefused State.reset .write 0x100 1 = some 0x100 ∧
    heldByGrotto hosting (span 0x100 1) = false ∧
    ((0x030 : BitVec 12).toNat ∉ [0x020, 0x040, 0x048, 0x050, 0x058]) ∧ 1 ≤ (4 : BitVec 8).toNat ∧ (4 : BitVec 8).toNat ≤ 7 ∧
    ({ hosting with fatal := some { first := 6, further := 0, core := 1536, detail := 0 } } : State).fatal =
      some { first := 6, further := 0, core := 1536, detail := 0 } := by
  decide +kernel

/-- A write of the host that is buffered: the byte 7 at 0x100, with or without poison. -/
def hosted (bad : Bool) : State :=
  { hosting with buf := [{ entryAt (.sb offCore .host) (.bytes [(0x100, 7)]) with core := offCore, agent := .host, bad := bad }] }

theorem witness_HostEvents_buffered :
    (match freshRead hosting offCore .host (span 0x100 1) with | (_, .bytes l) => l == [0] | _ => false) = true ∧
    (match freshRead (hosted false) offCore .host (span 0x100 1) with | (_, .bytes l) => l == [7] | _ => false) = true ∧
    (match freshRead (hosted true) offCore .host (span 0x100 1) with | (_, .poison i) => i == 0 | _ => false) = true ∧
    (let s := { sequencer [{ kern with inStep := true }] [] with hdom := 0xFFFF }
     hostRefused s .read 0 1 = none ∧ (match freshRead s offCore .host (span 0 1) with | (_, .wait) => true | _ => false) = true) ∧
    (hosting.buf.isEmpty = true) ∧
    ((hosted true).buf.all (fun e => e.agent == .host && e.next.isNone && !homeHeld (hosted true) e && e.bad &&
      ((hosted true).buf.take 0).all (fun g => !g.blocks e) && ((hosted true).buf.eraseIdx 0).all (fun g => !e.waitsFor g))) = true := by
  decide +kernel

/-- R216, R217 and R232: a write of the host waits in its buffer, which its reads see. -/
theorem test_host_write :
    ends (.hostMemWrite 0x100 [7] false) hosting (fun t => t.mem.isEmpty && t.buf == (hosted false).buf.map (fun e => { e with serial := 0 }) &&
      ends (.hostMemRead 0x100 1) t (fun u => u.reply == [7])) = true := by decide +kernel

/-- R359: the host reads a byte of memory. -/
theorem test_host_read :
    ends (.hostMemRead 0x101 2) { hosting with mem := [(0x101, 8)] } (fun u => u.reply == [8, 0] && !u.replyPoison) = true := by
  decide +kernel

/-- R408: what is poisoned is answered as poison. -/
theorem test_host_poison :
    (ends (.hostMemRead 0x140 1) { hosting with poison := [0x100] } (fun u => !u.replyPoison) &&
     ends (.hostMemRead 0x13F 1) { hosting with poison := [0x100] } (fun u => u.replyPoison)) = true := by decide +kernel

/-- An image of no bytes fails with reason 1. An image that passes is met by no premise: the clause for it is one side of
an `if` whose condition rests on the free hash and signature functions of Config. -/
theorem witness_SecurityEvents :
    (State.reset.ready = false ∧ State.reset.recovery = false) ∧ ({ State.reset with recovery := true } : State).recovery = true ∧
    (([] : List Byte).length < 5376 + natOf ((([] : List Byte).drop 12).take 4)) ∧
    (let s := { State.reset with ready := true }
     s.recovery = false ∧ s.ready = true ∧ 2322 < aclTargets ∧ 63 < 64 ∧
       ∀ e ∈ s.acl, e.target = 2322 → e.slot = 63 → admittedPending s e = false) ∧
    (let s := { State.reset with ready := true, acl := [{ target := 2322, slot := 63, w0 := 1, w1 := 0 }] }
     s.acl ≠ [] ∧ ∀ e ∈ s.acl, e.target = 2322 → e.slot = 63 → admittedPending s e = false) ∧
    (List.replicate 32 (5 : Byte)).length = 32 ∧
    (let s := { State.reset with ecc := [(3, 9), (4, 1)] }
     s.ecc.find? (fun c => c.1 == 3) = some (3, 9) ∧ ((4, 1) : Nat × BitVec 32) ∈ s.ecc) ∧
    isHost 0x1000 = false := by decide +kernel

/-- An update that is in the table, and one whose earlier entry has admitted a write that is still buffered (R371). -/
theorem witness_SecurityEvents_updates :
    (let e : AclEntry := { target := 0, slot := 0, w0 := 5, w1 := 0x0009000000000001 }
     let s := { State.reset with ready := true, acl := [e] }
     e ∈ s.acl ∧ admittedPending s e = false ∧
       admittedPending ({ s with buf := [entryAt (.fb 0) (.bytes [(0, 7)])] }.setTeam { s.core.team with domain := 9 }) e = true) := by
  decide +kernel

/-- R374, R409 and R424: a short image leads to recovery, where the mailbox answers nothing; a counter is read and cleared. -/
theorem test_mailbox :
    (ends (.bootRomVerify []) State.reset (fun t => t.recovery && t.reason == 1 && t.event &&
       ends .errorLogRead t (fun u => u.reply == State.reset.reply)) &&
     ends (.eccCounterReadClear 3) { State.reset with ecc := [(3, 9), (4, 1)] } (fun t => t.reply == [9, 0, 0, 0] && t.ecc == [(4, 1)])) = true := by
  decide +kernel

/-- A transfer of 64 bytes that runs, to peer 0 or from it. -/
def xfer (peer : Word) : State := { hosting with xstat := 1, xsrc := 0x100, xlen := 64, xpeer := peer }

/-- A peer table whose first two entries are valid and go through port 0. -/
def peers : List Host.Cell :=
  cellsAt 0x10 (bytesOf 8 0xFFFF000000001001) ++ cellsAt 0x30 (bytesOf 8 0xFFFF000000001001)

/-- An all-reduce of two ranks, each with one s64 element: contribution at 0x1000, result at 0x2000, ranks at 0x3000. -/
def collWords : List Word := [0x0000000000020700, 1, 0x1000, 0x2000, 0x3000, 0x4000, 0x55, 0]

def collCmd : CollCmd :=
  { num := 9, fin := none, words := collWords, ord := orders 0 0 0, root := 0, domain := 0xFFFF, core := 0, t := 0, launch := 1, epoch := 1, team := 0 }

/-- The oldest collective, with every address it names mapped. -/
def collective : State :=
  let s := mapped onA [(0, 0x10000, 0)]
  { s with colls := [collCmd], mem := s.mem.writeAll (peers ++ cellsAt 0x1000 [40] ++ cellsAt 0x3000 (bytesOf 8 0xFFF) ++ cellsAt 0x3008 (bytesOf 8 1)) }

/-- A machine whose first peer, at address 0, carries a domain. -/
def peerOfDomain (domain : BitVec 16) : State :=
  { State.reset with mem := State.reset.mem.writeAll (cellsAt 0x10 (bytesOf 8 (domain ++ 0x000000001001#48))) }

/-- What the other rank sends, and what this one's share stands for: nothing of it lies on a peer's memory. -/
def shares2 : List PeerShare :=
  [{ form := 0, count := 0, same := true, data := [] }, { form := 0x700, count := 1, same := true, data := [2, 0, 0, 0, 0, 0, 0, 0] }]

theorem witness_PeerEvents :
    17 < 18 ∧ hosting.xstat ≠ 1 ∧ (xfer 0).xstat = 1 ∧ (0x0504 : BitVec 16) ∈ xferCodes ∧ (0x0503 : BitVec 16) ∉ xferCodes ∧
    (peerCode (xfer 0) 0xFFFF 0 = some 0x0502 ∧ xferFetch (xfer 0) = false ∧ xferFetch (xfer 0x1000) = true ∧
      (0 : Nat) < (xfer 0x1000).xlen.toNat / 64 ∧ (0 : Nat) ∉ (xfer 0x1000).xgot ∧
      heldByGrotto (xfer 0) (span (xfer 0).xsrc.toNat (xfer 0).xlen.toNat) = false) ∧
    (let s := { peerOfDomain 0xFFFF with xstat := 1, xsrc := 0x100, xlen := 64, hdom := 0xFFFF, xgot := [0] }
     peerCode s s.hdom (xferPeer s) = none ∧ (xferRefused s 0 64).isNone = true ∧ (∀ g < 1, g ∈ s.xgot) ∧
       (xferRefused { s with hdom := 5 } 0 64).isSome = true ∧
       (xferRefused { s with xgot := [], xpeer := 0x1000 } 0 64).isNone = true ∧ xferPeer { s with xpeer := 0x1000 } = 0) ∧
    (let s := peerOfDomain 0xFFFF
     poisonedAt s (s.ptab.toNat + 32 * 0) = false ∧ (peerWord s 0 2).getLsbD 0 = true ∧
       s.mem.bytes (s.ptab.toNat + 32 * 0) 16 = (List.range 16).map (fun i => (0 : BitVec 128).extractLsb' (8 * i) 8) ∧
       hbmSize - 1 + 1 ≤ hbmSize ∧
       (∀ m ∈ [Mode.read, .write], aclPasses s (2305 + 17) (peerDomain s 0) m (hbmSize - 1) 1 = true ∧
         aclPasses s (channelOf (hbmSize - 1)) (peerDomain s 0) m (hbmSize - 1) 1 = true) ∧
       heldByGrotto s (span (hbmSize - 1) 1) = false) ∧
    (let s := { peerOfDomain 0xFFFF with xstat := 1, xsrc := 0x100, xlen := 64, xpeer := 0x1000, ports := 0, hdom := 0xFFFF }
     peerCode s s.hdom 0 = some 0x0504 ∧ xferPeer s = 0 ∧ xferFetch s = true ∧
       ends (.peerDatagramReceive 0 (.data 0 (List.replicate 64 1))) s (fun t => t.xstat == 0x0504) = true) ∧
    (let s := peerOfDomain 5
     (peerWord s 0 2).getLsbD 0 = true ∧ peerDomain s 0 = 5 ∧
       ∀ m ∈ [Mode.read, .write], aclPasses s 2305 (peerDomain s 0) m 0x100 1 = false) ∧
    (resentTimes State.reset 7 < 64 ∧ resentTimes { State.reset with resends := [(7, 64)] } 7 = 64) := by decide +kernel

/-- A line that the collective engine reads early (R219). -/
theorem witness_MemoryEvents_collective :
    Reader.agent .collective 0 = none ∧ (0x1000 : Word).toNat % 128 = 0 ∧ heldByGrotto collective (collLine collective 0x1000) = false ∧
      ((collLine collective 0x1000).mapM (fun k => (offSees collective .collective k).map (fun b => (k, b)))).any (fun l => l.length == 128) = true := by
  decide +kernel

theorem witness_PeerEvents_collective :
    collective.colls = [collCmd] ∧ collCmd.fin = none ∧ heldByGrotto collective (collTouches collective collCmd) = false ∧
    (match collInputs collective collCmd shares2 with | .ok own => own == [40, 0, 0, 0, 0, 0, 0, 0] | _ => false) = true ∧
    (match collInputs { collective with mem := [] } collCmd shares2 with | .error e => e.code == 0x0501 | _ => false) = true ∧
    othersAny collWords shares2 (mismatched collWords) = false ∧
    othersAny collWords (shares2.set 1 { form := 0x701, count := 1, same := true, data := [] }) (mismatched collWords) = true ∧
    othersAll collWords shares2 (fun p => p.data.length == collCount collWords * collBytes collWords) = true ∧
    othersAll collWords [] (fun p => p.data.length == collCount collWords * collBytes collWords) = false ∧
    (match collPlaces collective collCmd (collBytes collWords) (span (rw collWords 3).toNat 8) 0 with
      | .ok ks => ks == (span 0x2000 8).map some | _ => false) = true ∧
    collective.mem.wf = true ∧ 7 ≠ collCmd.num ∧
    (let c := { collCmd with fin := some { code := 1, detail := [] } }
     let s := { collective with colls := [c] }
     (nowHeld s (collReleased c.ord.scope)).isEmpty = true ∧ heldByGrotto s (endKeys s c) = false ∧
       (match offPlace s c.who (collAsk .write) (collStat collWords).toNat with
         | .ok k => k == 0x4000 | _ => false) = true) := by decide +kernel

/-- Whichever datagram is resent, it has not been before. -/
theorem witness_PeerEvents_resent : resentTimes State.reset (Config.lostDatagram State.reset.ticks) < 64 := by
  have h : State.reset.resends = [] := rfl
  simp [resentTimes, h]

/-- The peer table of the machine after reset has no valid entry: no source has a name. -/
theorem witness_PeerEvents_unknown : ∀ p < 4096, ¬ (peerWord State.reset p 2).getLsbD 0 = true := fun _ _ h =>
  absurd h (by decide : ¬ (wordOf (List.replicate 8 Memory.blank)).getLsbD 0 = true)

/-- R366: a source that no entry names is dropped and counted, one that the first entry names is not. -/
theorem test_peer_known :
    execPeerDatagramReceive 1 .plain State.reset = .next { State.reset with dropped := 1 } ∧
    ends (.peerDatagramReceive 0 .plain) (peerOfDomain 5) (fun t => t.dropped == 0) = true := by
  have h : peerOf State.reset 1 = none := by
    simp only [peerOf, List.find?_eq_none, List.mem_range, Bool.and_eq_true, not_and]
    exact fun p hp k => absurd k.2 (witness_PeerEvents_unknown p hp)
  exact ⟨by simp only [execPeerDatagramReceive, h]; rfl, by decide +kernel⟩

/-- R370 and R408: a peer's write is performed at home, or refused with 0x0505 and logged at its port. -/
theorem test_peer_write :
    (ends (.peerDatagramReceive 0 (.write 3 0x100 [7] false)) (peerOfDomain 0xFFFF) (fun t => t.mem.read 0x100 == 7) &&
     ends (.peerDatagramReceive 0 (.write 3 0x100 [7] false)) (peerOfDomain 5) (fun t => t.mem.read 0x100 == Memory.blank &&
       t.reply == [5, 5] && t.refusals.any (fun r => r.target == 2308 && r.domain == 5 && r.addr == 0x100))) = true := by
  decide +kernel

/-- R254 and R255: 40 and the other rank's 2 add to 42, and the status word says so. -/
theorem test_collective :
    ends (.collectiveRun shares2) collective (fun t => t.mem == collective.mem && ends (.collectiveRun []) t (fun u =>
      u.mem.word 0x2000 == 42 && u.mem.word 0x4000 == statusWord 0x55 1 && u.colls.isEmpty)) = true := by decide +kernel

/-! ## Steps -/

/-- The machine after reset about to run a word. -/
def placed (w : BitVec 32) : State := State.reset.withFetchWord 32 w.toNat

/-- The hart may fetch: it runs, has no fault to take, passes what its agents hold and waits for no opportunity. -/
def mayFetch (c0 c : State) (t : Fin 4) (x : Bool) : Prop :=
  here c0 t ∧ (x = true → waitsTurn c0 = false ∧ c0.x.owed = 0 ∧ c.x.block = none) ∧
    (x = false → readyFault c = none ∧ userReady c = false ∧ passesHeld c = true)

/-- A part, a hold, a fetch that traps, and the second half of a pair of compacts. -/
theorem witness_StepRunsDecoded_part :
    (let s := { placed (encodeC (.vld 0 1 0 0 0)) with sched := [.part 0 0 1] }
     let c := (({ passCycles s with sched := [], limit := some 1 } : State).focus 0).onHart 0 false
     s.powered = true ∧ s.fatal = none ∧ mayFetch c c 0 false ∧ c.pc.getLsbD 1 = false ∧ heldSlot (onward c) = none ∧
     (match fetchAt (onward c) c.pc with | .ok w => w == (0x10000, encodeC (.vld 0 1 0 0 0)) | _ => false) = true) ∧
    (let s := { placed (encodeC (.ld 3 1 0 3)) with sched := [.holding 0 0] }
     let c := (({ passCycles s with sched := [], holds := true } : State).focus 0).onHart 0 false
     mayFetch c c 0 false ∧ heldSlot (onward c) = none ∧
     (match fetchAt (onward c) c.pc with | .ok w => w == (0x10000, encodeC (.ld 3 1 0 3)) | _ => false) = true) ∧
    (let s := { State.reset with core := { State.reset.core with team := team } }
     let c := (({ passCycles s with sched := [] } : State).focus 0).onHart 0 false
     mayFetch c c 0 false ∧ heldSlot (onward c) = none ∧ (match fetchAt (onward c) c.pc with | .error _ => true | _ => false) = true) ∧
    (let w : BitVec 32 := 3#2 ++ (3#4 ++ 8#5 ++ 9#5 ++ 0#1) ++ (7#4 ++ 3#5 ++ 5#5 ++ 0#1)
     let c := onA.setH { onA.h with pc := 2, slot := some (2, w) }
     c.pc.getLsbD 1 = true ∧ heldSlot (onward c) = some w ∧ isKSlot w = true ∧ decodeSlot w true = .instr (.kAddi 3 5)) := by
  unfold mayFetch here
  decide +kernel

theorem witness_StepRunsDecoded :
    (let s := placed (encodeC (.vadd 3 1 2 0 0))
     let c := (({ passCycles s with sched := [] } : State).focus 0).onHart 0 true
     s.sched = [.hart 0 0 true] ∧ s.powered = true ∧ s.fatal = none ∧ mayFetch c c 0 true ∧ c.pc.getLsbD 1 = false ∧
     heldSlot (onward c) = none ∧
     (match fetchAt (onward c) c.pc with | .ok w => w == (0x10000, encodeC (.vadd 3 1 2 0 0)) | _ => false) = true ∧
     byGroups c.x (.vadd 3 1 2 0 0) = true ∧ byGroups c.x (.vcmpr 3 1 0 0) = false) ∧
    (decodeSlot (encodeC (.vadd 3 1 2 0 0)) false = .instr (.vadd 3 1 2 0 0) ∧ opcodeOn 0x0F true = opcodeOn 0x0F true) ∧
    (let s := { readyX with sched := [] }
     let c := ((passCycles s).focus 0).onHart 0 true
     s.sched = [] ∧ s.core.num = 0 ∧ s.tnd = 0 ∧ s.xh = true ∧ mayFetch c c 0 true) ∧
    (let b := { laneBlock with words := [0, 0, encodeE .estop] }
     let s := inLane.setX { inLane.x with block := some b }
     let c := (({ passCycles { s with sched := [.hart 0 0 true] } with sched := [] } : State).focus 0).onHart 0 true
     s.powered = true ∧ s.fatal = none ∧ here c 0 ∧ waitsTurn c = false ∧
       c.x.block = some b ∧ b.fin = false ∧ b.words[b.epc]? = some (encodeE .estop) ∧
       decodeE (encodeE .estop) = .instr .estop ∧ ({ b with fin := true } : Block).fin = true) := by
  unfold mayFetch here
  decide +kernel

/-- A load that its agent holds comes before an instruction that may not pass it, one whose home is held up waits, an X-hart
waits for an opportunity that may go to another tandem, and one still owes an opportunity (R50, R219). -/
theorem witness_StepRunsDecoded_waits :
    (let s := placed (encodeC (.fence 3 0))
     let c := (({ passCycles s with sched := [] } : State).focus 0).onHart 0 false
     let k : Early := { core := 0, agent := .scalar 0, tick := 0, cells := [(scratchBase, 7)],
                        dest := some (.reg { float := false, signed := true, shadow := false, r := 3 }) }
     here c 0 ∧ readyFault c = none ∧ userReady c = false ∧ passesHeld { c with early := [k] } = false ∧
     (nowHeld { c with early := [k] } (returnsTo { c with early := [k] })).isEmpty = true) ∧
    (let e := { entryAt (.fb 0) (.atomic .add 0 8 1 [returning]) with core := 0 }
     let s := { placed (encodeC (.fence 3 0)) with seqs := (sequencer [{ kern with inStep := true }] []).seqs, buf := [e] }
     here s 0 ∧ readyFault s = none ∧ userReady s = false ∧ passesHeld s = false ∧
     (nowHeld s (returnsTo s)).isEmpty = false) ∧
    (let s := readyX.setTeam { readyX.core.team with tandems := 2, tds := readyX.core.team.tds.set 1 (readyX.core.team.tds[0]) }
     here s 0 ∧ waitsTurn s = true ∧ readyVector s 1 = true ∧ s.h.wait = none ∧
     (let u := { s with turn := some (0, 0) }
      waitsTurn u = false ∧ 0 < (u.setX { u.x with owed := 2 }).x.owed ∧ u.turn ≠ none)) := by
  unfold here
  decide +kernel

/-- R50: of two X-harts with elements for the lane groups, one waits until the opportunity has come to it. -/
theorem test_turns :
    (let s := readyX.setTeam { readyX.core.team with tandems := 2, tds := readyX.core.team.tds.set 1 (readyX.core.team.tds[0]) }
     let s := { s with sched := [.hart 0 0 true, .event 0 (.issueOpportunity 0), .hart 0 0 true] }
     let go := fun (s : State) (p : State → Bool) => match step s with | .next t => p t | _ => false
     go s (fun t => t.core.team.tds[0].x.h.pc == 0x10000 && go t (fun u => u.turn.isSome &&
       go u (fun v => v.turn.isNone)))) = true := by
  decide +kernel

/-- Moves of a sequencer, and events. -/
theorem witness_StepRunsDecoded_sequencer :
    (let s := sequencer [kern] []
     runningKernel ({ passCycles s with sched := [], gch := 0 } : State) 0 = some kern ∧ s.fatal = none ∧ s.powered = true ∧
       (match fetchMicro s 0 kern with | .word w => w == 0xF0000000 | _ => false) = true ∧
       (match fetchMicro { s with poison := [0x1000] } 0 kern with | .poison => true | _ => false) = true ∧ decodeG 0xF0000000 = .instr .gend ∧ ({ kern with inStep := true } : Kernel).inStep = true ∧ (endMove s 0).isNone = true) ∧
    (let k := { kern with status := GStatus.ending 1 }
     (runningKernel (sequencer [k] []) 0).isNone = true ∧ (endMove (sequencer [k] []) 0).isSome = true) ∧
    (let s := { sequencer [kern] [] with seqs := [{ ch := 0, kernels := [{ kern with inStep := true, data := [0x1000] }], lists := [] }, { ch := 1, kernels := [kern], lists := [] }] }
     (match fetchMicro s 1 kern with | .held _ => true | _ => false) = true) ∧
    (Instr.flitReplay.form = .event) ∧
    (State.reset.powered = true ∧ ({ State.reset with powered := false } : State).powered = false ∧ State.reset.sched = []) := by
  decide +kernel

/-- Slots: a word, both halves of a pair of compacts, a set bit 15, an E-form opcode, a reserved field on either hart,
and a second half that is none. -/
theorem witness_StepRunsDecoded_slots :
    decodeSlot (encodeC (.add 1 2 3)) false = .instr (.add 1 2 3) ∧
    (let w : BitVec 32 := 3#2 ++ (3#4 ++ 8#5 ++ 9#5 ++ 0#1) ++ (7#4 ++ 3#5 ++ 5#5 ++ 0#1)
     isKSlot w = true ∧ decodeSlot w false = .instr (.kOr 8 9) ∧ decodeSlot w true = .instr (.kAddi 3 5)) ∧
    decodeSlot 0xC0008000 false = .compactBit ∧ decodeSlot 0xC0000001 true = .compactBit ∧
    decodeSlot 0x88000000 false = .wrongForm ∧
    decodeSlot 0x00000001 false = .reserved 0x00 ∧ opcodeOn 0x00 false = true ∧
    decodeSlot 0x48000001 false = .reserved 0x48 ∧ opcodeOn 0x48 true = false ∧ isKSlot 0x00000001 = false := by decide +kernel

theorem witness_EncodingRoundTrip :
    (Instr.vadd 3 1 2 0 0).form ≠ .event ∧ (Instr.vadd 3 1 2 0 0).wf = true ∧ (Instr.estop).wf = true ∧ Instr.gend.wf = true := by decide +kernel

/-- The machine after reset answers a next state in the canonical form. -/
theorem witness_StepInvariants :
    State.reset.mem.wf = true ∧ (match step State.reset with | .next t => t.mem.wf && t.fused == State.reset.fused | _ => false) = true := by
  decide +kernel

/-- R51 and R345: a move that takes one element group of a load leaves the restart index after it, and the load goes on. -/
theorem test_part :
    (ends (.vld 0 1 0 0 0) { feedStrip 200 with limit := some 1 } (fun t => t.pc == 0 && t.vm.restart == 1 &&
       ends (.vld 0 1 0 0 0) { t with limit := none } (fun u => u.pc == 4 && u.vm.restart == 0 && (headOf u 0).all (fun q => q.count == 200)))) = true := by
  decide +kernel

/-- R28 and R113: the placed words run on their harts. -/
theorem test_step :
    ((match step (placed (encodeC (.ori 5 0 7))) with | .next t => t.getS 5 == 7 && t.pc == 0x10004 | _ => false) &&
     (match step { State.reset with powered := false } with | .fault .unpowered => true | _ => false)) = true := by decide +kernel

/-! ## Words: every row of the opcode table with bits, by hand from the encoding tables -/
theorem test_words_0 : ([
    (0x005FCA00, .add 11 31 5), (0x016D4400, .sub 13 21 2), (0x021EE400, .and 3 27 18), (0x03232600, .or 4 12 19),
    (0x0417A200, .xor 2 30 17), (0x05388600, .sll 7 2 3), (0x06738600, .srl 14 14 3), (0x0740E400, .sra 8 3 18),
    (0x0870B600, .slt 14 2 27), (0x09993E00, .sltu 19 4 31), (0x0A456A00, .min 8 21 21), (0x0B9FC400, .minu 19 31 2),
    (0x0C9CDA00, .max 19 19 13), (0x0D120400, .maxu 2 8 2), (0x0E970A00, .mul 18 28 5), (0x0F538A00, .mulh 10 14 5)] : List (BitVec 32 × Instr)).all
    (fun p => decodeSlot p.1 false == .instr p.2) = true := by decide +kernel

theorem test_words_1 : ([
    (0x10912600, .mulhu 18 4 19), (0x1154B600, .div 10 18 27), (0x12B18800, .divu 22 6 4),
    (0x139CEA00, .rem 19 19 21), (0x143B0800, .remu 7 12 4), (0x1595C405, .addi 18 23 1029),
    (0x1698A79E, .andi 19 2 10142), (0x173C2B8C, .ori 7 16 11148), (0x1893B1BF, .xori 18 14 12735),
    (0x195BC026, .slli 11 15 38), (0x1AF3C018, .srli 30 15 24), (0x1B520033, .srai 10 8 51),
    (0x1C35F1E9, .slti 6 23 12777), (0x1D40A7A4, .lui 8 42916), (0x1E9A66EA, .aupc 19 157418),
    (0x1F8C0002, .bop 17 16 2)] : List (BitVec 32 × Instr)).all
    (fun p => decodeSlot p.1 false == .instr p.2) = true := by decide +kernel

theorem test_words_2 : ([
    (0x20C3D26E, .beq 24 15 4718), (0x21A0C78F, .bne 20 3 1935), (0x228B8A8F, .blt 17 14 2703),
    (0x23CAC9BB, .bge 25 11 2491), (0x24F41AFE, .bltu 30 16 6910), (0x2517EAC5, .bgeu 2 31 10949),
    (0x261E1DD8, .jal 3 400856), (0x2794F281, .jalr 18 19 12929), (0x28EEE572, .ld 29 27 2 1394),
    (0x29BB37F3, .ldu 23 12 3 2035), (0x2A9EA11A, .st 19 26 2 282), (0x2BD8E796, .fld 27 3 2 1942),
    (0x2CBD90F9, .fst 23 22 1 249), (0x2DC5C002, .qpush 24 23 2), (0x2EACC003, .qpop 21 19 3),
    (0x2FDB9202, .qbr 27 457 2)] : List (BitVec 32 × Instr)).all
    (fun p => decodeSlot p.1 false == .instr p.2) = true := by decide +kernel

theorem test_words_3 : ([
    (0x30BB7A03, .fadd 23 13 29 3), (0x31607E02, .fsub 12 1 31 2), (0x3261A801, .fmul 12 6 20 1),
    (0x33808E02, .fdiv 16 2 7 2), (0x342E0001, .fsqrt 5 24 1), (0x356B7C02, .fma 13 13 30 2),
    (0x36199E02, .fms 3 6 15 2), (0x37927A01, .fmin 18 9 29 1), (0x38DBB803, .fmax 27 14 28 3),
    (0x394DDC02, .fcmp 9 23 14 2), (0x3AB74002, .fcvtfi 22 29 2), (0x3BFA0001, .fcvtif 31 8 1),
    (0x3C198201, .fcvtff 3 6 1 1), (0x3DB20001, .fmvfx 22 8 1), (0x3E86E601, .fsgn 16 27 19 1),
    (0x3F4A8001, .fclass 9 10 1)] : List (BitVec 32 × Instr)).all
    (fun p => decodeSlot p.1 false == .instr p.2) = true := by decide +kernel

theorem test_words_4_0 : ([
    (0x402B8602, .setvl 5 14 3 2), (0x41A4D601, .setvl2 20 19 11 1), (0x42BF2200, .setdim 23 28 17),
    (0x43500001, .settype 10 1), (0x44AD81C0, .sdecl 21 22 3 1), (0x44100001, .sdeclEnd 2),
    (0x4503FB80, .shw 15 29 3), (0x46068000, .swait 26), (0x47900000, .vgrant 18), (0x486B5B40, .vld 13 13 13 2 1),
    (0x49242B40, .vlds 4 16 21 2 1), (0x4A11C6C2, .vld2 2 7 3 1 1 2), (0x4B3117C1, .vldx 6 4 11 3 1 1),
    (0x4C2041C1, .vldseg 4 1 3 1 1), (0x4D913F20, .vst 18 4 31 2 1), (0x4EA046A0, .vsts 20 1 3 1 1)] : List (BitVec 32 × Instr)).all
    (fun p => decodeSlot p.1 false == .instr p.2) = true := by decide +kernel

theorem test_words_4_1 : ([
    (0x4FA34BA2, .vst2 20 13 5 3 1 2)] : List (BitVec 32 × Instr)).all
    (fun p => decodeSlot p.1 false == .instr p.2) = true := by decide +kernel

theorem test_words_5 : ([
    (0x50FB2922, .vstx 31 12 20 2 1 2), (0x51210122, .vstseg 4 4 2 1 2), (0x52042121, .lfe 16 16 2 1 1),
    (0x530149C2, .lwait 5 4 3 1 2), (0x54C24100, .vpop 24 9 4), (0x55DDC080, .vpush 27 23 2),
    (0x568840B6, .vmv 17 1 2 1 5 2), (0x572DC141, .vsplat 5 23 5 1), (0x58CC5581, .vadd 25 17 10 6 1),
    (0x59BF1342, .vsub 23 28 9 5 2), (0x5AF199C1, .vsadd 30 6 12 7 1), (0x5B94B342, .vssub 18 18 25 5 2),
    (0x5CAA29C1, .vmul 21 8 20 7 1), (0x5DD23703, .vmulh 26 8 27 4 3), (0x5ED20F72, .vdiv 26 8 7 5 1 4 2),
    (0x5FC043EE, .vrem 24 1 1 7 1 3 2)] : List (BitVec 32 × Instr)).all
    (fun p => decodeSlot p.1 false == .instr p.2) = true := by decide +kernel

theorem test_words_6 : ([
    (0x6049EF42, .vmin 9 7 23 5 2), (0x617EBD82, .vmax 15 26 30 6 2), (0x62FB0681, .vand 31 12 3 2 1),
    (0x63440EC1, .vor 8 16 7 3 1), (0x64853B41, .vxor 16 20 29 5 1), (0x6587AAC3, .vsll 16 30 21 3 3),
    (0x661EEC42, .vsrl 3 27 22 1 2), (0x67D5F282, .vsra 26 23 25 2 2), (0x68E99DC3, .vcmp 29 6 14 7 3),
    (0x6958F582, .vsel 11 3 26 6 2), (0x6A7B4181, .vpopc 15 13 6 1), (0x6BC18C81, .vwmac 24 6 6 2 1),
    (0x6C2CFB03, .vnsr 5 19 29 4 3), (0x6D2D3742, .vthrb 5 20 27 5 2), (0x6EB78002, .vbtr 22 30 2),
    (0x6F2CA481, .vmlog 5 18 18 2 1)] : List (BitVec 32 × Instr)).all
    (fun p => decodeSlot p.1 false == .instr p.2) = true := by decide +kernel

theorem test_words_7 : ([
    (0x700EB1A7, .vfadd 1 26 24 6 1 1 3), (0x71C78B3D, .vfsub 24 30 5 4 1 7 1), (0x72DF0E6D, .vfmul 27 28 7 1 1 3 1),
    (0x735451F6, .vfdiv 10 17 8 7 1 5 2), (0x744C9DE9, .vfma 9 18 14 7 1 2 1), (0x75F6193B, .vfmin 30 24 12 4 1 6 3),
    (0x76DF633F, .vfmax 27 29 17 4 1 7 3), (0x772C8B75, .vfcmp 5 18 5 5 1 5 1), (0x78E3F2B4, .vfsfu 28 15 25 2 1 5),
    (0x790E5AA9, .vfcvt 1 25 13 2 1 2 1), (0x7A853075, .vfnar 16 20 24 1 1 5 1), (0x7B5D8177, .vfwid 11 22 5 1 5 3),
    (0x7C86B275, .vfq4 16 26 25 1 1 5 1), (0x7D41D27D, .vfscl 8 7 9 1 1 7 1), (0x7E8BE441, .vfsgn 17 15 18 1 1),
    (0x7F7AC140, .vfcls 15 11 5)] : List (BitVec 32 × Instr)).all
    (fun p => decodeSlot p.1 false == .instr p.2) = true := by decide +kernel

theorem test_words_8 : ([
    (0x808D014B, .vred 17 20 5 2 3), (0x814BE35E, .vscan 9 15 17 5 7 2), (0x828FD183, .vslide 17 31 8 6 3),
    (0x83EF7EF5, .vgath 29 29 31 3 1 5 1), (0x84DBCB00, .vcmpr 27 15 5 4), (0x85235EC1, .vsmx 4 13 15 3 1),
    (0x86B21C6B, .vfetch 22 8 14 1 1 2 3), (0x87503441, .vlid 10 26 1 1)] : List (BitVec 32 × Instr)).all
    (fun p => decodeSlot p.1 false == .instr p.2) = true := by decide +kernel

theorem test_words_9_0 : ([
    (0x90FDC000, .menter 31 23), (0x91000000, .mexit), (0x92A80003, .mzero 21 3), (0x9361520C, .mopa 12 5 9 1 2),
    (0x94020000, .msclA 8), (0x94C03E01, .msclW 24 31), (0x95237B2B, .mdrain 4 13 29 4 1 2 3),
    (0x96DA00E0, .mfeed 27 8 1 1 1), (0x97B80000, .mstat 23), (0x98744160, .pbank 14 17 2 1 1),
    (0x98580001, .pbankNone 11), (0x9971C162, .peval 14 7 2 1 1 2), (0x9A1E0161, .pvote 3 24 2 1 1 1),
    (0x9B5C8160, .pfeed 11 18 2 1 1), (0x9C03EEE0, .pstep 15 23 1 1 1), (0x9D6AE200, .pdraw 13 11 17)] : List (BitVec 32 × Instr)).all
    (fun p => decodeSlot p.1 false == .instr p.2) = true := by decide +kernel

theorem test_words_9_1 : ([
    (0x9E051400, .pkey 20 10), (0x9E044001, .pkeySrc 17), (0x9E07C002, .pkeyEp 31),
    (0x9F1900E0, .pplaneLd 3 4 1 1 1), (0x9F0748E1, .pplaneSt 29 4 1 1 1)] : List (BitVec 32 × Instr)).all
    (fun p => decodeSlot p.1 false == .instr p.2) = true := by decide +kernel

theorem test_words_A_0 : ([
    (0xA04A40E0, .tgbind 9 9 1 1 1), (0xA0E80001, .tgbindNone 29), (0xA1C800E0, .tgload 25 1 1 1),
    (0xA2000170, .tgscat 2 1 1 1), (0xA3C94141, .xconvV 25 5 2 1 1), (0xA3E781C3, .xconvS 28 30 3 1 1),
    (0xA4DFD371, .amoadd 27 31 9 2 1 1 1 1), (0xA597A3F1, .amoand 18 30 17 3 1 1 1 1),
    (0xA685D6F1, .amoor 16 23 11 1 1 1 1 1), (0xA748B5F1, .amoxor 9 2 26 3 1 1 1 1),
    (0xA833BAF9, .amomm 6 14 29 1 1 1 1 2 1), (0xA9F86AF1, .amoswp 31 1 21 1 1 1 1 1),
    (0xAAD247F1, .amocas 26 9 3 3 1 1 1 1), (0xABE20731, .vsca 28 8 3 2 1 1 1), (0xAC000088, .fence 1 2),
    (0xAD0AC182, .ldacq 1 11 3 2)] : List (BitVec 32 × Instr)).all
    (fun p => decodeSlot p.1 false == .instr p.2) = true := by decide +kernel

theorem test_words_A_1 : ([
    (0xAE07BD01, .strel 30 30 2 1), (0xAF050A81, .bar 20 5 1 1)] : List (BitVec 32 × Instr)).all
    (fun p => decodeSlot p.1 false == .instr p.2) = true := by decide +kernel

theorem test_words_B_0 : ([
    (0xB08DD081, .barw 17 23 8 1 1), (0xB1324000, .wfe 6 9), (0xB2008000, .sev 2), (0xB331FD00, .hwait 6 7 30 2),
    (0xB4AA81E1, .cpy 21 10 3 1 1 1), (0xB553C1E0, .coll 10 15 3 1 1), (0xB6B18160, .glaunch 22 6 2 1 1),
    (0xB66680E1, .glaunchRed 12 26 1 1 1), (0xB7488081, .gstat 9 2 1 1), (0xB8000098, .trap 152),
    (0xB9000000, .eret), (0xBAC00818, .csrr 24 2072), (0xBB048FA7, .csrw 18 4007), (0xBC3C4799, .csrx 7 17 1945),
    (0xBD000000, .yield), (0xBE000000, .halt)] : List (BitVec 32 × Instr)).all
    (fun p => decodeSlot p.1 false == .instr p.2) = true := by decide +kernel

theorem test_words_B_1 : ([
    (0xBF0007DD, .brk 2013)] : List (BitVec 32 × Instr)).all
    (fun p => decodeSlot p.1 false == .instr p.2) = true := by decide +kernel

theorem test_words_micro : ([
    (0x0F0D4440, .grd 1 1 4 1 43144), (0x1FF37520, .gwr 1 1 7 6 28324), (0x2FCBC000, .gadd 3 1 1 4 5 7),
    (0x3DD78000, .gsub 2 1 1 5 3 6), (0x4BA68000, .gmax 1 1 1 2 3 2), (0x5FEC0000, .gacc 3 1 1 6 3),
    (0x6E283F6C, .gtq 1 1 2 4 507 3), (0x7E1E8104, .gtq2 1 1 1 7 2 8 1), (0x8FC50000, .gshr 3 1 24 2 2),
    (0x9B940000, .gnar 1 1 1 1 1), (0xA0000000, .grow), (0xB6AC0000, .gloop 1 171), (0xC0000000, .gqin),
    (0xD0000000, .gqout), (0xE0000000, .gsync), (0xF0000000, .gend)] : List (BitVec 32 × Instr)).all
    (fun p => decodeG p.1 == .instr p.2) = true := by decide +kernel

/-! ## Words of the compact and element forms, written out from R113, R114, R116 and R117 -/

/-- A K-form slot with the compact in its first half and `k.nop` in its second (R113). -/
def first (k : BitVec 4) (d b : Reg) : BitVec 32 := 3#2 ++ (k ++ d ++ b ++ 0#1) ++ 0#15

theorem test_words_compact : ([
    (first 0 0 0, .kNop), (first 0 7 9, .kAdd 7 9), (first 1 7 9, .kSub 7 9), (first 2 7 9, .kAnd 7 9), (first 3 7 9, .kOr 7 9),
    (first 4 7 9, .kXor 7 9), (first 5 7 9, .kSll 7 9), (first 6 7 9, .kSrl 7 9), (first 7 7 9, .kAddi 7 9), (first 8 7 0, .kMv 7 0),
    (first 9 7 9, .kBeqz 0xE9), (first 10 7 9, .kBnez 0xE9), (first 11 7 9, .kVadd 7 9), (first 12 7 9, .kVfadd 7 9),
    (first 13 7 9, .kVfmul 7 9), (first 14 7 9, .kVfma 7 9), (first 15 7 0, .kVmv 7 0)] : List (BitVec 32 × Instr)).all
    (fun p => decodeSlot p.1 false == .instr p.2 && decodeSlot p.1 true == .instr .kNop) = true := by decide +kernel

/-- A word of the E-form by its fields (R116). -/
def eword (op : BitVec 8) (d a b c : Reg) (p m : Bit) (v : BitVec 2) (i : BitVec 32) : BitVec 64 := op ++ d ++ a ++ b ++ c ++ p ++ m ++ v ++ i

/-- The first is R117's worked example. -/
theorem test_words_element : ([
    (0x5810C00400000005, .elementWord 0x58 2 3 0 0 0 1 0 5), (eword 0x69 1 2 3 4 1 0 0 0, .elementWord 0x69 1 2 3 4 1 0 0 0),
    (eword 0x88 0 1 2 0 1 0 3 7, .ebr 1 1 2 3 7), (eword 0x89 0 0 0 0 1 0 0 7, .ejmp 1 7), (eword 0x8A 0 3 0 0 1 0 0 0, .esend 1 3),
    (eword 0x8B 3 0 0 0 1 0 0 0, .erecv 1 3), (eword 0x8C 0 1 2 0 1 0 3 0, .epred 1 1 2 0 3 0), (eword 0x8D 4 0 0 0 1 1 0 7, .eidx 1 4 1 7),
    (eword 0x8E 0 0 0 0 1 0 0 0, .ecmt 1), (eword 0x8F 0 0 0 0 0 0 0 0, .estop)] : List (BitVec 64 × Instr)).all
    (fun p => decodeE p.1 == .instr p.2) = true := by decide +kernel

/-- Assembly of R422 turned into words by hand, from the layouts of R108: `ld.w s5, [s6+#8]`, `qbr q7, #-4`,
`strel.die [s6], s7`, `fence.vs.die`, `bar.die [s6]`, `barw.die s10, [s8], s0`, `wfe s9, s5` and `amoadd.d s9, [s5], s7`. -/
theorem test_words_assembly : ([
    (0x2829A008, .ld 5 6 2 8), (0x2F3FF800, .qbr 7 0x3FC 0), (0xAE018E80, .strel 6 7 1 0), (0xAC000088, .fence 1 2), (0xAF018080, .bar 6 0 1 0),
    (0xB0520080, .barw 10 8 0 1 0), (0xB1494000, .wfe 9 5), (0xA4494E01, .amoadd 9 5 7 0 0 0 0 1)] : List (BitVec 32 × Instr)).all
    (fun p => decodeSlot p.1 false == .instr p.2) = true := by decide +kernel

/-! ## Ill-formed terms: one for each check of each constructor that has checks -/

theorem test_ill_formed_scalar : ([
    .ldu 1 2 3 0, .fld 1 2 1 0, .fst 1 2 1 0, .qpush 1 2 3, .qpop 1 2 2, .qbr 1 0 2, .fadd 1 2 3 2, .fsub 1 2 3 2, .fmul 1 2 3 2,
    .fdiv 1 2 3 2, .fsqrt 1 2 2, .fma 1 2 3 2, .fms 1 2 3 2, .fmin 1 2 3 2, .fmax 1 2 3 2, .fcvtff 1 2 1 1, .fmvfx 1 2 2,
    .fclass 1 2 2, .ldacq 1 2 0 3, .bar 1 2 0 0, .cpy 1 2 0 0 0 3] : List Instr).all
    (fun i => !i.wf) = true := by decide +kernel

theorem test_ill_formed_vector_memory : ([
    .setdim 3 1 2, .vld 4 1 2 0 0, .vld 3 1 2 0 1, .vlds 4 1 2 0 0, .vlds 3 1 2 0 1, .vld2 4 1 2 0 0 0, .vld2 3 1 2 0 1 0, .vld2 0 1 2 0 0 2,
    .vldx 4 1 4 0 0 0, .vldx 0 1 3 0 0 0, .vldx 3 1 4 0 1 0, .vldx 0 1 4 0 0 2, .vldseg 0 1 0 0 0, .vldseg 2 1 0 0 2, .vldseg 1 1 0 1 2,
    .vst 3 1 2 0 0, .vsts 6 1 2 0 0, .vst2 3 1 2 0 0 0, .vst2 4 1 2 0 0 2, .vstx 3 1 5 0 0 0, .vstx 4 1 6 0 0 0, .vstx 4 1 4 0 0 0,
    .vstx 4 1 5 0 0 2, .vstseg 3 1 0 0 1, .vstseg 4 1 0 0 0, .lfe 1 2 0 0 2, .lfe 1 2 1 0 0, .lfe 1 2 0 1 0, .lwait 1 2 0 0 2,
    .lwait 1 2 1 0 1, .lwait 1 2 0 1 1, .vpop 1 4 0, .vpush 3 1 0, .vsca 3 1 5 0 0 0 0, .vsca 4 1 3 0 0 0 0, .vsca 5 1 5 0 0 0 0] :
    List Instr).all (fun i => !i.wf) = true := by decide +kernel

theorem test_ill_formed_vector_integer : ([
    .vmv 1 2 0 0 0 2, .vmv 1 2 0 1 0 1, .vmv 1 2 0 1 1 0, .vmv 1 2 0 0 1 0, .vsplat 1 2 0 2, .vadd 1 2 3 0 3, .vsub 1 2 3 0 3,
    .vsadd 1 2 3 0 3, .vssub 1 2 3 0 3, .vmul 1 2 3 0 3, .vmulh 1 2 3 0 3, .vdiv 1 2 3 0 0 0 3, .vdiv 1 2 3 0 1 0 0, .vrem 1 2 3 0 0 0 3,
    .vrem 1 2 3 0 1 0 0, .vmin 1 2 3 0 3, .vmax 1 2 3 0 3, .vand 1 2 3 0 3, .vor 1 2 3 0 3, .vxor 1 2 3 0 3, .vsll 1 2 3 0 3,
    .vsrl 1 2 3 0 3, .vsra 1 2 3 0 3, .vcmp 8 1 2 0 0, .vsel 1 2 3 0 3, .vpopc 1 2 0 3, .vpopc 1 8 0 0, .vthrb 1 2 3 0 2, .vbtr 1 2 2,
    .vmlog 8 1 2 0 0, .vmlog 1 8 2 0 0, .vmlog 1 2 8 0 0] : List Instr).all (fun i => !i.wf) = true := by decide +kernel

theorem test_ill_formed_vector_float : ([
    .vfadd 1 2 3 0 0 0 2, .vfadd 1 2 3 0 1 0 0, .vfsub 1 2 3 0 0 0 2, .vfsub 1 2 3 0 1 0 0, .vfmul 1 2 3 0 0 0 2, .vfmul 1 2 3 0 1 0 0,
    .vfdiv 1 2 3 0 0 0 2, .vfdiv 1 2 3 0 1 0 0, .vfma 1 2 3 0 1 0 0, .vfmin 1 2 3 0 0 0 2, .vfmin 1 2 3 0 1 0 0, .vfmax 1 2 3 0 0 0 2,
    .vfmax 1 2 3 0 1 0 0, .vfcmp 8 2 3 0 0 0 0, .vfcmp 1 2 3 0 1 0 0, .vfsfu 1 2 5 0 0 0, .vfsfu 1 2 0 0 1 0, .vfcvt 1 2 14 0 0 0 0,
    .vfcvt 1 2 0 0 0 0 2, .vfcvt 1 2 0 0 1 0 0, .vfnar 1 2 3 0 0 0 0, .vfnar 1 2 3 0 1 0 1, .vfwid 1 2 0 0 0 2, .vfwid 1 2 0 1 0 0,
    .vfq4 1 2 3 0 0 0 2, .vfq4 1 2 3 0 0 0 0, .vfq4 1 2 3 0 1 0 1, .vfscl 1 2 3 0 1 0 0, .vfsgn 1 2 3 0 3] : List Instr).all
    (fun i => !i.wf) = true := by decide +kernel

theorem test_ill_formed_vector_rest : ([
    .vred 1 2 0 6 0, .vred 1 2 0 0 3, .vscan 1 2 0 0 6 0, .vscan 1 2 3 0 0 0, .vgath 1 2 3 0 0 0 2, .vgath 1 2 3 0 1 0 0,
    .vsmx 1 2 31 0 0, .vsmx 1 2 0 0 2, .vfetch 1 2 3 0 0 0 2, .vfetch 1 2 3 0 1 0 0, .vlid 1 0 0 2, .vlid 1 2 0 0, .mzero 0 2,
    .mzero 4 0, .mzero 1 1, .mopa 4 0 1 0 0, .mopa 0 4 1 0 0, .mopa 0 0 23 0 0, .mopa 0 0 1 3 0, .mopa 0 0 1 0 3, .msclW 4 0,
    .mdrain 1 4 2 0 0 0 0, .mdrain 1 0 2 0 0 0 2, .mdrain 1 0 2 0 1 0 0] : List Instr).all (fun i => !i.wf) = true := by decide +kernel

theorem test_ill_formed_engines : ([
    .peval 1 2 0 0 0 2, .pvote 4 2 0 0 0 0, .pvote 0 2 0 0 0 2, .pstep 1 3 0 0 0, .pdraw 4 1 2, .pplaneLd 4 1 0 0 0, .pplaneSt 1 3 0 0 0,
    .tgload 4 0 0 0, .xconvV 4 1 0 0 0, .kAdd 0 0, .kMv 1 1, .kVmv 1 1, .gadd 3 0 0 0 0 0, .gsub 3 0 0 0 0 0, .gmax 3 0 0 0 0 0, .gacc 3 0 0 0 0,
    .gacc 1 0 0 0 1, .gtq 0 1 0 0 0 1, .gtq2 0 1 0 0 0 0 1, .gshr 0 0 0 0 3, .gshr 0 0 0 1 1, .gnar 3 0 0 0 0, .gnar 1 0 0 0 1] : List Instr).all
    (fun i => !i.wf) = true := by decide +kernel

theorem test_ill_formed_element : ([
    .epred 0 1 2 1 0 0, .epred 0 1 2 0 0 1, .eidx 0 1 0 1, .elementWord 0x00 1 2 3 4 0 0 0 0, .elementWord 0x00 1 2 3 0 0 0 1 0,
    .elementWord 0x00 1 2 3 0 0 1 0 0, .elementWord 0x15 1 2 0 0 0 0 0 0, .elementWord 0x19 1 2 0 0 0 1 0 64, .elementWord 0x1D 1 2 0 0 0 1 0 0,
    .elementWord 0x1F 1 2 3 0 0 0 0 0, .elementWord 0x58 1 2 3 4 0 0 0 0, .elementWord 0x68 8 2 3 0 0 0 0 0, .elementWord 0x69 1 2 3 4 0 0 1 0,
    .elementWord 0x74 1 2 3 4 0 0 1 0, .elementWord 0x70 1 2 3 4 0 0 0 0, .elementWord 0x77 8 2 3 0 0 0 0 0, .elementWord 0x78 1 2 5 0 0 0 0 0,
    .elementWord 0x79 1 2 14 0 0 0 0 0, .elementWord 0x7E 1 2 3 0 0 0 3 0, .elementWord 0x7F 1 2 3 0 0 0 0 0, .elementWord 0x20 0 0 0 0 0 0 0 0] :
    List Instr).all (fun i => !i.wf) = true := by decide +kernel

/-- The decoder refuses a set reserved field, by its opcode. -/
theorem test_reserved_fields : ([(0x00000001, 0x00), (0x93000001, 0x93), (0xBD000001, 0xBD), (0x43500004, 0x43)] : List (BitVec 32 × BitVec 8)).all
    (fun p => decodeSlot p.1 false == .reserved p.2) = true := by decide +kernel

end Sys2Proof.Tests
end

section
/-! SUPPORT. What the shared operations of memory and of fatal errors do, as the events of the host use them: buffers of the
agents of no core (R216, R217, R220, R221), entries that perform (R222, R362), and fatal errors (R410, R411, R413). -/

namespace Sys2Proof.Proofs

open Sys2Proof.Machine Sys2Proof.Laws

/-! ## Bytes placed in cells -/

theorem mem_span {a n x : Nat} : x ∈ span a n ↔ a ≤ x ∧ x < a + n := by
  simp only [span, List.mem_map, List.mem_range]
  constructor
  · rintro ⟨i, hi, rfl⟩
    omega
  · rintro ⟨hlo, hhi⟩
    exact ⟨x - a, by omega, by omega⟩

/-- The byte that consecutive cells hold at an address. -/
theorem find?_cellsAt (a x : Nat) (data : List Byte) :
    ((cellsAt a data).find? (fun c => c.1 == x)).map (·.2) = if a ≤ x then data[x - a]? else none := by
  induction data generalizing a with
  | nil => simp [cellsAt]
  | cons b data ih =>
    rw [cellsAt, List.find?_cons]
    obtain hlt | rfl | hgt := Nat.lt_trichotomy a x
    · have hne : (a == x) = false := by simp; omega
      have hsub : x - a = x - (a + 1) + 1 := by omega
      simp only [hne, ih, hsub, List.getElem?_cons_succ]
      simp [Nat.le_of_lt hlt, Nat.succ_le_of_lt hlt]
    · simp
    · have hne : (a == x) = false := by simp; omega
      simp only [hne, ih]
      simp [Nat.not_le.mpr hgt, show ¬ a + 1 ≤ x by omega]

/-- The cells of one line hold the bytes of that line alone. -/
theorem byteAt_line (cells : List Host.Cell) (l x : Nat) :
    (Payload.bytes (cells.filter (fun c => c.1 / 128 == l))).byteAt x =
      if x / 128 = l then (Payload.bytes cells).byteAt x else none := by
  simp only [Payload.byteAt, List.find?_filter]
  split
  · next hl =>
    have same : (fun c : Host.Cell => decide ((c.1 / 128 == l) = true ∧ (c.1 == x) = true)) = fun c => c.1 == x := by
      funext c
      by_cases hc : c.1 = x <;> simp [hc, hl]
    rw [same]
  · next hl =>
    rw [Option.map_eq_none_iff, List.find?_eq_none]
    intro c _
    by_cases hc : c.1 = x <;> simp [hc, hl]

/-! ## Store buffers of the agents of no core -/

/-- The entry that `enterOff` makes for line `l` of a write. -/
def lineEntry (s : State) (ag : Agent) (bad : Bool) (cells : List Host.Cell) (l : Nat) : Entry :=
  { loc := .sb offCore ag, core := offCore, agent := ag, payload := .bytes (cells.filter (fun c => c.1 / 128 == l)),
    serial := s.serial, low := 0, rank := none, bad := bad }

/-- All entries that `enterOff` makes, oldest first. -/
def lineEntries (s : State) (ag : Agent) (bad : Bool) (cells : List Host.Cell) : List Entry :=
  (cells.map (fun c => c.1 / 128)).eraseDups.map (lineEntry s ag bad cells)

theorem enterOff_eq (s : State) (ag : Agent) (bad : Bool) (cells : List Host.Cell) :
    enterOff s ag bad cells = { s with buf := s.buf ++ lineEntries s ag bad cells } := by
  unfold enterOff lineEntries
  generalize (cells.map (fun c => c.1 / 128)).eraseDups = ls
  induction ls generalizing s with
  | nil => simp
  | cons l ls ih => rw [List.foldl_cons, ih]; simp [lineEntry]

theorem bufferByte_append (old new : List Entry) (l : Loc) (x : Nat) :
    bufferByte (old ++ new) l x = (bufferByte new l x).or (bufferByte old l x) := by
  simp [bufferByte]

/-- A search finds `b` where every hit is `b` and there is one. -/
theorem findSome?_eq_some_of_hits {α β : Type} {f : α → Option β} {l : List α} {b : β}
    (only : ∀ a ∈ l, ∀ c, f a = some c → c = b) (hit : ∃ a ∈ l, f a = some b) : l.findSome? f = some b := by
  cases h : l.findSome? f with
  | none =>
    obtain ⟨a, ha, hb⟩ := hit
    rw [List.findSome?_eq_none_iff.mp h a ha] at hb
    cases hb
  | some c =>
    obtain ⟨a, ha, hc⟩ := List.exists_of_findSome?_eq_some h
    rw [only a ha c hc]

/-- The entries of a write supply the bytes of the write: one entry has the line of the byte, and no other has the byte. -/
theorem bufferByte_lineEntries (s : State) (ag : Agent) (bad : Bool) (cells : List Host.Cell) (x : Nat) :
    bufferByte (lineEntries s ag bad cells) (.sb offCore ag) x = (Payload.bytes cells).byteAt x := by
  have supplies : ∀ l, (lineEntry s ag bad cells l).payload.byteAt x =
      if x / 128 = l then (Payload.bytes cells).byteAt x else none := fun l => byteAt_line cells l x
  have here : ∀ l, ((lineEntry s ag bad cells l).loc == .sb offCore ag) = true := fun l => by simp [lineEntry]
  cases hb : (Payload.bytes cells).byteAt x with
  | none =>
    simp only [bufferByte, lineEntries, List.findSome?_eq_none_iff, List.mem_reverse, List.mem_map]
    rintro _ ⟨l, -, rfl⟩
    rw [supplies, hb, ite_self, ite_self]
  | some b =>
    apply findSome?_eq_some_of_hits
    · intro e he c hc
      simp only [lineEntries, List.mem_reverse, List.mem_map] at he
      obtain ⟨l, -, rfl⟩ := he
      rw [if_pos (here l), supplies, hb] at hc
      split at hc
      · exact (Option.some.inj hc).symm
      · cases hc
    · refine ⟨lineEntry s ag bad cells (x / 128), ?_, ?_⟩
      · obtain ⟨c, hc, -⟩ := Option.map_eq_some_iff.mp hb
        have hx : c.1 = x := by simpa using List.find?_some hc
        rw [List.mem_reverse, lineEntries]
        apply List.mem_map_of_mem
        rw [List.mem_eraseDups, ← hx]
        exact List.mem_map_of_mem (List.mem_of_find?_eq_some hc)
      · rw [if_pos (here _), supplies, if_pos rfl, hb]

/-- What the host reads of a byte before home is what its store buffer holds. -/
theorem visibleByte_host (s : State) (x : Nat) :
    visibleByte s offCore .host x = bufferByte s.buf (.sb offCore .host) x := by
  simp [visibleByte, route]

/-- After a write of the host its reads see the bytes written, and elsewhere what they saw before. -/
theorem visibleByte_lineEntries (s : State) (bad : Bool) (pa x : Nat) (data : List Byte) :
    visibleByte { s with buf := s.buf ++ lineEntries s .host bad (cellsAt pa data) } offCore .host x =
      (if pa ≤ x then data[x - pa]? else none).or (visibleByte s offCore .host x) := by
  rw [visibleByte_host, visibleByte_host, bufferByte_append, bufferByte_lineEntries, ← find?_cellsAt]
  rfl

theorem bufferByte_of_no_entry {buf : List Entry} {l : Loc} (absent : ∀ e ∈ buf, e.loc ≠ l) (x : Nat) :
    bufferByte buf l x = none := by
  rw [bufferByte, List.findSome?_eq_none_iff]
  intro e he
  simp [absent e (List.mem_reverse.mp he)]

/-! ## Reads of the host -/

section HostReads

variable {s : State} {addrs : List Nat} (idle : ∀ e ∈ s.buf, e.loc ≠ .sb offCore .host)

include idle

theorem visibleByte_host_idle (x : Nat) : visibleByte s offCore .host x = none := by
  rw [visibleByte_host]
  exact bufferByte_of_no_entry idle x

theorem badByte_host_idle (x : Nat) : badByte s offCore .host x = false := by
  have none_found : s.buf.reverse.find? (fun e => e.loc == .sb offCore .host && (e.payload.byteAt x).isSome) = none := by
    rw [List.find?_eq_none]
    intro e he
    simp [idle e (List.mem_reverse.mp he)]
  simp [badByte, route, none_found]

/-- With nothing of the host buffered, its read waits for no nibble entry. -/
theorem nibbleOn_host_idle : s.buf.any (nibbleOn offCore .host addrs) = false := by
  rw [List.any_eq_false]
  intro e he
  simp [nibbleOn, onPath, route, idle e he]

/-- With nothing of the host buffered and no row step or empty line in its way, its read answers from home. -/
theorem freshRead_host_idle (full : ∀ a ∈ addrs, lineFull s a = true) (free : heldByGrotto s addrs = false) :
    freshRead s offCore .host addrs =
      (s, (addrs.findIdx? (poisonedAt s)).elim (.bytes (addrs.map s.mem.read)) .poison) := by
  have settled : settleNibbles s offCore .host addrs = s := by simp [settleNibbles, nibbleOn_host_idle idle]
  have notHeld : nowHeld s (nibbleOn offCore .host addrs) = [] := by simp [nowHeld, nibbleOn_host_idle idle]
  have noEmpty : addrs.any (fun a => !lineFull s a) = false := by simpa using full
  have got : gotBytes s offCore .host addrs =
      (addrs.findIdx? (poisonedAt s)).elim (.bytes (addrs.map s.mem.read)) .poison := by
    simp only [gotBytes, noEmpty, free, visibleByte_host_idle idle, badByte_host_idle idle]
    cases h : addrs.findIdx? (poisonedAt s) <;> simp [h]
  rw [freshRead, notHeld]
  simp only [settled, got]
  cases addrs.findIdx? (poisonedAt s) <;> rfl

end HostReads

/-! ## Entries that perform -/

/-- What the device observes of a write of the host changes its work queues alone (R334, R362). -/
theorem observeWrite_queues (s : State) (l : List Nat) (en : Nat → Bool) :
    ∃ qs, observeWrite s l en = { s with queues := qs } := by
  obtain ⟨qs, h⟩ : ∃ qs, (List.range 1024).foldl (fun u j =>
      if l.any (fun a => u.qtab.toNat + 64 * j ≤ a && a < u.qtab.toNat + 64 * j + 64) then
        u.setQueue { u.queueOf j with dirty := true, off := (u.queueOf j).off || ((u.queueOf j).seen && !en j) }
      else u) s = { s with queues := qs } := by
    refine List.foldlRecOn (motive := fun u : State => ∃ qs, u = { s with queues := qs }) _ _ ⟨s.queues, rfl⟩ ?_
    rintro _ ⟨qs, rfl⟩ j -
    split
    · exact ⟨_, rfl⟩
    · exact ⟨qs, rfl⟩
  simp only [observeWrite, h]
  exact ⟨_, rfl⟩

theorem mem_insertNat {a x : Nat} {l : List Nat} : x ∈ insertNat a l ↔ x = a ∨ x ∈ l := by
  induction l with
  | nil => simp [insertNat]
  | cons y l ih =>
    unfold insertNat
    split
    · simp
    · split
      · next h => simp [h]
      · rw [List.mem_cons, ih, List.mem_cons]
        exact or_left_comm

/-- Every address whose granule is marked reads as poisoned, and no mark is lost. -/
theorem poisonedAt_poisonAt {s : State} {addrs : List Nat} {a : Nat} (h : a ∈ addrs ∨ poisonedAt s a = true) :
    poisonedAt (s.poisonAt addrs) a = true := by
  simp only [poisonedAt, State.poisonAt, List.contains_iff_mem] at h ⊢
  generalize s.poison = p at h
  induction addrs generalizing p with
  | nil => simpa using h
  | cons b addrs ih =>
    rw [List.foldl_cons]
    apply ih
    rw [mem_insertNat]
    obtain h | h := h
    · obtain rfl | h := List.mem_cons.mp h
      · exact .inr (.inl rfl)
      · exact .inl h
    · exact .inr (.inr h)

/-- An entry performs its payload and marks what carries poison; the device's queues may observe it. -/
theorem performEntry_queues (s : State) (e : Entry) :
    ∃ qs, performEntry s e = { (if e.bad then (perform s e.payload).poisonAt e.payload.addrs else perform s e.payload) with
      queues := qs } := by
  by_cases host : e.agent = .host
  · simp only [performEntry, host]
    exact observeWrite_queues _ _ _
  · simp only [performEntry, beq_false_of_ne host]
    exact ⟨_, rfl⟩

/-- A performed write leaves every buffer as it was, writes its bytes at home, and marks them where it carries poison. -/
theorem performEntry_bytes {e : Entry} {cells : List Host.Cell} (s : State) (hp : e.payload = .bytes cells) :
    (performEntry s e).buf = s.buf ∧ (performEntry s e).mem = s.mem.writeAll cells ∧
      (e.bad = true → ∀ c ∈ cells, poisonedAt (performEntry s e) c.1 = true) := by
  obtain ⟨qs, performed⟩ := performEntry_queues s e
  rw [performed, hp]
  refine ⟨?_, ?_, fun bad c hc => ?_⟩
  · split <;> rfl
  · split <;> rfl
  · rw [if_pos bad]
    exact poisonedAt_poisonAt (s := s.writeHome cells) (.inl (List.mem_map_of_mem hc))

/-- An entry whose home comes next, which nothing keeps in its buffer, performs (R222, R229, R324). -/
theorem drainMove_performs {s : State} {n : Nat} {e : Entry} (at_ : s.buf[n]? = some e) (home : e.next = none)
    (unblocked : ∀ g ∈ s.buf.take n, g.blocks e = false) (first : ∀ g ∈ s.buf.eraseIdx n, e.waitsFor g = false)
    (free : homeHeld s e = false) : drainMove s n = performEntry { s with buf := s.buf.eraseIdx n } e := by
  have leaves : mayLeave (s.buf.take n) (s.buf.eraseIdx n) e = true := by
    simp only [mayLeave, Bool.and_eq_true, Bool.not_eq_true', List.any_eq_false, Bool.not_eq_true]
    exact ⟨unblocked, first⟩
  simp [drainMove, pick, at_, leaves, home, free]

/-! ## Fatal errors -/

/-- The first cause: it is recorded, the dump is set, and the host is told (R361, R410, R411). -/
theorem raiseFatal_first {s : State} (h : s.fatal = none) (c : BitVec 8) (core : Nat) (d : Word) :
    let t := raiseFatal s c core d
    t.fatal = some { first := c, further := 0, core := core, detail := d } ∧ t.dump = true ∧ t.event = true ∧
      t.msis = s.msis + 1 := by
  simp [raiseFatal, h, signalEvent]

/-- A later cause is told to nobody, and changes the record as `furtherCause` says (R413). -/
theorem raiseFatal_later {s : State} {f : Fatal} (h : s.fatal = some f) (c : BitVec 8) (core : Nat) (d : Word) :
    let t := raiseFatal s c core d
    t.fatal = some (furtherCause f c core d s.ticks) ∧ t.msis = s.msis := by
  simp [raiseFatal, h]

@[simp] theorem raiseFatal_mods (s : State) (c : BitVec 8) (core : Nat) (d : Word) :
    (raiseFatal s c core d).mods = s.mods := by
  unfold raiseFatal
  split <;> rfl

/-- The count of further causes saturates. -/
theorem count_saturates (n : BitVec 16) :
    (if n = 0xFFFF#16 then n else n + 1) = BitVec.ofNat 16 (min (n.toNat + 1) 0xFFFF) := by
  apply BitVec.eq_of_toNat_eq
  split
  · next h => subst h; rfl
  · next h =>
    have : n.toNat ≠ 0xFFFF := fun k => h (BitVec.eq_of_toNat_eq k)
    have lt := n.isLt
    have one : (1 : BitVec 16).toNat = 1 := rfl
    rw [Nat.min_eq_left (by omega), BitVec.toNat_add, one, BitVec.toNat_ofNat]

theorem furtherCause_eq (f : Fatal) (c : BitVec 8) (core : Nat) (d : Word) (tick : Nat) :
    let more := BitVec.ofNat 16 (min (f.further.toNat + 1) 0xFFFF)
    furtherCause f c core d tick =
      if c.toNat < f.first.toNat ∧ Config.sameCycle tick = true then
        { first := c, further := more, core := core, detail := d }
      else { f with further := more } := by
  simp only [furtherCause, count_saturates, BitVec.lt_def, Bool.and_eq_true, decide_eq_true_eq]

end Sys2Proof.Proofs
end

section
/-! SUPPORT. What the host's requests and the link's events do (R359 to R362, R407, R408, R410, R411, R413). -/

namespace Sys2Proof.Proofs

open Sys2Proof.Machine Sys2Proof.Laws

/-! ## Management registers -/

/-- A write of an offset that names no writable register is ignored (R360). -/
theorem execMgmtRegisterWrite_unlisted {off : BitVec 12} (h : off.toNat ∉ [0x020, 0x040, 0x048, 0x050, 0x058]) (v : Word)
    (s : State) : execMgmtRegisterWrite off v s = .next s := by
  simp only [List.mem_cons, List.not_mem_nil, or_false, not_or] at h
  obtain ⟨h20, h40, h48, h50, h58⟩ := h
  unfold execMgmtRegisterWrite
  split
  · next is => exact absurd is h20
  · next is => exact absurd is h40
  · next is => exact absurd is h48
  · next is => exact absurd is h50
  · next is => exact absurd is h58
  · rfl

theorem execQtab_eq (v : Word) (s : State) :
    execQtab v s = .next (if ∃ q ∈ s.queues, q.en = true then s else { s with qtab := v &&& 0xFFFFFFFFFFFF0000 }) := by
  simp [execQtab]

theorem execPtab_eq (v : Word) (s : State) :
    execPtab v s = .next (if s.colls ≠ [] ∨ s.xstat = 1 then s else { s with ptab := v &&& 0xFFFFFFFFFFFE0000 }) := by
  simp [execPtab]

/-! ## Accesses of the host -/

/-- A host access of `len` bytes at `addr` lies in the HDM range (R359). -/
def InHdm (s : State) (addr len : Nat) : Prop := s.hdm.toNat ≤ addr ∧ addr + len ≤ s.hdm.toNat + hbmSize

theorem hdmAddr_inside {s : State} {addr len : Nat} (h : InHdm s addr len) :
    hdmAddr s addr len = some (addr - s.hdm.toNat) := by
  obtain ⟨lo, hi⟩ := h
  simp [hdmAddr, lo, hi]

theorem hdmAddr_outside {s : State} {addr len : Nat} (h : ¬ InHdm s addr len) : hdmAddr s addr len = none := by
  unfold InHdm at h
  simpa [hdmAddr] using h

/-- Device HBM holds no scratchpad, so none of its lines is empty (R205, R233). -/
theorem lineFull_of_hbm {s : State} {a : Nat} (h : a < hbmSize) : lineFull s a = true := by
  have below : ¬ scratchBase ≤ a := by
    unfold hbmSize at h
    unfold scratchBase
    omega
  simp [lineFull, scratchCore?, below]

theorem execHostMemRead_poison {s : State} {addr len : Nat} (h : ¬ InHdm s addr len ∨ s.fatal ≠ none) :
    execHostMemRead addr len s = .next (poisonReply s) := by
  obtain out | fatal := h
  · simp [execHostMemRead, hdmAddr_outside out]
  · have dead : s.fatal.isSome = true := Option.isSome_iff_ne_none.mpr fatal
    simp only [execHostMemRead, dead]
    split <;> rfl

theorem execHostMemWrite_poison {s : State} {addr : Nat} {data : List Byte} (bad : Bool)
    (h : ¬ InHdm s addr data.length ∨ s.fatal ≠ none) : execHostMemWrite addr data bad s = .next (poisonReply s) := by
  obtain out | fatal := h
  · simp [execHostMemWrite, hdmAddr_outside out]
  · have dead : s.fatal.isSome = true := Option.isSome_iff_ne_none.mpr fatal
    simp only [execHostMemWrite, dead]
    split <;> rfl

section Inside

variable {s : State} {addr len : Nat} (inside : InHdm s addr len) (alive : s.fatal = none)

include inside alive

theorem execHostMemRead_refused {a : Nat} (h : hostRefused s .read (addr - s.hdm.toNat) len = some a) :
    execHostMemRead addr len s = .next (poisonReply (logRefusal s (channelOf a) s.hdom a)) := by
  simp [execHostMemRead, hdmAddr_inside inside, alive, h]

section Admitted

variable (admitted : hostRefused s .read (addr - s.hdm.toNat) len = none)

include admitted

theorem execHostMemRead_bytes {t : State} {l : List Byte}
    (h : freshRead s offCore .host (span (addr - s.hdm.toNat) len) = (t, .bytes l)) :
    execHostMemRead addr len s = .next (t.answer l) := by
  simp [execHostMemRead, hdmAddr_inside inside, alive, admitted, h]

theorem execHostMemRead_meetsPoison {t : State} {i : Nat}
    (h : freshRead s offCore .host (span (addr - s.hdm.toNat) len) = (t, .poison i)) :
    execHostMemRead addr len s = .next (poisonReply t) := by
  simp [execHostMemRead, hdmAddr_inside inside, alive, admitted, h]

theorem execHostMemRead_waits {t : State}
    (h : freshRead s offCore .host (span (addr - s.hdm.toNat) len) = (t, .wait)) :
    execHostMemRead addr len s = .next t := by
  simp [execHostMemRead, hdmAddr_inside inside, alive, admitted, h]

/-- With nothing of the host buffered and no row step in its way, the host reads home memory. -/
theorem execHostMemRead_idle (idle : ∀ e ∈ s.buf, e.loc ≠ .sb offCore .host)
    (free : heldByGrotto s (span (addr - s.hdm.toNat) len) = false) :
    execHostMemRead addr len s = .next
      (if (span (addr - s.hdm.toNat) len).any (poisonedAt s) then poisonReply s
      else s.answer ((span (addr - s.hdm.toNat) len).map s.mem.read)) := by
  have full : ∀ a ∈ span (addr - s.hdm.toNat) len, lineFull s a = true := by
    intro a ha
    obtain ⟨-, hi⟩ := mem_span.mp ha
    obtain ⟨lo, top⟩ := inside
    exact lineFull_of_hbm (by omega)
  have got := freshRead_host_idle idle full free
  have poisoned := List.findIdx?_isSome (xs := span (addr - s.hdm.toNat) len) (p := poisonedAt s)
  cases found : (span (addr - s.hdm.toNat) len).findIdx? (poisonedAt s) with
  | none =>
    rw [found] at got poisoned
    rw [execHostMemRead_bytes inside alive admitted got, ← poisoned]
    rfl
  | some i =>
    rw [found] at got poisoned
    rw [execHostMemRead_meetsPoison inside alive admitted got, ← poisoned]
    rfl

end Admitted

end Inside

section InsideWrite

variable {s : State} {addr : Nat} {data : List Byte} (inside : InHdm s addr data.length) (alive : s.fatal = none)

include inside alive

theorem execHostMemWrite_refused {a : Nat} (bad : Bool)
    (h : hostRefused s .write (addr - s.hdm.toNat) data.length = some a) :
    execHostMemWrite addr data bad s = .next (logRefusal s (channelOf a) s.hdom a) := by
  simp [execHostMemWrite, hdmAddr_inside inside, alive, h]

theorem execHostMemWrite_enters (bad : Bool) (h : hostRefused s .write (addr - s.hdm.toNat) data.length = none) :
    execHostMemWrite addr data bad s =
      .next { s with buf := s.buf ++ lineEntries s .host bad (cellsAt (addr - s.hdm.toNat) data) } := by
  simp [execHostMemWrite, hdmAddr_inside inside, alive, h, enterOff_eq]

end InsideWrite

/-- An entry of a write of the host holds cells of one line in the host's store buffer (R216, R220). -/
theorem lineEntries_host {s : State} {bad : Bool} {cells : List Host.Cell} {e : Entry}
    (he : e ∈ lineEntries s .host bad cells) : e.loc = .sb offCore .host ∧ e.agent = .host ∧ e.bad = bad ∧
      ∃ cells, e.payload = .bytes cells ∧ ∀ x ∈ cells, ∀ y ∈ cells, x.1 / 128 = y.1 / 128 := by
  obtain ⟨l, -, rfl⟩ := List.mem_map.mp he
  refine ⟨rfl, rfl, rfl, _, rfl, fun x hx y hy => ?_⟩
  have onLine : ∀ c ∈ cells.filter (fun c => c.1 / 128 == l), c.1 / 128 = l := by
    intro c hc
    simpa using (List.mem_filter.mp hc).2
  rw [onLine x hx, onLine y hy]

/-- A write of the host that is admitted, and what the host's reads see after it (R216, R220, R221, R232). -/
theorem execHostMemWrite_seen {s : State} {addr : Nat} {data : List Byte} (inside : InHdm s addr data.length)
    (alive : s.fatal = none) (bad : Bool) (h : hostRefused s .write (addr - s.hdm.toNat) data.length = none) :
    ∃ new : List Entry, let t := { s with buf := s.buf ++ new }
      execHostMemWrite addr data bad s = .next t ∧
      (∀ e ∈ new, e.loc = .sb offCore .host ∧ e.agent = .host ∧ e.bad = bad ∧
        ∃ cells, e.payload = .bytes cells ∧ ∀ x ∈ cells, ∀ y ∈ cells, x.1 / 128 = y.1 / 128) ∧
      (∀ i, (h : i < data.length) → visibleByte t offCore .host (addr - s.hdm.toNat + i) = some data[i]) ∧
      ∀ x, (x < addr - s.hdm.toNat ∨ addr - s.hdm.toNat + data.length ≤ x) →
        visibleByte t offCore .host x = visibleByte s offCore .host x := by
  refine ⟨_, execHostMemWrite_enters inside alive bad h, fun e => lineEntries_host, fun i hi => ?_, fun x away => ?_⟩
  · rw [visibleByte_lineEntries]
    simp [hi]
  · rw [visibleByte_lineEntries]
    split
    · rw [List.getElem?_eq_none (by omega), Option.none_or]
    · exact Option.none_or

/-! ## Links and fatal events -/

/-- A module that fails leaves the link (R407). -/
theorem getLsbD_mods_without (mods : BitVec 4) (m : BitVec 2) (i : Fin 4) :
    (mods &&& ~~~BitVec.ofNat 4 (2 ^ m.toNat)).getLsbD i.val = (mods.getLsbD i.val && i.val != m.toNat) := by
  rw [BitVec.getLsbD_and, BitVec.getLsbD_not, BitVec.getLsbD_ofNat, Nat.testBit_two_pow]
  simp [bne, Bool.beq_eq_decide_eq, eq_comm]

/-- The failed module leaves the link, and the last one to fail is fatal cause 6 (R407, R410). -/
theorem execModuleRetrainFail_spec (s : State) (m : BitVec 2) :
    ∃ t, execModuleRetrainFail m s = .next t ∧
      (∀ i : Fin 4, t.mods.getLsbD i.val = (s.mods.getLsbD i.val && i.val != m.toNat)) ∧
      (s.fatal = none → (t.fatal = some { first := 6, further := 0, core := 1536, detail := 0 } ↔ t.mods = 0) ∧
        (t.mods ≠ 0 → t.fatal = none)) := by
  refine ⟨_, rfl, ?_⟩
  split
  · next last =>
    refine ⟨fun i => ?_, fun alive => ?_⟩
    · rw [raiseFatal_mods]
      exact getLsbD_mods_without s.mods m i
    · rw [raiseFatal_mods]
      obtain ⟨fatal, -⟩ := raiseFatal_first
        (s := { s with mods := s.mods &&& ~~~BitVec.ofNat 4 (2 ^ m.toNat) }) alive 6 1536 0
      exact ⟨iff_of_true fatal last, fun more => absurd last more⟩
  · next more =>
    refine ⟨getLsbD_mods_without s.mods m, fun alive => ⟨iff_of_false ?_ more, fun _ => alive⟩⟩
    rw [show State.fatal _ = none from alive]
    exact nofun

theorem execFatalError_listed {c : BitVec 8} (lo : 1 ≤ c.toNat) (hi : c.toNat ≤ 7) (core : Nat) (d : Word) (s : State) :
    execFatalError c core d s = .next (raiseFatal s c core d) := by
  simp [execFatalError, lo, hi]

/-- Each event of the list of R410 raises its cause, from `s` but for the modules of a link that is down. -/
theorem exec_fatalEvent {i : Instr} {c : BitVec 8} {core : Nat} {d : Word} (s : State)
    (h : i = .hostLinkDown ∧ c = 6 ∧ core = 1536 ∧ d = 0 ∨ i = .viralReceived ∧ c = 5 ∧ core = 1536 ∧ d = 0 ∨
      i = .watchdogExpiry ∧ c = 7 ∧ core = 1536 ∧ d = 0 ∨ i = .fatalError c core d ∧ 1 ≤ c.toNat ∧ c.toNat ≤ 7) :
    ∃ mods, exec i s = .next (raiseFatal { s with mods := mods } c core d) := by
  obtain ⟨rfl, rfl, rfl, rfl⟩ | ⟨rfl, rfl, rfl, rfl⟩ | ⟨rfl, rfl, rfl, rfl⟩ | ⟨rfl, lo, hi⟩ := h
  · exact ⟨0, rfl⟩
  · exact ⟨s.mods, rfl⟩
  · exact ⟨s.mods, rfl⟩
  · exact ⟨s.mods, execFatalError_listed lo hi core d s⟩

/-! ## The statement -/

/-- Settles O53: each request and event by the lemma above that says what it answers. -/
theorem hostEvents : Obligations.HostEvents := by
  unfold Obligations.HostEvents
  intro s v off addr len pa data bad m a gives inside
  refine ⟨?hdom, rfl, rfl, rfl, rfl, ?unlisted, ?qtab, ?ptab, rfl, rfl, rfl, ?readPoison, ?access, ?writePoison, ?retrain,
    ?first, ?later⟩
  case hdom =>
    rw [BitVec.setWidth_eq_extractLsb' (by decide)]
    rfl
  case unlisted => exact fun h => execMgmtRegisterWrite_unlisted h v s
  case qtab => exact execQtab_eq v s
  case ptab => exact execPtab_eq v s
  case readPoison => exact execHostMemRead_poison
  case writePoison =>
    rintro h rfl
    exact execHostMemWrite_poison bad h
  case retrain => exact execModuleRetrainFail_spec s m
  case first =>
    intro alive i c core d event
    obtain ⟨mods, answers⟩ := exec_fatalEvent s event
    exact ⟨_, answers, raiseFatal_first (s := { s with mods := mods }) alive c core d⟩
  case later =>
    intro f c core d dead lo hi more
    obtain ⟨fatal, msis⟩ := raiseFatal_later dead c core d
    refine ⟨_, execFatalError_listed lo hi core d s, msis, ?_⟩
    rw [fatal, furtherCause_eq]
  case access =>
    rintro within alive rfl
    refine ⟨execHostMemRead_refused within alive,
      fun admitted => ⟨fun t l => ?bytes, fun t i => ?poison, fun t => ?waits, ?idle⟩, ?refused, ?enters, ?drains⟩
    case bytes => exact execHostMemRead_bytes within alive admitted
    case poison => exact execHostMemRead_meetsPoison within alive admitted
    case waits => exact execHostMemRead_waits within alive admitted
    case idle => exact execHostMemRead_idle within alive admitted
    case refused =>
      rintro rfl
      exact execHostMemWrite_refused within alive bad
    case enters =>
      rintro rfl
      exact execHostMemWrite_seen within alive bad
    case drains =>
      rintro - e n at_ - home unblocked first free cells bytes
      refine ⟨_, congrArg Host.Outcome.next (drainMove_performs at_ home unblocked first free), ?_⟩
      exact performEntry_bytes { s with buf := s.buf.eraseIdx n } bytes

end Sys2Proof.Proofs
end

section
/-! SUPPORT. The part after device reset, and a hart at team start (R27, R77, R78, R397, R411). -/

namespace Sys2Proof.Proofs

open Sys2Proof.Machine Sys2Proof.Laws

/-- The core in focus has no team after reset, so the step that no choice directs lets cycles pass and nothing else. -/
theorem step_reset : step State.reset = .next { passCycles State.reset with fresh := [] } := by
  rw [step_hart (g := 0) (t := 0) (x := false) (rest := []) rfl (.inr ⟨rfl, rfl, rfl, rfl, rfl⟩)]
  rfl

/-- R78: the dimension registers of a hart at team start. -/
theorem xHart_fresh_dims (j : Fin 3) : XHart.fresh.dims[j].len = 0 ∧ XHart.fresh.dims[j].stride = 0 := by
  have zero : XHart.fresh.dims[j] = { stride := 0, len := 0 } := Vector.getElem_replicate j.isLt
  rw [zero]
  exact ⟨rfl, rfl⟩

/-- Settles O60: each part of the state after reset is what `State.reset` and the `fresh` harts hold, and the step is
`step_reset`. -/
theorem resetState : Obligations.ResetState := by
  unfold Obligations.ResetState
  intro s
  refine ⟨rfl, rfl, rfl, rfl, rfl, rfl, rfl, rfl, rfl, rfl, fun _ => rfl, step_reset, ?hart, ?aHart, ?xHart, ?tandem⟩
  case hart =>
    intro h either
    have fresh : h = Hart.fresh := either.elim id id
    subst fresh
    exact ⟨rfl, rfl, rfl, rfl, rfl, rfl, rfl, rfl, rfl, rfl, rfl, rfl, rfl, rfl, rfl⟩
  case aHart => exact ⟨rfl, rfl, rfl, rfl, rfl, rfl, rfl⟩
  case xHart =>
    exact ⟨rfl, rfl, rfl, rfl, rfl, rfl, rfl, rfl, rfl, rfl, rfl, rfl, rfl, rfl, rfl, xHart_fresh_dims⟩
  case tandem =>
    rintro td rfl
    exact ⟨rfl, rfl, rfl, rfl⟩

end Sys2Proof.Proofs
end

section
/-! SUPPORT. Power and reset, firmware images and the mailbox (R25 to R27, R361, R371 to R374, R388, R397, R409, R411,
R424). -/

namespace Sys2Proof.Proofs

open Sys2Proof.Machine Sys2Proof.Laws

/-! ## Memory cleared -/

/-- Cells that a filter by address lets through read as before, and the others read blank. -/
theorem read_filter (keep : Nat → Bool) (m : Memory) (a : Nat) :
    Memory.read (m.filter fun c => keep c.1) a = if keep a then m.read a else Memory.blank := by
  induction m with
  | nil => simp [Memory.read]
  | cons c m ih =>
    obtain ⟨x, v⟩ := c
    by_cases here : a = x
    · subst here
      cases kept : keep a <;> simp [Memory.read, kept, ih]
    · cases kept : keep x <;> simp [Memory.read, kept, here, ih]

theorem read_hostMemory {s : State} {a : Nat} (device : isHost a = false) : s.hostMemory.read a = Memory.blank := by
  simp [State.hostMemory, read_filter isHost, device]

theorem read_clear (m : Memory) (lo n a : Nat) :
    (m.clear lo n).read a = if lo ≤ a ∧ a < lo + n then Memory.blank else m.read a := by
  rw [Memory.clear, read_filter (fun x => x < lo || lo + n ≤ x)]
  by_cases within : lo ≤ a ∧ a < lo + n
  · have cut : (decide (a < lo) || decide (lo + n ≤ a)) = false := by
      rw [Bool.or_eq_false_iff, decide_eq_false_iff_not, decide_eq_false_iff_not]
      omega
    rw [if_pos within, cut, if_neg Bool.false_ne_true]
  · have kept : (decide (a < lo) || decide (lo + n ≤ a)) = true := by
      rw [Bool.or_eq_true, decide_eq_true_iff, decide_eq_true_iff]
      omega
    rw [if_neg within, kept, if_pos rfl]

/-! ## Reset (R25 to R27, R411) -/

/-- No core has counted a cycle right after a reset (R27). -/
theorem restart_cycle (s : State) (mem : Memory) (poison : List Nat) (dump powered : Bool) (g : Nat) :
    ((s.restart mem poison dump powered).coreOf g).cycle = 0 := by
  unfold State.coreOf
  split
  · rfl
  · simp [State.restart, State.reset, Core.unseen, coreCount]

/-! ## Images (R373, R409) -/

/-- The checks of an image decide whether firmware runs; one that fails sends a message (R361). -/
theorem loadImage_eq (s : State) (image : List Byte) :
    loadImage s image = if imageReason s image = 0 then { s with
        ready := true, recovery := false, reason := 0, version := securityVersion image
        firmware := image.take (5376 + payloadLen image)
        fused := if s.fused < securityVersion image then securityVersion image else s.fused }
      else { s with recovery := true, event := true, msis := s.msis + 1, reason := imageReason s image } := by
  unfold loadImage
  split
  · next passes => simp [passes]
  · next fails => rw [if_neg fails]; rfl

theorem exec_image {s : State} {image : List Byte} {i : Instr}
    (h : i = .bootRomVerify image ∧ s.ready = false ∧ s.recovery = false ∨
      i = .recoveryImageLoad image ∧ s.recovery = true) :
    exec i s = .next (loadImage s image) := by
  obtain ⟨rfl, off, well⟩ | ⟨rfl, recovering⟩ := h
  · show execBootRomVerify image s = _
    simp [execBootRomVerify, off, well]
  · show execRecoveryImageLoad image s = _
    simp [execRecoveryImageLoad, recovering]

theorem imageReason_short {s : State} {image : List Byte} (h : image.length < 5376 + payloadLen image) :
    imageReason s image = 1 := by
  simp [imageReason, h]

/-! ## The mailbox (R371, R374, R388, R397, R411, R424) -/

theorem mailbox_recovering {s : State} (h : s.recovery = true) (f : State → State) : mailbox s f = .next s := by
  simp [mailbox, h]

theorem mailbox_open {s : State} (h : s.recovery = false) (f : State → State) : mailbox s f = .next (f s) := by
  simp [mailbox, h]

@[simp] theorem length_bytesOf (n : Nat) (w : Word) : (bytesOf n w).length = n := by
  induction n generalizing w with
  | zero => rfl
  | succ n ih => simp [bytesOf, ih]

@[simp] theorem length_field (n : Nat) (l : List Byte) : (field n l).length = n := by
  simp [field]

@[simp] theorem length_shake (l : List Byte) (n : Nat) : (shake l n).length = n := length_field n _

theorem field_of_length {n : Nat} {l : List Byte} (h : l.length = n) : field n l = l := by
  simp [field, ← h]

theorem length_evidence (s : State) (nonce : List Byte) : (evidence s nonce).length = 368 := by
  simp [evidence, words]

/-- The evidence opens with the nonce that asked for it. -/
theorem take_evidence {s : State} {nonce : List Byte} (h : nonce.length = 32) : (evidence s nonce).take 32 = nonce := by
  simp only [evidence, List.append_assoc, field_of_length h]
  exact List.take_left' h

/-- The table holds the new entry in its slot, and what the entries removed from it still keep waiting is reported (R371). -/
theorem execAccessTableUpdate_eq {s : State} {target slot : Nat} (well : s.recovery = false) (on : s.ready = true)
    (ht : target < aclTargets) (hs : slot < 64) (w0 w1 : Word) :
    let new : AclEntry := { target := target, slot := slot, w0 := w0 &&& aclMask0, w1 := w1 &&& aclMask1 }
    execAccessTableUpdate target slot w0 w1 s = .next (reportUpdate { s with
      acl := if new ∈ s.acl then s.acl else insertAcl new s.acl
      aclOld := if new ∈ s.acl then s.aclOld
        else s.aclOld ++ s.acl.filter (fun e => e.target == target && e.slot == slot && e.w0.getLsbD 0) } target slot) := by
  intro new
  have inRange : (!s.ready || aclTargets ≤ target || 64 ≤ slot) = false := by simp [on, ht, hs]
  rw [execAccessTableUpdate, mailbox_open well]
  simp only [inRange, List.contains_iff_mem, Bool.false_eq_true, if_false]
  by_cases there : new ∈ s.acl
  · simp only [new, if_pos there]
  · simp only [new, if_neg there]

/-- The counter that is read is gone, and no other (R388). -/
theorem execEccCounterReadClear_spec {s : State} (well : s.recovery = false) (n : Nat) :
    ∃ t, execEccCounterReadClear n s = .next t ∧
      (∀ c, s.ecc.find? (fun c => c.1 == n) = some (n, c) → t.reply = bytesOf 4 (c.setWidth 64)) ∧
      (∀ c ∈ t.ecc, c.1 ≠ n ∧ c ∈ s.ecc) ∧ ∀ c ∈ s.ecc, c.1 ≠ n → c ∈ t.ecc := by
  refine ⟨_, mailbox_open well _, fun c found => ?reply, fun c left => ?gone, fun c there other => ?kept⟩
  case reply => simp only [State.answer, found, Option.map_some, Option.getD_some]
  case gone =>
    obtain ⟨there, other⟩ := List.mem_filter.mp left
    exact ⟨by simpa using other, there⟩
  case kept => exact List.mem_filter.mpr ⟨there, by simpa using other⟩

/-- No queue of a number counts a lost write once the counts of that number are cleared. -/
theorem queueOf_cleared (s : State) (n : Nat) :
    ({ s with queues := s.queues.map (fun q => if q.num == n then { q with lost := 0 } else q) } : State).queueOf n =
      { s.queueOf n with lost := 0 } := by
  unfold State.queueOf
  generalize s.queues = qs
  induction qs with
  | nil => rfl
  | cons q qs ih =>
    by_cases here : q.num = n
    · simp [here]
    · simpa [here] using ih

theorem execLostWriteCountReadClear_spec {s : State} (well : s.recovery = false) (n : Nat) :
    ∃ t, execLostWriteCountReadClear n s = .next t ∧ t.reply = bytesOf 4 ((s.queueOf n).lost.setWidth 64) ∧
      (t.queueOf n).lost = 0 :=
  ⟨_, mailbox_open well _, rfl, congrArg WQueue.lost (queueOf_cleared (s.answer _) n)⟩

theorem execFaultRecordRead_eq {s : State} (well : s.recovery = false) (n : Nat) :
    execFaultRecordRead n s = .next (s.answer (match s.kept.find? (fun k => k.launch == n) with
      | some k => k.words.flatMap (bytesOf 8)
      | none => [])) := by
  rw [execFaultRecordRead, mailbox_open well]
  cases s.kept.find? (fun k => k.launch == n) <;> rfl

/-- A block of the dump, or poison where one of its bytes is poisoned (R411). -/
theorem execDumpRead_eq {s : State} (well : s.recovery = false) (n : Nat) :
    execDumpRead n s = .next (
      if s.dump = true ∧ n < 4096 then
        if (span (dumpBase + 4096 * n) 4096).any (poisonedAt s) then poisonReply s
        else s.answer ((span (dumpBase + 4096 * n) 4096).map s.mem.read)
      else s.answer []) := by
  rw [execDumpRead, mailbox_open well]
  by_cases there : s.dump = true ∧ n < 4096
  · have served : (!s.dump || decide (4096 ≤ n)) = false := by
      rw [there.1, Bool.not_true, Bool.false_or, decide_eq_false_iff_not]
      omega
    rw [served, if_neg Bool.false_ne_true, if_pos there]
    rfl
  · have refused : (!s.dump || decide (4096 ≤ n)) = true := by
      rw [Bool.or_eq_true, Bool.not_eq_true', decide_eq_true_iff]
      by_cases written : s.dump = true
      · exact .inr (Nat.le_of_not_lt fun block => there ⟨written, block⟩)
      · exact .inl (Bool.eq_false_iff.mpr written)
    rw [if_pos refused, if_neg there]

theorem execAttestationRequest_eq {s : State} (well : s.recovery = false) (nonce : List Byte) :
    execAttestationRequest nonce s =
      .next (s.answer (evidence s nonce ++ field 3309 (Config.identitySign (evidence s nonce)) ++ Config.identityKey)) :=
  mailbox_open well _

theorem execErrorLogRead_eq {s : State} (well : s.recovery = false) :
    execErrorLogRead s = .next (s.answer (s.log.flatMap (fun e =>
      (List.range 16).map (Config.logByte e.core e.unit e.element e.retired)))) :=
  mailbox_open well _

theorem execDumpClear_eq {s : State} (well : s.recovery = false) :
    execDumpClear s = .next { s with mem := s.mem.clear dumpBase dumpSize, dump := false } :=
  mailbox_open well _

/-- In recovery the mailbox takes none of these requests (R373). -/
theorem requests_recovering {s : State} (h : s.recovery = true) (target slot n : Nat) (w0 w1 : Word) :
    execAccessTableUpdate target slot w0 w1 s = .next s ∧ execDumpRead n s = .next s ∧ execErrorLogRead s = .next s :=
  ⟨mailbox_recovering h _, mailbox_recovering h _, mailbox_recovering h _⟩

/-! ## The statement -/

/-- Settles O54: each event and request of the mailbox by the lemma above that says what it answers. -/
theorem securityEvents : Obligations.SecurityEvents := by
  unfold Obligations.SecurityEvents
  intro s image nonce target slot n w0 w1 answers version size reset
  have afterReset : ∀ mem poison dump powered, reset (s.restart mem poison dump powered) := fun mem poison dump powered =>
    ⟨rfl, rfl, rfl, rfl, rfl, rfl, rfl, rfl, rfl, rfl, rfl, fun g _ => restart_cycle s mem poison dump powered g⟩
  refine ⟨?deviceReset, ?powerDown, ?thermalTrip, ?images, imageReason_short,
    fun recovering => requests_recovering recovering target slot n w0 w1, ?mailbox⟩
  case deviceReset => exact ⟨_, rfl, afterReset _ _ _ _, rfl, rfl, rfl, rfl⟩
  case powerDown => exact ⟨_, rfl, afterReset _ _ _ _, rfl, rfl, fun _ device => read_hostMemory device⟩
  case thermalTrip => exact ⟨_, rfl, afterReset _ _ _ _, rfl, rfl, fun _ device => read_hostMemory device⟩
  case images =>
    intro i h
    rw [exec_image h, loadImage_eq]
    rfl
  case mailbox =>
    intro well
    exact ⟨fun on ht hs => execAccessTableUpdate_eq well on ht hs w0 w1, execAttestationRequest_eq well nonce,
      length_evidence s nonce, take_evidence, execEccCounterReadClear_spec well n, execLostWriteCountReadClear_spec well n,
      execFaultRecordRead_eq well n, execErrorLogRead_eq well, execDumpRead_eq well n, _, execDumpClear_eq well, rfl,
      read_clear s.mem dumpBase dumpSize⟩

end Sys2Proof.Proofs
end

section
/-! SUPPORT. What of a core neither entries that perform nor a team that leaves it changes: its number, the lane groups and
the matrix unit that are retired, and its vector ceiling (R22, R55, R222, R345, R397). -/

namespace Sys2Proof.Proofs

open Sys2Proof.Machine Sys2Proof.Laws

/-- The number, the retired units and the vector ceiling of a core. -/
def coreUnits (c : Core) : Nat × BitVec 8 × Bool × Nat := (c.num, c.laneOff, c.mxOff, c.vceil)

/-- A fold of steps that each keep the units of the core in focus keeps them. -/
theorem foldl_coreUnits {α : Type} {f : State → α → State} (h : ∀ s a, coreUnits (f s a).core = coreUnits s.core)
    (l : List α) (s : State) : coreUnits (l.foldl f s).core = coreUnits s.core := by
  induction l generalizing s with
  | nil => rfl
  | cons a l ih => exact (ih _).trans (h s a)

/-! ## Entries that perform, and releases -/

theorem coreOf_num (s : State) (g : Nat) : (s.coreOf g).num = g := by
  unfold State.coreOf
  split
  · next here => exact here
  · split
    · next c found => simpa using List.find?_some found
    · rfl

/-- A core that takes the place of one with the same units. -/
theorem setCore_coreUnits {s : State} {c : Core} {g : Nat} (h : coreUnits c = coreUnits (s.coreOf g)) :
    coreUnits (s.setCore c).core = coreUnits s.core := by
  have num : c.num = g := (congrArg Prod.fst h).trans (coreOf_num s g)
  unfold State.setCore
  split
  · next here =>
    rw [h, State.coreOf, if_pos (here.trans num)]
  · rfl

@[simp] theorem onAHart_coreUnits (s : State) (g : Nat) (t : Fin 4) (f : AHart → AHart) :
    coreUnits (onAHart s g t f).core = coreUnits s.core := setCore_coreUnits (g := g) rfl

@[simp] theorem addFault_coreUnits (s : State) (g : Nat) (t : Fin 4) (f : List PFault → List PFault) :
    coreUnits (addFault s g t f).core = coreUnits s.core := onAHart_coreUnits s g t _

@[simp] theorem returnOld_coreUnits (s : State) (n : Nat) (old : Word) (who : List Contrib) :
    coreUnits (returnOld s n old who).core = coreUnits s.core := by
  unfold returnOld
  refine foldl_coreUnits (fun s c => ?_) who s
  cases c.ret <;> simp

@[simp] theorem perform_coreUnits (s : State) (p : Payload) : coreUnits (perform s p).core = coreUnits s.core := by
  cases p with
  | bytes cells => rfl
  | nibbles cells => rfl
  | atomic op a n b who =>
    unfold perform performAtomic
    by_cases bad : poisonedAt s a = true
    · simp only [bad, if_true]
      exact foldl_coreUnits (fun s c => addFault_coreUnits s c.core c.t _) who s
    · simp only [bad]
      exact returnOld_coreUnits _ n _ who

@[simp] theorem observeWrite_coreUnits (s : State) (l : List Nat) (en : Nat → Bool) :
    coreUnits (observeWrite s l en).core = coreUnits s.core := by
  unfold observeWrite
  generalize List.range 1024 = js
  refine Eq.trans rfl (foldl_coreUnits (fun s j => ?_) js s)
  split <;> rfl

@[simp] theorem performEntry_coreUnits (s : State) (e : Entry) : coreUnits (performEntry s e).core = coreUnits s.core := by
  have stored : coreUnits (if e.bad then (perform s e.payload).poisonAt e.payload.addrs else perform s e.payload).core =
      coreUnits s.core := by
    split <;> exact perform_coreUnits s e.payload
  unfold performEntry
  dsimp only
  split
  · exact (observeWrite_coreUnits _ _ _).trans stored
  · exact stored

theorem performNow_coreUnits (s : State) (sel : Entry → Bool) : coreUnits (performNow s sel).core = coreUnits s.core := by
  unfold performNow performLevel
  refine (foldl_coreUnits (fun s lv => foldl_coreUnits (fun s e => ?_) _ s) [3, 2, 1, 0] _).trans rfl
  split <;> simp

theorem toSPoint_coreUnits (sc : BitVec 2) (s : State) (e : Entry) :
    coreUnits (toSPoint sc s e).core = coreUnits s.core := by
  unfold toSPoint performLower
  split
  · rfl
  · rw [performEntry_coreUnits]
    dsimp only
    split
    · exact performNow_coreUnits s _
    · rfl

@[simp] theorem releaseMove_coreUnits (s : State) (c : Nat) (ags : List Agent) (sc : BitVec 2) :
    coreUnits (releaseMove s c ags sc).core = coreUnits s.core := by
  unfold releaseMove emptyLoc
  refine foldl_coreUnits (fun s l => foldl_coreUnits (fun s e => ?_) _ s) _ s
  split
  · exact toSPoint_coreUnits sc _ e
  · rfl

/-! ## A team that leaves its core (R345) -/

/-- Any change of the team in focus keeps the units. -/
@[simp] theorem setTeam_coreUnits (s : State) (t : Team) : coreUnits (s.setTeam t).core = coreUnits s.core := rfl
@[simp] theorem setA_coreUnits (s : State) (a : AHart) : coreUnits (s.setA a).core = coreUnits s.core := rfl
@[simp] theorem setX_coreUnits (s : State) (x : XHart) : coreUnits (s.setX x).core = coreUnits s.core := rfl
@[simp] theorem setH_coreUnits (s : State) (h : Hart) : coreUnits (s.setH h).core = coreUnits s.core := by
  unfold State.setH
  split <;> rfl

@[simp] theorem raiseFatal_core (s : State) (c : BitVec 8) (core : Nat) (d : Word) : (raiseFatal s c core d).core = s.core := by
  unfold raiseFatal
  split <;> rfl

@[simp] theorem noteRefusal_core (s : State) (w : Who) (cls : Nat) (va : Word) : (noteRefusal s w cls va).core = s.core := by
  unfold noteRefusal
  split
  · rfl
  · split
    · rfl
    · split <;> rfl

@[simp] theorem takeTrap_coreUnits (s : State) (c v v2 p : Word) :
    coreUnits (s.takeTrap c v v2 p).core = coreUnits s.core := by
  unfold State.takeTrap State.withdraw
  split
  · rw [raiseFatal_core]
  · rw [setH_coreUnits]
    split <;> rfl

theorem takeReady_coreUnits (s : State) (t : Fin 4) : coreUnits (takeReady s t).core = coreUnits s.core := by
  unfold takeReady State.takePending
  dsimp only
  split
  · rw [takeTrap_coreUnits, setA_coreUnits, noteRefusal_core]
    rfl
  · rfl

theorem stopA_coreUnits (s : State) (t : Fin 4) : coreUnits (stopA s t).core = coreUnits s.core :=
  takeReady_coreUnits _ t

theorem stopX_coreUnits (s : State) (t : Fin 4) : coreUnits (stopX s t).core = coreUnits s.core := rfl

@[simp] theorem onHart_core (s : State) (t : Fin 4) (x : Bool) : (s.onHart t x).core = s.core := rfl
@[simp] theorem dropWalks_core (s : State) (gone : WalkRun → Bool) : (dropWalks s gone).core = s.core := rfl
@[simp] theorem forgetEarly_core (s : State) (g : Nat) (ags : List Agent) : (forgetEarly s g ags).core = s.core := rfl
@[simp] theorem stopPars_coreUnits (s : State) : coreUnits (stopPars s).core = coreUnits s.core := rfl
@[simp] theorem saveScratch_coreUnits (s : State) : coreUnits (saveScratch s).core = coreUnits s.core :=
  setTeam_coreUnits s _

@[simp] theorem quiesce_coreUnits (s : State) : coreUnits (quiesce s).core = coreUnits s.core := by
  unfold quiesce
  simp only [onHart_core, setTeam_coreUnits, saveScratch_coreUnits, foldl_coreUnits stopA_coreUnits, stopPars_coreUnits,
    forgetEarly_core, releaseMove_coreUnits, dropWalks_core, foldl_coreUnits stopX_coreUnits]

@[simp] theorem holdTeam_core (s : State) (t : Team) : (holdTeam s t).core = s.core := by
  unfold holdTeam
  split <;> rfl

@[simp] theorem fillCore_coreUnits (s : State) : coreUnits (fillCore s).core = coreUnits s.core := by
  unfold fillCore
  split
  · split <;> rfl
  · rfl

@[simp] theorem leaveCore_coreUnits (s : State) (tail : Bool) : coreUnits (leaveCore s tail).core = coreUnits s.core := by
  have stopped : coreUnits (if s.core.team.status == .resident then quiesce s else s).core = coreUnits s.core := by
    split <;> simp
  unfold leaveCore
  split
  · rfl
  · cases tail
    · exact (fillCore_coreUnits _).trans ((congrArg coreUnits (holdTeam_core _ _)).trans stopped)
    · exact (fillCore_coreUnits _).trans stopped

@[simp] theorem preempt_coreUnits (s : State) (tail : Bool) : coreUnits (preempt s tail).core = coreUnits s.core := by
  unfold preempt
  split
  · exact leaveCore_coreUnits s tail
  · rfl

end Sys2Proof.Proofs
end

section
/-! SUPPORT. The element-wise model of the X-hart: elements of registers and of groups read after they or others are
written, the element loop, and the state that an element-wise instruction leaves (R35, R165, R167). -/

namespace Sys2Proof.Proofs

open Sys2Proof.Machine Sys2Proof.Laws Sys2Proof.Claims

/-! ## Elements of a register -/

theorem testBit_getElemN (r : VReg) (w i b : Nat) :
    (getElemN r w i).testBit b = (decide (b < w) && r.toNat.testBit (i * w + b)) := by
  rw [getElemN, Nat.testBit_mod_two_pow, Nat.testBit_div_two_pow, Nat.add_comm b]

/-- The bits of a register with one element replaced: those of the element inside it, the old ones elsewhere. -/
theorem testBit_setElemN (r : VReg) (w i v b : Nat) (inside : (i + 1) * w ≤ 65536) :
    (setElemN r w i v).toNat.testBit b =
      if i * w ≤ b ∧ b < (i + 1) * w then v.testBit (b - i * w) else r.toNat.testBit b := by
  have cut : r.toNat - getElemN r w i * 2 ^ (i * w) =
      2 ^ (i * w) * (2 ^ w * (r.toNat / 2 ^ (i * w) / 2 ^ w)) + r.toNat % 2 ^ (i * w) := by
    have outer := Nat.div_add_mod r.toNat (2 ^ (i * w))
    have inner := congrArg (2 ^ (i * w) * ·) (Nat.div_add_mod (r.toNat / 2 ^ (i * w)) (2 ^ w))
    simp only [Nat.mul_add] at inner
    rw [getElemN, Nat.mul_comm _ (2 ^ (i * w))]
    omega
  have pieces : r.toNat - getElemN r w i * 2 ^ (i * w) + v % 2 ^ w * 2 ^ (i * w) =
      2 ^ (i * w) * (2 ^ w * (r.toNat / 2 ^ (i * w) / 2 ^ w) + v % 2 ^ w) + r.toNat % 2 ^ (i * w) := by
    rw [cut, Nat.mul_add, Nat.mul_comm (v % 2 ^ w)]
    omega
  have low : r.toNat % 2 ^ (i * w) < 2 ^ (i * w) := Nat.mod_lt _ (Nat.two_pow_pos _)
  have mid : v % 2 ^ w < 2 ^ w := Nat.mod_lt _ (Nat.two_pow_pos _)
  have top : (i + 1) * w = i * w + w := Nat.succ_mul i w
  rw [setElemN, BitVec.testBit_toNat, BitVec.getLsbD_ofNat, pieces, Nat.testBit_two_pow_mul_add _ low,
    Nat.testBit_two_pow_mul_add _ mid]
  obtain below | within | above : b < i * w ∨ (i * w ≤ b ∧ b < i * w + w) ∨ i * w + w ≤ b := by omega
  · have out : ¬ (i * w ≤ b ∧ b < (i + 1) * w) := by omega
    have legal : b < 65536 := by omega
    simp [below, out, legal, Nat.testBit_mod_two_pow]
  · have here : i * w ≤ b ∧ b < (i + 1) * w := by omega
    have notLow : ¬ b < i * w := by omega
    have inElem : b - i * w < w := by omega
    have legal : b < 65536 := by omega
    simp [here, notLow, inElem, legal, Nat.testBit_mod_two_pow]
  · have out : ¬ (i * w ≤ b ∧ b < (i + 1) * w) := by omega
    have notLow : ¬ b < i * w := by omega
    have notElem : ¬ b - i * w < w := by omega
    have place : b - i * w - w + w + i * w = b := by omega
    simp only [out, notLow, notElem, if_false, Nat.testBit_div_two_pow, place]
    by_cases legal : b < 65536
    · simp [legal]
    · have none : r.toNat.testBit b = false := BitVec.testBit_toNat r ▸ BitVec.getLsbD_of_ge r b (by omega)
      simp [none]

theorem getElemN_setElemN_same {r : VReg} {w i : Nat} (v : Nat) (inside : (i + 1) * w ≤ 65536) :
    getElemN (setElemN r w i v) w i = v % 2 ^ w := by
  refine Nat.eq_of_testBit_eq fun b => ?_
  rw [testBit_getElemN, testBit_setElemN r w i v _ inside, Nat.testBit_mod_two_pow]
  by_cases inElem : b < w
  · have top : (i + 1) * w = i * w + w := Nat.succ_mul i w
    have here : i * w ≤ i * w + b ∧ i * w + b < (i + 1) * w := by omega
    simp [here]
  · simp [inElem]

theorem getElemN_setElemN_other {r : VReg} {w i j : Nat} (v : Nat) (inside : (i + 1) * w ≤ 65536) (other : j ≠ i) :
    getElemN (setElemN r w i v) w j = getElemN r w j := by
  refine Nat.eq_of_testBit_eq fun b => ?_
  rw [testBit_getElemN, testBit_getElemN, testBit_setElemN r w i v _ inside]
  by_cases inElem : b < w
  · have apart : ¬ (i * w ≤ j * w + b ∧ j * w + b < (i + 1) * w) := by
      obtain less | more := Nat.lt_or_gt_of_ne other
      · have : (j + 1) * w ≤ i * w := Nat.mul_le_mul_right w less
        rw [Nat.succ_mul] at this
        omega
      · have : (i + 1) * w ≤ j * w := Nat.mul_le_mul_right w more
        omega
    rw [if_neg apart]
  · simp [inElem]

/-! ## Elements of a group -/

theorem reg_setReg (x : XHart) (n m : Nat) (r : VReg) :
    (x.setReg n r).reg m = if n % 32 = m % 32 then r else x.reg m := by
  simp only [XHart.reg, XHart.setReg, Vector.getElem_set]

theorem elemN_congr {x y : XHart} (same : y.v = x.v) (c w d i : Nat) : y.elemN c w d i = x.elemN c w d i := by
  simp only [XHart.elemN, XHart.reg, same]

/-- A register of at most 8 lane groups has 65,536 bits (R36). -/
theorem perWidth_mul_le {s : State} (most : s.core.team.w ≤ 8) (w : Nat) : s.perWidth w * w ≤ 65536 := by
  unfold State.perWidth
  split
  · omega
  · have := Nat.div_mul_le_self (s.core.team.w * 8192) w
    omega

theorem element_setX (s : State) (y : XHart) (w : Nat) (d : Reg) (i : Nat) :
    element (s.setX y) w d i = y.elemN (s.perWidth w) w d.toNat i := by
  rw [element, setX_x]
  rfl

/-- Element i of a group that does not run past v31 takes the value, and every other element of it stays. -/
theorem elemN_putN {c w d i j : Nat} (x : XHart) (v : Nat) (size : c * w ≤ 65536) (full : 0 < c)
    (hi : d + i / c < 32) (hj : d + j / c < 32) :
    (x.putN c w d i v).elemN c w d j = if j = i then v % 2 ^ w else x.elemN c w d j := by
  have some : ¬ c = 0 := by omega
  have inside : (i % c + 1) * w ≤ 65536 :=
    Nat.le_trans (Nat.mul_le_mul_right w (Nat.succ_le_of_lt (Nat.mod_lt i full))) size
  simp only [XHart.elemN, XHart.putN, if_neg some, reg_setReg]
  have place : (d + i / c) % 32 = (d + j / c) % 32 ↔ i / c = j / c := by
    rw [Nat.mod_eq_of_lt hi, Nat.mod_eq_of_lt hj, Nat.add_left_cancel_iff]
  by_cases register : i / c = j / c
  · rw [if_pos (place.mpr register), register]
    by_cases here : j = i
    · subst here
      rw [if_pos rfl, getElemN_setElemN_same v inside]
    · have other : j % c ≠ i % c := fun slot => here (by rw [← Nat.div_add_mod j c, ← Nat.div_add_mod i c, register, slot])
      rw [if_neg here, getElemN_setElemN_other v inside other]
  · have other : j ≠ i := fun same => register (by rw [same])
    rw [if_neg (mt place.mp register), if_neg other]

/-- `y` is `x` but for vector and mask registers. -/
def OnlyRegs (x y : XHart) : Prop := y = { x with v := y.v, k := y.k }

theorem OnlyRegs.trans {x y z : XHart} (h : OnlyRegs x y) (g : OnlyRegs y z) : OnlyRegs x z := by
  unfold OnlyRegs at *
  rw [g, h]

theorem OnlyRegs.h {x y : XHart} (same : OnlyRegs x y) : y.h = x.h := by rw [same]
theorem OnlyRegs.tail {x y : XHart} (same : OnlyRegs x y) : y.tail = x.tail := by rw [same]

theorem putN_same (x : XHart) (c w d i v : Nat) : OnlyRegs x (x.putN c w d i v) := by
  unfold XHart.putN
  split <;> rfl

/-! ## The element loop -/

theorem mem_elems {x : XHart} {i : Nat} : i ∈ x.elems ↔ x.vstart.toNat ≤ i ∧ i < x.vl.toNat := by
  rw [XHart.elems, mem_span]
  omega

/-- How the loop of an instruction into a group of vector registers writes a result. -/
def putAt (c w d : Nat) (x : XHart) (i v : Nat) : XHart := x.putN c w d i v

section Loop

variable {c w d : Nat} {k : BitVec 3} {e : Bit} {kx : BitVec 3} {x0 : XHart} {op : Nat → ElemRes}

theorem elemStep_same (l : Loop) (i : Nat) : OnlyRegs l.x (elemStep k e kx x0 op (putAt c w d) l i).x := by
  have mask : ∀ (y : XHart) (b : Bool), OnlyRegs y (if e.on then y.setMaskBit kx i b else y) := fun y b => by split <;> rfl
  unfold elemStep
  split
  · exact (putN_same l.x c w d i _).trans (mask _ _)
  · exact mask l.x false

theorem runElems_same : OnlyRegs x0 (runElems x0 k e kx op (putAt c w d)).x := by
  have keep : ∀ (is : List Nat) (l : Loop), OnlyRegs l.x (is.foldl (elemStep k e kx x0 op (putAt c w d)) l).x := by
    intro is
    induction is with
    | nil => exact fun _ => rfl
    | cons i is ih => exact fun l => (elemStep_same l i).trans (ih _)
  exact keep _ _

/-- One element of the loop: an active one takes its result. -/
theorem elemN_elemStep (size : c * w ≤ 65536) (full : 0 < c) {i j : Nat} (hi : d + i / c < 32) (hj : d + j / c < 32)
    (l : Loop) :
    (elemStep k e kx x0 op (putAt c w d) l i).x.elemN c w d j =
      if j = i ∧ x0.active k i = true then (op i).v % 2 ^ w else l.x.elemN c w d j := by
  have mask : ∀ (y : XHart) (b : Bool), (if e.on then y.setMaskBit kx i b else y).elemN c w d j = y.elemN c w d j :=
    fun y b => elemN_congr (by split <;> rfl) c w d j
  unfold elemStep putAt
  by_cases act : x0.active k i = true
  · simp only [act, if_true, mask, and_true]
    exact elemN_putN l.x _ size full hi hj
  · simp only [act, Bool.false_eq_true, if_false, mask, and_false]

/-- The loop: each active element of the strip takes its result, and every other element of the group stays (R167). -/
theorem elemN_runElems (size : c * w ≤ 65536) (full : 0 < c) (room : ∀ i < x0.vl.toNat, d + i / c < 32) {j : Nat}
    (hj : d + j / c < 32) :
    (runElems x0 k e kx op (putAt c w d)).x.elemN c w d j =
      if (x0.vstart.toNat ≤ j ∧ j < x0.vl.toNat) ∧ x0.active k j = true then (op j).v % 2 ^ w else x0.elemN c w d j := by
  have loop : ∀ (is : List Nat) (l : Loop), (∀ i ∈ is, d + i / c < 32) →
      (is.foldl (elemStep k e kx x0 op (putAt c w d)) l).x.elemN c w d j =
        if j ∈ is ∧ x0.active k j = true then (op j).v % 2 ^ w else l.x.elemN c w d j := by
    intro is
    induction is with
    | nil => simp
    | cons i is ih =>
      intro l room
      obtain ⟨hi, rest⟩ := List.forall_mem_cons.mp room
      rw [List.foldl_cons, ih _ rest, elemN_elemStep size full hi hj]
      by_cases later : j ∈ is ∧ x0.active k j = true
      · simp [later]
      · by_cases here : j = i
        · subst here
          by_cases act : x0.active k j = true <;> simp [act]
        · simp [here]
  refine (loop _ _ fun i inside => room i (mem_elems.mp inside).2).trans ?_
  simp only [mem_elems]

end Loop

theorem setProgress_regs (x : XHart) (c d g n : Nat) :
    (setProgress x c d g n).h = x.h ∧ (setProgress x c d g n).v = x.v := by
  unfold setProgress
  generalize List.range g = js
  induction js generalizing x with
  | nil => exact ⟨rfl, rfl⟩
  | cons j js ih => exact ih _

@[simp] theorem setProgress_h (x : XHart) (c d g n : Nat) : (setProgress x c d g n).h = x.h :=
  (setProgress_regs x c d g n).1
@[simp] theorem setProgress_v (x : XHart) (c d g n : Nat) : (setProgress x c d g n).v = x.v :=
  (setProgress_regs x c d g n).2

theorem zeroTail_same (x : XHart) (c w d g lo : Nat) : OnlyRegs x (zeroTail x c w d g lo) := by
  unfold zeroTail
  split
  · next zeroes =>
    clear zeroes
    generalize span lo (c * g - lo) = is
    induction is generalizing x with
    | nil => rfl
    | cons i is ih => exact (putN_same x c w d i 0).trans (ih _)
  · rfl

theorem zeroTail_of_noTail {x : XHart} (h : x.tail = false) (c w d g lo : Nat) : zeroTail x c w d g lo = x := by
  simp [zeroTail, h]

/-! ## The state after an element-wise instruction, the X-hart in focus -/

section OnX

variable {s : State} (onX : s.xh = true)

include onX

theorem setX_h_of_xHart (y : XHart) : (s.setX y).h = y.h := by
  rw [State.h, setX_xh, if_pos onX]
  exact congrArg XHart.h (setX_x s y)

theorem setX_setH_of_xHart (y : XHart) (h : Hart) : (s.setX y).setH h = s.setX { y with h := h } := by
  rw [State.setH, setX_xh, if_pos onX, setX_x, setX_setX]

theorem setX_bump_of_xHart (y : XHart) (n : Nat) :
    (s.setX y).bump n = s.setX { y with h := { y.h with pc := y.h.pc + BitVec.ofNat 64 n, wait := none } } := by
  rw [State.bump, setX_setH_of_xHart onX, setX_h_of_xHart onX]

/-- What closes a vector instruction changes the X-hart alone. -/
theorem closeVector_xHart (l : Loop) (d : Reg) :
    closeVector s l d = s.setX { l.x with
      vstart := 0, vxsat := l.x.vxsat || l.sat
      h := { l.x.h with fflags := l.x.h.fflags ||| l.fl, ldst := (2 : BitVec 2) ++ d } } := by
  simp only [closeVector, State.raise, State.raiseSat, State.setLdst, setX_h_of_xHart onX, setX_setH_of_xHart onX, setX_x,
    setX_setX]

/-- What an element-wise instruction into a group of vector registers leaves in the X-hart: no trap was taken, and with no
tail to zero its registers are those of the element loop. -/
theorem vectorOp_xHart (more : s.x.vstart.toNat < s.x.vl.toNat) (d : Reg) (g w : Nat) (k : BitVec 3) (e : Bit)
    (kx : BitVec 3) (op : Nat → ElemRes) :
    ∃ y : XHart, vectorOp s d g w k e kx op = s.setX y ∧ y.h.priv = s.x.h.priv ∧
      (s.x.tail = false → y.v = (runElems s.x k e kx op (putAt (s.perWidth w) w d.toNat)).x.v) := by
  have run : ¬ s.x.vl ≤ s.x.vstart := by
    rw [BitVec.le_def]
    omega
  have closes : vectorOp s d g w k e kx op =
      let c := s.perWidth w
      let l := runElems s.x k e kx op (putAt c w d.toNat)
      let y := setProgress (zeroTail l.x c w d.toNat g s.x.vl.toNat) c d.toNat g s.x.vl.toNat
      closeVector s { l with x := y } d := by
    unfold vectorOp
    rw [if_neg run]
    rfl
  refine ⟨_, closes.trans (closeVector_xHart onX _ d), ?priv, fun noTail => ?regs⟩
  case priv =>
    show (setProgress _ _ _ _ _).h.priv = s.x.h.priv
    rw [setProgress_h, (zeroTail_same _ _ _ _ _ _).h, runElems_same.h]
  case regs =>
    show (setProgress _ _ _ _ _).v = _
    rw [setProgress_v, zeroTail_of_noTail (runElems_same.tail.trans noTail)]

end OnX

end Sys2Proof.Proofs
end

section
/-! SUPPORT. One element group of a `vadd` (R51, R167, R170). -/

namespace Sys2Proof.Proofs

open Sys2Proof.Machine Sys2Proof.Laws Sys2Proof.Claims

/-! ## The strip that ends at the next group -/

/-- The first element after the element group at which `vstart` stands. -/
def nextGroup (x : XHart) : Nat := (x.vstart.toNat / groupElems x.sew + 1) * groupElems x.sew

/-- The X-hart with a strip that ends there. -/
def shortStrip (x : XHart) : XHart := { x with vl := BitVec.ofNat 17 (nextGroup x), tail := false }

theorem groupElems_pos (z : BitVec 2) : 0 < groupElems z := by
  revert z
  decide

theorem vstart_lt_nextGroup (x : XHart) : x.vstart.toNat < nextGroup x :=
  (Nat.div_lt_iff_lt_mul (groupElems_pos x.sew)).mp (Nat.lt_succ_self _)

theorem shortStrip_vl {x : XHart} (more : nextGroup x < x.vl.toNat) : (shortStrip x).vl.toNat = nextGroup x := by
  have := x.vl.isLt
  exact Nat.mod_eq_of_lt (by omega)

/-- An instruction that works by groups, with a group left after this one, ends neither trapped nor stalled: `groupInstr`
takes this group alone. -/
theorem groupInstr_vadd {s r t : State} {d a b : Reg} {k : BitVec 3} {v : BitVec 2}
    (whole : exec (.vadd d a b k v) s = .next r) (priv : r.x.h.priv = s.x.h.priv) (alive : r.fatal = none)
    (runs : r.x.h.wait = none) (more : nextGroup s.x < s.x.vl.toNat)
    (short : exec (.vadd d a b k v) (s.setX (shortStrip s.x)) = .next t) :
    groupInstr (.vadd d a b k v) s = .next (standAt (.vadd d a b k v) s t (nextGroup s.x)) := by
  have ran : ranThrough s r = true := by simp [ranThrough, priv, alive, runs]
  have cut : shortRun (.vadd d a b k v) s = .next t := short
  unfold groupInstr
  rw [whole]
  dsimp only
  rw [if_neg (by simp [priv, alive]), if_pos (by rw [ran]; simpa [byGroups, nextGroup] using more), cut]
  rfl

theorem standAt_setX (i : Instr) (s : State) (y : XHart) (hi : Nat) :
    standAt i s (s.setX y) hi = s.setX { y with
      vl := s.x.vl, tail := s.x.tail, vstart := BitVec.ofNat 17 hi, midway := sweeps i
      h := { y.h with pc := s.x.h.pc, ldst := s.x.h.ldst } } := by
  rw [standAt, setX_x, setX_setX]

/-! ## Operands on the shorter strip -/

theorem fit_eq_low {w : Nat} (width : w ≤ 64) (v : Int) : fit w v = low w v := by
  have below : (BitVec.ofInt w v).toNat < 2 ^ 64 :=
    Nat.lt_of_lt_of_le (BitVec.ofInt w v).isLt (Nat.pow_le_pow_right (by decide) width)
  rw [fit, toElem, BitVec.toNat_ofNat, Nat.mod_eq_of_lt below, BitVec.toNat_ofInt, low]
  exact congrArg (fun m : Int => (v % m).toNat) (Int.natCast_pow 2 w)

theorem width_le (x : XHart) : x.w ≤ 64 := (by decide : ∀ z, sewBits z ≤ 64) x.sew

theorem vElem_shortStrip (s : State) (r : Reg) (i : Nat) : vElem (s.setX (shortStrip s.x)) r i = vElem s r i := by
  rw [vElem, setX_x]
  rfl

theorem shortStrip_h (s : State) : (s.setX (shortStrip s.x)).h = s.h := by
  unfold State.h
  rw [setX_xh]
  split
  · show (s.setX (shortStrip s.x)).x.h = s.x.h
    rw [setX_x]
    rfl
  · show (s.setX (shortStrip s.x)).a.h = s.a.h
    rw [setX_a]

theorem getS_shortStrip (s : State) (r : Reg) : (s.setX (shortStrip s.x)).getS r = s.getS r := by
  simp only [State.getS, State.shadowed, setX_xh, setX_a, shortStrip_h]
  rfl

theorem bInt_shortStrip (s : State) (v : BitVec 2) (b : Reg) (i : Nat) :
    bInt (s.setX (shortStrip s.x)) v b i = bInt s v b i := by
  simp only [bInt, vElem_shortStrip, getS_shortStrip, setX_x]
  rfl

theorem intOk_shortStrip {d a b : Reg} {k : BitVec 3} {e : Bit} {v : BitVec 2} {x : XHart} (more : nextGroup x < x.vl.toNat)
    (ok : intOk d a b k e v x = true) : intOk d a b k e v (shortStrip x) = true := by
  simp only [intOk, check7, Bool.and_eq_true] at ok ⊢
  obtain ⟨⟨⟨⟨fmt, groups⟩, masks⟩, whole⟩, apart⟩ := ok
  refine ⟨⟨⟨⟨fmt, groups⟩, ?_⟩, whole⟩, apart⟩
  have shorter := shortStrip_vl more
  simp only [Bool.not_eq_true', Bool.and_eq_false_iff, decide_eq_false_iff_not] at masks ⊢
  exact masks.imp_right fun long => by omega

theorem execVadd_eq {s : State} {d a b : Reg} {k : BitVec 3} {v : BitVec 2} (onX : s.xh = true) (legal : v ≠ 3)
    (ok : intOk d a b k 0 v s.x = true) :
    exec (.vadd d a b k v) s = .next ((binInt (fun w a b => { v := fit w (a + b) }) d a b k 0 0 v s).bump 4) := by
  have wf : (Instr.vadd d a b k v).wf = true := by simpa [Instr.wf] using legal
  show execVadd d a b k v s = _
  rw [execVadd, issueV, issue_runs (by rw [onX]; rfl) wf, if_pos ok]
  rfl

/-- A `vadd` that passes its checks on a strip with elements left ends, with no trap and no stall; with no tail to zero its
registers are those of the element loop. -/
theorem execVadd_xHart {s : State} {d a b : Reg} {k : BitVec 3} {v : BitVec 2} (onX : s.xh = true) (legal : v ≠ 3)
    (ok : intOk d a b k 0 v s.x = true) (more : s.x.vstart.toNat < s.x.vl.toNat) :
    ∃ y : XHart, exec (.vadd d a b k v) s = .next (s.setX y) ∧ y.h.priv = s.x.h.priv ∧ y.h.wait = none ∧
      (s.x.tail = false → y.v = (runElems s.x k 0 0
        (fun i => { v := fit s.x.w (fmtVal s.x (vElem s a i) + fmtVal s.x (bInt s v b i)) })
        (putAt (s.perWidth s.x.w) s.x.w d.toNat)).x.v) := by
  obtain ⟨y, runs, priv, regs⟩ := vectorOp_xHart onX more d (s.x.g 1) s.x.w k 0 0
    (fun i => { v := fit s.x.w (fmtVal s.x (vElem s a i) + fmtVal s.x (bInt s v b i)) })
  have ends := setX_bump_of_xHart onX y 4
  rw [← runs] at ends
  exact ⟨_, (execVadd_eq onX legal ok).trans (congrArg Host.Outcome.next ends), priv, rfl, regs⟩

/-- One element group of a `vadd` (R51): its active elements take their sums, every other element of the strip stays, and
`vstart` stands after the group. -/
theorem groupInstr_vadd_spec {s : State} {d a b : Reg} {k : BitVec 3} {v : BitVec 2} (onX : s.xh = true)
    (alive : s.fatal = none) (legal : v ≠ 3) (ok : intOk d a b k 0 v s.x = true)
    (room : fits s d (groupCount s.x.group) s.x.w) (more : nextGroup s.x < s.x.vl.toNat) :
    ∃ u, groupInstr (.vadd d a b k v) s = .next u ∧ u.x.vstart.toNat = nextGroup s.x ∧ u.x.vl = s.x.vl ∧ u.pc = s.pc ∧
      u.mem = s.mem ∧ u.h.ldst = s.h.ldst ∧
      ∀ i < s.x.vl.toNat, element u s.x.w d i =
        if (s.x.vstart.toNat ≤ i ∧ i < nextGroup s.x) ∧ s.x.active k i = true then
          low s.x.w (fmtVal s.x (vElem s a i) + fmtVal s.x (bInt s v b i)) % 2 ^ s.x.w
        else element s s.x.w d i := by
  have inGroup := vstart_lt_nextGroup s.x
  have shorter := shortStrip_vl more
  obtain ⟨-, -, most, fitsGroup, fitsStrip⟩ := room
  obtain ⟨r, whole, priv, free, -⟩ := execVadd_xHart onX legal ok (by omega)
  obtain ⟨y, short, -, -, regs⟩ := execVadd_xHart (s := s.setX (shortStrip s.x)) (d := d) (a := a) (b := b) (k := k) (v := v)
    onX legal (by rw [setX_x]; exact intOk_shortStrip more ok) (by rw [setX_x, shorter]; exact inGroup)
  rw [setX_setX] at short
  have loop : y.v = (runElems (shortStrip s.x) k 0 0
      (fun i => { v := fit s.x.w (fmtVal s.x (vElem s a i) + fmtVal s.x (bInt s v b i)) })
      (putAt (s.perWidth s.x.w) s.x.w d.toNat)).x.v := by
    have regs := regs (by rw [setX_x]; rfl)
    rw [setX_x] at regs
    simp only [vElem_shortStrip, bInt_shortStrip] at regs
    exact regs
  have hart : s.h = s.x.h := if_pos onX
  refine ⟨_, (groupInstr_vadd whole (by rw [setX_x, priv]) alive (by rw [setX_x, free]) more short).trans
    (congrArg Host.Outcome.next (standAt_setX _ s y _)), ?vstart, ?vl, ?pc, rfl, ?ldst, ?elements⟩
  case vstart =>
    rw [setX_x]
    exact shorter
  case vl => rw [setX_x]
  case pc => rw [State.pc, State.pc, setX_h_of_xHart onX, hart]
  case ldst => rw [setX_h_of_xHart onX, hart]
  case elements =>
    intro i below
    have full : 0 < s.perWidth s.x.w := Nat.pos_of_mul_pos_right (by omega : 0 < s.perWidth s.x.w * groupCount s.x.group)
    have size : s.perWidth s.x.w * s.x.w ≤ 65536 := perWidth_mul_le most s.x.w
    have register : ∀ j < s.x.vl.toNat, d.toNat + j / s.perWidth s.x.w < 32 := by
      intro j before
      have := (Nat.div_lt_iff_lt_mul full).mpr (by rw [Nat.mul_comm]; omega : j < groupCount s.x.group * s.perWidth s.x.w)
      omega
    rw [element_setX]
    refine (elemN_congr loop _ _ _ _).trans ?_
    rw [elemN_runElems size full (fun j inside => register j (by omega)) (register i below), shorter,
      fit_eq_low (width_le s.x)]
    rfl

end Sys2Proof.Proofs
end

section
/-! SUPPORT. Ceilings, lane loss, residue mismatches and the issue rule of a core (R22, R23, R50, R55, R397 to R399). -/

namespace Sys2Proof.Proofs

open Sys2Proof.Machine Sys2Proof.Laws Sys2Proof.Claims

/-! ## Ceilings and lanes -/

theorem atCore_of_lt {s : State} {g : Nat} (h : g < 1536) (f : State → State) :
    atCore s g f = (f (s.focus g)).focus s.core.num := if_pos h

theorem execCeilingChange_eq {s : State} {g v m : Nat} (core : g < 1536) (least : 1 ≤ v)
    (lanes : v ≤ 32 * workingLanes (s.focus g).core) (lo : 16 ≤ m) (hi : m ≤ 128) (step : m % 16 = 0) :
    execCeilingChange g v m s =
      .next ({ s.focus g with core := { (s.focus g).core with vceil := v, mceil := m } }.focus s.core.num) := by
  simp [execCeilingChange, atCore_of_lt core, least, lanes, lo, hi, step]

theorem workingLanes_congr {c d : Core} (same : c.laneOff = d.laneOff) : workingLanes c = workingLanes d := by
  unfold workingLanes
  rw [same]

/-- After the loss of lanes or of the matrix unit, whether or not the team leaves: the vector ceiling is no higher than the
working lane groups allow (R55, R398). -/
theorem settleCore_coreUnits (s : State) :
    coreUnits (settleCore s).core = (s.core.num, s.core.laneOff, s.core.mxOff,
      if workingLanes s.core = 0 then s.core.vceil else min s.core.vceil (32 * workingLanes s.core)) := by
  have leaves : ∀ (p : Prop) [Decidable p] (s : State), coreUnits (if p then preempt s false else s).core = coreUnits s.core :=
    fun p _ s => by split <;> simp
  unfold settleCore
  dsimp only
  rw [leaves, foldl_coreUnits (fun s t => congrArg coreUnits (holdTeam_core s t))]
  rfl

theorem settleCore_laneOff (s : State) : (settleCore s).core.laneOff = s.core.laneOff :=
  congrArg (·.2.1) (settleCore_coreUnits s)
theorem settleCore_mxOff (s : State) : (settleCore s).core.mxOff = s.core.mxOff :=
  congrArg (·.2.2.1) (settleCore_coreUnits s)
theorem settleCore_vceil {s : State} (some : 0 < workingLanes s.core) :
    (settleCore s).core.vceil = min s.core.vceil (32 * workingLanes s.core) :=
  (congrArg (·.2.2.2) (settleCore_coreUnits s)).trans (if_neg (Nat.ne_of_gt some))

/-- A mask that is read only adds lane groups that are off (R55, R397). -/
theorem execLaneDisableMaskReload_spec {s : State} {g : Nat} (core : g < 1536) (well : s.recovery = false) (mask : BitVec 8) :
    ∃ u : State, execLaneDisableMaskReload g mask s = .next (u.focus s.core.num) ∧
      u.core.laneOff = (s.focus g).core.laneOff ||| mask ∧
      (0 < workingLanes u.core → u.core.vceil = min (s.focus g).core.vceil (32 * workingLanes u.core)) := by
  refine ⟨_, by rw [execLaneDisableMaskReload, if_neg (by simp [well]), atCore_of_lt core], settleCore_laneOff _,
    fun some => ?_⟩
  have same := workingLanes_congr (settleCore_laneOff
    { s.focus g with core := { (s.focus g).core with laneOff := (s.focus g).core.laneOff ||| mask } })
  rw [same] at some ⊢
  exact settleCore_vceil some

/-! ## Residue mismatches (R397 to R399) -/

theorem execResidueMismatch_checked {s : State} {g unit el : Nat} {b : BitVec 2} (core : g < 1536)
    (checked : checks (s.focus g) b.toFin unit el = true) :
    execResidueMismatch g unit { t := b, element := el } s =
      .next ((mismatch (s.focus g) b.toFin unit el).focus s.core.num) := by
  rw [execResidueMismatch, atCore_of_lt core, if_pos checked]

/-- What a mismatch of a unit suspects: the element group or rank-1 step that the element is of. -/
def suspectAt (s : State) (t : Fin 4) (unit el : Nat) : Suspect :=
  { t := t, unit := unit, element := el / checkedSize s t unit * checkedSize s t unit }

/-- The first mismatch of a group or step is logged and remembered. -/
theorem mismatch_first {s : State} {t : Fin 4} {unit el : Nat} (first : suspectAt s t unit el ∉ s.core.suspects) :
    mismatch s t unit el = { s with
      log := s.log ++ [{ core := s.core.num, unit := unit, element := (suspectAt s t unit el).element, retired := false }]
      core := { s.core with suspects := suspectAt s t unit el :: s.core.suspects } } := by
  unfold mismatch
  exact if_pos (by simpa [suspectAt] using first)

theorem getLsbD_unit_retired (mask : BitVec 8) {unit i : Nat} (h : i < 8) :
    (if unit < 8 then mask ||| BitVec.ofNat 8 (2 ^ unit) else mask).getLsbD i = (mask.getLsbD i || i == unit) := by
  split
  · rw [BitVec.getLsbD_or, BitVec.getLsbD_ofNat, Nat.testBit_two_pow]
    simp [h, Bool.beq_eq_decide_eq, eq_comm]
  · have other : i ≠ unit := by omega
    simp [other]

/-- The second mismatch of the same group or step, before it is done, retires the unit. -/
theorem mismatch_second {s : State} {t : Fin 4} {unit el : Nat} (again : suspectAt s t unit el ∈ s.core.suspects)
    (undone : stepwise s t = false ∨
      (s.onHart t true).x.vstart.toNat / checkedSize s t unit = el / checkedSize s t unit) :
    (mismatch s t unit el).core.mxOff = (s.core.mxOff || unit == 8) ∧
      ∀ i, i < 8 → (mismatch s t unit el).core.laneOff.getLsbD i = (s.core.laneOff.getLsbD i || i == unit) := by
  have there : (stepwise s t &&
      (s.onHart t true).x.vstart.toNat / checkedSize s t unit != el / checkedSize s t unit) = false := by
    obtain whole | same := undone
    · simp [whole]
    · simp [same]
  unfold mismatch
  rw [if_neg (by simpa [suspectAt] using again), if_neg (by simp [there])]
  exact ⟨settleCore_mxOff _, fun i small => by rw [settleCore_laneOff]; exact getLsbD_unit_retired _ small⟩

/-! ## The issue rule (R50) -/

/-- The tandem that follows `last` is one of the set, and no other of the set comes before it in cyclic order. -/
theorem nextTandem_some {last : BitVec 2} {l : List (Fin 4)} {t : Fin 4} (h : nextTandem last l = some t) :
    t ∈ l ∧ ∀ k ∈ l, (t.val + 3 - last.toNat) % 4 ≤ (k.val + 3 - last.toNat) % 4 := by
  have range := last.isLt
  rw [nextTandem, List.find?_map, Option.map_eq_some_iff, show ([1, 2, 3, 4] : List Nat) = List.range' 1 4 from rfl] at h
  obtain ⟨i, found, rfl⟩ := h
  obtain ⟨holds, inRange, before⟩ := List.find?_range'_eq_some.mp found
  obtain ⟨lo, hi⟩ := List.mem_range'_1.mp inRange
  refine ⟨by simpa using holds, fun k member => Nat.le_of_not_lt fun closer => ?_⟩
  have place : (⟨(last.toNat + ((k.val + 3 - last.toNat) % 4 + 1)) % 4, Nat.mod_lt _ (by decide)⟩ : Fin 4) = k :=
    Fin.ext (by dsimp only; omega)
  have skipped := before ((k.val + 3 - last.toNat) % 4 + 1) (by omega) (by dsimp only at closer; omega)
  simp [place, member] at skipped

/-- The tandems with an element group to take. -/
def readyTandems (s : State) : List (Fin 4) := ([0, 1, 2, 3] : List (Fin 4)).filter (readyVector s)

/-- Those of them outside the round of a lane group. -/
def freshTandems (s : State) (group : BitVec 3) : List (Fin 4) :=
  (readyTandems s).filter (fun t => !s.core.groups[group.toFin].round.getLsbD t.val)

/-- The tandems that compete for an opportunity of a lane group. -/
def competing (s : State) (group : BitVec 3) : List (Fin 4) :=
  oldest s (if freshTandems s group = [] then readyTandems s else freshTandems s group)

/-- The opportunity goes to the next of the oldest competitors: its round and its last tie remember it. -/
theorem execIssueOpportunity_eq {s : State} {group : BitVec 3} {t : Fin 4} (resident : s.core.team.status = .resident)
    (works : s.core.laneOff.getLsbD group.toNat = false)
    (next : nextTandem s.core.groups[group.toFin].lastTie (competing s group) = some t) :
    let lg := s.core.groups[group.toFin]
    let turn := BitVec.ofNat 4 (2 ^ t.val)
    let took : LaneGroup := {
      round := if freshTandems s group = [] then turn else lg.round ||| turn
      lastTie := if 1 < (competing s group).length then BitVec.ofNat 2 t.val else lg.lastTie }
    execIssueOpportunity group s = .next { s with
      core := { s.core with groups := s.core.groups.set group.toFin took }
      turn := some (s.core.num, t), sched := .group s.core.num t :: s.sched } := by
  intro lg turn took
  have out : (s.core.team.status != .resident || s.core.laneOff.getLsbD group.toNat) = false := by simp [resident, works]
  unfold execIssueOpportunity
  simp only [out, List.isEmpty_iff, Bool.false_eq_true, if_false]
  change Host.Outcome.next (match nextTandem lg.lastTie (competing s group) with | none => s | some t => _) = _
  rw [next]
  rfl

/-! ## The statement -/

/-- Settles O51: each event of a core, and the element group of a `vadd`, by the lemma above that says what it answers. -/
theorem coreEvents : Obligations.CoreEvents := by
  unfold Obligations.CoreEvents
  intro s g v m unit el mask group t b e vd va vb k core f at_ ready lg fresh pool l n it
  refine ⟨execCeilingChange_eq core, fun checked => ⟨fun first => ?first, fun again undone => ?second⟩,
    fun well => execLaneDisableMaskReload_spec core well mask, fun resident works next => ?issue, ?group⟩
  case first =>
    have remembered := mismatch_first (s := f) first
    exact (execResidueMismatch_checked core checked).trans (by rw [remembered]; rfl)
  case second =>
    exact ⟨_, execResidueMismatch_checked core checked, mismatch_second again undone⟩
  case issue =>
    exact ⟨execIssueOpportunity_eq resident works next, nextTandem_some next⟩
  case group =>
    intro x w hi lo onX alive legal ok room more
    obtain ⟨u, runs, vstart, vl, pc, mem, ldst, elements⟩ := groupInstr_vadd_spec onX alive legal ok room more
    refine ⟨u, runs, vstart, vl, pc, mem, ldst, fun i above below active => ?taken, fun i inStrip stays => ?kept⟩
    case taken =>
      have before : i < x.vl.toNat := Nat.lt_trans below more
      exact (elements i before).trans (if_pos ⟨⟨above, below⟩, active⟩)
    case kept =>
      refine (elements i inStrip).trans (if_neg ?_)
      rintro ⟨⟨above, below⟩, active⟩
      obtain under | past | inactive := stays
      · exact absurd above (Nat.not_le.mpr under)
      · exact absurd below (Nat.not_lt.mpr past)
      · exact Bool.false_ne_true (inactive.symm.trans active)

end Sys2Proof.Proofs
end

section
/-! SUPPORT. Vector instructions that write elements in loops of their own: registers and elements after such a loop, the
checks 4, 6 and 7 of the X-hart, and what closes the instruction (R58, R66, R68, R70, R119, R165). -/

namespace Sys2Proof.Proofs

open Sys2Proof.Machine Sys2Proof.Laws Sys2Proof.Claims

/-! ## Registers after writes of elements -/

theorem reg_congr {x y : XHart} (same : y.v = x.v) (n : Nat) : y.reg n = x.reg n := by
  simp only [XHart.reg, same]

/-- A register outside a group that does not run past v31 is none of its registers. -/
theorem outside_group {d g n q : Nat} (inside : d + g ≤ 32) (out : n < d ∨ d + g ≤ n) (hn : n < 32) (hq : q < g) :
    ¬ (d + q) % 32 = n % 32 := by
  omega

theorem reg_putN_other {x : XHart} {c w d i v n : Nat} (other : ¬ (d + i / c) % 32 = n % 32) :
    (x.putN c w d i v).reg n = x.reg n := by
  unfold XHart.putN
  split
  · rfl
  · rw [reg_setReg, if_neg other]

theorem elemN_setReg_other {x : XHart} {c w d i n : Nat} {r : VReg} (other : ¬ (d + i / c) % 32 = n % 32) :
    (x.setReg n r).elemN c w d i = x.elemN c w d i := by
  simp only [XHart.elemN, reg_setReg, if_neg (Ne.symm other)]

/-! ## A loop that writes elements of one group -/

section Writes

variable {α : Type} {c w d : Nat} {at_ val : α → Nat}

/-- The loop over a list of writes, each of a value at an element number. -/
def putAll (c w d : Nat) (at_ val : α → Nat) (l : List α) (x : XHart) : XHart :=
  l.foldl (fun y a => y.putN c w d (at_ a) (val a)) x

theorem putAll_same (l : List α) (x : XHart) : OnlyRegs x (putAll c w d at_ val l x) := by
  induction l generalizing x with
  | nil => rfl
  | cons a l ih => exact (putN_same x c w d _ _).trans (ih _)

theorem reg_putAll_other {n : Nat} (l : List α) (x : XHart) (other : ∀ a ∈ l, ¬ (d + at_ a / c) % 32 = n % 32) :
    (putAll c w d at_ val l x).reg n = x.reg n := by
  induction l generalizing x with
  | nil => rfl
  | cons a l ih =>
    obtain ⟨first, rest⟩ := List.forall_mem_cons.mp other
    exact (ih _ rest).trans (reg_putN_other first)

section Elements

variable (size : c * w ≤ 65536) (full : 0 < c) {j : Nat} (hj : d + j / c < 32)

include size full hj

/-- An element that no write of the loop names stays. -/
theorem elemN_putAll_other (l : List α) (x : XHart) (room : ∀ a ∈ l, d + at_ a / c < 32) (other : ∀ a ∈ l, at_ a ≠ j) :
    (putAll c w d at_ val l x).elemN c w d j = x.elemN c w d j := by
  induction l generalizing x with
  | nil => rfl
  | cons a l ih =>
    obtain ⟨first, rest⟩ := List.forall_mem_cons.mp room
    obtain ⟨here, later⟩ := List.forall_mem_cons.mp other
    exact (ih _ rest later).trans ((elemN_putN x _ size full first hj).trans (if_neg (Ne.symm here)))

/-- An element that one write of the loop names takes its value, where no two writes name one element. -/
theorem elemN_putAll_mem (l : List α) (x : XHart) (room : ∀ a ∈ l, d + at_ a / c < 32) (once : (l.map at_).Nodup) {a : α}
    (member : a ∈ l) (here : at_ a = j) : (putAll c w d at_ val l x).elemN c w d j = val a % 2 ^ w := by
  induction l generalizing x with
  | nil => exact absurd member List.not_mem_nil
  | cons b l ih =>
    obtain ⟨first, rest⟩ := List.forall_mem_cons.mp room
    obtain ⟨fresh, once⟩ := List.nodup_cons.mp once
    obtain rfl | later := List.mem_cons.mp member
    · have others : ∀ e ∈ l, at_ e ≠ j := fun e mem same => fresh (List.mem_map.mpr ⟨e, mem, same.trans here.symm⟩)
      exact (elemN_putAll_other size full hj l _ rest others).trans
        ((elemN_putN x _ size full first hj).trans (if_pos here.symm))
    · exact ih _ rest once later

/-- A loop over the entries of a list by their place, of which only those at places that a test admits are written. -/
theorem elemN_putAll_zipIdx {β : Type} {l : List β} {val : β × Nat → Nat} (ok : Nat → Bool) (x : XHart)
    (room : ∀ i < l.length, ok i = true → d + i / c < 32) (inList : j < l.length) (admitted : ok j = true) :
    (putAll c w d Prod.snd val (l.zipIdx.filter (fun p => ok p.2)) x).elemN c w d j = val (l[j], j) % 2 ^ w := by
  have places : ∀ p ∈ l.zipIdx.filter (fun p => ok p.2), p.2 < l.length ∧ ok p.2 = true := fun p mem => by
    obtain ⟨mem, good⟩ := List.mem_filter.mp mem
    exact ⟨List.snd_lt_of_mem_zipIdx mem, good⟩
  have once : ((l.zipIdx.filter (fun p => ok p.2)).map Prod.snd).Nodup := by
    have whole : (l.zipIdx.map Prod.snd).Nodup := by
      rw [List.zipIdx_map_snd]
      exact List.nodup_range'
    exact whole.sublist (List.filter_sublist.map _)
  refine elemN_putAll_mem size full hj _ x (fun p mem => room p.2 (places p mem).1 (places p mem).2) once
    (List.mem_filter.mpr ⟨?_, admitted⟩) rfl
  exact List.mk_mem_zipIdx_iff_getElem?.mpr (List.getElem?_eq_getElem inList)

end Elements

end Writes

/-! ## The tail -/

theorem zeroTail_eq (x : XHart) (c w d g lo : Nat) :
    zeroTail x c w d g lo = if x.tail && !x.two then putAll c w d id (fun _ => 0) (span lo (c * g - lo)) x else x := rfl

/-- The elements of the tail of a group lie in its registers. -/
theorem tail_register {c g lo i : Nat} (mem : i ∈ span lo (c * g - lo)) : i / c < g := by
  obtain ⟨above, below⟩ := mem_span.mp mem
  exact Nat.div_lt_of_lt_mul (by omega)

theorem elemN_zeroTail_before {c w d g lo j : Nat} (x : XHart) (size : c * w ≤ 65536) (full : 0 < c) (inside : d + g ≤ 32)
    (hj : d + j / c < 32) (before : j < lo) : (zeroTail x c w d g lo).elemN c w d j = x.elemN c w d j := by
  rw [zeroTail_eq]
  split
  · refine elemN_putAll_other size full hj _ x (fun i mem => ?_) (fun i mem => ?_)
    · have : i / c < g := tail_register mem
      show d + i / c < 32
      omega
    · obtain ⟨above, -⟩ := mem_span.mp mem
      show i ≠ j
      omega
  · rfl

theorem reg_zeroTail_outside {c w d g lo n : Nat} (x : XHart) (inside : d + g ≤ 32) (out : n < d ∨ d + g ≤ n)
    (hn : n < 32) : (zeroTail x c w d g lo).reg n = x.reg n := by
  rw [zeroTail_eq]
  split
  · exact reg_putAll_other _ x fun i mem => outside_group inside out hn (tail_register mem)
  · rfl

/-! ## Groups and check 7 -/

theorem one_g (x : XHart) : x.g 1 = groupCount x.group := Nat.one_mul _

/-- The group of an operand that passes check 7 does not run past v31 (R58). -/
theorem groupOk_inside {x : XHart} {d : Reg} (ok : groupOk (d, x.g 1) = true) : d.toNat + x.g 1 ≤ 32 := by
  rw [one_g] at ok ⊢
  have all : ∀ (d : Reg) (z : BitVec 2), groupOk (d, groupCount z) = true → d.toNat + groupCount z ≤ 32 := by decide
  exact all d x.group ok

/-- A single register that does not overlap a group lies outside it. -/
theorem outside_of_not_overlap {d b : Reg} {g : Nat} (apart : overlap (d, g) (b, 1) = false) :
    b.toNat < d.toNat ∨ d.toNat + g ≤ b.toNat := by
  simp only [overlap, Bool.and_eq_false_iff, decide_eq_false_iff_not] at apart
  omega

section Fits

variable {s : State} {d : Reg} {g w i : Nat} (room : fits s d g w)

include room

theorem fits_inside : d.toNat + g ≤ 32 := by
  obtain ⟨-, -, -, inside, -⟩ := room
  exact inside

theorem fits_size : s.perWidth w * w ≤ 65536 := by
  obtain ⟨-, -, most, -, -⟩ := room
  exact perWidth_mul_le most w

variable (below : i < s.x.vl.toNat)

include below

theorem fits_full : 0 < s.perWidth w := by
  obtain ⟨-, -, -, -, strip⟩ := room
  exact Nat.pos_of_mul_pos_right (by omega : 0 < s.perWidth w * g)

theorem fits_slot : i / s.perWidth w < g := by
  obtain ⟨-, -, -, -, strip⟩ := room
  exact Nat.div_lt_of_lt_mul (by omega)

/-- An element of a strip that fits a group lies in one of its registers. -/
theorem fits_register : d.toNat + i / s.perWidth w < 32 := by
  have := fits_slot room below
  have := fits_inside room
  omega

end Fits

theorem issueV_runs {i : Instr} {s : State} {ok : XHart → Bool} {body : State → Out} (onX : s.xh = true)
    (legal : i.wf = true) (passes : ok s.x = true) : issueV i s ok body = body s := by
  rw [issueV, issue_runs (by rw [onX]; rfl) legal, if_pos passes]

theorem issueV_illegal {i : Instr} {s : State} {ok : XHart → Bool} {body : State → Out} (onX : s.xh = true)
    (legal : i.wf = true) (fails : ok s.x = false) :
    issueV i s ok body = .next (s.takeTrap (causeWord 1 7 0) 0 s.ir s.pc) := by
  rw [issueV, issue_runs (by rw [onX]; rfl) legal, fails]
  exact illegal_next s 7

/-! ## The state that closes a vector instruction, the X-hart in focus -/

section OnX

variable {s : State} (onX : s.xh = true)

include onX

theorem closeVector_x (l : Loop) (d : Reg) :
    (closeVector s l d).x = { l.x with
      vstart := 0, vxsat := l.x.vxsat || l.sat
      h := { l.x.h with fflags := l.x.h.fflags ||| l.fl, ldst := (2 : BitVec 2) ++ d } } := by
  rw [closeVector_xHart onX, setX_x]

theorem closeVector_v (l : Loop) (d : Reg) : (closeVector s l d).x.v = l.x.v := by rw [closeVector_x onX]
theorem closeVector_prog (l : Loop) (d : Reg) : (closeVector s l d).x.prog = l.x.prog := by
  rw [closeVector_x onX]
theorem closeVector_vstart (l : Loop) (d : Reg) : (closeVector s l d).x.vstart = 0 :=
  congrArg XHart.vstart (closeVector_x onX l d)
theorem closeVector_ldst (l : Loop) (d : Reg) : (closeVector s l d).x.h.ldst = 2#2 ++ d :=
  congrArg (·.h.ldst) (closeVector_x onX l d)
theorem closeVector_fflags (l : Loop) (d : Reg) : (closeVector s l d).x.h.fflags = l.x.h.fflags ||| l.fl :=
  congrArg (·.h.fflags) (closeVector_x onX l d)

theorem closeVector_reg (l : Loop) (d : Reg) (n : Nat) : (closeVector s l d).x.reg n = l.x.reg n :=
  reg_congr (closeVector_v onX l d) n

theorem closeVector_element (l : Loop) (d r : Reg) (w i : Nat) :
    element (closeVector s l d) w r i = l.x.elemN (s.perWidth w) w r.toNat i := by
  rw [closeVector_xHart onX, element_setX]
  exact elemN_congr (y := { l.x with vstart := _, vxsat := _, h := _ }) rfl _ _ _ _

theorem closeVector_getF {l : Loop} (same : l.x.h.f = s.x.h.f) (d r : Reg) : (closeVector s l d).getF r = s.getF r := by
  rw [State.getF, closeVector_xHart onX, setX_h_of_xHart onX, State.getF, State.h, if_pos onX]
  show l.x.h.f[r.toFin] = s.x.h.f[r.toFin]
  rw [same]

end OnX

end Sys2Proof.Proofs
end

section
/-! SUPPORT. Reductions and scans: the summation tree, what `vred` leaves, and the loop of the carry-form `vscan` (R94, R96,
R187, R188). -/

namespace Sys2Proof.Proofs

open Sys2Proof.Machine Sys2Proof.Laws Sys2Proof.Claims

/-! ## The summation tree (R94) -/

section Tree

variable {ident : Word} {f : Word → Word → Word × Flags}

theorem treeLevel_length (f : Word → Word → Word × Flags) {m : Nat} {l : List Word} (even : l.length = 2 * m) :
    (treeLevel f l).1.length = m := by
  induction m generalizing l with
  | zero =>
    obtain rfl := List.eq_nil_of_length_eq_zero even
    rfl
  | succ m ih =>
    match l, even with
    | a :: b :: l, even => exact congrArg Nat.succ (ih (by simp only [List.length_cons] at even; omega))

/-- A level combines neighbours, so that of two lists, the first of even length, is that of each. -/
theorem treeLevel_append {m : Nat} {l : List Word} (even : l.length = 2 * m) (r : List Word) :
    (treeLevel f (l ++ r)).1 = (treeLevel f l).1 ++ (treeLevel f r).1 := by
  induction m generalizing l with
  | zero =>
    obtain rfl := List.eq_nil_of_length_eq_zero even
    rfl
  | succ m ih =>
    match l, even with
    | a :: b :: l, even => exact congrArg (List.cons (f a b).1) (ih (by simp only [List.length_cons] at even; omega))

theorem treeUp_length {k m : Nat} {l : List Word} (fl : Flags) (size : l.length = 2 ^ k * m) :
    (treeUp f k l fl).1.length = m := by
  induction k generalizing l fl with
  | zero => exact size.trans (Nat.one_mul m)
  | succ k ih => exact ih _ (treeLevel_length f (by rw [size, Nat.pow_succ, Nat.mul_comm (2 ^ k) 2, Nat.mul_assoc]))

/-- The values of the levels, the first list a multiple of their width, are those of each list, whatever the flags. -/
theorem treeUp_append {k m : Nat} {l : List Word} (size : l.length = 2 ^ k * m) (r : List Word) (fl fll flr : Flags) :
    (treeUp f k (l ++ r) fl).1 = (treeUp f k l fll).1 ++ (treeUp f k r flr).1 := by
  induction k generalizing l r fl fll flr with
  | zero => rfl
  | succ k ih =>
    have even : l.length = 2 * (2 ^ k * m) := by rw [size, Nat.pow_succ, Nat.mul_comm (2 ^ k) 2, Nat.mul_assoc]
    simp only [treeUp, treeLevel_append even]
    exact ih (treeLevel_length f even) _ _ _ _

/-- One level more is taken last. -/
theorem treeUp_succ (k : Nat) (l : List Word) (fl : Flags) :
    (treeUp f (k + 1) l fl).1 = (treeLevel f (treeUp f k l fl).1).1 := by
  induction k generalizing l fl with
  | zero => rfl
  | succ k ih => exact ih _ _

theorem log2Up_eq {n k : Nat} (above : 2 ^ k < n) (below : n ≤ 2 ^ (k + 1)) : log2Up n = k + 1 := by
  have one : 0 < 2 ^ k := Nat.two_pow_pos k
  rw [log2Up, if_neg (by omega), (Nat.log2_eq_iff (k := k) (by omega)).mpr ⟨by omega, by omega⟩]

theorem log2Up_two_pow (k : Nat) : log2Up (2 ^ k) = k := by
  cases k with
  | zero => rfl
  | succ k => exact log2Up_eq (Nat.pow_lt_pow_succ (by decide)) (Nat.le_refl _)

/-- A power of two of leaves needs no padding. -/
theorem treeSum_two_pow {k : Nat} {l : List Word} (size : l.length = 2 ^ k) :
    (treeSum ident f l).1 = (treeUp f k l 0).1.headD ident := by
  simp [treeSum, size, log2Up_two_pow]

/-- The tree over two halves combines their trees. -/
theorem treeSum_append {k : Nat} {l r : List Word} (left : l.length = 2 ^ k) (right : r.length = 2 ^ k) :
    (treeSum ident f (l ++ r)).1 = (f (treeSum ident f l).1 (treeSum ident f r).1).1 := by
  have whole : (l ++ r).length = 2 ^ (k + 1) := by rw [List.length_append, left, right, Nat.pow_succ]; omega
  obtain ⟨a, la⟩ := List.length_eq_one_iff.mp (treeUp_length (f := f) (m := 1) 0 (left.trans (Nat.mul_one _).symm))
  obtain ⟨b, rb⟩ := List.length_eq_one_iff.mp (treeUp_length (f := f) (m := 1) 0 (right.trans (Nat.mul_one _).symm))
  rw [treeSum_two_pow whole, treeSum_two_pow left, treeSum_two_pow right, treeUp_succ,
    treeUp_append (m := 1) (left.trans (Nat.mul_one _).symm) r 0 0 0, la, rb]
  rfl

/-- Leaves are padded with the identity up to the next power of two. -/
theorem treeSum_pad {k : Nat} {l : List Word} (above : 2 ^ k < l.length) (below : l.length < 2 ^ (k + 1)) :
    (treeSum ident f l).1 = (treeSum ident f (l ++ List.replicate (2 ^ (k + 1) - l.length) ident)).1 := by
  have full : (l ++ List.replicate (2 ^ (k + 1) - l.length) ident).length = 2 ^ (k + 1) := by
    rw [List.length_append, List.length_replicate]
    omega
  rw [treeSum_two_pow full, treeSum, log2Up_eq above (Nat.le_of_lt below)]

end Tree

/-! ## `vred` (R187) -/

/-- What a `vred` writes to its destination, and the flags it raises: the tree over the leaves, the stack in vd after a push
of each element, or what the stack in va comes to. -/
def vredResult (s : State) (d a : Reg) (k o : BitVec 3) (v : BitVec 2) : VReg × Flags :=
  let x := s.x
  match v.toNat with
  | 0 =>
    let t := treeSum (redIdentity x o) (redApply x o) ((List.range x.vl.toNat).map (leaf s a k o))
    (setElem (x.reg d.toNat) x.w 0 t.1, t.2)
  | 1 =>
    x.elems.foldl (fun p i =>
      ((carryPush x o p.1 (leaf s a k o i)).1, p.2 ||| (carryPush x o p.1 (leaf s a k o i)).2)) (x.reg d.toNat, 0)
  | _ =>
    let t := carryFinal x o (x.reg a.toNat)
    (setElem (x.reg d.toNat) x.w 0 t.1, t.2)

/-- Check 7 of `vred`. -/
def vredOk (d a : Reg) (k o : BitVec 3) (v : BitVec 2) (x : XHart) : Bool :=
  let src : Group := if v = 2#2 then (a, 1) else (a, x.g 1)
  check7 x (redFmtOk x o) [(d, if v = 1#2 then 1 else x.g 1), src] (k != 0#3) (v != 1#2) (if v = 1#2 then [((d, 1), src)] else [])

theorem execVred_eq {s : State} {d a : Reg} {k o : BitVec 3} {v : BitVec 2} (onX : s.xh = true) (operator : o.toNat ≤ 5)
    (legal : v ≠ 3) (ok : vredOk d a k o v s.x = true) (more : s.x.vstart < s.x.vl) :
    ∃ c g n, exec (.vred d a k o v) s = .next ((closeVector s {
      x := setProgress (s.x.setReg d.toNat (vredResult s d a k o v).1) c d.toNat g n
      fl := (vredResult s d a k o v).2, sat := false } d).bump 4) := by
  have wf : (Instr.vred d a k o v).wf = true := by simpa [Instr.wf, operator] using legal
  have run : ¬ s.x.vl ≤ s.x.vstart := BitVec.not_le.mpr more
  have checked : execVred d a k o v s = _ := issueV_runs (ok := vredOk d a k o v) onX wf ok
  show ∃ c g n, execVred d a k o v s = _
  rw [checked]
  dsimp only
  rw [if_neg run]
  by_cases push : v = 1#2
  · rw [if_pos push]
    exact ⟨_, _, _, rfl⟩
  · rw [if_neg push]
    exact ⟨_, _, _, rfl⟩

/-- A `vred` that passes its checks writes one register, its flags and `ldst`. -/
theorem execVred_spec {s : State} {d a : Reg} {k o : BitVec 3} {v : BitVec 2} (onX : s.xh = true) (operator : o.toNat ≤ 5)
    (legal : v ≠ 3) (ok : vredOk d a k o v s.x = true) (more : s.x.vstart < s.x.vl) :
    ∃ t : State, exec (.vred d a k o v) s = .next (t.bump 4) ∧
      t.x.reg d.toNat = (vredResult s d a k o v).1 ∧
      (∀ r : Fin 32, r.val ≠ d.toNat → t.x.v[r] = s.x.v[r]) ∧
      t.x.h.fflags = s.x.h.fflags ||| (vredResult s d a k o v).2 ∧ t.x.h.ldst = 2#2 ++ d := by
  obtain ⟨c, g, n, runs⟩ := execVred_eq onX operator legal ok more
  refine ⟨_, runs, ?_, fun r other => ?_, ?_, closeVector_ldst onX _ d⟩
  · rw [closeVector_reg onX, reg_congr (setProgress_v _ _ _ _ _), reg_setReg, if_pos rfl]
  · rw [closeVector_v onX, setProgress_v]
    have := d.isLt
    exact Vector.getElem_set_ne (Nat.mod_lt _ (by decide)) _ (by omega)
  · rw [closeVector_fflags onX, setProgress_h]
    rfl

/-! ## `vscan` by the tree (R188) -/

/-- A `vscan` of no carry form is element-wise: each element takes the tree over the leaves before it, or up to it. -/
theorem vscanTree_runs {s : State} {d a : Reg} {k o : BitVec 3} {v : BitVec 2} {ex : Bool} (onX : s.xh = true)
    (operator : o.toNat ≤ 5) (tree : v.getLsbD 0 = false) (exclusive : v.getLsbD 1 = ex) :
    VectorRuns (.vscan d a 0 k o v) s
      (fun x => check7 x (redFmtOk x o) [(d, x.g 1), (a, x.g 1)] (k != 0) true [((d, x.g 1), (a, x.g 1))])
      (vectorOp s d (groupCount s.x.group) (sewBits s.x.sew) k 0 0 (fun i => flagged
        (treeSum (redIdentity s.x o) (redApply s.x o) ((List.range (if ex then i else i + 1)).map (leaf s a k o))))) := by
  have wf : (Instr.vscan d a 0 k o v).wf = true := by simp [Instr.wf, operator]
  have check : (fun x : XHart => check7 x (redFmtOk x o)
        ([(d, x.g 1), (a, x.g 1)] ++ if v.getLsbD 0 then [((0, 1) : Group)] else []) (k != 0#3) (!v.getLsbD 0)
        (((d, x.g 1), (a, x.g 1)) :: (if v.getLsbD 0 then [((0, 1) : Group)] else []).map (fun g => ((d, x.g 1), g)))) =
      fun x => check7 x (redFmtOk x o) [(d, x.g 1), (a, x.g 1)] (k != 0) true [((d, x.g 1), (a, x.g 1))] := by
    rw [tree]
    rfl
  have arm : exec (.vscan d a 0 k o v) s = execVscan d a 0 k o v s := rfl
  subst exclusive
  constructor
  · intro ok
    rw [arm, execVscan, check, issueV_runs onX wf ok]
    simp only [tree, Bool.false_eq_true, if_false, ← one_g]
    rfl
  · intro bad
    rw [Illegal, arm, execVscan, check, issueV_illegal onX wf bad]

/-! ## The loop of the carry-form `vscan` (R96, R188) -/

section Scan

variable {s : State} {d a : Reg} {k o : BitVec 3} {ex : Bool}

/-- The stack after the push of element i. -/
def pushed (s : State) (a : Reg) (k o : BitVec 3) (st : VReg) (i : Nat) : VReg := (carryPush s.x o st (leaf s a k o i)).1

/-- What an active element takes from the stack before its own push. -/
def scanned (s : State) (a : Reg) (k o : BitVec 3) (ex : Bool) (st : VReg) (i : Nat) : Word :=
  (carryFinal s.x o (if ex then st else pushed s a k o st i)).1

theorem scanStep_stack (p : VReg × XHart × Flags) (i : Nat) :
    (scanStep s d a k o ex p i).1 = pushed s a k o p.1 i := by
  unfold scanStep
  dsimp only
  split <;> rfl

/-- One element of the loop: an active one takes what the stack comes to. -/
theorem elemN_scanStep (size : s.perWidth s.x.w * s.x.w ≤ 65536) (full : 0 < s.perWidth s.x.w) {i j : Nat}
    (hi : d.toNat + i / s.perWidth s.x.w < 32) (hj : d.toNat + j / s.perWidth s.x.w < 32) (p : VReg × XHart × Flags) :
    (scanStep s d a k o ex p i).2.1.elemN (s.perWidth s.x.w) s.x.w d.toNat j =
      if j = i ∧ s.x.active k i = true then (scanned s a k o ex p.1 i).toNat % 2 ^ s.x.w
      else p.2.1.elemN (s.perWidth s.x.w) s.x.w d.toNat j := by
  unfold scanStep
  dsimp only
  by_cases act : s.x.active k i = true
  · simp only [act, if_true, and_true]
    exact elemN_putN _ _ size full hi hj
  · simp only [act, Bool.false_eq_true, if_false, and_false]

theorem foldl_scanStep_stack (l : List Nat) (p : VReg × XHart × Flags) :
    (l.foldl (scanStep s d a k o ex) p).1 = l.foldl (pushed s a k o) p.1 := by
  induction l generalizing p with
  | nil => rfl
  | cons i l ih => exact (ih _).trans (congrArg (l.foldl (pushed s a k o)) (scanStep_stack p i))

/-- The loop over rising elements: an active one takes what the stack comes to where the elements before it are pushed,
and every other element of the group stays. -/
theorem elemN_foldl_scanStep (size : s.perWidth s.x.w * s.x.w ≤ 65536) (full : 0 < s.perWidth s.x.w) {j : Nat}
    (hj : d.toNat + j / s.perWidth s.x.w < 32) (l : List Nat) (p : VReg × XHart × Flags) (rising : l.Pairwise (· < ·))
    (room : ∀ i ∈ l, d.toNat + i / s.perWidth s.x.w < 32) :
    (l.foldl (scanStep s d a k o ex) p).2.1.elemN (s.perWidth s.x.w) s.x.w d.toNat j =
      if j ∈ l ∧ s.x.active k j = true then
        (scanned s a k o ex ((l.filter (fun i => i < j)).foldl (pushed s a k o) p.1) j).toNat % 2 ^ s.x.w
      else p.2.1.elemN (s.perWidth s.x.w) s.x.w d.toNat j := by
  induction l generalizing p with
  | nil => simp
  | cons i l ih =>
    obtain ⟨after, rising⟩ := List.pairwise_cons.mp rising
    obtain ⟨hi, rest⟩ := List.forall_mem_cons.mp room
    rw [List.foldl_cons, ih _ rising rest, scanStep_stack, elemN_scanStep size full hi hj]
    by_cases later : j ∈ l
    · have below : i < j := after j later
      simp [later, below, Nat.ne_of_gt below]
    · by_cases here : j = i
      · subst here
        have none : l.filter (fun i => i < j) = [] :=
          List.filter_eq_nil_iff.mpr fun i mem => by simpa using Nat.le_of_lt (after i mem)
        simp [later, none]
      · simp [later, here]

end Scan

theorem elems_rising (x : XHart) : x.elems.Pairwise (· < ·) := by
  unfold XHart.elems span
  exact List.pairwise_map.mpr (List.pairwise_lt_range.imp fun h => Nat.add_lt_add_left h _)

/-- Check 7 of a carry-form `vscan`. -/
def vscanCarryOk (d a b : Reg) (k o : BitVec 3) (x : XHart) : Bool :=
  check7 x (redFmtOk x o) [(d, x.g 1), (a, x.g 1), (b, 1)] (k != 0) false [((d, x.g 1), (a, x.g 1)), ((d, x.g 1), (b, 1))]

/-- The stack in vb lies outside the destination group. -/
theorem vscanCarryOk_outside {d a b : Reg} {k o : BitVec 3} {x : XHart} (ok : vscanCarryOk d a b k o x = true) :
    d.toNat + x.g 1 ≤ 32 ∧ (b.toNat < d.toNat ∨ d.toNat + x.g 1 ≤ b.toNat) := by
  simp only [vscanCarryOk, check7, List.all_cons, Bool.and_eq_true, Bool.not_eq_true'] at ok
  obtain ⟨⟨⟨⟨-, group, -⟩, -⟩, -⟩, -, apart, -⟩ := ok
  exact ⟨groupOk_inside group, outside_of_not_overlap apart⟩

/-- The X-hart after the loop of a carry-form `vscan`, the stack written back. -/
def scanLoop (s : State) (d a b : Reg) (k o : BitVec 3) (ex : Bool) : XHart :=
  let r := s.x.elems.foldl (scanStep s d a k o ex) (s.x.reg b.toNat, s.x, 0)
  r.2.1.setReg b.toNat r.1

theorem execVscan_carry {s : State} {d a b : Reg} {k o : BitVec 3} {v : BitVec 2} {ex : Bool} (onX : s.xh = true)
    (operator : o.toNat ≤ 5) (carry : v.getLsbD 0 = true) (exclusive : v.getLsbD 1 = ex)
    (ok : vscanCarryOk d a b k o s.x = true) (more : s.x.vstart < s.x.vl) :
    ∃ c g n fl, exec (.vscan d a b k o v) s = .next ((closeVector s {
      x := setProgress (zeroTail (setProgress (scanLoop s d a b k o ex) c b.toNat 1 c) (s.perWidth s.x.w) s.x.w d.toNat
        (s.x.g 1) s.x.vl.toNat) g d.toNat n c
      fl := fl, sat := false } d).bump 4) := by
  have wf : (Instr.vscan d a b k o v).wf = true := by simp [Instr.wf, operator, carry]
  have run : ¬ s.x.vl ≤ s.x.vstart := BitVec.not_le.mpr more
  subst exclusive
  show ∃ c g n fl, execVscan d a b k o v s = _
  rw [execVscan, issueV_runs onX wf (by rw [carry]; exact ok)]
  dsimp only
  rw [if_pos carry, if_neg run]
  exact ⟨_, _, _, _, rfl⟩

/-- A carry-form `vscan`: the stack in vb after a push of each element, and each active element of the strip. -/
theorem execVscan_carry_spec {s : State} {d a b : Reg} {k o : BitVec 3} {v : BitVec 2} {ex : Bool} (onX : s.xh = true)
    (operator : o.toNat ≤ 5) (carry : v.getLsbD 0 = true) (exclusive : v.getLsbD 1 = ex)
    (ok : vscanCarryOk d a b k o s.x = true) (more : s.x.vstart < s.x.vl) :
    ∃ t : State, exec (.vscan d a b k o v) s = .next (t.bump 4) ∧
      t.x.reg b.toNat = s.x.elems.foldl (pushed s a k o) (s.x.reg b.toNat) ∧
      (fits s d (s.x.g 1) s.x.w → ∀ i < s.x.vl.toNat, element t s.x.w d i =
        if s.x.vstart.toNat ≤ i ∧ s.x.active k i = true then
          (scanned s a k o ex ((s.x.elems.filter (fun j => j < i)).foldl (pushed s a k o) (s.x.reg b.toNat)) i).toNat %
            2 ^ s.x.w
        else element s s.x.w d i) ∧
      t.x.h.ldst = 2#2 ++ d ∧ t.x.vstart = 0 := by
  obtain ⟨c, g, n, fl, runs⟩ := execVscan_carry onX operator carry exclusive ok more
  obtain ⟨inside, out⟩ := vscanCarryOk_outside ok
  refine ⟨_, runs, ?stack, fun room i below => ?elements, closeVector_ldst onX _ d, closeVector_vstart onX _ d⟩
  case stack =>
    rw [closeVector_reg onX, reg_congr (setProgress_v _ _ _ _ _), reg_zeroTail_outside _ inside out b.isLt,
      reg_congr (setProgress_v _ _ _ _ _), scanLoop, reg_setReg, if_pos rfl, foldl_scanStep_stack]
  case elements =>
    have size := fits_size room
    have full := fits_full room below
    have hi := fits_register room below
    rw [closeVector_element onX, elemN_congr (setProgress_v _ _ _ _ _),
      elemN_zeroTail_before _ size full inside hi below, elemN_congr (setProgress_v _ _ _ _ _), scanLoop,
      elemN_setReg_other (outside_group inside out b.isLt (fits_slot room below)),
      elemN_foldl_scanStep size full hi _ _ (elems_rising s.x) fun j mem => fits_register room (mem_elems.mp mem).2]
    simp only [mem_elems, below, and_true]
    rfl

/-! ## The statement -/

/-- Settles O27: each form of `vred` and of `vscan` by the lemma above that says what it leaves, and the tree by its levels. -/
theorem reductionsAndScans : Obligations.ReductionsAndScans := by
  unfold Obligations.ReductionsAndScans
  refine ⟨fun s d a b k o onX operator => ?_, fun ident f k l r v => ⟨rfl, rfl, treeSum_append, treeSum_pad⟩⟩
  intro x w g leaves tree
  refine ⟨fun ok more => execVred_spec onX operator (by decide) ok more, fun ok more => ?push, fun ok more => ?final,
    fun ex => vscanTree_runs onX operator (by cases ex <;> rfl) (by cases ex <;> rfl), fun ex ok more => ?carry⟩
  case push =>
    obtain ⟨t, runs, stack, others, -, -⟩ := execVred_spec (v := 1) onX operator (by decide) ok more
    exact ⟨t, runs, stack, others⟩
  case final =>
    obtain ⟨t, runs, value, others, -, -⟩ := execVred_spec (v := 2) onX operator (by decide) ok more
    exact ⟨t, runs, value, others⟩
  case carry =>
    obtain ⟨t, runs, stack, elements, ldst, vstart⟩ := execVscan_carry_spec (v := if ex then 3 else 1) (ex := ex) onX operator
      (by cases ex <;> rfl) (by cases ex <;> rfl) ok more
    refine ⟨t, runs, stack, fun room => ?_, ldst, vstart⟩
    have elements := elements (by rw [one_g]; exact room)
    refine ⟨fun i above below active => (elements i below).trans (if_pos ⟨above, active⟩),
      fun i below stays => (elements i below).trans (if_neg ?_)⟩
    rintro ⟨above, active⟩
    obtain under | inactive := stays
    · exact absurd above (Nat.not_le.mpr under)
    · exact Bool.false_ne_true (inactive.symm.trans active)

end Sys2Proof.Proofs
end

section
/-! SUPPORT. Strip-softmax: the blocks of a strip, the running values, and what `vsmx` leaves (R97, R190). -/

namespace Sys2Proof.Proofs

open Sys2Proof.Machine Sys2Proof.Laws Sys2Proof.Claims

/-! ## The blocks of a strip -/

section Blocks

variable {s : State} {a : Reg} {k : BitVec 3} {len : Nat}

theorem smxBlock_e_length (m t : Word) (y : List Word) : (smxBlock m t y).e.length = y.length := by
  simp [smxBlock]

theorem smxBlocks_length (n j : Nat) (m t : Word) : (smxBlocks s a k len n j m t).length = n := by
  induction n generalizing j m t with
  | zero => rfl
  | succ n ih => exact congrArg Nat.succ (ih _ _ _)

/-- Each block gives one exponential for each of its elements. -/
theorem smxBlocks_e_length (n j : Nat) (m t : Word) :
    ((smxBlocks s a k len n j m t).flatMap SmxBlock.e).length = n * len := by
  induction n generalizing j m t with
  | zero => exact (Nat.zero_mul len).symm
  | succ n ih =>
    rw [smxBlocks, List.flatMap_cons, List.length_append, ih, smxBlock_e_length, List.length_map, span, List.length_map,
      List.length_range, Nat.succ_mul, Nat.add_comm]

/-- As many groups as a division rounded up counts hold all that it divides. -/
theorem le_ceilDiv_mul {n m : Nat} (some : 0 < m) : n ≤ ceilDiv n m * m := by
  rw [ceilDiv, if_neg (by omega)]
  have cut := Nat.div_add_mod (n + m - 1) m
  have rest := Nat.mod_lt (n + m - 1) some
  rw [Nat.mul_comm] at cut
  omega

theorem smxHeld_eq (s : State) (n : Reg) : smxHeld s n = ((s.getF n).setWidth 32).setWidth 64 := by
  refine BitVec.eq_of_toNat_eq ?_
  rw [smxHeld, BitVec.toNat_ofNat, BitVec.toNat_setWidth, BitVec.toNat_setWidth]

end Blocks

/-! ## The running values -/

theorem getF_setF (s : State) (d r : Reg) (v : Word) : (s.setF d v).getF r = if r = d then v else s.getF r := by
  have written : (s.setF d v).getF r = (s.h.f.set d.toFin v)[r.toFin] := by
    simp only [State.setF, State.getF, State.setLdst, setH_h]
  rw [written, Fin.getElem_fin, Vector.getElem_set]
  simp only [Fin.val_inj, BitVec.toFin_inj, eq_comm (a := d)]
  rfl

/-- A write of an f register changes the f registers and `ldst` of the X-hart in focus, and nothing else. -/
theorem setF_xHart {s : State} (onX : s.xh = true) (d : Reg) (v : Word) :
    ∃ f l, s.setF d v = s.setX { s.x with h := { s.x.h with f := f, ldst := l } } := by
  have hart : s.h = s.x.h := if_pos onX
  refine ⟨s.x.h.f.set d.toFin v, 1#2 ++ d, ?_⟩
  simp only [State.setF, State.setLdst, setH_setH, setH_h, hart]
  exact if_pos onX

theorem smxRunning_xHart {s : State} (onX : s.xh = true) (n : Reg) (bs : List SmxBlock) :
    ∃ f l, smxRunning s n bs = s.setX { s.x with h := { s.x.h with f := f, ldst := l } } := by
  obtain ⟨f, l, first⟩ := setF_xHart onX n (boxed 32 ((bs.getLast?.map (·.m)).getD (smxHeld s n)))
  obtain ⟨g, m, second⟩ := setF_xHart (s := s.setX { s.x with h := { s.x.h with f := f, ldst := l } }) onX (n + 1)
    (boxed 32 ((bs.getLast?.map (·.sum)).getD (smxHeld s (n + 1))))
  refine ⟨g, m, ?_⟩
  rw [smxRunning, first, second, setX_x, setX_setX]

/-- f[n] and f[n + 1] take the running values, and every other f register stays. -/
theorem smxRunning_getF (s : State) (n : Reg) (bs : List SmxBlock) (r : Reg) : (smxRunning s n bs).getF r =
    if r = n + 1 then boxed 32 ((bs.getLast?.map (·.sum)).getD (smxHeld s (n + 1)))
    else if r = n then boxed 32 ((bs.getLast?.map (·.m)).getD (smxHeld s n)) else s.getF r := by
  rw [smxRunning, getF_setF, getF_setF]

/-! ## `vsmx` (R190) -/

/-- Registers of the destination: FP32 exponentials, or one register of corrections. -/
def vsmxDest (v : BitVec 2) (x : XHart) : Nat := if v = 0 then x.g (32 / x.w) else 1

/-- Check 7 of `vsmx`. -/
def vsmxOk (d a : Reg) (k : BitVec 3) (v : BitVec 2) (x : XHart) : Bool :=
  check7 x (9 ≤ x.fmt.toNat && x.fmt.toNat ≤ 11 && x.matched) [(d, vsmxDest v x), (a, x.g 1)] (k != 0#3) true
    [((d, vsmxDest v x), (a, x.g 1))]

/-- The blocks of the strip, from the running values that f[b] and f[b + 1] hold. -/
def stripBlocks (s : State) (a b : Reg) (k : BitVec 3) : List SmxBlock :=
  smxBlocks s a k (groupElems s.x.sew) (ceilDiv s.x.vl.toNat (groupElems s.x.sew)) 0 (smxHeld s b) (smxHeld s (b + 1))

section Vsmx

variable {s : State} {d a b : Reg} {k : BitVec 3}

theorem vsmx_wf {v : BitVec 2} (legal : v.toNat < 2) (running : b.toNat ≤ 30) : (Instr.vsmx d a b k v).wf = true := by
  simp [Instr.wf, running]
  omega

/-- A `vsmx` that starts at or past `vl` writes its running values back, in variant 0, and no element. -/
theorem execVsmx_empty {v : BitVec 2} (onX : s.xh = true) (legal : v.toNat < 2) (running : b.toNat ≤ 30)
    (ok : vsmxOk d a k v s.x = true) (none : s.x.vl ≤ s.x.vstart) :
    let u := if v = 0 then smxRunning s b [] else s
    exec (.vsmx d a b k v) s = .next ((closeVector u { x := u.x, fl := 0, sat := false } d).bump 4) := by
  have checked : execVsmx d a b k v s = _ := issueV_runs (ok := vsmxOk d a k v) onX (vsmx_wf legal running) ok
  exact checked.trans (if_pos none)

/-- The X-hart after the loop that writes the exponentials of the active elements. -/
def exponentials (s : State) (d a b : Reg) (k : BitVec 3) : XHart :=
  putAll (s.perWidth 32) 32 d.toNat Prod.snd (fun p => p.1.toNat)
    (((stripBlocks s a b k).flatMap SmxBlock.e).zipIdx.filter (fun p => p.2 < s.x.vl.toNat && s.x.active k p.2)) s.x

theorem execVsmx_exponentials (onX : s.xh = true) (running : b.toNat ≤ 30) (ok : vsmxOk d a k 0 s.x = true)
    (more : s.x.vstart < s.x.vl) :
    exec (.vsmx d a b k 0) s = .next ((closeVector (smxRunning s b (stripBlocks s a b k)) {
      x := { setProgress (zeroTail (exponentials s d a b k) (s.perWidth 32) 32 d.toNat (vsmxDest 0 s.x) s.x.vl.toNat)
          (s.perWidth 32) d.toNat (vsmxDest 0 s.x) s.x.vl.toNat with h := (smxRunning s b (stripBlocks s a b k)).x.h }
      fl := (stripBlocks s a b k).foldl (fun f t => f ||| t.fl) 0, sat := false } d).bump 4) := by
  have run : ¬ s.x.vl ≤ s.x.vstart := BitVec.not_le.mpr more
  have checked : execVsmx d a b k 0 s = _ := issueV_runs (ok := vsmxOk d a k 0) onX (vsmx_wf (by decide) running) ok
  rw [exponentials, putAll, List.foldl_filter]
  exact checked.trans (if_neg run)

/-- The X-hart after the loops that write the corrections of the blocks and zero the rest of the register. -/
def corrections (s : State) (d a b : Reg) (k : BitVec 3) : XHart :=
  let bs := stripBlocks s a b k
  let y := putAll (s.perWidth 32) 32 d.toNat Prod.snd (fun p => p.1.c.toNat) bs.zipIdx s.x
  if s.x.tail then
    putAll (s.perWidth 32) 32 d.toNat id (fun _ => 0) (span bs.length (s.perWidth 32 - bs.length)) y
  else y

theorem stripBlocks_length : (stripBlocks s a b k).length = ceilDiv s.x.vl.toNat (groupElems s.x.sew) :=
  smxBlocks_length _ _ _ _

theorem execVsmx_corrections (onX : s.xh = true) (running : b.toNat ≤ 30) (ok : vsmxOk d a k 1 s.x = true)
    (more : s.x.vstart < s.x.vl) :
    exec (.vsmx d a b k 1) s = .next ((closeVector s {
      x := setProgress (corrections s d a b k) s.x.vl.toNat d.toNat 1 s.x.vl.toNat
      fl := (stripBlocks s a b k).foldl (fun f t => f ||| t.fl) 0, sat := false } d).bump 4) := by
  have run : ¬ s.x.vl ≤ s.x.vstart := BitVec.not_le.mpr more
  have checked : execVsmx d a b k 1 s = _ := issueV_runs (ok := vsmxOk d a k 1) onX (vsmx_wf (by decide) running) ok
  rw [corrections, stripBlocks_length]
  exact checked.trans (if_neg run)

theorem stripBlocks_ne_nil (more : s.x.vstart < s.x.vl) : stripBlocks s a b k ≠ [] := by
  intro none
  have count := stripBlocks_length (s := s) (a := a) (b := b) (k := k)
  rw [none, List.length_nil] at count
  have all := le_ceilDiv_mul (n := s.x.vl.toNat) (groupElems_pos s.x.sew)
  rw [← count, Nat.zero_mul] at all
  have := BitVec.lt_def.mp more
  omega

/-- Each active element of the strip takes its exponential. -/
theorem exponentials_active (room : fits s d (vsmxDest 0 s.x) 32) {i : Nat} (below : i < s.x.vl.toNat)
    (active : s.x.active k i = true) : (exponentials s d a b k).elemN (s.perWidth 32) 32 d.toNat i =
      ((((stripBlocks s a b k).flatMap SmxBlock.e)[i]?).getD 0).toNat % 2 ^ 32 := by
  have count : ((stripBlocks s a b k).flatMap SmxBlock.e).length =
      ceilDiv s.x.vl.toNat (groupElems s.x.sew) * groupElems s.x.sew := smxBlocks_e_length _ _ _ _
  have covered : i < ((stripBlocks s a b k).flatMap SmxBlock.e).length :=
    Nat.lt_of_lt_of_le below (count ▸ le_ceilDiv_mul (groupElems_pos s.x.sew))
  have registers : ∀ j < ((stripBlocks s a b k).flatMap SmxBlock.e).length,
      (decide (j < s.x.vl.toNat) && s.x.active k j) = true → d.toNat + j / s.perWidth 32 < 32 := fun j _ admitted =>
    fits_register room (of_decide_eq_true (Bool.and_eq_true_iff.mp admitted).1)
  rw [List.getElem?_eq_getElem covered, Option.getD_some]
  exact elemN_putAll_zipIdx (fits_size room) (fits_full room below) (fits_register room below)
    (fun j => decide (j < s.x.vl.toNat) && s.x.active k j) s.x registers covered (by simp [below, active])

/-- `vsmx.e`: the exponentials of the active elements, and the running values. -/
theorem execVsmx_exponentials_spec (onX : s.xh = true) (running : b.toNat ≤ 30) (ok : vsmxOk d a k 0 s.x = true)
    (more : s.x.vstart < s.x.vl) (room : fits s d (vsmxDest 0 s.x) 32) :
    ∃ t : State, exec (.vsmx d a b k 0) s = .next (t.bump 4) ∧ t.x.h.ldst = 2#2 ++ d ∧
      t.x.h.fflags = s.x.h.fflags ||| (stripBlocks s a b k).foldl (fun f t => f ||| t.fl) 0 ∧
      (∀ i, i < s.x.vl.toNat → s.x.active k i = true → element t 32 d i =
        ((((stripBlocks s a b k).flatMap SmxBlock.e)[i]?).getD 0).toNat % 2 ^ 32) ∧
      ∀ r, t.getF r = (smxRunning s b (stripBlocks s a b k)).getF r := by
  obtain ⟨f, l, same⟩ := smxRunning_xHart onX b (stripBlocks s a b k)
  have runningX : (smxRunning s b (stripBlocks s a b k)).xh = true := by rw [same]; exact onX
  refine ⟨_, execVsmx_exponentials onX running ok more, closeVector_ldst runningX _ d, ?_, fun i below active => ?_,
    fun r => closeVector_getF runningX rfl d r⟩
  · rw [closeVector_fflags runningX, same, setX_x]
  · have width : (smxRunning s b (stripBlocks s a b k)).perWidth 32 = s.perWidth 32 := by rw [same]; rfl
    rw [closeVector_element runningX, width]
    refine (elemN_congr (setProgress_v _ _ _ _ _) _ _ _ _).trans ?_
    exact (elemN_zeroTail_before _ (fits_size room) (fits_full room below) (fits_inside room) (fits_register room below)
      below).trans (exponentials_active room below active)

theorem corrections_same : OnlyRegs s.x (corrections s d a b k) := by
  unfold corrections
  dsimp only
  split
  · exact (putAll_same _ _).trans (putAll_same _ _)
  · exact putAll_same _ _

/-- Each block gives its correction. -/
theorem corrections_block (lanes : 0 < s.core.team.w ∧ s.core.team.w ≤ 8)
    (room : (stripBlocks s a b k).length ≤ s.perWidth 32) {j : Nat} (inList : j < (stripBlocks s a b k).length) :
    (corrections s d a b k).elemN (s.perWidth 32) 32 d.toNat j = (stripBlocks s a b k)[j].c.toNat % 2 ^ 32 := by
  have size : s.perWidth 32 * 32 ≤ 65536 := perWidth_mul_le lanes.2 32
  have full : 0 < s.perWidth 32 := by omega
  have one : ∀ i < s.perWidth 32, d.toNat + i / s.perWidth 32 < 32 := fun i first => by
    rw [Nat.div_eq_of_lt first]
    exact d.isLt
  have hj := one j (by omega)
  have blocks : (putAll (s.perWidth 32) 32 d.toNat Prod.snd (fun p => p.1.c.toNat) (stripBlocks s a b k).zipIdx s.x).elemN
      (s.perWidth 32) 32 d.toNat j = (stripBlocks s a b k)[j].c.toNat % 2 ^ 32 := by
    have written := elemN_putAll_zipIdx (l := stripBlocks s a b k) (val := fun p => p.1.c.toNat) size full hj (fun _ => true) s.x
      (fun i inside _ => one i (by omega)) inList rfl
    rwa [List.filter_eq_self.mpr fun _ _ => rfl] at written
  unfold corrections
  dsimp only
  split
  · refine (elemN_putAll_other size full hj _ _ (fun i mem => one i ?_) (fun i mem => ?_)).trans blocks
    · have := mem_span.mp mem
      omega
    · obtain ⟨after, -⟩ := mem_span.mp mem
      exact Nat.ne_of_gt (Nat.lt_of_lt_of_le inList after)
  · exact blocks

/-- `vsmx.c`: the correction of each block. -/
theorem execVsmx_corrections_spec (onX : s.xh = true) (running : b.toNat ≤ 30) (ok : vsmxOk d a k 1 s.x = true)
    (more : s.x.vstart < s.x.vl) (lanes : 0 < s.core.team.w ∧ s.core.team.w ≤ 8)
    (room : (stripBlocks s a b k).length ≤ s.perWidth 32) :
    ∃ t : State, exec (.vsmx d a b k 1) s = .next (t.bump 4) ∧ t.x.h.ldst = 2#2 ++ d ∧
      t.x.h.fflags = s.x.h.fflags ||| (stripBlocks s a b k).foldl (fun f t => f ||| t.fl) 0 ∧
      (∀ j, (inList : j < (stripBlocks s a b k).length) →
        element t 32 d j = (stripBlocks s a b k)[j].c.toNat % 2 ^ 32) ∧
      ∀ r, t.getF r = s.getF r := by
  have hart : (setProgress (corrections s d a b k) s.x.vl.toNat d.toNat 1 s.x.vl.toNat).h = s.x.h :=
    (setProgress_h _ _ _ _ _).trans corrections_same.h
  refine ⟨_, execVsmx_corrections onX running ok more, closeVector_ldst onX _ d, ?_, fun j inList => ?_,
    fun r => closeVector_getF onX (congrArg Hart.f hart) d r⟩
  · rw [closeVector_fflags onX, hart]
  · rw [closeVector_element onX, elemN_congr (setProgress_v _ _ _ _ _)]
    exact corrections_block lanes room inList

/-- A `vsmx` of no element: `ldst`, and in variant 0 the running values as FP32. -/
theorem execVsmx_empty_spec {v : BitVec 2} (onX : s.xh = true) (legal : v.toNat < 2) (running : b.toNat ≤ 30)
    (ok : vsmxOk d a k v s.x = true) (none : s.x.vl ≤ s.x.vstart) :
    ∃ t : State, exec (.vsmx d a b k v) s = .next (t.bump 4) ∧ t.x.h.ldst = 2#2 ++ d ∧
      t.x.v = s.x.v ∧ t.x.prog = s.x.prog ∧ t.x.h.fflags = s.x.h.fflags ∧
      ∀ r, t.getF r = if v = 0 ∧ (r = b ∨ r = b + 1) then boxed 32 (smxHeld s r) else s.getF r := by
  have runs := execVsmx_empty onX legal running ok none
  by_cases exps : v = 0
  · obtain ⟨f, l, same⟩ := smxRunning_xHart onX b []
    have runningX : (smxRunning s b []).xh = true := by rw [same]; exact onX
    simp only [exps, if_true, true_and] at runs ⊢
    refine ⟨_, runs, closeVector_ldst runningX _ d, ?_, ?_, ?_, fun r => ?_⟩
    · rw [closeVector_v runningX, same, setX_x]
    · rw [closeVector_prog runningX, same, setX_x]
    · rw [closeVector_fflags runningX, same, setX_x]
      exact BitVec.or_zero
    · rw [closeVector_getF runningX rfl, smxRunning_getF]
      by_cases high : r = b + 1
      · subst high
        rw [if_pos rfl, if_pos (.inr rfl)]
        rfl
      · rw [if_neg high]
        by_cases low : r = b
        · subst low
          rw [if_pos rfl, if_pos (.inl rfl)]
          rfl
        · rw [if_neg low, if_neg (not_or.mpr ⟨low, high⟩)]
  · simp only [exps, if_false, false_and] at runs ⊢
    exact ⟨_, runs, closeVector_ldst onX _ d, closeVector_v onX _ d, closeVector_prog onX _ d,
      (closeVector_fflags onX _ d).trans BitVec.or_zero, fun r => closeVector_getF onX rfl d r⟩

end Vsmx

theorem vsmx_variants {v : BitVec 2} (legal : v.toNat < 2) : v = 0 ∨ v = 1 := by
  revert v
  decide

/-! ## The statement -/

/-- Settles O28: an empty strip, the exponentials and the corrections, each by the lemma above that says what it leaves. -/
theorem stripSoftmax : Obligations.StripSoftmax := by
  unfold Obligations.StripSoftmax
  intro s d a b k v onX legal running
  simp only [← smxHeld_eq]
  intro ok
  refine ⟨execVsmx_empty_spec onX legal running ok, fun more room lanes => ?_⟩
  obtain rfl | rfl := vsmx_variants legal
  · obtain ⟨t, runs, ldst, flags, elements, floats⟩ := execVsmx_exponentials_spec onX running ok more (room rfl)
    refine ⟨t, runs, ldst, flags, fun _ => ⟨elements, fun r => ?_⟩, fun other => absurd other (by decide)⟩
    have last := List.getLast?_eq_some_getLast (stripBlocks_ne_nil (a := a) (b := b) (k := k) more)
    rw [floats, smxRunning_getF, last]
    change _ = match (stripBlocks s a b k).getLast? with
      | none => _
      | some l => _
    rw [last]
    rfl
  · obtain ⟨some, most, count⟩ := lanes rfl
    obtain ⟨t, runs, ldst, flags, elements, floats⟩ := execVsmx_corrections_spec onX running ok more ⟨some, most⟩
      (stripBlocks_length ▸ count)
    exact ⟨t, runs, ldst, flags, fun other => absurd other (by decide), fun _ => ⟨elements, floats⟩⟩

end Sys2Proof.Proofs
end
